-- ==== Sys2Proof/Word.lean ====
section
/-! DEFINITION. The word types of the Felior J4 (R3, R27) and their plainest arithmetic. -/

namespace Sys2Proof

/-- One byte of memory (R305: a location). -/
abbrev Byte := BitVec 8

/-- A 64-bit register (R101). -/
abbrev Word := BitVec 64

/-- A scalar instruction word, a code offset or another 32-bit field (R74). -/
abbrev Word32 := BitVec 32

/-- A Boolean as a 64-bit 0 or 1. -/
def Word.ofBool (b : Bool) : Word := if b then 1#64 else 0#64

/-- A Boolean as the natural number 0 or 1. -/
def boolNat (b : Bool) : Nat := if b then 1 else 0

end Sys2Proof
end

