-- ==== Sys2Proof/Names.lean ====
section
/-! DEFINITION. The names that operations and events carry: scopes, types, rounding modes, operands, registers,
agents (R81 to R91, R102). -/

namespace Sys2Proof

/-- Scopes, narrowest first (R5, R81). -/
inductive Scope where
  | grp | core | clu | dm | dev | sys
  deriving DecidableEq, Repr

/-- The sixteen codes of the TYPE field (R88). -/
inductive Ty where
  | n8 | n16 | n32 | n64 | s8 | s16 | s32 | s64
  | f64 | f32 | f16 | bf16 | e4m3 | e5m2 | g4 | mx
  deriving DecidableEq, Repr

/-- Rounding modes (R5, R32, R33). -/
inductive Rm where
  | rn | rz | rd | ru | rs
  deriving DecidableEq, Repr

/-- Element kinds of an MX block (R90). -/
inductive Mxk where
  | e4m3 | e5m2 | e3m2 | e2m3 | e2m1 | int8
  deriving DecidableEq, Repr

/-- Comparisons of `setp` (R89). -/
inductive Cmp where
  | eq | ne | lt | le | gt | ge | num | nan
  deriving DecidableEq, Repr

/-- Operations of `red` and `scan` (R89). -/
inductive Rop where
  | add | min | max | and | or | xor
  deriving DecidableEq, Repr

/-- Vote kinds (R89). -/
inductive Vk where
  | all | any | uni
  deriving DecidableEq, Repr

/-- Atomic operations (R81, R236). -/
inductive Aop where
  | add | cas | swp | min | max | and | or | xor
  deriving DecidableEq, Repr

/-- Cache hints (R91); they never change a value (R225). -/
inductive Hint where
  | default | streaming | keep | bypass | nonTemporal
  deriving DecidableEq, Repr

/-- A guard (R84): always passes, or passes when its predicate, inverted when `neg`, is true. -/
inductive Guard where
  | always
  | on (neg : Bool) (p : Fin 12)
  deriving DecidableEq, Repr

/-- Codes that a value source accepts (R85, R87, kind V). -/
inductive Src where
  | v (n : BitVec 8)      -- v0 to v255
  | o (n : BitVec 3)      -- o0 to o7
  | l (n : BitVec 1)      -- l0, l1
  | ic (n : BitVec 6)     -- integer constant, signed
  | fc (n : BitVec 4)     -- floating-point constant of R86
  | k (n : BitVec 4)      -- k0 to k15
  | lane | simm | zero
  deriving DecidableEq, Repr

/-- Codes that a destination accepts (R87, kind D). -/
inductive Dst where
  | v (n : BitVec 8)
  | o (n : BitVec 3)
  deriving DecidableEq, Repr

/-- Codes that a uniform position accepts (R87, kind U). -/
inductive Uni where
  | k (n : BitVec 4)
  | simm
  deriving DecidableEq, Repr

/-- What every lane instruction carries besides its operands: the two guards (R84) and the IMM field (R90). -/
structure Lc where
  g0 : Guard
  g1 : Guard
  imm : BitVec 13
  deriving DecidableEq, Repr

/-- The system registers of R102. -/
inductive SysReg where
  | gid | ngrp | blk | vcx | vcy | tenant | mode | pcore | vstep | dmask | argb | rodataBase | dataBase | l2pBase
  | aoc | dcyc | corePresent (die : BitVec 2) | gkey | gctr | tcode | tpc | taddr | taux
  deriving DecidableEq, Repr

/-- A group, named by the number of its block and its index in it. -/
structure GroupRef where
  blk : Nat
  gid : Nat
  deriving DecidableEq, Repr

/-- Where a physical address lies (R204, TGT): local HBM4E, host memory, or a peer device. -/
inductive Space where
  | hbm
  | host
  | peer (dev : BitVec 10)
  deriving DecidableEq, Repr

/-- A physical address. -/
structure PAddr where
  space : Space
  addr : Nat
  deriving DecidableEq, Repr

/-- Why a waiting `wmon` returns (R297). -/
inductive WakeCause where
  | monitoredWrite | eviction | interrupt | timeout | spurious
  deriving DecidableEq, Repr

/-- Hardware errors that kill a group as a machine check or a mirror mismatch (R131, R355). -/
inductive HwError where
  | mirrorMismatch (stream : Option Bool)   -- a second mismatch, of the scalar stream or of the path in a slot
  | registerFile                   -- uncorrectable error in register files, scalar state or saved anchor state
  deriving DecidableEq, Repr

/-- Where an ECC error lies (R195): in memory, in the scratchpad of a block, in its full/empty bits, in the version table's entry of a
page, or in the register files of a group. -/
inductive ErrPlace where
  | mem (p : PAddr)
  | scratch (blk off : Nat)
  | fullBits (blk granule : Nat)
  | versionEntry (page : Nat)
  | registers (g : GroupRef)
  deriving DecidableEq, Repr

/-- An ECC error, with whether it has been corrected (R195). -/
structure EccError where
  place : ErrPlace
  corrected : Bool
  deriving DecidableEq, Repr

/-- A die that has become too hot, or has cooled (R378). -/
structure DieHeat where
  die : BitVec 2
  hot : Bool
  deriving DecidableEq, Repr

/-- What a requester asks of a line's home: a shared copy, an exclusive copy, or to take the line back (R209). -/
inductive LineReq where
  | read | exclusive | giveUp
  deriving DecidableEq, Repr

/-- Who asks for a pre-emption (R57, R359). -/
inductive PreemptBy where
  | launch (uid : Nat)                       -- a PRE launch that has waited for room
  | controller (victim : Nat) (core : Nat)   -- the management controllers: one launch on one physical core
  deriving DecidableEq, Repr

/-- An access of a peer that reaches this device (R330): `tenant` is the tenant whose memory it reaches. -/
inductive PeerOp where
  | read (n : Nat)
  | write (bytes : List Byte)
  | atomic (t : Ty) (op : Aop) (v c : Word)
  | arrival (units : BitVec 16)              -- the write message of a posted arrival
  deriving DecidableEq, Repr

/-- How a peer refuses an access of this device (R330): its protection, or its version table with the code of R218 (R219). -/
inductive PeerRefusal where
  | protection
  | version (code : BitVec 3)
  deriving DecidableEq, Repr

/-- Where a write from outside goes (R213, R373, R376): of the host through CXL.mem, of the host to its own memory, or of a
management controller to device memory. -/
inductive HostTarget where
  | cxlMem (addr : Nat) | ownMemory (addr : Nat)
  | controller (i : BitVec 2) (addr : Nat)
  deriving DecidableEq, Repr

/-- A register that `registerWrite` writes: one of the tenant control page, the management view or PF0 by its offset (R47, R371,
R377), or by its name (R330, R376); `MB_CMD` with a command that R372 does not list (the listed ones are operations of their
own); the always-on counter before any tenant exists (R339), and one range of the region map (R373). -/
inductive RegName where
  | control (tenant offset : Nat) | view (tenant offset : Nat) | pf0 (offset : Nat)
  | lqBase (tenant queue : Nat) | ocImg (tenant : Nat) | ocDst (tenant : Nat) | ocDsize (tenant : Nat)
  | l2pBase (tenant : Nat) | fqBase (tenant : Nat) | fqPtr (tenant : Nat) | cqBase (tenant : Nat) | cqPtr (tenant : Nat)
  | wdCtl (tenant : Nat) | vxStep (tenant : Nat) | mbArg0 (tenant : Nat) | mbArg1 (tenant : Nat)
  | mbCmd (tenant : Nat)
  | twBase (tenant : Nat) | twSize (tenant : Nat) | pwrCeil | clkCeil | linkEn
  | mcw (i : BitVec 2) (size : Bool) | uaId | aoc | region (tenant host size device : Nat)
  deriving DecidableEq, Repr

/-- What the host, a tenant or a management controller reads: device memory through CXL.mem or within a controller's window, a
register of a tenant's control page or management view, PF0's diagnostics, or a register of PF0 by its offset or by its name
(R47, R371, R373, R375 to R377). -/
inductive HostItem where
  | mem (addr : Nat)
  | controller (i : BitVec 2) (addr : Nat)
  | control (tenant offset : Nat)
  | view (tenant offset : Nat)
  | stStat | errorLog | harvestMap
  | pf0 (offset : Nat)
  | register (r : RegName)
  deriving DecidableEq, Repr

end Sys2Proof
end

