-- ==== Sys2Proof/Syntax.lean ====
section
/-! DEFINITION. The operations of the Felior J4: one constructor of `Instr` for each row of
spec/opcode_table.json (scalar instructions of R79 to R82, lane instructions of R92 to R98, and the events that
spec/95_what_each_step_holds.md lists as steps of the part). -/

namespace Sys2Proof

/-- One operation of the part. Scalar words hold register numbers of six bits (R78); lane words hold the typed
operands of R87; events hold what the outside world or the schedule fixes. -/
inductive Instr where
  -- integer register operations (R80, R133)
  | add (d a b : BitVec 6) | sub (d a b : BitVec 6) | mul (d a b : BitVec 6) | mulh (d a b : BitVec 6)
  | mulhn (d a b : BitVec 6) | and (d a b : BitVec 6) | or (d a b : BitVec 6) | xor (d a b : BitVec 6)
  | shl (d a b : BitVec 6) | shr (d a b : BitVec 6) | sar (d a b : BitVec 6) | rot (d a b : BitVec 6)
  | min (d a b : BitVec 6) | max (d a b : BitVec 6) | minn (d a b : BitVec 6) | maxn (d a b : BitVec 6)
  | clz (d a : BitVec 6) | popc (d a : BitVec 6)
  | seq (d a b : BitVec 6) | sne (d a b : BitVec 6) | slt (d a b : BitVec 6) | sltn (d a b : BitVec 6)
  -- immediates and constants (R134, R135)
  | addi (d a : BitVec 6) (imm : BitVec 13) | andi (d a : BitVec 6) (imm : BitVec 13)
  | ori (d a : BitVec 6) (imm : BitVec 13) | xori (d a : BitVec 6) (imm : BitVec 13)
  | shli (d a : BitVec 6) (sh : BitVec 6) | shri (d a : BitVec 6) (sh : BitVec 6) | sari (d a : BitVec 6) (sh : BitVec 6)
  | slti (d a : BitVec 6) (imm : BitVec 13) | sltni (d a : BitVec 6) (imm : BitVec 13)
  | li (d : BitVec 6) (imm : BitVec 19) | lih (d : BitVec 6) (imm : BitVec 19)
  -- branches and calls (R136 to R138)
  | br (off : BitVec 25) | call (off : BitVec 25) | jr (a : BitVec 6) | ret
  | bz (a : BitVec 6) (off : BitVec 13) | bnz (a : BitVec 6) (off : BitVec 13)
  | blt (a b : BitVec 6) (off : BitVec 13) | bge (a b : BitVec 6) (off : BitVec 13)
  | bltn (a b : BitVec 6) (off : BitVec 13) | bgen (a b : BitVec 6) (off : BitVec 13)
  | loop (a : BitVec 6) (off : BitVec 13)
  -- lane interface (R139)
  | lrun (imm : BitVec 19) | lframe (n : BitVec 4) (a : BitVec 6) | qpop (d : BitVec 6) | qcount (d : BitVec 6)
  -- scalar loads and stores (R141)
  | ld8 (d a : BitVec 6) (imm : BitVec 13) | ld16 (d a : BitVec 6) (imm : BitVec 13)
  | ld32 (d a : BitVec 6) (imm : BitVec 13) | ld64 (d a : BitVec 6) (imm : BitVec 13)
  | lds8 (d a : BitVec 6) (imm : BitVec 13) | lds16 (d a : BitVec 6) (imm : BitVec 13)
  | lds32 (d a : BitVec 6) (imm : BitVec 13)
  | st8 (b a : BitVec 6) (off : BitVec 13) | st16 (b a : BitVec 6) (off : BitVec 13)
  | st32 (b a : BitVec 6) (off : BitVec 13) | st64 (b a : BitVec 6) (off : BitVec 13)
  -- scalar atomics (R143): `w` selects 64 bits
  | aadd (w : Bool) (s : Scope) (d a b : BitVec 6) | acas (w : Bool) (s : Scope) (d a b : BitVec 6)
  | aswp (w : Bool) (s : Scope) (d a b : BitVec 6) | amin (w : Bool) (s : Scope) (d a b : BitVec 6)
  | amax (w : Bool) (s : Scope) (d a b : BitVec 6) | aand (w : Bool) (s : Scope) (d a b : BitVec 6)
  | aor (w : Bool) (s : Scope) (d a b : BitVec 6) | axor (w : Bool) (s : Scope) (d a b : BitVec 6)
  -- fences, die mask (R145, R146)
  | fence (s : Scope) | setdm (a : BitVec 6)
  -- phasers (R289)
  | preg (a b : BitVec 6) | pdrop (a : BitVec 6) | parr (a : BitVec 6) | pwait (a b : BitVec 6) | ptest (d a b : BitVec 6)
  -- running the group, monitors, transactions (R147, R148, R296 to R300)
  | yield | rgn | mon (a : BitVec 6) | wmon (a b : BitVec 6) | xclose | xabort (a : BitVec 6) | xopen (off : BitVec 25)
  -- descriptors, copy engine, matrix engine, array, versions, collectives, launch
  | tdesc (t a : BitVec 6) | tinv (t : BitVec 6)
  | kick (a b : BitVec 6) | kwait (a : BitVec 6) | kwaitNb (d a : BitVec 6)
  | mload (a b : BitVec 6) | mloadSh (a b : BitVec 6) | mswap | mloop (a b : BitVec 6) | mwait
  | gbload (a b : BitVec 6) | gbclamp (a b : BitVec 6) | gbsweep (a : BitVec 6) | gbread (a b : BitVec 6)
  | gbstat (d a : BitVec 6)
  | vpub (a b : BitVec 6) | vret (a : BitVec 6) | vstep (a : BitVec 6) | coll (a : BitVec 6) | launch (d a : BitVec 6)
  -- system registers, generator, traps (R150, R152, R153)
  | srd (d : BitVec 6) (r : SysReg) | swr (r : SysReg) (a : BitVec 6) | rseed (a b : BitVec 6)
  | trap (code : BitVec 13) | brk (code : BitVec 13) | nop | done
  -- packed integer lane instructions (R93, R162)
  | laneAdd (c : Lc) (t : Ty) (sat : Bool) (d : Dst) (a b : Src)
  | laneSub (c : Lc) (t : Ty) (sat : Bool) (d : Dst) (a b : Src)
  | laneMul (c : Lc) (t : Ty) (sat : Bool) (d : Dst) (a b : Src)
  | mad (c : Lc) (t : Ty) (sat : Bool) (d : Dst) (a b e : Src)
  | laneMulh (c : Lc) (t : Ty) (d : Dst) (a b : Src)
  | laneAbs (c : Lc) (t : Ty) (sat : Bool) (d : Dst) (a : Src)
  | laneNeg (c : Lc) (t : Ty) (sat : Bool) (d : Dst) (a : Src)
  | laneMin (c : Lc) (t : Ty) (d : Dst) (a b : Src) | laneMax (c : Lc) (t : Ty) (d : Dst) (a b : Src)
  | laneAnd (c : Lc) (t : Ty) (d : Dst) (a b : Src) | laneOr (c : Lc) (t : Ty) (d : Dst) (a b : Src)
  | laneXor (c : Lc) (t : Ty) (d : Dst) (a b : Src) | not (c : Lc) (t : Ty) (d : Dst) (a : Src)
  | laneShl (c : Lc) (t : Ty) (d : Dst) (a b : Src) | laneShr (c : Lc) (t : Ty) (d : Dst) (a b : Src)
  | laneSar (c : Lc) (t : Ty) (d : Dst) (a b : Src) | laneRot (c : Lc) (t : Ty) (d : Dst) (a b : Src)
  | laneClz (c : Lc) (t : Ty) (d : Dst) (a : Src) | lanePopc (c : Lc) (t : Ty) (d : Dst) (a : Src)
  | bfe (c : Lc) (t : Ty) (d : Dst) (a b e : Src) | bfi (c : Lc) (t : Ty) (d : Dst) (a b e f : Src)
  | prmt (c : Lc) (t : Ty) (d : Dst) (a b e : Src) | rshRn (c : Lc) (t : Ty) (d : Dst) (a b : Src)
  | mac2 (c : Lc) (d : Dst) (a b e : Src) | mac4 (c : Lc) (d : Dst) (a b e : Src)
  -- floating point (R94, R169 to R171)
  | fpAdd (c : Lc) (t : Ty) (rm : Rm) (d : Dst) (a b : Src) | fpSub (c : Lc) (t : Ty) (rm : Rm) (d : Dst) (a b : Src)
  | fpMul (c : Lc) (t : Ty) (rm : Rm) (d : Dst) (a b : Src) | fma (c : Lc) (t : Ty) (rm : Rm) (d : Dst) (a b e : Src)
  | fpMin (c : Lc) (t : Ty) (d : Dst) (a b : Src) | fpMax (c : Lc) (t : Ty) (d : Dst) (a b : Src)
  | fpAbs (c : Lc) (t : Ty) (d : Dst) (a : Src) | fpNeg (c : Lc) (t : Ty) (d : Dst) (a : Src)
  | div (c : Lc) (t : Ty) (rm : Rm) (d : Dst) (a b : Src) | sqrt (c : Lc) (t : Ty) (rm : Rm) (d : Dst) (a : Src)
  | rcp (c : Lc) (t : Ty) (rm : Rm) (d : Dst) (a : Src) | rsqrt (c : Lc) (t : Ty) (rm : Rm) (d : Dst) (a : Src)
  | exp2 (c : Lc) (t : Ty) (rm : Rm) (d : Dst) (a : Src) | lg2 (c : Lc) (t : Ty) (rm : Rm) (d : Dst) (a : Src)
  | sin (c : Lc) (t : Ty) (rm : Rm) (d : Dst) (a : Src) | cos (c : Lc) (t : Ty) (rm : Rm) (d : Dst) (a : Src)
  -- conversion, predicates, status (R95, R159, R173 to R181); `k` is MXK, used when either type is MX
  | cvt (c : Lc) (dt st : Ty) (k : Mxk) (rm : Rm) (sat : Bool) (d : Dst) (a : Src)
  | setp (c : Lc) (t : Ty) (cmp : Cmp) (d : Fin 12) (a b : Src)
  | plop (c : Lc) (lut : BitVec 4) (d a b : Fin 12)
  | sel (c : Lc) (t : Ty) (d : Dst) (a b : Src) (p : Fin 12)
  | lst (c : Lc) (d : Dst) | lclr (c : Lc) (a : Src)
  -- cross-lane exchange and draws (R96, R182 to R193)
  | shfl (c : Lc) (t : Ty) (d : Dst) (a i : Src)
  | slideUp (c : Lc) (t : Ty) (d : Dst) (a s f : Src) | slideDn (c : Lc) (t : Ty) (d : Dst) (a s f : Src)
  | bcast (c : Lc) (t : Ty) (d : Dst) (a i : Src)
  | red (c : Lc) (t : Ty) (op : Rop) (d : Dst) (a : Src)
  | scan (c : Lc) (t : Ty) (op : Rop) (ex : Bool) (d : Dst) (a : Src)
  | maxi (c : Lc) (t : Ty) (d ix : Dst) (a : Src) | mini (c : Lc) (t : Ty) (d ix : Dst) (a : Src)
  | ballot (c : Lc) (d : Dst) (a : Fin 12) | vote (c : Lc) (k : Vk) (d a : Fin 12) | elect (c : Lc) (d : Fin 12)
  | push (c : Lc) (a : Src) | rnd (c : Lc) (t : Ty) (d : Dst)
  -- memory (R97, R226 to R236)
  | ldG (c : Lc) (h : Hint) (t : Ty) (d : Dst) (a : Src) | stG (c : Lc) (h : Hint) (t : Ty) (a b : Src)
  | ldSp (c : Lc) (t : Ty) (d : Dst) (a : Src) | stSp (c : Lc) (t : Ty) (a b : Src)
  | ldFe (c : Lc) (t : Ty) (clr : Bool) (d : Dst) (a : Src) | stFe (c : Lc) (t : Ty) (a b : Src)
  | ldV (c : Lc) (h : Hint) (t : Ty) (d : Dst) (a q : Src)
  | ldT (c : Lc) (h : Hint) (t : Ty) (d : Dst) (tid : Uni) (vc : BitVec 8)
  | ldMx (c : Lc) (h : Hint) (k : Mxk) (d : Dst) (a : Src) (sc : Dst)
  | stMx (c : Lc) (h : Hint) (k : Mxk) (a b sc : Src)
  | pf (c : Lc) (h : Hint) (a : Src)
  | atom (c : Lc) (h : Hint) (t : Ty) (op : Aop) (s : Scope) (d : Dst) (a b : Src) (cmp : Option Src)
  | redAt (c : Lc) (h : Hint) (t : Ty) (op : Aop) (s : Scope) (a b : Src)
  -- traversal, lane control, barriers (R98)
  | traceT (c : Lc) (d r : BitVec 8) (tid : Uni) | traceV (c : Lc) (d r : BitVec 8) (tidM tidD : Uni)
  | tex (c : Lc) (t : Ty) (d : Dst) (tid : Uni) (vc : BitVec 8)
  | bra (tgt : BitVec 20) | braDiv (p : Fin 12) (tgt : BitVec 20) (join : BitVec 13) | join | lend
  | barArr (c : Lc) (a b : Src) | barWait (imm : BitVec 13) (d : Fin 12) (a : Src)
  -- events: releases of waits and scheduling (files 06, 11, 12, 15)
  | feWaitSatisfied (g : GroupRef) (slot : Bool) | phaserRelease (g : GroupRef) (path : Option Bool)
  | kwaitRelease (g : GroupRef) | monitorWake (g : GroupRef) (cause : WakeCause) | drain (g : GroupRef)
  | queueRoom (g : GroupRef) (path : Option Bool) | mwaitComplete (g : GroupRef) | planePairFree (g : GroupRef)
  | coroutineSwitch (blk : Nat) | pathSelect (g : GroupRef)
  -- events: interruption (files 07, 15, 18)
  | deferredTrapTaken (g : GroupRef) | takeTrap (g : GroupRef) (hw : Option HwError)
  | parkResponse (g : GroupRef) (resp : Word32) | txAbort (g : GroupRef) | watchdog (g : GroupRef)
  | closingWindow (g : GroupRef) | preemptRequest (by_ : PreemptBy) | preempt (g : GroupRef)
  | resume (g : GroupRef) (core : Nat)
  -- events: launching and retiring (files 03, 19)
  | lqDb (tenant queue : Nat) (v : Word) | lqCtl (tenant queue : Nat) (v : Word)
  | ocLoad (tenant : Nat) | ocUnload (tenant : Nat) (handle : BitVec 16)
  | recordRead (tenant queue : Nat) | launchAdmit (uid : Nat) | blockDispatch (part : Nat)
  | blockRetire (blk : Nat) | launchRetire (uid : Nat) | completionPost (tenant : Nat) | faultRecordPost (tenant : Nat)
  -- events: engines (files 12 to 15, 17)
  | copyRecord (kick : Nat) | planeLoad (g : GroupRef) | planeSwap (g : GroupRef)
  | loopStep (g : GroupRef) (residue : List Nat) | traversalResult (g : GroupRef) (id : Nat)
  | sweepRun (cmd : Nat) | stateWrite (cmd : Nat) | arrivalUpdate (id : Nat) | poisonedArrivalRetry (id : Nat)
  | copyOnWrite (page : Nat) | poolPageReturn (tenant page : Nat)
  | haloExchange (cmd : Nat) | allReduce (cmd : Nat) (members : List (List Byte))
  | collectiveFailure (cmd : Nat) (status : BitVec 3)
  -- events: memory system, peers, host (files 10, 17, 19)
  | homeRetry (line : Nat) (reqs : List (Nat × LineReq)) (busy : Bool)
  | ownershipRequest (page : PAddr) (dev : BitVec 10)
  | peerAccess (tenant addr : Nat) (op : PeerOp) | hostWrite (addr : HostTarget) (bytes : List Byte)
  | hostRead (item : HostItem) (n : Nat)
  | peerRecoveryStart (dev : BitVec 10) | peerRecoveryEnd (dev : BitVec 10) | peerLost (dev : BitVec 10)
  | memoryError (at_ : EccError)
  -- events: management (files 03, 10, 14, 17, 19)
  | mbSetRoot (tenant : Nat) (asid : BitVec 16) | mbBumpGen (tenant : Nat) | mbSetPool (tenant : Nat)
  | mbSetLease (tenant : Nat) | mbHostCoherent (tenant : Nat) | mbHostPlain (tenant : Nat)
  | fqCtl (tenant : Nat) (completion : Bool) (v : Word) | registerWrite (r : RegName) (v : Word)
  | reset (failures : BitVec 16) | bootLock | powerSample (watts : Nat) | overTemperature (on : DieHeat)
  | aocSlew (add : Bool) | cxlCacheSnoop (line : Nat) (invalidate : Bool) | laneFailure
  | partitionConfigure (division : Nat) (bind : List Nat) | tenantCreate (tenant : Nat)
  deriving DecidableEq, Repr

end Sys2Proof
end

