-- ==== Sys2Proof/WellFormed.lean ====
section
/-! DEFINITION. When a term of `Instr` stands for an encoding that the device executes (R84 to R98, R173): types,
modifiers, operand kinds, destinations and the IMM field. Checks that need the group (v registers beyond 8·VREGS,
R87) are made when the instruction issues. -/

namespace Sys2Proof

/-- Sub-element width of a type in bits (R27); block formats are held in 64-bit code forms. -/
def Ty.width : Ty → Nat
  | .n8 | .s8 | .e4m3 | .e5m2 => 8
  | .n16 | .s16 | .f16 | .bf16 => 16
  | .n32 | .s32 | .f32 => 32
  | .n64 | .s64 | .f64 | .g4 | .mx => 64

/-- Set I of R88. -/
def Ty.isInt : Ty → Bool
  | .n8 | .n16 | .n32 | .n64 | .s8 | .s16 | .s32 | .s64 => true
  | _ => false

/-- Set S of R88. -/
def Ty.isSigned : Ty → Bool
  | .s8 | .s16 | .s32 | .s64 => true
  | _ => false

/-- Set F of R88. -/
def Ty.isF : Ty → Bool
  | .f64 | .f32 | .f16 | .bf16 => true
  | _ => false

/-- Floating-point element types that registers hold: F, e4m3 and e5m2. -/
def Ty.isFloat : Ty → Bool
  | .e4m3 | .e5m2 => true
  | t => t.isF

/-- Set N of R88. -/
def Ty.isN (t : Ty) : Bool := t.isInt || t.isFloat

/-- Types of `atom` and `red.at` (R97). -/
def Ty.isAtomic : Ty → Bool
  | .n32 | .n64 | .s32 | .s64 | .f32 | .f64 => true
  | _ => false

/-- The unsigned type of the same width, the format of index and distance positions (R182). -/
def Ty.unsigned : Ty → Ty
  | .n8 | .s8 | .e4m3 | .e5m2 => .n8
  | .n16 | .s16 | .f16 | .bf16 => .n16
  | .n32 | .s32 | .f32 => .n32
  | _ => .n64

/-- Kind V of R87: which codes a value position of format `t` accepts; `free` says that IMM is marked free. -/
def Src.accepts (t : Ty) (free : Bool) : Src → Bool
  | .v _ | .o _ | .l _ | .k _ | .zero => true
  | .ic _ | .lane => t.isInt
  | .fc n => t.isFloat && !(t = .e4m3 && (n = 10#4 || n = 11#4))
  | .simm => free && t.isInt

/-- Whether an operand reads the IMM field. -/
def Src.isSimm : Src → Bool
  | .simm => true
  | _ => false

def Uni.isSimm : Uni → Bool
  | .simm => true
  | _ => false

/-- A register group of `n` registers (R87, kind G): the base is a multiple of `align`, and the group lies below v256. -/
def groupOk (base : BitVec 8) (n align : Nat) : Bool := base.toNat % align == 0 && base.toNat + n ≤ 256

/-- IMM in the free layout (R90): zero unless an operand is `simm`. -/
def Lc.freeOk (c : Lc) (simm : Bool) : Bool := simm || c.imm = 0#13

/-- IMM carried by typed operands or absent: the field is zero in the term. -/
def Lc.noImm (c : Lc) : Bool := c.imm = 0#13

/-- The pairs and modifiers that `cvt` lists (R173). -/
def cvtListed (dt st : Ty) (rm : Rm) (sat : Bool) : Bool :=
  if dt.isInt && st.isInt then dt ≠ st && rm = .rn
  else if dt.isFloat && st.isInt then true
  else if dt.isFloat && st.isFloat then dt ≠ st
  else if dt.isInt && st.isFloat then !sat
  else if dt.isF && (st = .g4 || st = .mx) then true
  else if (dt = .mx || dt = .g4) && st.isF then (rm = .rn || rm = .rs) && !sat
  else false

/-- Operations that `red`, `scan` list for a type (R89). -/
def Rop.okFor (op : Rop) (t : Ty) : Bool :=
  match op with
  | .add | .min | .max => t.isInt || t.isF
  | .and | .or | .xor => t.isInt

/-- Operations that `atom` and `red.at` list for a type (R97, R236). -/
def Aop.okFor (op : Aop) (t : Ty) : Bool :=
  t.isAtomic && (t.isInt || op = .add || op = .min || op = .max)

/-- Comparisons that `setp` lists for a type (R89). -/
def Cmp.okFor (cmp : Cmp) (t : Ty) : Bool :=
  t.isN && (t.isFloat || !(cmp = .num || cmp = .nan))

namespace Instr

/-- Kind checks of an instruction whose value operands all have format `t`, with IMM free. -/
def valsOk (c : Lc) (t : Ty) (l : List Src) : Bool :=
  l.all (Src.accepts t true) && c.freeOk (l.any Src.isSimm)

/-- An address operand with the OFS layout: format n64, IMM not free. -/
def addrOk (a : Src) : Bool := a.accepts .n64 false

/-- Whether the term is one that the device executes. Scalar words and events hold only values in range. The address position
of `bar.wait` has the format n64, as in `bar.arr`: R294 does not say it (log 41, DEDUCED). The scale position S2 of `st.mx` has the
format of its TYPE, MX, so that an integer constant or `lane` there is `TRAP_OPERAND`: R221, R222 and R234 name none for R87 (log 59,
DESIGN CHOICE). -/
def wf : Instr → Bool
  | .laneAdd c t _ _ a b | .laneSub c t _ _ a b | .laneMul c t _ _ a b => t.isInt && valsOk c t [a, b]
  | .mad c t _ _ a b e => t.isInt && valsOk c t [a, b, e]
  | .laneMulh c t _ a b | .laneMin c t _ a b | .laneMax c t _ a b | .laneAnd c t _ a b | .laneOr c t _ a b
  | .laneXor c t _ a b | .laneShl c t _ a b | .laneShr c t _ a b | .laneRot c t _ a b | .rshRn c t _ a b =>
      t.isInt && valsOk c t [a, b]
  | .laneSar c t _ a b => t.isSigned && valsOk c t [a, b]
  | .laneAbs c t _ _ a | .laneNeg c t _ _ a => t.isSigned && valsOk c t [a]
  | .not c t _ a | .laneClz c t _ a | .lanePopc c t _ a => t.isInt && valsOk c t [a]
  | .bfe c t _ a b e => t.isInt && valsOk c t [a, b, e]
  | .bfi c t _ a b e f => t.isInt && valsOk c t [a, b, e, f]
  | .prmt c t _ a b e => (t = .n32 || t = .n64) && valsOk c t [a, b, e]
  | .mac2 c _ a b e => valsOkMac c .s16 a b e
  | .mac4 c _ a b e => valsOkMac c .s8 a b e
  | .fpAdd c t _ _ a b | .fpSub c t _ _ a b | .fpMul c t _ _ a b => t.isF && valsOk c t [a, b]
  | .fma c t _ _ a b e => t.isF && valsOk c t [a, b, e]
  | .fpMin c t _ a b | .fpMax c t _ a b => t.isF && valsOk c t [a, b]
  | .fpAbs c t _ a | .fpNeg c t _ a => t.isF && valsOk c t [a]
  | .div c t rm _ a b => t.isF && rm ≠ .rs && valsOk c t [a, b]
  | .sqrt c t rm _ a | .rcp c t rm _ a | .rsqrt c t rm _ a | .exp2 c t rm _ a | .lg2 c t rm _ a | .sin c t rm _ a
  | .cos c t rm _ a => t.isF && rm ≠ .rs && valsOk c t [a]
  | .cvt c dt st k rm sat _ a =>
      cvtListed dt st rm sat && c.noImm && a.accepts st false && (dt = .mx || st = .mx || k = .e4m3)
  | .setp c t cmp _ a b => cmp.okFor t && valsOk c t [a, b]
  | .plop c _ _ _ _ => c.noImm
  | .sel c t _ a b _ => t ≠ .mx && valsOk c t [a, b]
  | .lst c _ => c.noImm
  | .lclr c a => valsOk c .n16 [a]
  | .shfl c t _ a i | .bcast c t _ a i =>
      t.isN && a.accepts t true && i.accepts t.unsigned true && c.freeOk (a.isSimm || i.isSimm)
  | .slideUp c t _ a s f | .slideDn c t _ a s f =>
      t.isN && a.accepts t true && s.accepts t.unsigned true && f.accepts t true
        && c.freeOk (a.isSimm || s.isSimm || f.isSimm)
  | .red c t op _ a | .scan c t op _ _ a => op.okFor t && valsOk c t [a]
  | .maxi c t d ix a | .mini c t d ix a => (t.isInt || t.isF) && d ≠ ix && valsOk c t [a]
  | .ballot c _ _ | .vote c _ _ _ | .elect c _ => c.noImm
  | .push c a => valsOk c .n64 [a]
  | .rnd c t _ => (t = .n32 || t = .n64 || t = .f32 || t = .f64) && c.noImm
  | .ldG _ _ t _ a | .ldSp _ t _ a | .ldFe _ t _ _ a => t.isN && addrOk a
  | .stG _ _ t a b | .stSp _ t a b | .stFe _ t a b => t.isN && addrOk a && b.accepts t false
  | .ldV _ _ t _ a q => t.isN && addrOk a && q.accepts .n32 false
  | .ldT c _ _ _ tid vc => groupOk vc 3 4 && c.freeOk tid.isSimm
  | .ldMx c _ _ d a sc => c.noImm && addrOk a && d ≠ sc
  | .stMx c _ _ a b sc => c.noImm && addrOk a && b.accepts .mx false && sc.accepts .mx false
  | .pf _ _ a => addrOk a
  | .atom c _ t op _ _ a b cmp =>
      op.okFor t && c.noImm && addrOk a && b.accepts t false && cmp.isSome = (op = .cas)
        && (match cmp with | some e => e.accepts t false | none => true)
  | .redAt c _ t op _ a b => op.okFor t && op ≠ .cas && c.noImm && addrOk a && b.accepts t false
  | .traceT c d r tid => groupOk d 8 8 && groupOk r 8 8 && c.freeOk tid.isSimm
  | .traceV c d r m e => groupOk d 8 8 && groupOk r 8 8 && c.freeOk (m.isSimm || e.isSimm)
  | .tex c t _ tid vc => t.isF && groupOk vc 2 2 && c.freeOk tid.isSimm
  | .barArr c a b => a.accepts .n64 true && b.accepts .n16 true && c.freeOk (a.isSimm || b.isSimm)
  | .barWait imm _ a => a.accepts .n64 true && (a.isSimm || imm = 0#13)
  | _ => true
where
  /-- Kind checks of `mac2` and `mac4`: narrow sources and an s32 accumulator (R168). -/
  valsOkMac (c : Lc) (t : Ty) (a b e : Src) : Bool :=
    a.accepts t true && b.accepts t true && e.accepts .s32 true && c.freeOk (a.isSimm || b.isSimm || e.isSimm)

end Instr

end Sys2Proof
end

