-- ==== Sys2Proof/Decode.lean ====
section
/-! DEFINITION. The decoder of both code sections (R74 to R102), total on any bits and rejecting by name, and the
encoder written from the same tables. -/

namespace Sys2Proof

/-- Why a word is not executed (R99): not an instruction, or an operand its kind does not accept. -/
inductive Reject where
  | illegal
  | operand
  deriving DecidableEq, Repr

/-- What decoding a word answers. -/
inductive Decoded where
  | instr (i : Instr)
  | reject (r : Reject)
  deriving DecidableEq, Repr

/-! Codes of the small fields. -/

def Scope.code : Scope → BitVec 3
  | .grp => 0 | .core => 1 | .clu => 2 | .dm => 3 | .dev => 4 | .sys => 5

def Scope.ofCode (b : BitVec 3) : Option Scope :=
  match b.toNat with
  | 0 => some .grp | 1 => some .core | 2 => some .clu | 3 => some .dm | 4 => some .dev | 5 => some .sys
  | _ => none

def Ty.code : Ty → BitVec 4
  | .n8 => 0 | .n16 => 1 | .n32 => 2 | .n64 => 3 | .s8 => 4 | .s16 => 5 | .s32 => 6 | .s64 => 7
  | .f64 => 8 | .f32 => 9 | .f16 => 10 | .bf16 => 11 | .e4m3 => 12 | .e5m2 => 13 | .g4 => 14 | .mx => 15

def Ty.ofCode (b : BitVec 4) : Ty :=
  match b.toNat with
  | 0 => .n8 | 1 => .n16 | 2 => .n32 | 3 => .n64 | 4 => .s8 | 5 => .s16 | 6 => .s32 | 7 => .s64
  | 8 => .f64 | 9 => .f32 | 10 => .f16 | 11 => .bf16 | 12 => .e4m3 | 13 => .e5m2 | 14 => .g4 | _ => .mx

def Rm.code : Rm → BitVec 3
  | .rn => 0 | .rz => 1 | .rd => 2 | .ru => 3 | .rs => 4

def Rm.ofCode (b : BitVec 3) : Option Rm :=
  match b.toNat with
  | 0 => some .rn | 1 => some .rz | 2 => some .rd | 3 => some .ru | 4 => some .rs | _ => none

def Mxk.code : Mxk → BitVec 3
  | .e4m3 => 0 | .e5m2 => 1 | .e3m2 => 2 | .e2m3 => 3 | .e2m1 => 4 | .int8 => 5

def Mxk.ofCode (b : BitVec 3) : Option Mxk :=
  match b.toNat with
  | 0 => some .e4m3 | 1 => some .e5m2 | 2 => some .e3m2 | 3 => some .e2m3 | 4 => some .e2m1 | 5 => some .int8
  | _ => none

def Cmp.code : Cmp → BitVec 4
  | .eq => 0 | .ne => 1 | .lt => 2 | .le => 3 | .gt => 4 | .ge => 5 | .num => 6 | .nan => 7

def Cmp.ofCode (b : BitVec 4) : Option Cmp :=
  match b.toNat with
  | 0 => some .eq | 1 => some .ne | 2 => some .lt | 3 => some .le | 4 => some .gt | 5 => some .ge | 6 => some .num
  | 7 => some .nan | _ => none

def Rop.code : Rop → BitVec 3
  | .add => 0 | .min => 1 | .max => 2 | .and => 3 | .or => 4 | .xor => 5

def Rop.ofCode (b : BitVec 3) : Option Rop :=
  match b.toNat with
  | 0 => some .add | 1 => some .min | 2 => some .max | 3 => some .and | 4 => some .or | 5 => some .xor | _ => none

def Vk.code : Vk → BitVec 2
  | .all => 0 | .any => 1 | .uni => 2

def Vk.ofCode (b : BitVec 2) : Option Vk :=
  match b.toNat with
  | 0 => some .all | 1 => some .any | 2 => some .uni | _ => none

def Aop.code : Aop → BitVec 3
  | .add => 0 | .cas => 1 | .swp => 2 | .min => 3 | .max => 4 | .and => 5 | .or => 6 | .xor => 7

def Aop.ofCode (b : BitVec 3) : Aop :=
  match b.toNat with
  | 0 => .add | 1 => .cas | 2 => .swp | 3 => .min | 4 => .max | 5 => .and | 6 => .or | _ => .xor

def Hint.code : Hint → BitVec 3
  | .default => 0 | .streaming => 1 | .keep => 2 | .bypass => 3 | .nonTemporal => 4

def Hint.ofCode (b : BitVec 3) : Option Hint :=
  match b.toNat with
  | 0 => some .default | 1 => some .streaming | 2 => some .keep | 3 => some .bypass | 4 => some .nonTemporal
  | _ => none

/-- The 12-bit numbers of R102. -/
def SysReg.code : SysReg → BitVec 12
  | .gid => 0x000 | .ngrp => 0x001 | .blk => 0x002 | .vcx => 0x003 | .vcy => 0x004 | .tenant => 0x005
  | .mode => 0x006 | .pcore => 0x007 | .vstep => 0x010 | .dmask => 0x011 | .argb => 0x018
  | .rodataBase => 0x019 | .dataBase => 0x01A | .l2pBase => 0x01B | .aoc => 0x020 | .dcyc => 0x021
  | .corePresent d => 0b0000001100#10 ++ d | .gkey => 0x040 | .gctr => 0x041
  | .tcode => 0x080 | .tpc => 0x081 | .taddr => 0x082 | .taux => 0x083

def SysReg.ofCode (b : BitVec 12) : Option SysReg :=
  match b.toNat with
  | 0x000 => some .gid | 0x001 => some .ngrp | 0x002 => some .blk | 0x003 => some .vcx | 0x004 => some .vcy
  | 0x005 => some .tenant | 0x006 => some .mode | 0x007 => some .pcore | 0x010 => some .vstep | 0x011 => some .dmask
  | 0x018 => some .argb | 0x019 => some .rodataBase | 0x01A => some .dataBase | 0x01B => some .l2pBase
  | 0x020 => some .aoc | 0x021 => some .dcyc
  | 0x030 => some (.corePresent 0) | 0x031 => some (.corePresent 1) | 0x032 => some (.corePresent 2)
  | 0x033 => some (.corePresent 3) | 0x040 => some .gkey | 0x041 => some .gctr
  | 0x080 => some .tcode | 0x081 => some .tpc | 0x082 => some .taddr | 0x083 => some .taux
  | _ => none

/-- A predicate index of four bits, 0 to 11 (R84). -/
def predOfCode (b : BitVec 4) : Option (Fin 12) :=
  if h : b.toNat < 12 then some ⟨b.toNat, h⟩ else none

/-- A guard field (R84): negate, index; index 12 without negate always passes. -/
def Guard.code : Guard → BitVec 5
  | .always => 0b01100
  | .on neg p => BitVec.ofBool neg ++ BitVec.ofNat 4 p.val

def Guard.ofCode (b : BitVec 5) : Option Guard :=
  if b = 0b01100#5 then some .always
  else (predOfCode (b.extractLsb' 0 4)).map (Guard.on (b.getLsbD 4))

/-! Operand codes (R85): a 2-bit selector and an 8-bit index. -/

def Src.code : Src → BitVec 10
  | .v n => 0b00#2 ++ n
  | .o n => 0b0100000#7 ++ n
  | .l n => 0b010000100#9 ++ n
  | .ic n => 0b0101#4 ++ n
  | .fc n => 0b011000#6 ++ n
  | .k n => 0b100000#6 ++ n
  | .lane => 0x300
  | .simm => 0x301
  | .zero => 0x302

def Src.ofCode (b : BitVec 10) : Option Src :=
  if b.extractLsb' 8 2 = 0b00#2 then some (.v (b.extractLsb' 0 8))
  else if b.extractLsb' 3 7 = 0b0100000#7 then some (.o (b.extractLsb' 0 3))
  else if b.extractLsb' 1 9 = 0b010000100#9 then some (.l (b.extractLsb' 0 1))
  else if b.extractLsb' 6 4 = 0b0101#4 then some (.ic (b.extractLsb' 0 6))
  else if b.extractLsb' 4 6 = 0b011000#6 then some (.fc (b.extractLsb' 0 4))
  else if b.extractLsb' 4 6 = 0b100000#6 then some (.k (b.extractLsb' 0 4))
  else if b = 0x300#10 then some .lane
  else if b = 0x301#10 then some .simm
  else if b = 0x302#10 then some .zero
  else none

def Dst.code : Dst → BitVec 10
  | .v n => 0b00#2 ++ n
  | .o n => 0b0100000#7 ++ n

def Dst.ofCode (b : BitVec 10) : Option Dst :=
  if b.extractLsb' 8 2 = 0b00#2 then some (.v (b.extractLsb' 0 8))
  else if b.extractLsb' 3 7 = 0b0100000#7 then some (.o (b.extractLsb' 0 3))
  else none

def predCode (p : Fin 12) : BitVec 10 := 0b110001#6 ++ BitVec.ofNat 4 p.val

def predOfOperand (b : BitVec 10) : Option (Fin 12) :=
  if b.extractLsb' 4 6 = 0b110001#6 then predOfCode (b.extractLsb' 0 4) else none

def Uni.code : Uni → BitVec 10
  | .k n => 0b100000#6 ++ n
  | .simm => 0x301

def Uni.ofCode (b : BitVec 10) : Option Uni :=
  if b.extractLsb' 4 6 = 0b100000#6 then some (.k (b.extractLsb' 0 4))
  else if b = 0x301#10 then some .simm
  else none

/-- A register group (R87): its base register. -/
def groupOfCode (b : BitVec 10) : Option (BitVec 8) :=
  if b.extractLsb' 8 2 = 0b00#2 then some (b.extractLsb' 0 8) else none

/-! Scalar words (R77 to R82). -/

/-- The fields of a scalar word in format SR; SI, SX, SU and SJ join neighbouring fields (R77). -/
structure ScalarFields where
  fn : BitVec 7
  b : BitVec 6
  a : BitVec 6
  d : BitVec 6
  op : BitVec 7
  deriving DecidableEq, Repr

namespace ScalarFields

def ofWord (w : Word32) : ScalarFields :=
  { fn := w.extractLsb' 25 7, b := w.extractLsb' 19 6, a := w.extractLsb' 13 6, d := w.extractLsb' 7 6,
    op := w.extractLsb' 0 7 }

def toWord (f : ScalarFields) : Word32 := f.fn ++ f.b ++ f.a ++ f.d ++ f.op

/-- IMM13 of format SI. -/
def imm13 (f : ScalarFields) : BitVec 13 := f.fn ++ f.b

/-- OFF of format SX: {[31:25], [12:7]}. -/
def off13 (f : ScalarFields) : BitVec 13 := f.fn ++ f.d

/-- IMM19 of format SU. -/
def imm19 (f : ScalarFields) : BitVec 19 := f.fn ++ f.b ++ f.a

/-- OFF25 of format SJ. -/
def off25 (f : ScalarFields) : BitVec 25 := f.fn ++ f.b ++ f.a ++ f.d

def sr (op fn : Nat) (d a b : BitVec 6) : ScalarFields :=
  { fn := BitVec.ofNat 7 fn, b := b, a := a, d := d, op := BitVec.ofNat 7 op }

def si (op : Nat) (d a : BitVec 6) (imm : BitVec 13) : ScalarFields :=
  { fn := imm.extractLsb' 6 7, b := imm.extractLsb' 0 6, a := a, d := d, op := BitVec.ofNat 7 op }

def sx (op : Nat) (a b : BitVec 6) (off : BitVec 13) : ScalarFields :=
  { fn := off.extractLsb' 6 7, b := b, a := a, d := off.extractLsb' 0 6, op := BitVec.ofNat 7 op }

def su (op : Nat) (d : BitVec 6) (imm : BitVec 19) : ScalarFields :=
  { fn := imm.extractLsb' 12 7, b := imm.extractLsb' 6 6, a := imm.extractLsb' 0 6, d := d, op := BitVec.ofNat 7 op }

def sj (op : Nat) (off : BitVec 25) : ScalarFields :=
  { fn := off.extractLsb' 18 7, b := off.extractLsb' 12 6, a := off.extractLsb' 6 6, d := off.extractLsb' 0 6,
    op := BitVec.ofNat 7 op }

end ScalarFields

def Decoded.illegal : Decoded := .reject .illegal

/-- The instruction, when the fields it leaves unused are zero (R78, R99). -/
def Decoded.need (zero : Bool) (i : Instr) : Decoded := if zero then .instr i else .illegal

/-- Major 0x01 (R80). -/
def decodeInt (f : ScalarFields) : Decoded :=
  match f.fn.toNat with
  | 0x0 => .instr (.add f.d f.a f.b)
  | 0x1 => .instr (.sub f.d f.a f.b)
  | 0x2 => .instr (.mul f.d f.a f.b)
  | 0x3 => .instr (.mulh f.d f.a f.b)
  | 0x4 => .instr (.mulhn f.d f.a f.b)
  | 0x5 => .instr (.and f.d f.a f.b)
  | 0x6 => .instr (.or f.d f.a f.b)
  | 0x7 => .instr (.xor f.d f.a f.b)
  | 0x8 => .instr (.shl f.d f.a f.b)
  | 0x9 => .instr (.shr f.d f.a f.b)
  | 0xa => .instr (.sar f.d f.a f.b)
  | 0xb => .instr (.rot f.d f.a f.b)
  | 0xc => .instr (.min f.d f.a f.b)
  | 0xd => .instr (.max f.d f.a f.b)
  | 0xe => .instr (.minn f.d f.a f.b)
  | 0xf => .instr (.maxn f.d f.a f.b)
  | 0x18 => .instr (.seq f.d f.a f.b)
  | 0x19 => .instr (.sne f.d f.a f.b)
  | 0x1a => .instr (.slt f.d f.a f.b)
  | 0x1b => .instr (.sltn f.d f.a f.b)
  | 0x10 => .need (f.b = 0#6) (.clz f.d f.a)
  | 0x11 => .need (f.b = 0#6) (.popc f.d f.a)
  | _ => .illegal

/-- Major 0x1A (R137). -/
def decodeJump (f : ScalarFields) : Decoded :=
  match f.fn.toNat with
  | 0 => .need (f.d = 0#6 && f.b = 0#6) (.jr f.a)
  | 1 => .need (f.d = 0#6 && f.a = 0#6 && f.b = 0#6) (.ret)
  | _ => .illegal

/-- Major 0x29 (R139); a frame index of 16 or more is an operand misuse (R99),
inside a transaction too (log 53, DESIGN CHOICE). -/
def decodeLaneIf (f : ScalarFields) : Decoded :=
  match f.fn.toNat with
  | 0 => if f.b ≠ 0#6 then .illegal
         else if f.d.toNat < 16 then .instr (.lframe (f.d.extractLsb' 0 4) f.a) else .reject .operand
  | 1 => .need (f.a = 0#6 && f.b = 0#6) (.qpop f.d)
  | 2 => .need (f.a = 0#6 && f.b = 0#6) (.qcount f.d)
  | _ => .illegal

/-- Major 0x3C (R81, R143): W, SCOPE and AOP split FN. -/
def decodeAtomic (f : ScalarFields) : Decoded :=
  match Scope.ofCode (f.fn.extractLsb' 3 3) with
  | none => .illegal
  | some s =>
    let w := f.fn.getLsbD 6
    match Aop.ofCode (f.fn.extractLsb' 0 3) with
    | .add => .instr (.aadd w s f.d f.a f.b)
    | .cas => .instr (.acas w s f.d f.a f.b)
    | .swp => .instr (.aswp w s f.d f.a f.b)
    | .min => .instr (.amin w s f.d f.a f.b)
    | .max => .instr (.amax w s f.d f.a f.b)
    | .and => .instr (.aand w s f.d f.a f.b)
    | .or => .instr (.aor w s f.d f.a f.b)
    | .xor => .instr (.axor w s f.d f.a f.b)

/-- Major 0x3D (R81, R145, R146): KIND in FN [6:3], SCOPE in FN [2:0]. -/
def decodeFence (f : ScalarFields) : Decoded :=
  match (f.fn.extractLsb' 3 4).toNat with
  | 0 => match Scope.ofCode (f.fn.extractLsb' 0 3) with
    | some s => .need (f.d = 0#6 && f.a = 0#6 && f.b = 0#6) (.fence s)
    | none => .illegal
  | 1 => .need (f.fn.extractLsb' 0 3 = 0#3 && f.d = 0#6 && f.b = 0#6) (.setdm f.a)
  | _ => .illegal

/-- Major 0x3E (R82, R289). -/
def decodePhaser (f : ScalarFields) : Decoded :=
  match f.fn.toNat with
  | 0 => .need (f.d = 0#6) (.preg f.a f.b)
  | 1 => .need (f.d = 0#6 && f.b = 0#6) (.pdrop f.a)
  | 2 => .need (f.d = 0#6 && f.b = 0#6) (.parr f.a)
  | 3 => .need (f.d = 0#6) (.pwait f.a f.b)
  | 4 => .instr (.ptest f.d f.a f.b)
  | _ => .illegal

/-- Major 0x3F (R82). -/
def decodeGroup (f : ScalarFields) : Decoded :=
  match f.fn.toNat with
  | 0 => .need (f.d = 0#6 && f.a = 0#6 && f.b = 0#6) (.yield)
  | 1 => .need (f.d = 0#6 && f.a = 0#6 && f.b = 0#6) (.rgn)
  | 2 => .need (f.d = 0#6 && f.b = 0#6) (.mon f.a)
  | 3 => .need (f.d = 0#6) (.wmon f.a f.b)
  | 4 => .need (f.d = 0#6 && f.a = 0#6 && f.b = 0#6) (.xclose)
  | 5 => .need (f.d = 0#6 && f.b = 0#6) (.xabort f.a)
  | _ => .illegal

/-- Major 0x41 (R82, R240). -/
def decodeDesc (f : ScalarFields) : Decoded :=
  match f.fn.toNat with
  | 0 => .need (f.b = 0#6) (.tdesc f.d f.a)
  | 1 => .need (f.a = 0#6 && f.b = 0#6) (.tinv f.d)
  | _ => .illegal

/-- Major 0x42 (R82, R243, R248). -/
def decodeCopy (f : ScalarFields) : Decoded :=
  match f.fn.toNat with
  | 0 => .need (f.d = 0#6) (.kick f.a f.b)
  | 1 => .need (f.d = 0#6 && f.b = 0#6) (.kwait f.a)
  | 2 => .need (f.b = 0#6) (.kwaitNb f.d f.a)
  | _ => .illegal

/-- Major 0x43 (R82, R251). -/
def decodeMatrix (f : ScalarFields) : Decoded :=
  match f.fn.toNat with
  | 0 => .need (f.d = 0#6) (.mload f.a f.b)
  | 1 => .need (f.d = 0#6) (.mloadSh f.a f.b)
  | 2 => .need (f.d = 0#6 && f.a = 0#6 && f.b = 0#6) (.mswap)
  | 3 => .need (f.d = 0#6) (.mloop f.a f.b)
  | 4 => .need (f.d = 0#6 && f.a = 0#6 && f.b = 0#6) (.mwait)
  | _ => .illegal

/-- Major 0x44 (R82, R281). -/
def decodeArray (f : ScalarFields) : Decoded :=
  match f.fn.toNat with
  | 0 => .need (f.d = 0#6) (.gbload f.a f.b)
  | 1 => .need (f.d = 0#6) (.gbclamp f.a f.b)
  | 2 => .need (f.d = 0#6 && f.b = 0#6) (.gbsweep f.a)
  | 3 => .need (f.d = 0#6) (.gbread f.a f.b)
  | 4 => .need (f.b = 0#6) (.gbstat f.d f.a)
  | _ => .illegal

/-- Major 0x45 (R82, R323). -/
def decodeVersion (f : ScalarFields) : Decoded :=
  match f.fn.toNat with
  | 0 => .need (f.d = 0#6) (.vpub f.a f.b)
  | 1 => .need (f.d = 0#6 && f.b = 0#6) (.vret f.a)
  | 2 => .need (f.d = 0#6 && f.b = 0#6) (.vstep f.a)
  | _ => .illegal

/-- Major 0x46 (R82, R333). -/
def decodeColl (f : ScalarFields) : Decoded :=
  match f.fn.toNat with
  | 0 => .need (f.d = 0#6 && f.b = 0#6) (.coll f.a)
  | _ => .illegal

/-- Major 0x47 (R82, R151). -/
def decodeLaunch (f : ScalarFields) : Decoded :=
  match f.fn.toNat with
  | 0 => .need (f.b = 0#6) (.launch f.d f.a)
  | _ => .illegal

/-- Major 0x4A (R82, R153). -/
def decodeSeed (f : ScalarFields) : Decoded :=
  match f.fn.toNat with
  | 0 => .need (f.d = 0#6) (.rseed f.a f.b)
  | _ => .illegal

/-- Major 0x4E (R82). -/
def decodeNop (f : ScalarFields) : Decoded :=
  match f.fn.toNat with
  | 0 => .need (f.d = 0#6 && f.a = 0#6 && f.b = 0#6) (.nop)
  | _ => .illegal

/-- Major 0x4F (R82). -/
def decodeDone (f : ScalarFields) : Decoded :=
  match f.fn.toNat with
  | 0 => .need (f.d = 0#6 && f.a = 0#6 && f.b = 0#6) (.done)
  | _ => .illegal

/-- The system register number in [30:19] with bit 31 zero (R79, R102). -/
def ScalarFields.sysNumber (f : ScalarFields) : BitVec 12 := f.fn.extractLsb' 0 6 ++ f.b

/-- Majors 0x48 and 0x49 (R152): an unassigned number is an operand misuse (R99), inside a transaction
too (log 53, DESIGN CHOICE). -/
def decodeSys (write : Bool) (f : ScalarFields) : Decoded :=
  if f.fn.getLsbD 6 || (if write then f.d else f.a) ≠ 0#6 then .illegal
  else match SysReg.ofCode f.sysNumber with
    | none => .reject .operand
    | some r => .instr (if write then .swr r f.a else .srd f.d r)

/-- The scalar opcode map (R79). -/
def decodeScalarFields (f : ScalarFields) : Decoded :=
  match f.op.toNat with
  | 0x01 => decodeInt f
  | 0x04 => .instr (.addi f.d f.a f.imm13)
  | 0x05 => .instr (.andi f.d f.a f.imm13)
  | 0x06 => .instr (.ori f.d f.a f.imm13)
  | 0x07 => .instr (.xori f.d f.a f.imm13)
  | 0x08 => .need (f.fn = 0#7) (.shli f.d f.a f.b)
  | 0x09 => .need (f.fn = 0#7) (.shri f.d f.a f.b)
  | 0x0a => .need (f.fn = 0#7) (.sari f.d f.a f.b)
  | 0x0b => .instr (.slti f.d f.a f.imm13)
  | 0x0c => .instr (.sltni f.d f.a f.imm13)
  | 0x10 => .instr (.li f.d f.imm19)
  | 0x11 => .instr (.lih f.d f.imm19)
  | 0x18 => .instr (.br f.off25)
  | 0x19 => .instr (.call f.off25)
  | 0x1a => decodeJump f
  | 0x1b => .need (f.b = 0#6) (.bz f.a f.off13)
  | 0x1c => .need (f.b = 0#6) (.bnz f.a f.off13)
  | 0x1d => .instr (.blt f.a f.b f.off13)
  | 0x1e => .instr (.bge f.a f.b f.off13)
  | 0x1f => .instr (.bltn f.a f.b f.off13)
  | 0x20 => .instr (.bgen f.a f.b f.off13)
  | 0x21 => .need (f.b = 0#6) (.loop f.a f.off13)
  | 0x28 => .need (f.d = 0#6) (.lrun f.imm19)
  | 0x29 => decodeLaneIf f
  | 0x30 => .instr (.ld8 f.d f.a f.imm13)
  | 0x31 => .instr (.ld16 f.d f.a f.imm13)
  | 0x32 => .instr (.ld32 f.d f.a f.imm13)
  | 0x33 => .instr (.ld64 f.d f.a f.imm13)
  | 0x34 => .instr (.lds8 f.d f.a f.imm13)
  | 0x35 => .instr (.lds16 f.d f.a f.imm13)
  | 0x36 => .instr (.lds32 f.d f.a f.imm13)
  | 0x38 => .instr (.st8 f.b f.a f.off13)
  | 0x39 => .instr (.st16 f.b f.a f.off13)
  | 0x3a => .instr (.st32 f.b f.a f.off13)
  | 0x3b => .instr (.st64 f.b f.a f.off13)
  | 0x3c => decodeAtomic f
  | 0x3d => decodeFence f
  | 0x3e => decodePhaser f
  | 0x3f => decodeGroup f
  | 0x40 => .instr (.xopen f.off25)
  | 0x41 => decodeDesc f
  | 0x42 => decodeCopy f
  | 0x43 => decodeMatrix f
  | 0x44 => decodeArray f
  | 0x45 => decodeVersion f
  | 0x46 => decodeColl f
  | 0x47 => decodeLaunch f
  | 0x48 => decodeSys false f
  | 0x49 => decodeSys true f
  | 0x4a => decodeSeed f
  | 0x4c => .need (f.a = 0#6 && f.d = 0#6) (.trap f.imm13)
  | 0x4d => .need (f.a = 0#6 && f.d = 0#6) (.brk f.imm13)
  | 0x4e => decodeNop f
  | 0x4f => decodeDone f
  | _ => .illegal

/-- Decodes a scalar word. -/
def decodeScalar (w : Word32) : Decoded := decodeScalarFields (ScalarFields.ofWord w)

/-! Lane words (R83 to R98). -/

/-- The fields of a lane instruction (R83). -/
structure LaneFields where
  imm : BitVec 13
  hint : BitVec 3
  s3 : BitVec 10
  s2 : BitVec 10
  s1 : BitVec 10
  s0 : BitVec 10
  dst : BitVec 10
  g1 : BitVec 5
  g0 : BitVec 5
  ty : BitVec 4
  mod : BitVec 6
  opc : BitVec 10
  deriving DecidableEq, Repr

namespace LaneFields

def ofWord (w : BitVec 96) : LaneFields :=
  { imm := w.extractLsb' 83 13, hint := w.extractLsb' 80 3, s3 := w.extractLsb' 70 10, s2 := w.extractLsb' 60 10,
    s1 := w.extractLsb' 50 10, s0 := w.extractLsb' 40 10, dst := w.extractLsb' 30 10, g1 := w.extractLsb' 25 5,
    g0 := w.extractLsb' 20 5, ty := w.extractLsb' 16 4, mod := w.extractLsb' 10 6, opc := w.extractLsb' 0 10 }

def toWord (f : LaneFields) : BitVec 96 :=
  f.imm ++ f.hint ++ f.s3 ++ f.s2 ++ f.s1 ++ f.s0 ++ f.dst ++ f.g1 ++ f.g0 ++ f.ty ++ f.mod ++ f.opc

/-- The type that TYPE codes. -/
def t (f : LaneFields) : Ty := Ty.ofCode f.ty

end LaneFields

/-- MOD layouts (R89). -/
inductive ModLayout where
  | zero | sat | rm | rm4 | cv | cmp | lut | rop (exOk : Bool) | vk | clr | at (red : Bool)
  deriving DecidableEq, Repr

/-- IMM layouts (R90). `none` stands for the layouts that hold zero. -/
inductive ImmLayout where
  | free | ofs | cvi | mxi | tgt | tgtZero | none
  deriving DecidableEq, Repr

/-- One row of the class tables (R93 to R98): the types listed, the used operand fields, MOD, IMM and HINT. -/
structure LaneRow where
  types : Ty → Bool
  dst : Bool
  s0 : Bool
  s1 : Bool
  s2 : Bool
  s3 : Bool
  mod : ModLayout
  imm : ImmLayout
  hint : Bool := false
  guarded : Bool := true

/-- Instructions that take no type have TYPE = 0 (R88). -/
def Ty.isNone (t : Ty) : Bool := t = .n8

def Ty.anyTy (_ : Ty) : Bool := true

/-- A row without HINT whose guards are allowed. -/
def plainRow (types : Ty → Bool) (dst s0 s1 s2 s3 : Bool) (mod : ModLayout) (imm : ImmLayout) : Option LaneRow :=
  some { types, dst, s0, s1, s2, s3, mod, imm }

/-- Class 0 (R93). -/
def laneRow0 (opc : Nat) : Option LaneRow :=
  match opc with
  | 0x001 => plainRow Ty.isInt true true true false false .sat .free
  | 0x002 => plainRow Ty.isInt true true true false false .sat .free
  | 0x003 => plainRow Ty.isInt true true true false false .sat .free
  | 0x004 => plainRow Ty.isInt true true true true false .sat .free
  | 0x005 => plainRow Ty.isInt true true true false false .zero .free
  | 0x006 => plainRow Ty.isSigned true true false false false .sat .free
  | 0x007 => plainRow Ty.isSigned true true false false false .sat .free
  | 0x008 => plainRow Ty.isInt true true true false false .zero .free
  | 0x009 => plainRow Ty.isInt true true true false false .zero .free
  | 0x00a => plainRow Ty.isInt true true true false false .zero .free
  | 0x00b => plainRow Ty.isInt true true true false false .zero .free
  | 0x00c => plainRow Ty.isInt true true true false false .zero .free
  | 0x00d => plainRow Ty.isInt true true false false false .zero .free
  | 0x00e => plainRow Ty.isInt true true true false false .zero .free
  | 0x00f => plainRow Ty.isInt true true true false false .zero .free
  | 0x010 => plainRow Ty.isSigned true true true false false .zero .free
  | 0x011 => plainRow Ty.isInt true true true false false .zero .free
  | 0x012 => plainRow Ty.isInt true true false false false .zero .free
  | 0x013 => plainRow Ty.isInt true true false false false .zero .free
  | 0x014 => plainRow Ty.isInt true true true true false .zero .free
  | 0x015 => plainRow Ty.isInt true true true true true .zero .free
  | 0x016 => plainRow (fun t => t = .n32 || t = .n64) true true true true false .zero .free
  | 0x017 => plainRow Ty.isInt true true true false false .zero .free
  | 0x018 => plainRow (fun t => t = .s16) true true true true false .zero .free
  | 0x019 => plainRow (fun t => t = .s8) true true true true false .zero .free
  | _ => none

/-- Class 1 (R94). -/
def laneRow1 (opc : Nat) : Option LaneRow :=
  match opc with
  | 0x081 => plainRow Ty.isF true true true false false .rm .free
  | 0x082 => plainRow Ty.isF true true true false false .rm .free
  | 0x083 => plainRow Ty.isF true true true false false .rm .free
  | 0x084 => plainRow Ty.isF true true true true false .rm .free
  | 0x085 => plainRow Ty.isF true true true false false .zero .free
  | 0x086 => plainRow Ty.isF true true true false false .zero .free
  | 0x087 => plainRow Ty.isF true true false false false .zero .free
  | 0x088 => plainRow Ty.isF true true false false false .zero .free
  | 0x089 => plainRow Ty.isF true true true false false .rm4 .free
  | 0x08a => plainRow Ty.isF true true false false false .rm4 .free
  | 0x08b => plainRow Ty.isF true true false false false .rm4 .free
  | 0x08c => plainRow Ty.isF true true false false false .rm4 .free
  | 0x08d => plainRow Ty.isF true true false false false .rm4 .free
  | 0x08e => plainRow Ty.isF true true false false false .rm4 .free
  | 0x08f => plainRow Ty.isF true true false false false .rm4 .free
  | 0x090 => plainRow Ty.isF true true false false false .rm4 .free
  | _ => none

/-- Class 2 (R95). -/
def laneRow2 (opc : Nat) : Option LaneRow :=
  match opc with
  | 0x101 => plainRow Ty.anyTy true true false false false .cv .cvi
  | 0x102 => plainRow Ty.isN true true true false false .cmp .free
  | 0x103 => plainRow Ty.isNone true true true false false .lut .none
  | 0x104 => plainRow (fun t => t ≠ .mx) true true true true false .zero .free
  | 0x105 => plainRow Ty.isNone true false false false false .zero .none
  | 0x106 => plainRow Ty.isNone false true false false false .zero .free
  | _ => none

/-- Class 3 (R96). -/
def laneRow3 (opc : Nat) : Option LaneRow :=
  match opc with
  | 0x181 => plainRow Ty.isN true true true false false .zero .free
  | 0x182 => plainRow Ty.isN true true true true false .zero .free
  | 0x183 => plainRow Ty.isN true true true true false .zero .free
  | 0x184 => plainRow Ty.isN true true true false false .zero .free
  | 0x185 => plainRow (fun t => t.isInt || t.isF) true true false false false (.rop false) .free
  | 0x186 => plainRow (fun t => t.isInt || t.isF) true true false false false (.rop true) .free
  | 0x187 => plainRow (fun t => t.isInt || t.isF) true true false false true .zero .free
  | 0x188 => plainRow (fun t => t.isInt || t.isF) true true false false true .zero .free
  | 0x189 => plainRow Ty.isNone true true false false false .zero .free
  | 0x18a => plainRow Ty.isNone true true false false false .vk .free
  | 0x18b => plainRow Ty.isNone true false false false false .zero .free
  | 0x18c => plainRow (fun t => t = .n64) false true false false false .zero .free
  | 0x18d => plainRow (fun t => t = .n32 || t = .n64 || t = .f32 || t = .f64) true false false false false .zero .free
  | _ => none

/-- Class 4 (R97). -/
def laneRow4 (opc : Nat) : Option LaneRow :=
  match opc with
  | 0x201 => some ⟨Ty.isN, true, true, false, false, false, .zero, .ofs, true, true⟩
  | 0x202 => some ⟨Ty.isN, false, true, true, false, false, .zero, .ofs, true, true⟩
  | 0x203 => plainRow Ty.isN true true false false false .zero .ofs
  | 0x204 => plainRow Ty.isN false true true false false .zero .ofs
  | 0x205 => plainRow Ty.isN true true false false false .clr .ofs
  | 0x206 => plainRow Ty.isN false true true false false .zero .ofs
  | 0x207 => some ⟨Ty.isN, true, true, true, false, false, .zero, .ofs, true, true⟩
  | 0x208 => some ⟨Ty.anyTy, true, true, true, false, false, .zero, .free, true, true⟩
  | 0x209 => some ⟨(fun t => t = .mx), true, true, false, false, true, .zero, .mxi, true, true⟩
  | 0x20a => some ⟨(fun t => t = .mx), false, true, true, true, false, .zero, .mxi, true, true⟩
  | 0x20b => some ⟨Ty.isNone, false, true, false, false, false, .zero, .ofs, true, true⟩
  | 0x20c => some ⟨(fun t => Ty.isAtomic t), true, true, true, true, false, (.at false), .none, true, true⟩
  | 0x20d => some ⟨(fun t => Ty.isAtomic t), false, true, true, false, false, (.at true), .none, true, true⟩
  | _ => none

/-- Class 5 (R98). -/
def laneRow5 (opc : Nat) : Option LaneRow :=
  match opc with
  | 0x281 => plainRow Ty.isNone true true true false false .zero .free
  | 0x282 => plainRow Ty.isNone true true true true false .zero .free
  | 0x283 => plainRow Ty.isF true true true false false .zero .free
  | 0x284 => some ⟨Ty.isNone, false, false, false, true, true, .zero, .tgtZero, false, false⟩
  | 0x285 => some ⟨Ty.isNone, false, true, false, true, true, .zero, .tgt, false, false⟩
  | 0x286 => some ⟨Ty.isNone, false, false, false, false, false, .zero, .none, false, false⟩
  | 0x287 => some ⟨Ty.isNone, false, false, false, false, false, .zero, .none, false, false⟩
  | 0x288 => plainRow Ty.isNone false true true false false .zero .free
  | 0x289 => some ⟨Ty.isNone, true, true, false, false, false, .zero, .free, false, false⟩
  | _ => none

/-- The lane opcode map (R92): the class is OPC [9:7]. -/
def laneRow (opc : BitVec 10) : Option LaneRow :=
  match (opc.extractLsb' 7 3).toNat with
  | 0 => laneRow0 opc.toNat
  | 1 => laneRow1 opc.toNat
  | 2 => laneRow2 opc.toNat
  | 3 => laneRow3 opc.toNat
  | 4 => laneRow4 opc.toNat
  | 5 => laneRow5 opc.toNat
  | _ => none

/-- The CVI layout (R90): its second type and MXK. -/
def LaneFields.cviTy (f : LaneFields) : Ty := Ty.ofCode (f.imm.extractLsb' 0 4)

def LaneFields.mxkField (f : LaneFields) : BitVec 3 := f.imm.extractLsb' 5 3

/-- The rounding field of the CV layout, MOD [12:10], and its SAT, MOD [13]. -/
def LaneFields.rmField (f : LaneFields) : BitVec 3 := f.mod.extractLsb' 0 3

/-- Whether MOD lies within the layout for the type (R89, R173, R236). -/
def modOk (f : LaneFields) : ModLayout → Bool
  | .zero => f.mod = 0#6
  | .sat | .clr => f.mod.extractLsb' 1 5 = 0#5
  | .rm => f.mod.extractLsb' 3 3 = 0#3 && (Rm.ofCode f.rmField).isSome
  | .rm4 => f.mod.extractLsb' 3 3 = 0#3 && (match Rm.ofCode f.rmField with | some r => r ≠ .rs | none => false)
  | .cv => f.mod.extractLsb' 4 2 = 0#2
      && (match Rm.ofCode f.rmField with | some r => cvtListed f.t f.cviTy r (f.mod.getLsbD 3) | none => false)
  | .cmp => f.mod.extractLsb' 4 2 = 0#2
      && (match Cmp.ofCode (f.mod.extractLsb' 0 4) with | some c => c.okFor f.t | none => false)
  | .lut => f.mod.extractLsb' 4 2 = 0#2
  | .rop exOk => f.mod.extractLsb' 4 2 = 0#2 && (exOk || !f.mod.getLsbD 3)
      && (match Rop.ofCode (f.mod.extractLsb' 0 3) with | some r => r.okFor f.t | none => false)
  | .vk => f.mod.extractLsb' 2 4 = 0#4 && (Vk.ofCode (f.mod.extractLsb' 0 2)).isSome
  | .at red => (Scope.ofCode (f.mod.extractLsb' 0 3)).isSome && (Aop.ofCode (f.mod.extractLsb' 3 3)).okFor f.t
      && !(red && Aop.ofCode (f.mod.extractLsb' 3 3) = .cas)

/-- Whether a used operand field, a destination among them, holds `simm` (log 20). -/
def LaneRow.usesSimm (r : LaneRow) (f : LaneFields) : Bool :=
  (r.dst && f.dst = 0x301#10) || (r.s0 && f.s0 = 0x301#10) || (r.s1 && f.s1 = 0x301#10) || (r.s2 && f.s2 = 0x301#10)
    || (r.s3 && f.s3 = 0x301#10)

/-- Whether IMM lies within the layout (R90). -/
def immOk (r : LaneRow) (f : LaneFields) : Bool :=
  match r.imm with
  | .free => f.imm = 0#13 || r.usesSimm f
  | .ofs | .tgt => true
  | .none | .tgtZero => f.imm = 0#13
  | .cvi => f.imm.extractLsb' 8 5 = 0#5 && !f.imm.getLsbD 4
      && (if f.t = .mx || f.cviTy = .mx then (Mxk.ofCode f.mxkField).isSome else f.mxkField = 0#3)
  | .mxi => f.imm.extractLsb' 8 5 = 0#5 && f.imm.extractLsb' 0 5 = 0#5 && (Mxk.ofCode f.mxkField).isSome

/-- Whether S2 is used: in `atom` only by `cas` (R97). -/
def LaneRow.usesS2 (r : LaneRow) (f : LaneFields) : Bool :=
  r.s2 && (r.mod ≠ .at false || Aop.ofCode (f.mod.extractLsb' 3 3) = .cas)

/-- The checks that R99 reports as not an instruction, once the row is known (R100, steps 2 and 3). -/
def LaneRow.legal (r : LaneRow) (f : LaneFields) : Bool :=
  r.types f.t && modOk f r.mod && immOk r f
    && (Guard.ofCode f.g0).isSome && (Guard.ofCode f.g1).isSome
    && (r.guarded || (f.g0 = 0b01100#5 && f.g1 = 0b01100#5))
    && (if r.hint then (Hint.ofCode f.hint).isSome else f.hint = 0#3)
    && (r.dst || f.dst = 0#10) && (r.s0 || f.s0 = 0#10) && (r.s1 || f.s1 = 0#10)
    && (r.usesS2 f || f.s2 = 0#10) && (r.s3 || f.s3 = 0#10)

namespace LaneFields

def d (f : LaneFields) : Option Dst := Dst.ofCode f.dst
def dp (f : LaneFields) : Option (Fin 12) := predOfOperand f.dst
def a (f : LaneFields) : Option Src := Src.ofCode f.s0
def b (f : LaneFields) : Option Src := Src.ofCode f.s1
def e (f : LaneFields) : Option Src := Src.ofCode f.s2
def h (f : LaneFields) : Option Hint := Hint.ofCode f.hint
def rmode (f : LaneFields) : Option Rm := Rm.ofCode f.rmField
def mxk (f : LaneFields) : Option Mxk := Mxk.ofCode f.mxkField

/-- Guards and a free or offset IMM. -/
def lc (f : LaneFields) : Option Lc :=
  match Guard.ofCode f.g0, Guard.ofCode f.g1 with
  | some g0, some g1 => some ⟨g0, g1, f.imm⟩
  | _, _ => none

/-- Guards, with the IMM field held by typed operands. -/
def lc0 (f : LaneFields) : Option Lc := f.lc.map fun c => { c with imm := 0#13 }

/-- TGT: {S3, S2} (R90). -/
def tgt (f : LaneFields) : BitVec 20 := f.s3 ++ f.s2

end LaneFields

/-- The instruction of a legal class 0 word, or none when an operand code is not of its kind. -/
def buildLane0 (f : LaneFields) : Option Instr :=
  match f.opc.toNat with
  | 0x001 => do let c ← f.lc; let d ← f.d; let a ← f.a; let b ← f.b; some (.laneAdd c f.t (f.mod.getLsbD 0) d a b)
  | 0x002 => do let c ← f.lc; let d ← f.d; let a ← f.a; let b ← f.b; some (.laneSub c f.t (f.mod.getLsbD 0) d a b)
  | 0x003 => do let c ← f.lc; let d ← f.d; let a ← f.a; let b ← f.b; some (.laneMul c f.t (f.mod.getLsbD 0) d a b)
  | 0x004 => do let c ← f.lc; let d ← f.d; let a ← f.a; let b ← f.b; let e ← f.e; some (.mad c f.t (f.mod.getLsbD 0) d a b e)
  | 0x005 => do let c ← f.lc; let d ← f.d; let a ← f.a; let b ← f.b; some (.laneMulh c f.t d a b)
  | 0x006 => do let c ← f.lc; let d ← f.d; let a ← f.a; some (.laneAbs c f.t (f.mod.getLsbD 0) d a)
  | 0x007 => do let c ← f.lc; let d ← f.d; let a ← f.a; some (.laneNeg c f.t (f.mod.getLsbD 0) d a)
  | 0x008 => do let c ← f.lc; let d ← f.d; let a ← f.a; let b ← f.b; some (.laneMin c f.t d a b)
  | 0x009 => do let c ← f.lc; let d ← f.d; let a ← f.a; let b ← f.b; some (.laneMax c f.t d a b)
  | 0x00a => do let c ← f.lc; let d ← f.d; let a ← f.a; let b ← f.b; some (.laneAnd c f.t d a b)
  | 0x00b => do let c ← f.lc; let d ← f.d; let a ← f.a; let b ← f.b; some (.laneOr c f.t d a b)
  | 0x00c => do let c ← f.lc; let d ← f.d; let a ← f.a; let b ← f.b; some (.laneXor c f.t d a b)
  | 0x00d => do let c ← f.lc; let d ← f.d; let a ← f.a; some (.not c f.t d a)
  | 0x00e => do let c ← f.lc; let d ← f.d; let a ← f.a; let b ← f.b; some (.laneShl c f.t d a b)
  | 0x00f => do let c ← f.lc; let d ← f.d; let a ← f.a; let b ← f.b; some (.laneShr c f.t d a b)
  | 0x010 => do let c ← f.lc; let d ← f.d; let a ← f.a; let b ← f.b; some (.laneSar c f.t d a b)
  | 0x011 => do let c ← f.lc; let d ← f.d; let a ← f.a; let b ← f.b; some (.laneRot c f.t d a b)
  | 0x012 => do let c ← f.lc; let d ← f.d; let a ← f.a; some (.laneClz c f.t d a)
  | 0x013 => do let c ← f.lc; let d ← f.d; let a ← f.a; some (.lanePopc c f.t d a)
  | 0x014 => do let c ← f.lc; let d ← f.d; let a ← f.a; let b ← f.b; let e ← f.e; some (.bfe c f.t d a b e)
  | 0x015 => do let c ← f.lc; let d ← f.d; let a ← f.a; let b ← f.b; let e ← f.e; let g ← Src.ofCode f.s3; some (.bfi c f.t d a b e g)
  | 0x016 => do let c ← f.lc; let d ← f.d; let a ← f.a; let b ← f.b; let e ← f.e; some (.prmt c f.t d a b e)
  | 0x017 => do let c ← f.lc; let d ← f.d; let a ← f.a; let b ← f.b; some (.rshRn c f.t d a b)
  | 0x018 => do let c ← f.lc; let d ← f.d; let a ← f.a; let b ← f.b; let e ← f.e; some (.mac2 c d a b e)
  | 0x019 => do let c ← f.lc; let d ← f.d; let a ← f.a; let b ← f.b; let e ← f.e; some (.mac4 c d a b e)
  | _ => none

/-- The instruction of a legal class 1 word, or none when an operand code is not of its kind. -/
def buildLane1 (f : LaneFields) : Option Instr :=
  match f.opc.toNat with
  | 0x081 => do let c ← f.lc; let r ← f.rmode; let d ← f.d; let a ← f.a; let b ← f.b; some (.fpAdd c f.t r d a b)
  | 0x082 => do let c ← f.lc; let r ← f.rmode; let d ← f.d; let a ← f.a; let b ← f.b; some (.fpSub c f.t r d a b)
  | 0x083 => do let c ← f.lc; let r ← f.rmode; let d ← f.d; let a ← f.a; let b ← f.b; some (.fpMul c f.t r d a b)
  | 0x084 => do let c ← f.lc; let r ← f.rmode; let d ← f.d; let a ← f.a; let b ← f.b; let e ← f.e; some (.fma c f.t r d a b e)
  | 0x085 => do let c ← f.lc; let d ← f.d; let a ← f.a; let b ← f.b; some (.fpMin c f.t d a b)
  | 0x086 => do let c ← f.lc; let d ← f.d; let a ← f.a; let b ← f.b; some (.fpMax c f.t d a b)
  | 0x087 => do let c ← f.lc; let d ← f.d; let a ← f.a; some (.fpAbs c f.t d a)
  | 0x088 => do let c ← f.lc; let d ← f.d; let a ← f.a; some (.fpNeg c f.t d a)
  | 0x089 => do let c ← f.lc; let r ← f.rmode; let d ← f.d; let a ← f.a; let b ← f.b; some (.div c f.t r d a b)
  | 0x08a => do let c ← f.lc; let r ← f.rmode; let d ← f.d; let a ← f.a; some (.sqrt c f.t r d a)
  | 0x08b => do let c ← f.lc; let r ← f.rmode; let d ← f.d; let a ← f.a; some (.rcp c f.t r d a)
  | 0x08c => do let c ← f.lc; let r ← f.rmode; let d ← f.d; let a ← f.a; some (.rsqrt c f.t r d a)
  | 0x08d => do let c ← f.lc; let r ← f.rmode; let d ← f.d; let a ← f.a; some (.exp2 c f.t r d a)
  | 0x08e => do let c ← f.lc; let r ← f.rmode; let d ← f.d; let a ← f.a; some (.lg2 c f.t r d a)
  | 0x08f => do let c ← f.lc; let r ← f.rmode; let d ← f.d; let a ← f.a; some (.sin c f.t r d a)
  | 0x090 => do let c ← f.lc; let r ← f.rmode; let d ← f.d; let a ← f.a; some (.cos c f.t r d a)
  | _ => none

/-- The instruction of a legal class 2 word, or none when an operand code is not of its kind. -/
def buildLane2 (f : LaneFields) : Option Instr :=
  match f.opc.toNat with
  | 0x101 => do let c ← f.lc0; let r ← f.rmode; let k ← f.mxk; let d ← f.d; let a ← f.a; some (.cvt c f.t f.cviTy k r (f.mod.getLsbD 3) d a)
  | 0x102 => do let c ← f.lc; let k ← Cmp.ofCode (f.mod.extractLsb' 0 4); let d ← f.dp; let a ← f.a; let b ← f.b; some (.setp c f.t k d a b)
  | 0x103 => do let c ← f.lc; let d ← f.dp; let a ← predOfOperand f.s0; let b ← predOfOperand f.s1; some (.plop c (f.mod.extractLsb' 0 4) d a b)
  | 0x104 => do let c ← f.lc; let d ← f.d; let a ← f.a; let b ← f.b; let p ← predOfOperand f.s2; some (.sel c f.t d a b p)
  | 0x105 => do let c ← f.lc; let d ← f.d; some (.lst c d)
  | 0x106 => do let c ← f.lc; let a ← f.a; some (.lclr c a)
  | _ => none

/-- The instruction of a legal class 3 word, or none when an operand code is not of its kind. -/
def buildLane3 (f : LaneFields) : Option Instr :=
  match f.opc.toNat with
  | 0x181 => do let c ← f.lc; let d ← f.d; let a ← f.a; let b ← f.b; some (.shfl c f.t d a b)
  | 0x182 => do let c ← f.lc; let d ← f.d; let a ← f.a; let b ← f.b; let e ← f.e; some (.slideUp c f.t d a b e)
  | 0x183 => do let c ← f.lc; let d ← f.d; let a ← f.a; let b ← f.b; let e ← f.e; some (.slideDn c f.t d a b e)
  | 0x184 => do let c ← f.lc; let d ← f.d; let a ← f.a; let b ← f.b; some (.bcast c f.t d a b)
  | 0x185 => do let c ← f.lc; let k ← Rop.ofCode (f.mod.extractLsb' 0 3); let d ← f.d; let a ← f.a; some (.red c f.t k d a)
  | 0x186 => do let c ← f.lc; let k ← Rop.ofCode (f.mod.extractLsb' 0 3); let d ← f.d; let a ← f.a; some (.scan c f.t k (f.mod.getLsbD 3) d a)
  | 0x187 => do let c ← f.lc; let d ← f.d; let x ← Dst.ofCode f.s3; let a ← f.a; some (.maxi c f.t d x a)
  | 0x188 => do let c ← f.lc; let d ← f.d; let x ← Dst.ofCode f.s3; let a ← f.a; some (.mini c f.t d x a)
  | 0x189 => do let c ← f.lc; let d ← f.d; let a ← predOfOperand f.s0; some (.ballot c d a)
  | 0x18a => do let c ← f.lc; let k ← Vk.ofCode (f.mod.extractLsb' 0 2); let d ← f.dp; let a ← predOfOperand f.s0; some (.vote c k d a)
  | 0x18b => do let c ← f.lc; let d ← f.dp; some (.elect c d)
  | 0x18c => do let c ← f.lc; let a ← f.a; some (.push c a)
  | 0x18d => do let c ← f.lc; let d ← f.d; some (.rnd c f.t d)
  | _ => none

/-- The instruction of a legal class 4 word, or none when an operand code is not of its kind. -/
def buildLane4 (f : LaneFields) : Option Instr :=
  match f.opc.toNat with
  | 0x201 => do let c ← f.lc; let h ← f.h; let d ← f.d; let a ← f.a; some (.ldG c h f.t d a)
  | 0x202 => do let c ← f.lc; let h ← f.h; let a ← f.a; let b ← f.b; some (.stG c h f.t a b)
  | 0x203 => do let c ← f.lc; let d ← f.d; let a ← f.a; some (.ldSp c f.t d a)
  | 0x204 => do let c ← f.lc; let a ← f.a; let b ← f.b; some (.stSp c f.t a b)
  | 0x205 => do let c ← f.lc; let d ← f.d; let a ← f.a; some (.ldFe c f.t (f.mod.getLsbD 0) d a)
  | 0x206 => do let c ← f.lc; let a ← f.a; let b ← f.b; some (.stFe c f.t a b)
  | 0x207 => do let c ← f.lc; let h ← f.h; let d ← f.d; let a ← f.a; let b ← f.b; some (.ldV c h f.t d a b)
  | 0x208 => do let c ← f.lc; let h ← f.h; let d ← f.d; let u ← Uni.ofCode f.s0; let v ← groupOfCode f.s1; some (.ldT c h f.t d u v)
  | 0x209 => do let c ← f.lc0; let h ← f.h; let k ← f.mxk; let d ← f.d; let a ← f.a; let x ← Dst.ofCode f.s3; some (.ldMx c h k d a x)
  | 0x20a => do let c ← f.lc0; let h ← f.h; let k ← f.mxk; let a ← f.a; let b ← f.b; let e ← f.e; some (.stMx c h k a b e)
  | 0x20b => do let c ← f.lc; let h ← f.h; let a ← f.a; some (.pf c h a)
  | 0x20c => (if Aop.ofCode (f.mod.extractLsb' 3 3) = .cas then f.e.map some else some none).bind fun (x : Option Src) =>
      do let c ← f.lc; let h ← f.h; let s ← Scope.ofCode (f.mod.extractLsb' 0 3); let d ← f.d; let a ← f.a; let b ← f.b; some (.atom c h f.t (Aop.ofCode (f.mod.extractLsb' 3 3)) s d a b x)
  | 0x20d => do let c ← f.lc; let h ← f.h; let s ← Scope.ofCode (f.mod.extractLsb' 0 3); let a ← f.a; let b ← f.b; some (.redAt c h f.t (Aop.ofCode (f.mod.extractLsb' 3 3)) s a b)
  | _ => none

/-- The instruction of a legal class 5 word, or none when an operand code is not of its kind. -/
def buildLane5 (f : LaneFields) : Option Instr :=
  match f.opc.toNat with
  | 0x281 => do let c ← f.lc; let d ← groupOfCode f.dst; let r ← groupOfCode f.s0; let u ← Uni.ofCode f.s1; some (.traceT c d r u)
  | 0x282 => do let c ← f.lc; let d ← groupOfCode f.dst; let r ← groupOfCode f.s0; let u ← Uni.ofCode f.s1; let w ← Uni.ofCode f.s2; some (.traceV c d r u w)
  | 0x283 => do let c ← f.lc; let d ← f.d; let u ← Uni.ofCode f.s0; let v ← groupOfCode f.s1; some (.tex c f.t d u v)
  | 0x284 => some (.bra f.tgt)
  | 0x285 => do let p ← predOfOperand f.s0; some (.braDiv p f.tgt f.imm)
  | 0x286 => some .join
  | 0x287 => some .lend
  | 0x288 => do let c ← f.lc; let a ← f.a; let b ← f.b; some (.barArr c a b)
  | 0x289 => do let d ← f.dp; let a ← f.a; some (.barWait f.imm d a)
  | _ => none

def buildLane (f : LaneFields) : Option Instr :=
  match (f.opc.extractLsb' 7 3).toNat with
  | 0 => buildLane0 f
  | 1 => buildLane1 f
  | 2 => buildLane2 f
  | 3 => buildLane3 f
  | 4 => buildLane4 f
  | 5 => buildLane5 f
  | _ => none

/-- Decodes the fields of a lane word in the order of R100: opcode and type, the other fields, the operands. -/
def decodeLaneFields (f : LaneFields) : Decoded :=
  match laneRow f.opc with
  | none => .illegal
  | some r =>
    if r.legal f then
      match buildLane f with
      | some i => if i.wf then .instr i else .reject .operand
      | none => .reject .operand
    else .illegal

/-- Decodes a lane word. -/
def decodeLane (w : BitVec 96) : Decoded := decodeLaneFields (LaneFields.ofWord w)

/-! The encoder. -/

/-- What an operation encodes to: a scalar word, a lane word, or nothing (events have no words). -/
inductive Encoded where
  | scalar (f : ScalarFields)
  | lane (f : LaneFields)
  | event
  deriving DecidableEq, Repr

/-- A lane word's fields from its parts; operand codes not given are zero. -/
def Lc.fields (c : Lc) (opc : Nat) (t : Ty) (mod : BitVec 6) (dst s0 s1 s2 s3 : BitVec 10) (hint : BitVec 3 := 0) :
    LaneFields :=
  { imm := c.imm, hint, s3, s2, s1, s0, dst, g1 := c.g1.code, g0 := c.g0.code, ty := t.code, mod,
    opc := BitVec.ofNat 10 opc }

/-- An unguarded word with the given IMM (R84, R119). -/
def Lc.bare (imm : BitVec 13) : Lc := ⟨.always, .always, imm⟩

/-- The SAT and CLR layouts. -/
def satMod (b : Bool) : BitVec 6 := 0#5 ++ BitVec.ofBool b

def rmMod (r : Rm) : BitVec 6 := 0#3 ++ r.code

def atMod (op : Aop) (s : Scope) : BitVec 6 := op.code ++ s.code

/-- FN of a scalar atomic (R81): W, SCOPE, AOP. -/
def atomicFn (w : Bool) (s : Scope) (op : Aop) : Nat := (BitVec.ofBool w ++ s.code ++ op.code).toNat

/-- The CVI layout of IMM. -/
def cviImm (k : Mxk) (st : Ty) : BitVec 13 := 0#5 ++ k.code ++ 0#1 ++ st.code

/-- The MXI layout of IMM. -/
def mxiImm (k : Mxk) : BitVec 13 := 0#5 ++ k.code ++ 0#5

/-- The fields of an instruction's word. -/
def encode : Instr → Encoded
  | .add d a b => .scalar (.sr 0x01 0x0 d a b)
  | .sub d a b => .scalar (.sr 0x01 0x1 d a b)
  | .mul d a b => .scalar (.sr 0x01 0x2 d a b)
  | .mulh d a b => .scalar (.sr 0x01 0x3 d a b)
  | .mulhn d a b => .scalar (.sr 0x01 0x4 d a b)
  | .and d a b => .scalar (.sr 0x01 0x5 d a b)
  | .or d a b => .scalar (.sr 0x01 0x6 d a b)
  | .xor d a b => .scalar (.sr 0x01 0x7 d a b)
  | .shl d a b => .scalar (.sr 0x01 0x8 d a b)
  | .shr d a b => .scalar (.sr 0x01 0x9 d a b)
  | .sar d a b => .scalar (.sr 0x01 0xa d a b)
  | .rot d a b => .scalar (.sr 0x01 0xb d a b)
  | .min d a b => .scalar (.sr 0x01 0xc d a b)
  | .max d a b => .scalar (.sr 0x01 0xd d a b)
  | .minn d a b => .scalar (.sr 0x01 0xe d a b)
  | .maxn d a b => .scalar (.sr 0x01 0xf d a b)
  | .seq d a b => .scalar (.sr 0x01 0x18 d a b)
  | .sne d a b => .scalar (.sr 0x01 0x19 d a b)
  | .slt d a b => .scalar (.sr 0x01 0x1a d a b)
  | .sltn d a b => .scalar (.sr 0x01 0x1b d a b)
  | .clz d a => .scalar (.sr 0x01 0x10 d a 0)
  | .popc d a => .scalar (.sr 0x01 0x11 d a 0)
  | .addi d a i => .scalar (.si 0x04 d a i)
  | .andi d a i => .scalar (.si 0x05 d a i)
  | .ori d a i => .scalar (.si 0x06 d a i)
  | .xori d a i => .scalar (.si 0x07 d a i)
  | .slti d a i => .scalar (.si 0x0b d a i)
  | .sltni d a i => .scalar (.si 0x0c d a i)
  | .ld8 d a i => .scalar (.si 0x30 d a i)
  | .ld16 d a i => .scalar (.si 0x31 d a i)
  | .ld32 d a i => .scalar (.si 0x32 d a i)
  | .ld64 d a i => .scalar (.si 0x33 d a i)
  | .lds8 d a i => .scalar (.si 0x34 d a i)
  | .lds16 d a i => .scalar (.si 0x35 d a i)
  | .lds32 d a i => .scalar (.si 0x36 d a i)
  | .shli d a s => .scalar (.sr 0x08 0 d a s)
  | .shri d a s => .scalar (.sr 0x09 0 d a s)
  | .sari d a s => .scalar (.sr 0x0a 0 d a s)
  | .li d i => .scalar (.su 0x10 d i)
  | .lih d i => .scalar (.su 0x11 d i)
  | .br o => .scalar (.sj 0x18 o)
  | .call o => .scalar (.sj 0x19 o)
  | .xopen o => .scalar (.sj 0x40 o)
  | .jr a => .scalar (.sr 0x1a 0 0 a 0)
  | .ret => .scalar (.sr 0x1a 1 0 0 0)
  | .bz a o => .scalar (.sx 0x1b a 0 o)
  | .bnz a o => .scalar (.sx 0x1c a 0 o)
  | .loop a o => .scalar (.sx 0x21 a 0 o)
  | .blt a b o => .scalar (.sx 0x1d a b o)
  | .bge a b o => .scalar (.sx 0x1e a b o)
  | .bltn a b o => .scalar (.sx 0x1f a b o)
  | .bgen a b o => .scalar (.sx 0x20 a b o)
  | .st8 b a o => .scalar (.sx 0x38 a b o)
  | .st16 b a o => .scalar (.sx 0x39 a b o)
  | .st32 b a o => .scalar (.sx 0x3a a b o)
  | .st64 b a o => .scalar (.sx 0x3b a b o)
  | .lrun i => .scalar (.su 0x28 0 i)
  | .lframe n a => .scalar (.sr 0x29 0 (0#2 ++ n) a 0)
  | .qpop d => .scalar (.sr 0x29 1 d 0 0)
  | .qcount d => .scalar (.sr 0x29 2 d 0 0)
  | .aadd w s d a b => .scalar (.sr 0x3c (atomicFn w s .add) d a b)
  | .acas w s d a b => .scalar (.sr 0x3c (atomicFn w s .cas) d a b)
  | .aswp w s d a b => .scalar (.sr 0x3c (atomicFn w s .swp) d a b)
  | .amin w s d a b => .scalar (.sr 0x3c (atomicFn w s .min) d a b)
  | .amax w s d a b => .scalar (.sr 0x3c (atomicFn w s .max) d a b)
  | .aand w s d a b => .scalar (.sr 0x3c (atomicFn w s .and) d a b)
  | .aor w s d a b => .scalar (.sr 0x3c (atomicFn w s .or) d a b)
  | .axor w s d a b => .scalar (.sr 0x3c (atomicFn w s .xor) d a b)
  | .fence s => .scalar (.sr 0x3d s.code.toNat 0 0 0)
  | .setdm a => .scalar (.sr 0x3d 0x08 0 a 0)
  | .preg a b => .scalar (.sr 0x3e 0 0 a b)
  | .pdrop a => .scalar (.sr 0x3e 1 0 a 0)
  | .parr a => .scalar (.sr 0x3e 2 0 a 0)
  | .pwait a b => .scalar (.sr 0x3e 3 0 a b)
  | .ptest d a b => .scalar (.sr 0x3e 4 d a b)
  | .yield => .scalar (.sr 0x3f 0 0 0 0)
  | .rgn => .scalar (.sr 0x3f 1 0 0 0)
  | .mon a => .scalar (.sr 0x3f 2 0 a 0)
  | .wmon a b => .scalar (.sr 0x3f 3 0 a b)
  | .xclose => .scalar (.sr 0x3f 4 0 0 0)
  | .xabort a => .scalar (.sr 0x3f 5 0 a 0)
  | .tdesc d a => .scalar (.sr 0x41 0 d a 0)
  | .tinv d => .scalar (.sr 0x41 1 d 0 0)
  | .kick a b => .scalar (.sr 0x42 0 0 a b)
  | .kwait a => .scalar (.sr 0x42 1 0 a 0)
  | .kwaitNb d a => .scalar (.sr 0x42 2 d a 0)
  | .mload a b => .scalar (.sr 0x43 0 0 a b)
  | .mloadSh a b => .scalar (.sr 0x43 1 0 a b)
  | .mswap => .scalar (.sr 0x43 2 0 0 0)
  | .mloop a b => .scalar (.sr 0x43 3 0 a b)
  | .mwait => .scalar (.sr 0x43 4 0 0 0)
  | .gbload a b => .scalar (.sr 0x44 0 0 a b)
  | .gbclamp a b => .scalar (.sr 0x44 1 0 a b)
  | .gbsweep a => .scalar (.sr 0x44 2 0 a 0)
  | .gbread a b => .scalar (.sr 0x44 3 0 a b)
  | .gbstat d a => .scalar (.sr 0x44 4 d a 0)
  | .vpub a b => .scalar (.sr 0x45 0 0 a b)
  | .vret a => .scalar (.sr 0x45 1 0 a 0)
  | .vstep a => .scalar (.sr 0x45 2 0 a 0)
  | .coll a => .scalar (.sr 0x46 0 0 a 0)
  | .launch d a => .scalar (.sr 0x47 0 d a 0)
  | .rseed a b => .scalar (.sr 0x4a 0 0 a b)
  | .nop => .scalar (.sr 0x4e 0 0 0 0)
  | .done => .scalar (.sr 0x4f 0 0 0 0)
  | .srd d r => .scalar (.sr 0x48 (r.code.extractLsb' 6 6).toNat d 0 (r.code.extractLsb' 0 6))
  | .swr r a => .scalar (.sr 0x49 (r.code.extractLsb' 6 6).toNat 0 a (r.code.extractLsb' 0 6))
  | .trap i => .scalar (.si 0x4c 0 0 i)
  | .brk i => .scalar (.si 0x4d 0 0 i)
  | .laneAdd c t s d a b => .lane (c.fields 0x001 t (satMod s) d.code a.code b.code 0 0)
  | .laneSub c t s d a b => .lane (c.fields 0x002 t (satMod s) d.code a.code b.code 0 0)
  | .laneMul c t s d a b => .lane (c.fields 0x003 t (satMod s) d.code a.code b.code 0 0)
  | .mad c t s d a b e => .lane (c.fields 0x004 t (satMod s) d.code a.code b.code e.code 0)
  | .laneMulh c t d a b => .lane (c.fields 0x005 t 0 d.code a.code b.code 0 0)
  | .laneMin c t d a b => .lane (c.fields 0x008 t 0 d.code a.code b.code 0 0)
  | .laneMax c t d a b => .lane (c.fields 0x009 t 0 d.code a.code b.code 0 0)
  | .laneAnd c t d a b => .lane (c.fields 0x00a t 0 d.code a.code b.code 0 0)
  | .laneOr c t d a b => .lane (c.fields 0x00b t 0 d.code a.code b.code 0 0)
  | .laneXor c t d a b => .lane (c.fields 0x00c t 0 d.code a.code b.code 0 0)
  | .laneShl c t d a b => .lane (c.fields 0x00e t 0 d.code a.code b.code 0 0)
  | .laneShr c t d a b => .lane (c.fields 0x00f t 0 d.code a.code b.code 0 0)
  | .laneSar c t d a b => .lane (c.fields 0x010 t 0 d.code a.code b.code 0 0)
  | .laneRot c t d a b => .lane (c.fields 0x011 t 0 d.code a.code b.code 0 0)
  | .rshRn c t d a b => .lane (c.fields 0x017 t 0 d.code a.code b.code 0 0)
  | .fpMin c t d a b => .lane (c.fields 0x085 t 0 d.code a.code b.code 0 0)
  | .fpMax c t d a b => .lane (c.fields 0x086 t 0 d.code a.code b.code 0 0)
  | .shfl c t d a b => .lane (c.fields 0x181 t 0 d.code a.code b.code 0 0)
  | .bcast c t d a b => .lane (c.fields 0x184 t 0 d.code a.code b.code 0 0)
  | .laneAbs c t s d a => .lane (c.fields 0x006 t (satMod s) d.code a.code 0 0 0)
  | .laneNeg c t s d a => .lane (c.fields 0x007 t (satMod s) d.code a.code 0 0 0)
  | .not c t d a => .lane (c.fields 0x00d t 0 d.code a.code 0 0 0)
  | .laneClz c t d a => .lane (c.fields 0x012 t 0 d.code a.code 0 0 0)
  | .lanePopc c t d a => .lane (c.fields 0x013 t 0 d.code a.code 0 0 0)
  | .fpAbs c t d a => .lane (c.fields 0x087 t 0 d.code a.code 0 0 0)
  | .fpNeg c t d a => .lane (c.fields 0x088 t 0 d.code a.code 0 0 0)
  | .bfe c t d a b e => .lane (c.fields 0x014 t 0 d.code a.code b.code e.code 0)
  | .prmt c t d a b e => .lane (c.fields 0x016 t 0 d.code a.code b.code e.code 0)
  | .slideUp c t d a b e => .lane (c.fields 0x182 t 0 d.code a.code b.code e.code 0)
  | .slideDn c t d a b e => .lane (c.fields 0x183 t 0 d.code a.code b.code e.code 0)
  | .bfi c t d a b e g => .lane (c.fields 0x015 t 0 d.code a.code b.code e.code g.code)
  | .mac2 c d a b e => .lane (c.fields 0x018 .s16 0 d.code a.code b.code e.code 0)
  | .mac4 c d a b e => .lane (c.fields 0x019 .s8 0 d.code a.code b.code e.code 0)
  | .fpAdd c t r d a b => .lane (c.fields 0x081 t (rmMod r) d.code a.code b.code 0 0)
  | .fpSub c t r d a b => .lane (c.fields 0x082 t (rmMod r) d.code a.code b.code 0 0)
  | .fpMul c t r d a b => .lane (c.fields 0x083 t (rmMod r) d.code a.code b.code 0 0)
  | .div c t r d a b => .lane (c.fields 0x089 t (rmMod r) d.code a.code b.code 0 0)
  | .fma c t r d a b e => .lane (c.fields 0x084 t (rmMod r) d.code a.code b.code e.code 0)
  | .sqrt c t r d a => .lane (c.fields 0x08a t (rmMod r) d.code a.code 0 0 0)
  | .rcp c t r d a => .lane (c.fields 0x08b t (rmMod r) d.code a.code 0 0 0)
  | .rsqrt c t r d a => .lane (c.fields 0x08c t (rmMod r) d.code a.code 0 0 0)
  | .exp2 c t r d a => .lane (c.fields 0x08d t (rmMod r) d.code a.code 0 0 0)
  | .lg2 c t r d a => .lane (c.fields 0x08e t (rmMod r) d.code a.code 0 0 0)
  | .sin c t r d a => .lane (c.fields 0x08f t (rmMod r) d.code a.code 0 0 0)
  | .cos c t r d a => .lane (c.fields 0x090 t (rmMod r) d.code a.code 0 0 0)
  | .cvt c dt st k r s d a => .lane (Lc.fields { c with imm := cviImm k st } 0x101 dt (0#2 ++ BitVec.ofBool s ++ r.code) d.code a.code 0 0 0)
  | .setp c t k d a b => .lane (c.fields 0x102 t (0#2 ++ k.code) (predCode d) a.code b.code 0 0)
  | .plop c l d a b => .lane (c.fields 0x103 .n8 (0#2 ++ l) (predCode d) (predCode a) (predCode b) 0 0)
  | .sel c t d a b p => .lane (c.fields 0x104 t 0 d.code a.code b.code (predCode p) 0)
  | .lst c d => .lane (c.fields 0x105 .n8 0 d.code 0 0 0 0)
  | .lclr c a => .lane (c.fields 0x106 .n8 0 0 a.code 0 0 0)
  | .red c t k d a => .lane (c.fields 0x185 t (0#3 ++ k.code) d.code a.code 0 0 0)
  | .scan c t k x d a => .lane (c.fields 0x186 t (0#2 ++ BitVec.ofBool x ++ k.code) d.code a.code 0 0 0)
  | .maxi c t d x a => .lane (c.fields 0x187 t 0 d.code a.code 0 0 x.code)
  | .mini c t d x a => .lane (c.fields 0x188 t 0 d.code a.code 0 0 x.code)
  | .ballot c d a => .lane (c.fields 0x189 .n8 0 d.code (predCode a) 0 0 0)
  | .vote c k d a => .lane (c.fields 0x18a .n8 (0#4 ++ k.code) (predCode d) (predCode a) 0 0 0)
  | .elect c d => .lane (c.fields 0x18b .n8 0 (predCode d) 0 0 0 0)
  | .push c a => .lane (c.fields 0x18c .n64 0 0 a.code 0 0 0)
  | .rnd c t d => .lane (c.fields 0x18d t 0 d.code 0 0 0 0)
  | .ldG c h t d a => .lane (c.fields 0x201 t 0 d.code a.code 0 0 0 h.code)
  | .stG c h t a b => .lane (c.fields 0x202 t 0 0 a.code b.code 0 0 h.code)
  | .ldSp c t d a => .lane (c.fields 0x203 t 0 d.code a.code 0 0 0)
  | .stSp c t a b => .lane (c.fields 0x204 t 0 0 a.code b.code 0 0)
  | .ldFe c t x d a => .lane (c.fields 0x205 t (satMod x) d.code a.code 0 0 0)
  | .stFe c t a b => .lane (c.fields 0x206 t 0 0 a.code b.code 0 0)
  | .ldV c h t d a q => .lane (c.fields 0x207 t 0 d.code a.code q.code 0 0 h.code)
  | .ldT c h t d u v => .lane (c.fields 0x208 t 0 d.code u.code (0#2 ++ v) 0 0 h.code)
  | .ldMx c h k d a x => .lane ({ c with imm := mxiImm k }.fields 0x209 .mx 0 d.code a.code 0 0 x.code h.code)
  | .stMx c h k a b e => .lane ({ c with imm := mxiImm k }.fields 0x20a .mx 0 0 a.code b.code e.code 0 h.code)
  | .pf c h a => .lane (c.fields 0x20b .n8 0 0 a.code 0 0 0 h.code)
  | .atom c h t op s d a b e => .lane (c.fields 0x20c t (atMod op s) d.code a.code b.code (match e with | some x => x.code | none => 0) 0 h.code)
  | .redAt c h t op s a b => .lane (c.fields 0x20d t (atMod op s) 0 a.code b.code 0 0 h.code)
  | .traceT c d r u => .lane (c.fields 0x281 .n8 0 (0#2 ++ d) (0#2 ++ r) u.code 0 0)
  | .traceV c d r u w => .lane (c.fields 0x282 .n8 0 (0#2 ++ d) (0#2 ++ r) u.code w.code 0)
  | .tex c t d u v => .lane (c.fields 0x283 t 0 d.code u.code (0#2 ++ v) 0 0)
  | .bra g => .lane ((Lc.bare 0).fields 0x284 .n8 0 0 0 0 (g.extractLsb' 0 10) (g.extractLsb' 10 10))
  | .braDiv p g j => .lane ((Lc.bare j).fields 0x285 .n8 0 0 (predCode p) 0 (g.extractLsb' 0 10) (g.extractLsb' 10 10))
  | .join => .lane ((Lc.bare 0).fields 0x286 .n8 0 0 0 0 0 0)
  | .lend => .lane ((Lc.bare 0).fields 0x287 .n8 0 0 0 0 0 0)
  | .barArr c a b => .lane (c.fields 0x288 .n8 0 0 a.code b.code 0 0)
  | .barWait i d a => .lane ((Lc.bare i).fields 0x289 .n8 0 (predCode d) a.code 0 0 0)
  | _ => .event

/-- Decodes what `encode` gives; events have no words. -/
def decodeEncoded : Encoded → Decoded
  | .scalar f => decodeScalar f.toWord
  | .lane f => decodeLane f.toWord
  | .event => .illegal

/-- The instruction that the decoder reads from `w`, when it reads one. -/
def Decoded.toOption : Decoded → Option Instr
  | .instr i => some i
  | .reject _ => none

/-- The host's question about an opcode-table row: a row of at most 32 bits is a scalar word, a longer one a lane
word, with the bits numbered from the least significant bit of the first word. -/
def decodeTableWord (nbits w : Nat) : Option Instr :=
  if nbits ≤ 32 then (decodeScalar (BitVec.ofNat 32 w)).toOption
  else (decodeLane (BitVec.ofNat 96 w)).toOption

end Sys2Proof
end

