-- ==== Sys2Proof/Config.lean ====
section
/-! DEFINITION. What one implementation fixes and the free values: constants without a body (log 6, log 7, log 9, log 15, log 16, log 43). -/

namespace Sys2Proof.Config

open Sys2Proof

/-- The public keys that Ocard trusts, as HSS public keys (R14); the spec does not give them (log 7). -/
opaque trustedKeys : List (List Byte)

/-- Whether a peer refuses an access of this device to its memory at a moment (R219, R330): the peer's own windows and version
tables decide (log 43). -/
opaque peerRefusal (dev addr : Nat) (write : Bool) (time : Nat) : Option PeerRefusal

/-- A fast draw of the array's physical noise, 16 bits (R280); one index for each draw (log 6). -/
opaque fastDraw (ix : Nat) : BitVec 16

/-- Whether the noise source of an array tile fails its health test during a command (R280) (log 6). -/
opaque noiseFails (ix : Nat) : Bool

/-- A byte that a collective writes where the spec does not say which (R334, R335) (log 16). -/
opaque freeByte (ix addr : Nat) : Byte

/-- A real number, as numerator and denominator minus 1, where a traversal computes with an operand that is no real number
(R266): the `k`-th of a request whose captured operands and data are `key` (log 15). -/
opaque freeReal (key : List Nat) (k : Nat) : Int × Nat

/-- Result bits of an elementary function whose interval refinement has used up its fuel (R171) (log 9). -/
opaque elementary (op : Nat) (fmtWidth operand : Nat) : Nat

/-- Flags beside `elementary` (log 9). -/
opaque elementaryFlags (op : Nat) (fmtWidth operand : Nat) : BitVec 16

end Sys2Proof.Config
end

