-- ==== Sys2Proof/Machine/State.lean ====
section
/-! DEFINITION. Everything the spec gives the device as state: groups, blocks, launches, containers, tenants, memory,
the version table, the engines' accepted commands, the line directory and the management registers. Plain data. -/

namespace Sys2Proof.Machine

open Sys2Proof

/-- Why a step stops for good. -/
inductive Fault where
  /-- An access to local HBM4E at a physical address beyond its 512 GiB (R1): raised by translation and by the accesses
  of host, peers and queues. Safe: the spec gives such an address no memory. -/
  | noSuchMemory (addr : Nat)
  deriving DecidableEq, Repr

/-- Why a step gives no meaning. -/
inductive Refusal where
  /-- An arm of `exec` that has no meaning yet. Safe: nothing is claimed of it. -/
  | notModelled (mnemonic : String)
  deriving DecidableEq, Repr

/-- Sparse bytes by key in one canonical form: keys strictly rising, no entry equal to 0, which an unlisted key reads as
(log 4, DESIGN CHOICE). -/
structure Memory where
  cells : List Host.Cell
  deriving DecidableEq, Repr

/-- Where one byte lies: in memory, by physical key (local HBM4E, host or peer), or in a block's scratchpad (R199). -/
inductive Place where
  | phys (key : Nat)
  | sp (blk : Nat) (off : Nat)
  deriving DecidableEq, Repr

/-- Trap codes of R341. -/
inductive TrapCode where
  | illegal | operand | align | protection | page | version | copy | determinism | divergence | user | brk
  | poison | mirror | mcheck | watchdog
  deriving DecidableEq, Repr

/-- Trap state of R342 but for RSTART, which delivery adds, and `AOC` at its detection (R350). -/
structure TrapInfo where
  code : TrapCode
  tpc : Word
  taddr : Word
  detail : Word32
  time : Word
  deriving DecidableEq, Repr

/-- A tensor descriptor (R18, R19). -/
structure Desc where
  base : Word
  sbase : Word
  fmt : Nat
  rank : Nat
  slay : Nat
  vsel : Nat
  padm : BitVec 5
  vstepv : Word32
  ext : Vector Nat 5
  str : Vector Int 4
  sstr : Int
  deriving DecidableEq, Repr

/-- One thread of a group: its lane registers (R101, R117, R158). -/
structure Lane where
  v : Vector Word 256
  o : Vector Word 8
  l0 : Word
  l1 : Word
  p : Vector Bool 12
  lst : BitVec 16
  deriving DecidableEq, Repr

/-- A segment in the segment queue (R112, R140, R342). -/
structure Segment where
  start : Word32
  k : Vector Word 16
  vstep : Word
  dmask : Word
  lrunPc : Word32
  deriving DecidableEq, Repr

/-- What a scalar stream or a lane path waits for (R113, R357), with the virtual address waited on where there is one. -/
inductive Wait where
  | drain | segRoom | retEntry | lanesIdle     -- the scalar rows of R113; `lanesIdle`: `qcount` of a deterministic launch
  | sweepDrain (num : Nat)                     -- the drain of a `gbsweep` on an array window (R274, R284)
  | retRoom                                    -- `push` with a full return queue (R113)
  | fe (addr : Word)                           -- `ld.fe` or `st.fe` (R228)
  | kwait (off : Nat)                          -- the barrier object (R248)
  | phaser (obj : Place) (addr : Word) (attr : Nat) (bit : Bool)                -- `pwait` (R292)
  | barWait (obj : Place) (addr : Word) (attr : Nat) (bit : Bool) (d : Fin 12)  -- `bar.wait` (R294)
  | monitor (addr : Word) (deadline : Option Nat)                  -- `wmon` (R297)
  | mwait | planePair                          -- R257, R252
  | unit (id : Nat)                            -- a traversal request of the path (R262)
  | stateWrite                                 -- `gbread` until its bytes are written (R285)
  | turn                                       -- `yield` of a deterministic launch (R127)
  | copy (page : Nat)                          -- a copy-on-write in progress (R218)
  | owner (page : Nat) (addr : Word)           -- ownership of a coherent page (R214)
  | recovery (dev : Nat) (addr : Word)         -- a peer in recovery (R332)
  | link (addr : Word)                         -- a link that LINK_EN holds off (R376)
  | line (addr : Word)                         -- a line that an engine is still to write (R245, R256, R316)
  | reads (step : Word32) (before : Nat)       -- `vret`: reads of a step by commands accepted before (R328)
  | window (num : Nat)                         -- an array window of the tenant (R281)
  | engineRoom | engines                       -- limits of accepted commands; commands to complete
  | interlock                                  -- a scalar register that a posted operation still writes (R113, R116)
  deriving DecidableEq, Repr

/-- The translation tables as they stood when a waiting access issued: it completes with the translations that it obtained
then (R206). -/
structure Tables where
  mem : Memory
  poison : List Nat
  root : Word
  deriving DecidableEq, Repr

/-- A live path in a path slot (R118); `walk`: the tables of its waiting access. -/
structure Path where
  pc : Word32
  mask : BitVec 32
  parked : Bool
  wait : Option Wait
  walk : Option Tables := none
  deriving DecidableEq, Repr

/-- The innermost divergence frame and the number of live frames (R118). -/
structure Frame where
  join : Word32
  fmask : BitVec 32
  depth : Nat
  deriving DecidableEq, Repr

/-- An entry of the registration table (R289). -/
structure Registration where
  addr : Word
  obj : Place
  units : Nat
  sig : Bool
  wait : Bool
  deriving DecidableEq, Repr

/-- The armed monitor: its granule (place of byte 0) and the bytes written since and not yet observed (R296). -/
structure Monitor where
  granule : Place
  written : BitVec 16
  deriving DecidableEq, Repr

/-- An open transaction (R298 to R300). -/
structure Tx where
  saved : Vector Word 64
  fallback : Word
  lines : List Nat
  bytes : Memory
  storedLines : List Nat
  written : List Nat
  stores : Nat
  abort : Option (Nat × Nat × Word)            -- REASON, CODE, address
  deriving DecidableEq, Repr

/-- An element of a weight plane: its code, its block's scale code and its super-scale, which together fix the exact value
(R250, R252), and whether a poisoned sector supplied it (R258). -/
structure PlaneElem where
  code : Nat
  scale : Nat
  super : Nat
  poison : Bool
  deriving DecidableEq, Repr

/-- One weight plane: format, valid mark and its elements (κ, ν), row κ after row, as the engine has loaded them. -/
structure Plane where
  fmt : Nat
  valid : Bool
  elems : List PlaneElem
  deriving DecidableEq, Repr

/-- A group's plane pair; `marks` and `fmts` as the planes will stand after every accepted command (R255). -/
structure PlanePair where
  core : Nat
  bound : Bool
  stat : Plane
  shadow : Plane
  nextStat : Option Nat
  nextShadow : Option Nat
  deriving DecidableEq, Repr

/-- A page that an accepted command holds (R206): its virtual page number, the place of its first byte, its attribute, the key of the
page that the tables name, and the step that a read of it has named, where the page is versioned (R217). -/
structure HeldPage where
  vpn : Nat
  place : Place
  attr : Nat
  page : Nat
  step : Option Word32
  deriving DecidableEq, Repr

/-- The pages that an accepted command holds. -/
abbrev Held := List HeldPage

/-- A loop record with its captured descriptors and held pages (R254, R255). -/
structure LoopRec where
  x : Desc
  c : Desc
  xheld : Held
  cheld : Held
  z : Bool
  baren : Bool
  scope : Scope
  kstep : Nat
  m : Nat
  ncol : Nat
  steps : Nat
  baroff : Nat
  xrow0 : Int
  xk0 : Int
  crow0 : Int
  ccol0 : Int
  dxrow : Int
  dxk : Int
  dcrow : Int
  dccol : Int
  deriving DecidableEq, Repr

/-- An accepted matrix command with its number (R251). -/
inductive MCmd where
  | load (id : Nat) (shadow : Bool) (w : Desc) (k0 n0 : Int) (held : Held)
  | swap (id : Nat)
  | loop (id : Nat) (pc : Word32) (recs : List LoopRec) (rec step : Nat)
  deriving DecidableEq, Repr

/-- A park (R352): a number for its record, its code, and the physical key of the record once posted; `kill`: the response asks
for the kill, whose record still waits for room (R351). -/
structure Park where
  id : Nat
  code : TrapCode
  info : TrapInfo
  slot : Option Nat
  kill : Bool
  deriving DecidableEq, Repr

/-- What a traversal request brings back, and into which registers of its lanes. -/
inductive UnitWork where
  | triangles (d : BitVec 8)
  | medium (d : BitVec 8)
  | texture (t : Ty) (d : Dst)
  deriving DecidableEq, Repr

/-- An issued traversal request (R260, R262): the mask of its path, its `TPC`, the captured descriptors (the majorant's before
the medium's), K and B at issue, and the registers that its executing lanes brought. -/
structure UnitReq where
  id : Nat
  mask : BitVec 32
  tpc : Word
  work : UnitWork
  descs : List Desc
  key : Word
  base : Word
  ops : List (Fin 32 × Vector Word 8)
  deriving DecidableEq, Repr

/-- What has become of a group. -/
inductive GroupStatus where
  | resident | preempted | ended | killed
  deriving DecidableEq, Repr

/-- One group of 32 threads. -/
structure Group where
  ref : GroupRef
  status : GroupStatus
  core : Nat
  pc : Word                                    -- wide enough for every target of `jr` (R137)
  x : Vector Word 64
  lanes : Vector Lane 32
  stage : Vector Word 16
  segs : List Segment
  path0 : Option Path
  path1 : Option Path
  frame : Frame
  issue1 : Bool                                -- the path that issues in a deterministic launch (R130)
  units : List UnitReq                         -- traversal requests at work
  segIssued : Nat
  segDone : Nat
  retq : List Word
  rstart : Word
  rB : Word
  genK : Word
  genB : Word
  vstep : Word
  dmask : Word
  closing : Bool
  preemptAt : Option Nat
  trapMode : Bool
  tcode : Word
  tpc : Word
  taddr : Word
  taux : Word
  held : List TrapInfo
  detected : List TrapInfo
  regs : List Registration
  monitor : Option Monitor
  tx : Option Tx
  acu : Bool
  sat : Bool
  mscope : Scope                               -- widest SCOPE of matrix commands not yet collected (R257)
  planes : Option PlanePair
  mcmds : List MCmd
  swait : Option Wait
  swalk : Option Tables                        -- the tables of the scalar stream's waiting access (R206)
  park : Option Park
  blocked : Nat
  snap : Option Memory                         -- scratchpad when the group became current (deterministic, R303)
  deriving DecidableEq, Repr

/-- Which group of a coroutine set is current (R127 to R129); `opened after`: the position is open, and the search
starts behind `after` when a group has yielded. -/
inductive CoState where
  | current (gid : Nat)
  | opened (after : Option Nat)
  deriving DecidableEq, Repr

/-- One block (R53, R67, R73). -/
structure Block where
  id : Nat
  launch : Nat
  b : Nat
  vx : Nat
  vy : Nat
  cluster : Nat                                -- cluster-local index
  home : Nat
  ngrp : Nat
  scratch : Memory
  full : List Nat                              -- full granules, strictly rising
  poison : List Nat                            -- poisoned sectors, strictly rising
  tids : Vector (Option Desc) 64
  co : CoState
  windows : List Nat                           -- array windows owned (deterministic, R281)
  abandoned : Bool
  saved : Bool                                 -- left the core with its last resident group (R26, R200)
  deriving DecidableEq, Repr

/-- A launch's place in R54; a refused launch stays until its completion record finds room (R367). -/
inductive LaunchState where
  | read | admissible | admitted
  | refused (status : Nat)
  deriving DecidableEq, Repr

/-- A launch (R51 to R58); `cores` lists the core table entries of the rectangle, row by row; `epoch` tells which enabling
of its queue it belongs to (R48); `clus`: its blocks are admitted by whole cluster instances (R70). -/
structure Launch where
  uid : Nat
  tenant : Nat
  queue : Nat
  epoch : Nat
  seq : Word32
  state : LaunchState
  handle : Nat
  kidx : Nat
  clus : Bool
  prio : Nat
  pre : Bool
  irq : Bool
  dabt : Bool
  ovlp : Bool
  ord : Bool
  chk : Bool
  det : Bool
  vx0 : Nat
  vy0 : Nat
  w : Nat
  h : Nat
  cwl : Nat
  chl : Nat
  bpv : Nat
  g : Nat
  vregs : Nat
  scratch : Nat
  argp : Word
  stime : Word
  vbase : Word32
  dep0 : Word
  dep1 : Word
  ctag : Word
  cores : List Nat
  tids : Vector (Option Desc) 64               -- bound and patched descriptors (R24)
  next : Nat                                   -- blocks, or cluster instances, dispatched
  admittedAt : Nat                             -- order of admission
  claim : Option Nat                           -- order in which a launch was first passed over for want of room (R57)
  noRoomSince : Option Nat                     -- a PRE launch waits for room since (R57)
  kcode : Option TrapCode
  nkill : Nat
  deriving DecidableEq, Repr

/-- A loaded segment: virtual base, sizes and the physical page keys, in order (R13). -/
structure Seg where
  va : Nat
  fsize : Nat
  msize : Nat
  pages : List Nat
  deriving DecidableEq, Repr

/-- A binding entry with its template (R24). -/
structure Binding where
  tid : Nat
  barg : Option Nat
  sarg : Option Nat
  templ : Desc
  deriving DecidableEq, Repr

/-- A kernel descriptor (R15) with its output mask (R368). -/
structure Kernel where
  entry : Word32
  trapseg : Word32
  lbase : Word32
  lsize : Word32
  vregs : Nat
  gmax : Nat
  scratch : Nat
  clus : Bool
  xblk : Bool
  argw : Nat
  bindings : List Binding
  omask : Word
  deriving DecidableEq, Repr

/-- A loaded or unloading container (R60 to R62). -/
structure Container where
  tenant : Nat
  handle : Nat
  unloading : Bool
  stream : Seg
  lanes : Seg
  rodata : Option Seg
  data : Option Seg
  note : Option Seg
  kernels : List Kernel
  deriving DecidableEq, Repr

/-- A launch queue (R47 to R49); `statuses` holds the status of every retired record since the queue was enabled. -/
structure LaunchQueue where
  base : Word
  en : Bool
  err : Bool
  devq : Bool
  logn : Nat
  head : Word32
  tail : Word32
  ret : Word32
  epoch : Nat                                  -- how often the queue has been enabled
  statuses : List (Word32 × Byte)
  deriving DecidableEq, Repr

/-- A record that waits for room in a ring, the number of the park it reports, and the launch queue whose vector announces
it, when its launch asked for one (R374). -/
structure PendingRec where
  bytes : List Byte
  park : Option Nat
  vector : Option Nat
  deriving DecidableEq, Repr

/-- A fault or completion queue (R349, R367). -/
structure Ring where
  base : Word
  en : Bool
  irq : Bool
  drop : Nat
  logn : Nat
  get : Word32
  put : Word32
  buffer : List PendingRec
  deriving DecidableEq, Repr

/-- A tenant's registers (files 03, 10, 14, 17, 18, 19). -/
structure Tenant where
  created : Bool
  partition : Nat
  queues : Vector LaunchQueue 8
  queuePtr : Nat
  ocImg : Word
  ocDst : Word
  ocDsize : Word
  ocBusy : Bool
  ocLoading : Bool                             -- a load that has begun waits for an access of its own (R60)
  ocLocked : List Nat                          -- page keys that Ocard holds locked meanwhile (R61, R205)
  ocStatus : Byte
  ocHandle : Nat
  ocTmeas : List Byte
  l2pBase : Word
  fq : Ring
  cq : Ring
  xtl : Word32
  wdl : Word32
  xstep : Word32
  drops : Nat
  txRoot : Word
  asid : BitVec 16
  gen : Word32
  vpBase : Word
  npg : Nat
  leases : Vector Word 4
  sweeps : Vector Nat 4
  changes : Vector Nat 4
  noise : Vector Nat 4
  mbArg0 : Word
  mbArg1 : Word
  mbBusy : Option (Nat × Word × Word)          -- the command in progress with its arguments
  mbStatus : Byte
  twBase : Word
  twSize : Word
  hdmDb : List (Nat × Nat)                     -- ranges marked host-coherent: base, size
  vectors : List Nat                           -- MSI-X vectors sent, latest first
  vectorsDue : List Nat                        -- those that wait for the CXL link, latest first (R376)
  deriving DecidableEq, Repr

/-- A retained entry; no page: tied (R216, R322); `retired`: its step was retired as the page's current step, and its reads
end with the page's next copy-on-write (R328). -/
structure Retained where
  step : Word32
  copy : Option Nat
  retired : Bool
  deriving DecidableEq, Repr

/-- A version table entry of a local page (R216); `retired`: its current step has been retired (R328). -/
structure Version where
  page : Nat
  tenant : Nat
  cur : Word32
  pub : Bool
  rset : List Retained
  retired : Bool
  deriving DecidableEq, Repr

/-- A copy-on-write in progress (R218). -/
structure Cow where
  page : Nat
  dest : Nat
  step : Word32
  deriving DecidableEq, Repr

/-- A captured copy record (R241, R243). -/
structure CopyRec where
  skip : Bool
  scatter : Bool
  src : Desc
  dst : Desc
  step : Option Word32
  origin : Vector Int 5
  deriving DecidableEq, Repr

/-- An accepted kick (R243). -/
structure Kick where
  id : Nat
  grp : GroupRef
  core : Nat
  tenant : Nat
  pc : Word32
  bar : Nat
  vstep : Word32
  recs : List CopyRec
  next : Nat
  deriving DecidableEq, Repr

/-- What a posted operation does at its place: `Arrive` with units or `Reg` with a change (R290), a plain store, a command's bytes
announced at a barrier object (R243, R255), an atomic of `n` bytes with its operand and its comparand (R143); and, with the register
that each writes, a load of `n` bytes (R141), `ptest` with its phase bit (R292) and `kwait.nb` (R248). -/
inductive PostOp where
  | arrive (units : Nat)
  | register (d : Int)
  | store (bytes : List Byte)
  | announce (scope : Scope) (total : Nat)
  | atomic (op : Aop) (n v c : Nat) (d : BitVec 6)
  | load (n : Nat) (signed : Bool) (d : BitVec 6)
  | test (bit : Bool) (d : BitVec 6)
  | count (d : BitVec 6)
  deriving DecidableEq, Repr

/-- A posted operation of a group: an arrival (R291, R390), or an operation of the scalar stream that follows one still outstanding
(R309, R314; log 42). `seg`: for the scalar stream the number of segments issued before it, for a path the number of its segment. -/
structure Arrival where
  id : Nat
  grp : GroupRef
  tpc : Word
  obj : Place
  addr : Word
  attr : Nat
  op : PostOp
  lane : Bool
  seg : Nat
  posted : Bool                                -- its poison record has been posted
  deriving DecidableEq, Repr

/-- An array cell that `gbload` has loaded (R276); `clamp` holds a clamped cell. -/
structure Cell where
  die : Nat
  cell : Nat
  tsc : Int
  up : Bool
  col : Nat
  bias : Int
  cpl : List (Int × Nat)                       -- weight and array cell of the neighbour
  clamp : Bool
  deriving DecidableEq, Repr

/-- An accepted `gbsweep` or `gbread` (R281, R284, R285). -/
inductive GbWork where
  | sweep (beta : BitVec 16) (count : Nat) (arch : Bool) (k b : Word)
  | read (d : Desc) (fc : Nat) (held : Held)
  deriving DecidableEq, Repr

structure GbCmd where
  id : Nat
  grp : GroupRef
  tenant : Nat
  window : Nat
  work : GbWork
  deriving DecidableEq, Repr

/-- An accepted collective (R333, R334). -/
structure Coll where
  id : Nat
  grp : GroupRef
  core : Nat
  tenant : Nat
  pc : Word32
  reduce : Bool
  src : Desc
  dst : Desc
  sheld : Held
  dheld : Held
  dfmt : Nat
  members : List Nat
  seq : Nat
  bar : Nat
  runits : Nat
  rph : Option (Word × Place × Nat)             -- address, place and attribute of the phaser
  accepted : Nat                               -- AOC at acceptance
  deriving DecidableEq, Repr

/-- MOESI states (R209). -/
inductive Moesi where
  | modified | owned | exclusive | shared | invalid
  deriving DecidableEq, Repr

/-- A refused request waiting to be retried (R210). -/
structure Retry where
  port : Nat
  req : LineReq
  first : Nat                                  -- AOC of the first refusal
  count : Nat
  deriving DecidableEq, Repr

/-- A line of the directory (R209 to R211). -/
structure DirLine where
  line : Nat
  states : Vector Moesi 6
  refusals : Nat
  reserved : Option Nat
  waiting : List Retry
  deriving DecidableEq, Repr

/-- What the management controllers log (R195, R351, R355, R376). -/
inductive LogEvent where
  | ecc (at_ : ErrPlace) (corrected : Bool) | controllerDropped (controller : Nat) (addr : Nat) | link (dev : Nat) | machineCheck (g : GroupRef) (code : TrapCode)
  | recordDropped (tenant : Nat) | cxlWidth (width : Nat)
  deriving DecidableEq, Repr

/-- A range of the region map: host addresses, the device address of its first byte, and its tenant (R373). -/
structure Region where
  host : Nat
  size : Nat
  device : Nat
  tenant : Nat
  deriving DecidableEq, Repr

/-- The management registers and measurements (files 17, 19). -/
structure Management where
  pwrCeil : Nat
  clkCeil : Nat
  linkEn : BitVec 17
  mcw : Vector (Word × Word) 4
  uaId : Nat
  bootLock : Bool
  stStat : Word32
  safe : Bool
  clocks : Vector Nat 4                        -- arithmetic clock of each compute die, in MHz (R340)
  samples : List Nat
  hot : Vector Bool 4
  cxlWidth : Nat
  log : List LogEvent
  regions : List Region
  division : Nat
  tenantPtr : Vector Nat 4
  lastSlew : Nat
  deriving DecidableEq, Repr

/-- What an access of the host or a peer brought back (R330, R373). -/
inductive Reply where
  | none | data (bytes : List Byte) | log (events : List LogEvent) | refused (code : TrapCode) (aux : Nat)
  deriving DecidableEq, Repr

/-- One turn of the schedule (log 1): time passes, an event of the device takes place, or one agent of a group issues. -/
inductive Turn where
  | tick
  | event (i : Instr)
  | scalar (g : GroupRef)
  | lane (g : GroupRef) (slot : Bool)
  deriving DecidableEq, Repr

/-- The group, and the path slot of it, whose instruction `exec` runs. -/
structure Who where
  grp : GroupRef
  slot : Bool
  deriving DecidableEq, Repr

structure State where
  mem : Memory
  poison : List Nat                            -- poisoned sectors of `mem`: key / 32, strictly rising
  groups : List Group
  blocks : List Block
  launches : List Launch
  containers : List Container
  tenants : Vector Tenant 16
  versions : List Version
  cows : List Cow
  returning : List (Nat × Nat)                 -- pool pages on their way back: tenant, page (R328)
  kicks : List Kick
  arrivals : List Arrival
  cells : List Cell
  gbcmds : List GbCmd
  colls : List Coll
  engineAt : List (Nat × Nat)                  -- by core, the matrix command that was stepped last (R259; log 65)
  dir : List DirLine
  rho : Vector Nat 8
  owners : List (Nat × Nat)                    -- page key and owner device, where it is not the holder (R214)
  recovering : List (Nat × Nat)                -- peer and AOC at the loss of its link (R332)
  lost : List Nat
  present : Vector (BitVec 36) 4
  aoc : Word
  dcyc : Vector Nat 4                          -- cycles of each die in hundredths
  mgmt : Management
  reply : Reply
  schedule : List Turn
  who : Who
  nextId : Nat
  freeIx : Nat
  deriving DecidableEq, Repr

/-! ## The machine right after reset -/

def Memory.empty : Memory := ⟨[]⟩

def LaunchQueue.reset : LaunchQueue := ⟨0, false, false, false, 4, 0, 0, 0, 0, []⟩

def Ring.reset : Ring := ⟨0, false, false, 0, 6, 0, 0, []⟩

/-- A tenant's registers at reset: R48, R60, R203, R219, R274, R321, R349, R356, R377; the others 0 (log 5). -/
def Tenant.reset : Tenant :=
  { created := false, partition := 0, queues := Vector.replicate 8 LaunchQueue.reset, queuePtr := 0
    ocImg := 0, ocDst := 0, ocDsize := 0, ocBusy := false, ocLoading := false, ocLocked := [], ocStatus := 0, ocHandle := 0
    ocTmeas := List.replicate 32 0, l2pBase := 0, fq := Ring.reset, cq := Ring.reset
    xtl := 1000000, wdl := 100000, xstep := 0, drops := 0, txRoot := 0, asid := 0, gen := 0, vpBase := 0, npg := 0
    leases := Vector.replicate 4 0, sweeps := Vector.replicate 4 0, changes := Vector.replicate 4 0
    noise := Vector.replicate 4 0, mbArg0 := 0, mbArg1 := 0, mbBusy := none, mbStatus := 0
    twBase := 0, twSize := 0, hdmDb := [], vectors := [], vectorsDue := [] }

/-- Management registers at reset (R330, R375, R376); ceilings and clock at their maxima (log 5). -/
def Management.reset : Management :=
  { pwrCeil := 2600, clkCeil := 1250, linkEn := 0, mcw := Vector.replicate 4 (0, 0), uaId := 0, bootLock := false
    stStat := 0x80000000, safe := false, clocks := Vector.replicate 4 1250, samples := []
    hot := Vector.replicate 4 false, cxlWidth := 16, log := []
    regions := [], division := 1, tenantPtr := Vector.replicate 4 0, lastSlew := 0 }

/-- The device right after reset: no tenant, no launch, no group; memory lists nothing (log 4); all cores present
(log 5); the schedule is empty (log 1). -/
def State.reset : State :=
  { mem := Memory.empty, poison := [], groups := [], blocks := [], launches := [], containers := []
    tenants := Vector.replicate 16 Tenant.reset, versions := [], cows := [], returning := []
    kicks := [], arrivals := [], cells := [], gbcmds := [], colls := [], engineAt := [], dir := [], rho := Vector.replicate 8 0
    owners := [], recovering := [], lost := [], present := Vector.replicate 4 0xFFFFFFFFF, aoc := 0
    dcyc := Vector.replicate 4 0, mgmt := Management.reset, reply := .none, schedule := []
    who := ⟨⟨0, 0⟩, false⟩, nextId := 1, freeIx := 0 }

end Sys2Proof.Machine
end

