-- ==== Sys2Proof/Machine/Flags.lean ====
section
/-! DEFINITION. The status flags of `LST` (R158). -/

namespace Sys2Proof.Machine

/-- The flags of R158, each as its bit of `LST`. -/
def flSat : BitVec 16 := 0x01#16
def flInv : BitVec 16 := 0x02#16
def flDz : BitVec 16 := 0x04#16
def flOvf : BitVec 16 := 0x08#16
def flUnf : BitVec 16 := 0x10#16
def flInx : BitVec 16 := 0x20#16
def flAcu : BitVec 16 := 0x40#16
def flAbn : BitVec 16 := 0x80#16

/-- No flag. -/
def flNone : BitVec 16 := 0#16

/-- A flag that is raised when `b` holds. -/
def flIf (b : Bool) (f : BitVec 16) : BitVec 16 := if b then f else flNone

/-- Raising flags: they are sticky (R158). -/
def Lane.raise (l : Lane) (f : BitVec 16) : Lane := { l with lst := l.lst ||| f }

/-- `lclr`: clears the bits whose mask bits are 1; reserved positions read 0 and stay so (R158, R159). -/
def Lane.clearFlags (l : Lane) (k : BitVec 16) : Lane := { l with lst := l.lst &&& ~~~k }

end Sys2Proof.Machine
end

