-- ==== Sys2Proof/Machine/Float.lean ====
section
/-! DEFINITION. Floating-point formats and rounding (R28 to R34), on exact integers and rationals. -/

namespace Sys2Proof.Machine

open Sys2Proof

/-- What the largest exponent field means (R28). -/
inductive FmtKind where
  | ieee | e4m3 | finite
  deriving DecidableEq, Repr

/-- A floating-point format: exponent bits, fraction bits, bias (R28). -/
structure FFmt where
  eb : Nat
  mb : Nat
  bias : Nat
  kind : FmtKind
  deriving DecidableEq, Repr

/-- A datum of a format: a NaN with its encoding and whether it is signalling, an infinity, or (−1)^neg · m · 2^e. -/
inductive FVal where
  | nan (neg : Bool) (frac : Nat) (signalling : Bool)
  | inf (neg : Bool)
  | fin (neg : Bool) (m : Nat) (e : Int)
  deriving DecidableEq, Repr

/-- A result and the flags it raises. -/
structure FRes where
  bits : Nat
  flags : BitVec 16
  deriving DecidableEq, Repr

/-- A non-negative exact rational with a sign. -/
structure Exact where
  neg : Bool
  num : Nat
  den : Nat
  deriving DecidableEq, Repr

def fp64 : FFmt := ⟨11, 52, 1023, .ieee⟩
def fp32 : FFmt := ⟨8, 23, 127, .ieee⟩
def fp16 : FFmt := ⟨5, 10, 15, .ieee⟩
def fpBf16 : FFmt := ⟨8, 7, 127, .ieee⟩
def fpE5m2 : FFmt := ⟨5, 2, 15, .ieee⟩
def fpE4m3 : FFmt := ⟨4, 3, 7, .e4m3⟩
def fpE3m2 : FFmt := ⟨3, 2, 3, .finite⟩
def fpE2m3 : FFmt := ⟨2, 3, 1, .finite⟩
def fpE2m1 : FFmt := ⟨2, 1, 1, .finite⟩

/-- The format of a floating-point type; FP64 for the types that are none. -/
def fmtOf : Ty → FFmt
  | .f32 => fp32 | .f16 => fp16 | .bf16 => fpBf16 | .e4m3 => fpE4m3 | .e5m2 => fpE5m2 | _ => fp64

def FFmt.signBit (f : FFmt) : Nat := 2 ^ (f.eb + f.mb)

/-- All ones in the exponent field, fraction 0. -/
def FFmt.infMag (f : FFmt) : Nat := (2 ^ f.eb - 1) * 2 ^ f.mb

/-- Magnitude code of the largest finite value (R28). -/
def FFmt.maxMag (f : FFmt) : Nat :=
  match f.kind with
  | .ieee => f.infMag - 1
  | .e4m3 => 2 ^ (f.eb + f.mb) - 2
  | .finite => 2 ^ (f.eb + f.mb) - 1

def FFmt.quietBit (f : FFmt) : Nat := 2 ^ (f.mb - 1)

/-- The canonical NaN (R29). -/
def FFmt.canonical (f : FFmt) : Nat :=
  match f.kind with
  | .e4m3 => 2 ^ (f.eb + f.mb) - 1
  | _ => f.infMag + f.quietBit

/-- A sign in front of a magnitude code. -/
def FFmt.signed (f : FFmt) (neg : Bool) (mag : Nat) : Nat := if neg then f.signBit + mag else mag

/-- What overflow to infinity stores: the infinity, or in E4M3 the NaN of that sign (R32); the largest finite value in a
format that has neither. -/
def FFmt.infCode (f : FFmt) : Nat :=
  match f.kind with
  | .ieee => f.infMag
  | .e4m3 => f.canonical
  | .finite => f.maxMag

/-- Exponent of the unit in the last place of subnormals and of the smallest normals. -/
def FFmt.minQ (f : FFmt) : Int := 1 - (f.bias : Int) - (f.mb : Int)

/-- Reading an encoding (R28). -/
def FFmt.decode (f : FFmt) (bits : Nat) : FVal :=
  let neg := bits / f.signBit % 2 == 1
  let mag := bits % f.signBit
  let e := mag / 2 ^ f.mb
  let m := mag % 2 ^ f.mb
  let nan := match f.kind with
    | .ieee => decide (mag > f.infMag)
    | .e4m3 => decide (mag = f.canonical)
    | .finite => false
  if nan then .nan neg m (f.kind = .ieee && m / f.quietBit % 2 == 0)
  else if f.kind = .ieee && mag = f.infMag then .inf neg
  else if e = 0 then .fin neg m f.minQ
  else .fin neg (m + 2 ^ f.mb) ((e : Int) - 1 + f.minQ)

def FVal.isNan : FVal → Bool
  | .nan .. => true
  | _ => false

def FVal.isSignalling : FVal → Bool
  | .nan _ _ s => s
  | _ => false

def FVal.isNeg : FVal → Bool
  | .nan n _ _ => n
  | .inf n => n
  | .fin n _ _ => n

def FVal.isZero : FVal → Bool
  | .fin _ m _ => m == 0
  | _ => false

def FVal.isInf : FVal → Bool
  | .inf _ => true
  | _ => false

/-- A NaN of source format `s` in format `f`: sign kept, payload aligned at the top, quiet bit set (R30). -/
def FFmt.nanFrom (f s : FFmt) (neg : Bool) (frac : Nat) : Nat :=
  match f.kind with
  | .ieee =>
    let payload := match s.kind with
      | .ieee => if s.mb ≤ f.mb then frac * 2 ^ (f.mb - s.mb) else frac / 2 ^ (s.mb - f.mb)
      | _ => 0
    f.signed neg (f.infMag + (payload % f.quietBit) + f.quietBit)
  | _ => f.signed neg f.canonical

/-! ## Rounding -/

/-- Floor of log2 of num / den, for num and den not 0. -/
def log2Ratio (num den : Nat) : Int :=
  let d : Int := (Nat.log2 num : Int) - (Nat.log2 den : Int)
  let ge := if d ≥ 0 then decide (num ≥ den * 2 ^ d.toNat) else decide (num * 2 ^ (-d).toNat ≥ den)
  if ge then d else d - 1

/-- num / (den · 2^q) as quotient, remainder and divisor. -/
def scaled (num den : Nat) (q : Int) : Nat × Nat × Nat :=
  let n := if q < 0 then num * 2 ^ (-q).toNat else num
  let d := if q < 0 then den else den * 2 ^ q.toNat
  (n / d, n % d, d)

/-- Whether the magnitude is rounded up from the quotient `n` with remainder `r` of `d` (R32, R33). -/
def roundsUp (rm : Rm) (draw : Nat) (neg : Bool) (n r d : Nat) : Bool :=
  match rm with
  | .rn => decide (2 * r > d) || (2 * r == d && n % 2 == 1)
  | .rz => false
  | .rd => neg && r != 0
  | .ru => !neg && r != 0
  | .rs => decide (draw < r * 2 ^ 32 / d)

/-- The magnitude code of `n` units 2^q, whatever its size (unbounded exponent). -/
def FFmt.codeOf (f : FFmt) (n : Nat) (q : Int) : Nat :=
  (q - f.minQ).toNat * 2 ^ f.mb + n

/-- What an overflow gives (R32, R175): `sat` asks for the largest finite value. -/
def FFmt.overflow (f : FFmt) (rm : Rm) (sat neg : Bool) : FRes :=
  let toMax := sat || (match rm with | .rn => false | .rz => true | .rd => !neg | .ru => neg | .rs => false)
  ⟨f.signed neg (if toMax then f.maxMag else f.infCode), flOvf ||| flInx⟩

/-- Rounding an exact value that is not 0 into a format, with its flags (R32, R33). -/
def FFmt.round (f : FFmt) (rm : Rm) (draw : Nat) (sat : Bool) (x : Exact) : FRes :=
  let l := log2Ratio x.num x.den
  let qn := l - (f.mb : Int)
  let q := if qn < f.minQ then f.minQ else qn
  let (n, r, d) := scaled x.num x.den q
  let n' := if roundsUp rm draw x.neg n r d then n + 1 else n
  let code := f.codeOf n' q
  let inexact := r != 0
  if code > f.maxMag then f.overflow rm sat x.neg
  else
    let tiny :=
      if rm = .rs then decide (code < 2 ^ f.mb)
      else if qn < f.minQ then
        let (u, ur, ud) := scaled x.num x.den qn
        let u' := if roundsUp rm draw x.neg u ur ud then u + 1 else u
        decide (¬ (qn = f.minQ - 1 ∧ u' = 2 ^ (f.mb + 1)))
      else false
    ⟨f.signed x.neg code, flIf inexact flInx ||| flIf (inexact && tiny) flUnf⟩

/-- The exact value of a dyadic number. -/
def Exact.ofDyadic (neg : Bool) (m : Nat) (e : Int) : Exact :=
  if e < 0 then ⟨neg, m, 2 ^ (-e).toNat⟩ else ⟨neg, m * 2 ^ e.toNat, 1⟩

/-- A signed integer times 2^e. -/
def Exact.ofInt (m : Int) (e : Int) : Exact := Exact.ofDyadic (decide (m < 0)) m.natAbs e

/-- The product of two exact values. -/
def Exact.mul (a b : Exact) : Exact := ⟨xor a.neg b.neg, a.num * b.num, a.den * b.den⟩

/-- The sum of two exact values. -/
def Exact.add (a b : Exact) : Exact :=
  let x : Int := (if a.neg then -1 else 1) * (a.num * b.den : Nat) + (if b.neg then -1 else 1) * (b.num * a.den : Nat)
  ⟨decide (x < 0), x.natAbs, a.den * b.den⟩

/-- Whether `a ≤ b`, as real numbers. -/
def Exact.le (a b : Exact) : Bool :=
  let l : Int := (if a.neg then -1 else 1) * (a.num * b.den : Nat)
  let r : Int := (if b.neg then -1 else 1) * (b.num * a.den : Nat)
  decide (l ≤ r)

def Exact.neg' (a : Exact) : Exact := { a with neg := !a.neg }

def Exact.isZero (a : Exact) : Bool := a.num == 0

def Exact.zero : Exact := ⟨false, 0, 1⟩

/-- The exact value of a finite datum. -/
def FVal.exact : FVal → Exact
  | .fin n m e => Exact.ofDyadic n m e
  | _ => Exact.zero

/-- Rounding an exact value with a given sign for an exact zero (R169). -/
def FFmt.roundOr (f : FFmt) (rm : Rm) (draw : Nat) (sat : Bool) (zeroNeg : Bool) (x : Exact) : FRes :=
  if x.num = 0 then ⟨f.signed zeroNeg 0, flNone⟩ else f.round rm draw sat x

/-! ## NaN handling -/

/-- The result when some source is NaN: the first NaN, made quiet; INV when it was signalling (R30). -/
def FFmt.firstNan (f : FFmt) : List FVal → Option FRes
  | [] => none
  | .nan neg frac s :: _ => some ⟨f.nanFrom f neg frac, flIf s flInv⟩
  | _ :: rest => f.firstNan rest

/-- An invalid operation on numbers (R30). -/
def FFmt.invalid (f : FFmt) : FRes := ⟨f.canonical, flInv⟩

def FFmt.infinity (f : FFmt) (neg : Bool) : FRes := ⟨f.signed neg f.infMag, flNone⟩

/-! ## Addition, multiplication, fused multiply-add (R169) -/

/-- The sign of an exact zero sum of two terms (R169). -/
def zeroSign (rm : Rm) (na nb : Bool) (bothZero : Bool) : Bool :=
  if bothZero && na == nb then na else rm = .rd

def FFmt.addNum (f : FFmt) (rm : Rm) (draw : Nat) (a b : FVal) : FRes :=
  match a, b with
  | .inf na, .inf nb => if na == nb then f.infinity na else f.invalid
  | .inf na, _ => f.infinity na
  | _, .inf nb => f.infinity nb
  | a, b => f.roundOr rm draw false (zeroSign rm a.isNeg b.isNeg (a.isZero && b.isZero)) (a.exact.add b.exact)

def FVal.negate : FVal → FVal
  | .nan n m s => .nan n m s
  | .inf n => .inf (!n)
  | .fin n m e => .fin (!n) m e

def FFmt.add (f : FFmt) (rm : Rm) (draw a b : Nat) : FRes :=
  let a := f.decode a
  let b := f.decode b
  (f.firstNan [a, b]).getD (f.addNum rm draw a b)

def FFmt.sub (f : FFmt) (rm : Rm) (draw a b : Nat) : FRes :=
  let a := f.decode a
  let b := f.decode b
  (f.firstNan [a, b]).getD (f.addNum rm draw a b.negate)

def FFmt.mulNum (f : FFmt) (rm : Rm) (draw : Nat) (a b : FVal) : FRes :=
  let neg := xor a.isNeg b.isNeg
  if a.isInf || b.isInf then (if a.isZero || b.isZero then f.invalid else f.infinity neg)
  else f.roundOr rm draw false neg (a.exact.mul b.exact)

def FFmt.mul (f : FFmt) (rm : Rm) (draw a b : Nat) : FRes :=
  let a := f.decode a
  let b := f.decode b
  (f.firstNan [a, b]).getD (f.mulNum rm draw a b)

/-- Fused multiply and add of numbers (R169, R32): a product and an addend that are zeros of one sign keep it, as a sum of two like
zeros does (log 63, DESIGN CHOICE). -/
def FFmt.fmaNum (f : FFmt) (rm : Rm) (draw : Nat) (a b c : FVal) : FRes :=
  let neg := xor a.isNeg b.isNeg
  if a.isInf || b.isInf then
    if a.isZero || b.isZero then f.invalid
    else if c.isInf && c.isNeg != neg then f.invalid
    else f.infinity neg
  else if c.isInf then f.infinity c.isNeg
  else
    let p := a.exact.mul b.exact
    f.roundOr rm draw false (zeroSign rm neg c.isNeg (p.isZero && c.isZero)) (p.add c.exact)

def FFmt.fma (f : FFmt) (rm : Rm) (draw a b c : Nat) : FRes :=
  let a := f.decode a
  let b := f.decode b
  let c := f.decode c
  (f.firstNan [a, b, c]).getD (f.fmaNum rm draw a b c)

/-! ## Order (R31, R170, R179) -/

/-- A number's place in the order in which −0 counts as less than +0 (R31). -/
def FFmt.key (f : FFmt) (bits : Nat) : Int :=
  if bits / f.signBit % 2 == 1 then -((bits % f.signBit : Nat) : Int) - 1 else (bits % f.signBit : Nat)

/-- A number's place in the order in which −0 equals +0 (R179). -/
def FFmt.valueKey (f : FFmt) (bits : Nat) : Int :=
  if bits / f.signBit % 2 == 1 then -((bits % f.signBit : Nat) : Int) else (bits % f.signBit : Nat)

def FFmt.isNan (f : FFmt) (bits : Nat) : Bool := (f.decode bits).isNan

def FFmt.isSignalling (f : FFmt) (bits : Nat) : Bool := (f.decode bits).isSignalling

/-- `min` and `max`: a NaN loses to any number; INV for any signalling operand (R31, R170). -/
def FFmt.minMax (f : FFmt) (max : Bool) (a b : Nat) : FRes :=
  let flags := flIf (f.isSignalling a || f.isSignalling b) flInv
  let bits :=
    if f.isNan a then (if f.isNan b then f.canonical else b)
    else if f.isNan b then a
    else if max then (if f.key a < f.key b then b else a)
    else (if f.key b < f.key a then b else a)
  ⟨bits, flags⟩

/-- `setp` on floating-point operands: the comparison and whether it sets INV (R179). -/
def FFmt.compare (f : FFmt) (c : Cmp) (a b : Nat) : Bool × Bool :=
  let nan := f.isNan a || f.isNan b
  let snan := f.isSignalling a || f.isSignalling b
  let ka := f.valueKey a
  let kb := f.valueKey b
  match c with
  | .eq => (!nan && ka == kb, snan)
  | .ne => (nan || ka != kb, snan)
  | .lt => (!nan && decide (ka < kb), nan)
  | .le => (!nan && decide (ka ≤ kb), nan)
  | .gt => (!nan && decide (ka > kb), nan)
  | .ge => (!nan && decide (ka ≥ kb), nan)
  | .num => (!nan, snan)
  | .nan => (nan, snan)

end Sys2Proof.Machine
end

