-- ==== Sys2Proof/Machine/Elementary.lean ====
section
/-! DEFINITION. `div`, `sqrt`, `rcp`, `rsqrt`, `exp2`, `lg2`, `sin` and `cos` (R171): the exact result rounded once.
Irrational results are enclosed in intervals of growing precision until both ends round alike (log 9). -/

namespace Sys2Proof.Machine

open Sys2Proof

/-! ## Division and square roots -/

/-- The quotient of two numbers (R171). -/
def FFmt.divNum (f : FFmt) (rm : Rm) (a b : FVal) : FRes :=
  let neg := xor a.isNeg b.isNeg
  match a, b with
  | .inf _, .inf _ => f.invalid
  | .inf _, _ => f.infinity neg
  | _, .inf _ => ⟨f.signed neg 0, flNone⟩
  | a, b =>
    if b.isZero then (if a.isZero then f.invalid else ⟨f.signed neg f.infMag, flDz⟩)
    else
      let x := a.exact
      let y := b.exact
      f.roundOr rm 0 false neg ⟨neg, x.num * y.den, x.den * y.num⟩

def FFmt.div (f : FFmt) (rm : Rm) (a b : Nat) : FRes :=
  let a := f.decode a
  let b := f.decode b
  (f.firstNan [a, b]).getD (f.divNum rm a b)

def FFmt.rcp (f : FFmt) (rm : Rm) (a : Nat) : FRes :=
  let a := f.decode a
  (f.firstNan [a]).getD (f.divNum rm (.fin false 1 0) a)

/-- One step of Newton's iteration for the integer square root, by bits from the top: `r` so far, `k` the next bit. -/
def isqrtBits (n : Nat) : Nat → Nat → Nat
  | 0, r => r
  | k + 1, r => let r' := r + 2 ^ k; isqrtBits n k (if r' * r' ≤ n then r' else r)

/-- The integer square root. -/
def isqrt (n : Nat) : Nat := isqrtBits n (Nat.log2 n / 2 + 1) 0

/-- A rational that rounds, in every format and mode of the device, as √(num/den) does: the root itself when it is a
multiple of 2^−k, else a point strictly inside the interval of multiples of 2^−k that holds it. -/
def sqrtProxy (num den : Nat) (k : Nat) : Exact :=
  let n := num * 4 ^ k
  let s := isqrt (n / den)
  if s * s * den = n then ⟨false, s, 2 ^ k⟩ else ⟨false, 2 * s + 1, 2 ^ (k + 1)⟩

/-- Bits behind the point that `sqrtProxy` needs for an operand of this size. -/
def sqrtBits (num den : Nat) : Nat := 128 + ((Nat.log2 den : Int) - (Nat.log2 num : Int)).toNat

def FFmt.sqrtNum (f : FFmt) (rm : Rm) (a : FVal) : FRes :=
  if a.isZero then ⟨f.signed a.isNeg 0, flNone⟩
  else if a.isNeg then f.invalid
  else if a.isInf then f.infinity false
  else let x := a.exact; f.round rm 0 false (sqrtProxy x.num x.den (sqrtBits x.num x.den))

def FFmt.sqrt (f : FFmt) (rm : Rm) (a : Nat) : FRes :=
  let a := f.decode a
  (f.firstNan [a]).getD (f.sqrtNum rm a)

def FFmt.rsqrtNum (f : FFmt) (rm : Rm) (a : FVal) : FRes :=
  if a.isZero then ⟨f.signed a.isNeg f.infMag, flDz⟩
  else if a.isNeg then f.invalid
  else if a.isInf then ⟨0, flNone⟩
  else let x := a.exact; f.round rm 0 false (sqrtProxy x.den x.num (sqrtBits x.den x.num))

def FFmt.rsqrt (f : FFmt) (rm : Rm) (a : Nat) : FRes :=
  let a := f.decode a
  (f.firstNan [a]).getD (f.rsqrtNum rm a)

/-! ## Fixed-point series, in units of 2^−k -/

/-- An interval of integers that holds 2^k times a real number. -/
structure Ival where
  lo : Int
  hi : Int
  deriving DecidableEq, Repr

def Ival.widen (x : Int) (err : Nat) : Ival := ⟨x - err, x + err⟩

/-- Terms of atanh(1/n) or atan(1/n): t holds 2^k / n^(2i+1). -/
def atanTerms (n2 : Nat) (alt : Bool) : Nat → Nat → Nat → Int
  | 0, _, _ => 0
  | fuel + 1, t, i =>
    if t = 0 then 0
    else
      let v : Int := (t / (2 * i + 1) : Nat)
      (if alt && i % 2 == 1 then -v else v) + atanTerms n2 alt fuel (t / n2) (i + 1)

/-- 2^k · ln 2 = 2·atanh(1/3), each term cut off: the error is below k + 8 units. -/
def ln2Fix (k : Nat) : Int := 2 * atanTerms 9 false (k + 2) (2 ^ k / 3) 0

/-- 2^k · π by Machin's formula, with an error below 32·(k + 8) units. -/
def piFix (k : Nat) : Int :=
  4 * (4 * atanTerms 25 true (k + 2) (2 ^ k / 5) 0 - atanTerms 57121 true (k + 2) (2 ^ k / 239) 0)

/-- Σ t^i / i! behind a first term: `t` holds the current term. -/
def expTerms (x : Int) (k : Nat) : Nat → Int → Nat → Int
  | 0, _, _ => 0
  | fuel + 1, t, i => if t = 0 then 0 else t + expTerms x k fuel (t * x / (2 ^ k * (i + 1) : Nat)) (i + 1)

/-- Σ (−1)^i t^(2i+c) / (2i+c)!: `t` holds the current term with its sign. -/
def trigTerms (x2 : Int) (k : Nat) : Nat → Int → Nat → Int
  | 0, _, _ => 0
  | fuel + 1, t, i =>
    if t = 0 ∨ t = -1 then 0
    else t + trigTerms x2 k fuel (-(t * x2 / (2 ^ k * ((i + 1) * (i + 2)) : Nat))) (i + 2)

/-- Σ z^(2i+1) / (2i+1). -/
def atanhTerms (z2 : Int) (k : Nat) : Nat → Int → Nat → Int
  | 0, _, _ => 0
  | fuel + 1, t, i => if t = 0 then 0 else t / (2 * i + 1 : Nat) + atanhTerms z2 k fuel (t * z2 / (2 ^ k : Nat)) (i + 1)

/-- An interval around 2^k · 2^y for y = num / den in [0, 1). -/
def exp2Frac (num den k : Nat) : Ival :=
  let g := k + 64
  let y : Int := ((num * 2 ^ g / den : Nat) : Int) * ln2Fix g / (2 ^ g : Nat)
  Ival.widen (expTerms y g (g + 2) (2 ^ g : Nat) 0 / (2 ^ 64 : Nat)) 2

/-- An interval around 2^k · log2 y for y = num / den in [1, 2). -/
def lg2Frac (num den k : Nat) : Ival :=
  let g := k + 64
  let z : Int := (((num - den) * 2 ^ g / (num + den) : Nat) : Int)
  let ln : Int := 2 * atanhTerms (z * z / (2 ^ g : Nat)) g (g + 2) z 0
  Ival.widen (ln * (2 ^ k : Nat) / ln2Fix g) 2

/-- Argument reduction: the quadrant of x = num / den and, in units of 2^−g, x minus the nearest multiple of π/2. -/
def trigReduce (neg : Bool) (num den g : Nat) : Int × Int :=
  let big := g + Nat.log2 (num / den + 1) + 8
  let p := piFix big
  let x : Int := (num * 2 ^ big / den : Nat)
  let q := (2 * x + p / 2) / p
  let r := (x - q * p / 2) / (2 ^ (big - g) : Nat)
  if neg then (-q, -r) else (q, r)

/-- An interval around 2^k · sin x (`c` false) or cos x. -/
def trigIval (c neg : Bool) (num den k : Nat) : Ival :=
  let g := k + 64
  let (q, r) := trigReduce neg num den g
  let r2 := r * r / (2 ^ g : Nat)
  let quad := ((if c then q + 1 else q) % 4).toNat
  let s := trigTerms r2 g (g + 2) r 1
  let co := trigTerms r2 g (g + 2) (2 ^ g : Nat) 0
  let v := if quad = 0 then s else if quad = 1 then co else if quad = 2 then -s else -co
  Ival.widen (v / (2 ^ 64 : Nat)) 2

/-- Rounding an interval of 2^−k units, scaled by 2^e: the result when both ends round alike. -/
def FFmt.roundIval (f : FFmt) (rm : Rm) (v : Ival) (e : Int) : Option FRes :=
  if v.lo ≤ 0 ∧ 0 ≤ v.hi then none
  else
    let a := f.round rm 0 false (Exact.ofInt v.lo e)
    let b := f.round rm 0 false (Exact.ofInt v.hi e)
    if a.bits = b.bits then some ⟨a.bits, a.flags ||| b.flags ||| flInx⟩ else none

/-- Interval refinement: precision doubles until the ends round alike. -/
def FFmt.refine (f : FFmt) (rm : Rm) (iv : Nat → Ival) (e : Int) : Nat → Nat → Option FRes
  | 0, _ => none
  | fuel + 1, k =>
    match f.roundIval rm (iv k) (e - k) with
    | some r => some r
    | none => FFmt.refine f rm iv e fuel (2 * k)

/-- Refinement with its fuel, and the free value behind it (log 9). -/
def FFmt.refined (f : FFmt) (rm : Rm) (op : Nat) (operand : Nat) (iv : Nat → Ival) (e : Int) : FRes :=
  (f.refine rm iv e 6 256).getD
    ⟨Config.elementary op (1 + f.eb + f.mb) operand, Config.elementaryFlags op (1 + f.eb + f.mb) operand⟩

/-! ## The elementary functions -/

/-- 2^x for a finite x (R171); beyond ±5000 every format overflows or is far below its smallest subnormal. -/
def FFmt.exp2Num (f : FFmt) (rm : Rm) (bits : Nat) (x : Exact) : FRes :=
  let fl := x.num / x.den
  if fl ≥ 5000 then f.round rm 0 false (Exact.ofDyadic false 3 (if x.neg then -5001 else 5000))
  else
    let frac := x.num % x.den
    let i : Int := if x.neg then (if frac = 0 then -(fl : Int) else -(fl : Int) - 1) else fl
    if frac = 0 then f.round rm 0 false (Exact.ofDyadic false 1 i)
    else f.refined rm 4 bits (fun k => exp2Frac (if x.neg then x.den - frac else frac) x.den k) i

def FFmt.exp2 (f : FFmt) (rm : Rm) (a : Nat) : FRes :=
  let v := f.decode a
  (f.firstNan [v]).getD
    (match v with
     | .inf n => if n then ⟨0, flNone⟩ else f.infinity false
     | v => if v.isZero then f.round rm 0 false ⟨false, 1, 1⟩ else f.exp2Num rm a v.exact)

/-- log2 of a positive number (R171). -/
def FFmt.lg2Num (f : FFmt) (rm : Rm) (bits : Nat) (x : Exact) : FRes :=
  let l := log2Ratio x.num x.den
  let num := if l < 0 then x.num * 2 ^ (-l).toNat else x.num
  let den := if l < 0 then x.den else x.den * 2 ^ l.toNat
  if num = den then f.roundOr rm 0 false false (Exact.ofInt l 0)
  else
    f.refined rm 5 bits
      (fun k => let v := lg2Frac num den k; ⟨v.lo + l * (2 ^ k : Nat), v.hi + l * (2 ^ k : Nat)⟩) 0

def FFmt.lg2 (f : FFmt) (rm : Rm) (a : Nat) : FRes :=
  let v := f.decode a
  (f.firstNan [v]).getD
    (if v.isZero then ⟨f.signed true f.infMag, flDz⟩
     else if v.isNeg then f.invalid
     else if v.isInf then f.infinity false
     else f.lg2Num rm a v.exact)

/-- sin or cos of a number that is not 0 (R171). Below 2^−60 (2^−30 for cos) a point just below x (below 1) lies in the
same rounding interval as the exact result. -/
def FFmt.trigNum (f : FFmt) (rm : Rm) (c : Bool) (bits : Nat) (x : Exact) : FRes :=
  let l := log2Ratio x.num x.den
  if c then
    if l < -30 then f.round rm 0 false ⟨false, 2 ^ 100 - 1, 2 ^ 100⟩
    else f.refined rm 7 bits (fun k => trigIval true x.neg x.num x.den k) 0
  else if l < -60 then f.round rm 0 false ⟨x.neg, x.num * (2 ^ 100 - 1), x.den * 2 ^ 100⟩
  else f.refined rm 6 bits (fun k => trigIval false x.neg x.num x.den k) 0

def FFmt.trig (f : FFmt) (rm : Rm) (c : Bool) (a : Nat) : FRes :=
  let v := f.decode a
  (f.firstNan [v]).getD
    (if v.isInf then f.invalid
     else if v.isZero then (if c then f.round rm 0 false ⟨false, 1, 1⟩ else ⟨f.signed v.isNeg 0, flNone⟩)
     else f.trigNum rm c a v.exact)

end Sys2Proof.Machine
end

