-- ==== Sys2Proof/Machine/Convert.lean ====
section
/-! DEFINITION. Conversions between formats (R173 to R178) and the exact values of MX and G4 elements (R36 to R40). -/

namespace Sys2Proof.Machine

open Sys2Proof

/-! ## Integers -/

/-- A `w`-bit pattern read as signed or unsigned (R27). -/
def readInt (signed : Bool) (w : Nat) (bits : Nat) : Int :=
  if signed && decide (2 ^ (w - 1) ≤ bits) then (bits : Int) - (2 ^ w : Nat) else bits

/-- `Wrap` (R163): the low `w` bits. -/
def wrapInt (w : Nat) (x : Int) : Nat := (x % (2 ^ w : Nat)).toNat

/-- The least value of a type. -/
def minInt (signed : Bool) (w : Nat) : Int := if signed then -((2 ^ (w - 1) : Nat) : Int) else 0

/-- The greatest value of a type. -/
def maxInt (signed : Bool) (w : Nat) : Int := if signed then ((2 ^ (w - 1) : Nat) : Int) - 1 else ((2 ^ w : Nat) : Int) - 1

/-- A value clamped to the range of a type. -/
def clampInt (signed : Bool) (w : Nat) (x : Int) : Int := max (minInt signed w) (min x (maxInt signed w))

/-- `Wrap` or, with `.sat`, `Sat` (R163). -/
def writeInt (sat signed : Bool) (w : Nat) (x : Int) : FRes :=
  if sat then
    let y := clampInt signed w x
    ⟨wrapInt w y, flIf (y != x) flSat⟩
  else ⟨wrapInt w x, flNone⟩

/-! ## Among ordinary types (R175) -/

/-- An integer to a floating-point format. -/
def FFmt.ofInt (f : FFmt) (rm : Rm) (draw : Nat) (sat : Bool) (x : Int) : FRes :=
  f.roundOr rm draw sat false (Exact.ofInt x 0)

/-- Between floating-point formats; NaNs as R30, infinities as R175. -/
def FFmt.ofFloat (f s : FFmt) (rm : Rm) (draw : Nat) (sat : Bool) (bits : Nat) : FRes :=
  match s.decode bits with
  | .nan neg frac sig => ⟨f.nanFrom s neg frac, flIf sig flInv⟩
  | .inf neg =>
    match f.kind with
    | .ieee => f.infinity neg
    | _ => ⟨f.signed neg (if sat then f.maxMag else f.infCode), flOvf ||| flInx⟩
  | v => f.roundOr rm draw sat v.isNeg v.exact

/-- An exact value rounded to an integer in a mode, and whether that changes it. -/
def roundInt (rm : Rm) (draw : Nat) (x : Exact) : Int × Bool :=
  let n := x.num / x.den
  let r := x.num % x.den
  let n' := if roundsUp rm draw x.neg n r x.den then n + 1 else n
  (if x.neg then -(n' : Int) else n', r != 0)

/-- Floating point to an integer type: a NaN gives 0, a value out of range the nearest end, both with INV alone (R175). -/
def FFmt.toInt (s : FFmt) (rm : Rm) (draw : Nat) (signed : Bool) (w : Nat) (bits : Nat) : FRes :=
  match s.decode bits with
  | .nan .. => ⟨0, flInv⟩
  | .inf neg => ⟨wrapInt w (if neg then minInt signed w else maxInt signed w), flInv⟩
  | v =>
    let (x, inexact) := roundInt rm draw v.exact
    let y := clampInt signed w x
    if y = x then ⟨wrapInt w x, flIf inexact flInx⟩ else ⟨wrapInt w y, flInv⟩

/-- One element of `cvt` among ordinary types (R173 rows 1 to 4, R175). -/
def cvtElem (dt st : Ty) (rm : Rm) (draw : Nat) (sat : Bool) (bits : Nat) : FRes :=
  if dt.isInt then
    if st.isInt then writeInt sat dt.isSigned dt.width (readInt st.isSigned st.width bits)
    else (fmtOf st).toInt rm draw dt.isSigned dt.width bits
  else if st.isInt then (fmtOf dt).ofInt rm draw sat (readInt st.isSigned st.width bits)
  else (fmtOf dt).ofFloat (fmtOf st) rm draw sat bits

/-! ## Reading MX and G4 elements -/

/-- The value of a scaled element: a NaN, an infinity, or an exact number whose `neg` is also the sign of a zero. -/
inductive EVal where
  | nan
  | inf (neg : Bool)
  | num (x : Exact)
  deriving DecidableEq, Repr

/-- The value of a datum of a plain format, read as an element. -/
def EVal.ofFVal : FVal → EVal
  | .nan .. => .nan
  | .inf n => .inf n
  | .fin n m e => .num (Exact.ofDyadic n m e)

/-- The element format of an MX block; FP8 stands in for MXINT8, which is no floating-point format. -/
def mxkFmt : Mxk → FFmt
  | .e4m3 => fpE4m3 | .e5m2 => fpE5m2 | .e3m2 => fpE3m2 | .e2m3 => fpE2m3 | .e2m1 => fpE2m1 | .int8 => fpE4m3

/-- The exact value of an MX element under its scale code (R36). -/
def mxElem (k : Mxk) (code scale : Nat) : EVal :=
  let scaleBy (x : Exact) : Exact := x.mul (Exact.ofDyadic false 1 ((scale : Int) - 127))
  if k = .int8 then
    if scale = 255 then .nan else .num (scaleBy (Exact.ofInt (readInt true 8 code) (-6)))
  else
    match EVal.ofFVal ((mxkFmt k).decode code) with
    | .num x => if scale = 255 then .nan else .num (scaleBy x)
    | .inf n => .inf n
    | .nan => .nan

/-- The G4 codebook of R38: FP16 patterns of codes 8 to 15; codes 0 to 7 are the negatives of codes 15 to 8. -/
def g4Codebook : List Nat := [0x2963, 0x3013, 0x32E9, 0x34F9, 0x36AB, 0x3856, 0x39A9, 0x3C00]

/-- The exact value T of a G4 code (R38). -/
def g4Value (code : Nat) : Exact :=
  if code < 8 then ((fp16.decode (g4Codebook.getD (7 - code) 0)).exact).neg'
  else (fp16.decode (g4Codebook.getD (code - 8) 0)).exact

/-- The exact value of a G4 element under scale code `c` and super-scale `S` (R39). -/
def g4Elem (code c s : Nat) : EVal :=
  let t := g4Value code
  match fp32.decode s with
  | .nan .. => .nan
  | .inf n => if c = 0 then .nan else .inf (xor t.neg n)
  | v =>
    if c = 0 then .num Exact.zero
    else .num ((t.mul v.exact).mul ⟨false, c, 255⟩)

/-- A scaled element rounded once; special values raise nothing (R176, R231). -/
def FFmt.ofElem (f : FFmt) (rm : Rm) (draw : Nat) (sat : Bool) : EVal → FRes
  | .nan => ⟨f.canonical, flNone⟩
  | .inf n => f.infinity n
  | .num x => f.roundOr rm draw sat x.neg x

/-! ## Writing MX and G4 elements -/

/-- One MX element from a datum of `s` (R177): beyond the largest finite magnitude it saturates with OVF and INX. An MXINT8 element, an
integer, is never tiny and raises no UNF (log 63, DESIGN CHOICE). -/
def mxOfFloat (k : Mxk) (s : FFmt) (rm : Rm) (draw : Nat) (bits : Nat) : FRes :=
  match k, s.decode bits with
  | .int8, .nan .. => ⟨0, flInv⟩
  | .int8, .inf n => ⟨if n then 0x80 else 0x7F, flOvf ||| flInx⟩
  | .int8, v =>
    let (x, inexact) := roundInt rm draw (v.exact.mul ⟨false, 64, 1⟩)
    let y := clampInt true 8 x
    if y = x then ⟨wrapInt 8 x, flIf inexact flInx⟩ else ⟨wrapInt 8 y, flOvf ||| flInx⟩
  | k, .nan neg _ sig =>
    match k with
    | .e4m3 | .e5m2 => ⟨(mxkFmt k).signed neg (mxkFmt k).canonical, flIf sig flInv⟩
    | _ => ⟨0, flInv⟩
  | k, .inf n => ⟨(mxkFmt k).signed n (mxkFmt k).maxMag, flOvf ||| flInx⟩
  | k, v => (mxkFmt k).roundOr rm draw true v.isNeg v.exact

/-- The number of codes from `n` down whose value is at most x; codes rise with their values (R38). -/
def g4Below (x : Exact) : Nat → Nat
  | 0 => 0
  | n + 1 => if (g4Value n).le x then n + 1 else g4Below x n

/-- Nearest G4 code, a tie going to the even code (R178); `lo` is the greatest code with T ≤ x, below 15. -/
def g4Nearest (x : Exact) (lo : Nat) : Nat :=
  let a := x.add (g4Value lo).neg'
  let b := (g4Value (lo + 1)).add x.neg'
  if a.le b then (if b.le a then (if lo % 2 = 0 then lo else lo + 1) else lo) else lo + 1

/-- One G4 code from a datum of `s` (R178). -/
def g4OfFloat (s : FFmt) (rm : Rm) (draw : Nat) (bits : Nat) : FRes :=
  match s.decode bits with
  | .nan .. => ⟨8, flInv⟩
  | .inf n => ⟨if n then 0 else 15, flOvf ||| flInx⟩
  | v =>
    let x := v.exact
    if x.isZero then
      if rm = .rs then ⟨if draw < 2 ^ 31 then 8 else 7, flInx⟩ else ⟨if v.isNeg then 7 else 8, flInx⟩
    else
      let n := g4Below x 16
      if n = 0 then ⟨0, flOvf ||| flInx⟩
      else
        let lo := n - 1
        if x.le (g4Value lo) then ⟨lo, flNone⟩
        else if lo = 15 then ⟨15, flOvf ||| flInx⟩
        else if rm = .rs then
          let p := x.add (g4Value lo).neg'
          let q := (g4Value (lo + 1)).add (g4Value lo).neg'
          ⟨if draw < p.num * q.den * 2 ^ 32 / (p.den * q.num) then lo + 1 else lo, flInx⟩
        else ⟨g4Nearest x lo, flInx⟩

end Sys2Proof.Machine
end

