-- ==== Sys2Proof/Machine/Memory.lean ====
section
/-! DEFINITION. Bytes: the sparse memory, poison marks, scratchpads, and the one operation that writes bytes anywhere,
which also marks monitors (R296) and conflicting transactions (R299). -/

namespace Sys2Proof.Machine

open Sys2Proof

/-! ## Sparse memory -/

/-- The byte at a key; an unlisted key reads 0 (log 4). -/
def readCells : List Host.Cell → Nat → Byte
  | [], _ => 0
  | (k, b) :: rest, a => if k = a then b else if a < k then 0 else readCells rest a

/-- Writing one byte keeps the canonical form: writing 0 removes the entry. -/
def writeCells : List Host.Cell → Nat → Byte → List Host.Cell
  | [], a, b => if b = 0 then [] else [(a, b)]
  | (k, c) :: rest, a, b =>
    if a < k then (if b = 0 then (k, c) :: rest else (a, b) :: (k, c) :: rest)
    else if a = k then (if b = 0 then rest else (a, b) :: rest)
    else (k, c) :: writeCells rest a b

/-- Keys strictly above `lo`, strictly rising, no byte 0. -/
def cellsWf (lo : Option Nat) : List Host.Cell → Bool
  | [] => true
  | (k, b) :: rest => (match lo with | none => true | some l => decide (l < k)) && b != 0 && cellsWf (some k) rest

/-- The canonical form of a memory. -/
def Memory.wf (m : Memory) : Bool := cellsWf none m.cells

def Memory.read (m : Memory) (a : Nat) : Byte := readCells m.cells a

def Memory.write (m : Memory) (a : Nat) (b : Byte) : Memory := ⟨writeCells m.cells a b⟩

/-- `n` bytes from key `a` upwards. -/
def Memory.readBytes (m : Memory) (a : Nat) : Nat → List Byte
  | 0 => []
  | n + 1 => m.read a :: m.readBytes (a + 1) n

/-- Bytes stored from key `a` upwards. -/
def Memory.writeBytes (m : Memory) (a : Nat) : List Byte → Memory
  | [] => m
  | b :: rest => (m.write a b).writeBytes (a + 1) rest

/-- The number whose little-endian bytes are given (R3). -/
def leNat : List Byte → Nat
  | [] => 0
  | b :: rest => b.toNat + 256 * leNat rest

/-- The `n` low bytes of a number, least significant first (R3). -/
def leBytes : Nat → Nat → List Byte
  | 0, _ => []
  | n + 1, x => BitVec.ofNat 8 x :: leBytes n (x / 256)

/-! ## Sets of natural numbers, strictly rising -/

def setInsert (a : Nat) : List Nat → List Nat
  | [] => [a]
  | b :: rest => if a < b then a :: b :: rest else if a = b then b :: rest else b :: setInsert a rest

def setRemove (a : Nat) (s : List Nat) : List Nat := s.filter (· != a)

def setInsertAll (as : List Nat) (s : List Nat) : List Nat := as.foldl (fun s a => setInsert a s) s

def setRemoveAll (as : List Nat) (s : List Nat) : List Nat := as.foldl (fun s a => setRemove a s) s

/-- The multiples' indices (a / u) that the range of `n` bytes at `a` touches. -/
def unitsOf (u a n : Nat) : List Nat := if n = 0 then [] else (List.range ((a + n - 1) / u - a / u + 1)).map (a / u + ·)

/-- The units of size `u` that lie wholly inside the range of `n` bytes at `a`. -/
def wholeUnits (u a n : Nat) : List Nat :=
  (unitsOf u a n).filter fun i => decide (a ≤ i * u) && decide (i * u + u ≤ a + n)

/-! ## Physical keys -/

/-- One key for a physical address: local HBM4E, then host memory, then each peer, 2^52 addresses apart (R204). -/
def physKey (p : PAddr) : Nat :=
  match p.space with
  | .hbm => p.addr
  | .host => 2 ^ 52 + p.addr
  | .peer d => 2 ^ 52 * (2 + d.toNat) + p.addr

/-- A key that lies in local HBM4E. -/
def isHbm (key : Nat) : Bool := decide (key < 2 ^ 52)

/-- A local key beyond the 512 GiB of HBM4E (R1). -/
def noMemory (key : Nat) : Bool := isHbm key && decide (2 ^ 39 ≤ key)

/-- The peer whose memory holds a key. -/
def peerOf (key : Nat) : Option Nat := if key < 2 ^ 53 then none else some (key / 2 ^ 52 - 2)

def pageSize : Nat := 65536

/-! ## Places -/

def Place.add (p : Place) (n : Nat) : Place :=
  match p with
  | .phys k => .phys (k + n)
  | .sp b o => .sp b (o + n)

/-- How far `q` lies behind `p`, when both lie in one space. -/
def Place.offset (p q : Place) : Option Nat :=
  match p, q with
  | .phys a, .phys b => if a ≤ b then some (b - a) else none
  | .sp x a, .sp y b => if x = y ∧ a ≤ b then some (b - a) else none
  | _, _ => none

/-- Two ranges share a byte. -/
def Place.meets (p : Place) (m : Nat) (q : Place) (n : Nat) : Bool :=
  match p, q with
  | .phys a, .phys b => decide (a < b + n) && decide (b < a + m)
  | .sp x a, .sp y b => x == y && decide (a < b + n) && decide (b < a + m)
  | _, _ => false

/-- The unit of size `u` that holds a place. -/
def Place.alignDown (p : Place) (u : Nat) : Place :=
  match p with
  | .phys k => .phys (k / u * u)
  | .sp b o => .sp b (o / u * u)

/-! ## Lookups and updates by identity -/

def State.block? (s : State) (id : Nat) : Option Block := s.blocks.find? fun b => b.id == id

def State.group? (s : State) (r : GroupRef) : Option Group := s.groups.find? fun g => g.ref == r

def State.launch? (s : State) (uid : Nat) : Option Launch := s.launches.find? fun l => l.uid == uid

def State.container? (s : State) (tenant handle : Nat) : Option Container :=
  s.containers.find? fun c => c.tenant == tenant && c.handle == handle

def State.updBlock (s : State) (id : Nat) (f : Block → Block) : State :=
  { s with blocks := s.blocks.map fun b => if b.id = id then f b else b }

def State.updGroup (s : State) (r : GroupRef) (f : Group → Group) : State :=
  { s with groups := s.groups.map fun g => if g.ref = r then f g else g }

def State.updLaunch (s : State) (uid : Nat) (f : Launch → Launch) : State :=
  { s with launches := s.launches.map fun l => if l.uid = uid then f l else l }

/-- A tenant's record; tenants are numbered 0 to 15 (R46), and another number reads as a tenant never created. -/
def State.tenant (s : State) (t : Nat) : Tenant := s.tenants[t]?.getD Tenant.reset

def State.updTenant (s : State) (t : Nat) (f : Tenant → Tenant) : State :=
  { s with tenants := s.tenants.setIfInBounds t (f (s.tenant t)) }

/-! ## The memories of a group -/

/-- The memories that a group holds: a transaction's buffered bytes (R299), its view of its scratchpad (R303), and the tables of its
waiting accesses (R206). -/
def Group.memories (g : Group) : List Memory :=
  (g.tx.map (·.bytes)).toList ++ g.snap.toList ++ (g.swalk.map (·.mem)).toList ++
  ((g.path0.bind (·.walk)).map (·.mem)).toList ++ ((g.path1.bind (·.walk)).map (·.mem)).toList

/-! ## Reading and writing bytes -/

/-- The `n` bytes at a place; a scratchpad of no block reads 0. -/
def State.readBytes (s : State) (p : Place) (n : Nat) : List Byte :=
  match p with
  | .phys k => s.mem.readBytes k n
  | .sp b o => match s.block? b with
    | some blk => blk.scratch.readBytes o n
    | none => List.replicate n 0

/-- The little-endian number in the `n` bytes at a place. -/
def State.readNat (s : State) (p : Place) (n : Nat) : Nat := leNat (s.readBytes p n)

/-- The bytes of a granule that a range of `n` bytes at `p` touches, as a mask. -/
def granuleMask (granule p : Place) (n : Nat) : BitVec 16 :=
  (List.range 16).foldl
    (fun m i => match p.offset (granule.add i) with
      | some d => if d < n then m ||| (1#16 <<< i) else m
      | none => m) 0

/-- What an access of `n` bytes at `p` by `who` does to a monitor: a write marks its bytes; a load of the group itself
observes them (R296). -/
def Monitor.touch (m : Monitor) (own write : Bool) (p : Place) (n : Nat) : Monitor :=
  if write then { m with written := m.written ||| granuleMask m.granule p n }
  else if own then { m with written := m.written &&& ~~~granuleMask m.granule p n }
  else m

/-- Whether an access of another agent conflicts with a transaction (R299). -/
def Tx.conflicts (t : Tx) (write : Bool) (p : Place) (n : Nat) : Bool :=
  match p with
  | .phys k => (unitsOf 128 k n).any fun l => if write then t.lines.contains l else t.storedLines.contains l
  | .sp _ _ => false

def Group.touch (g : Group) (who : Option GroupRef) (write : Bool) (p : Place) (n : Nat) : Group :=
  let own := who == some g.ref
  let g := { g with monitor := g.monitor.map fun (m : Monitor) => m.touch own write p n }
  match g.tx with
  | some t => if !own && t.abort.isNone && t.conflicts write p n then { g with tx := some { t with abort := some (2, 0, 0) } } else g
  | none => g

/-- What every access does besides moving bytes: monitors and transactions of all groups see it. -/
def State.touch (s : State) (who : Option GroupRef) (write : Bool) (p : Place) (n : Nat) : State :=
  { s with groups := s.groups.map fun g => g.touch who write p n }

/-- Bytes stored at a place, and nothing else. -/
def State.putBytes (s : State) (p : Place) (bytes : List Byte) : State :=
  match p with
  | .phys k => { s with mem := s.mem.writeBytes k bytes }
  | .sp b o => s.updBlock b fun blk => { blk with scratch := blk.scratch.writeBytes o bytes }

/-- A group's own store to its block's scratchpad also reaches the copy that its tests answer from (R303). -/
def Group.noteOwn (g : Group) (who : Option GroupRef) (p : Place) (bytes : List Byte) : Group :=
  match p with
  | .sp b o =>
    if who = some g.ref ∧ b = g.ref.blk then { g with snap := g.snap.map fun m => m.writeBytes o bytes } else g
  | .phys _ => g

/-- A write by `who` as every other agent sees it. -/
def State.storeBytes (s : State) (who : Option GroupRef) (p : Place) (bytes : List Byte) : State :=
  (s.putBytes p bytes).touch who true p bytes.length

/-- A store of `who` reaches the view from which its own tests answer. -/
def State.noteStore (s : State) (who : Option GroupRef) (p : Place) (bytes : List Byte) : State :=
  { s with groups := s.groups.map fun g => g.noteOwn who p bytes }

/-- A write by `who` (no group: the host, a peer or the device itself). -/
def State.writeBytes (s : State) (who : Option GroupRef) (p : Place) (bytes : List Byte) : State :=
  (s.storeBytes who p bytes).noteStore who p bytes

/-- A little-endian write of `n` bytes. -/
def State.writeNat (s : State) (who : Option GroupRef) (p : Place) (n x : Nat) : State := s.writeBytes who p (leBytes n x)

/-! ## Poison (R195, R353, R354) -/

/-- The first poisoned sector that a range touches, as the place of its first byte. -/
def State.poisoned (s : State) (p : Place) (n : Nat) : Option Place :=
  match p with
  | .phys k => ((unitsOf 32 k n).find? fun i => s.poison.contains i).map fun i => .phys (32 * i)
  | .sp b o => match s.block? b with
    | some blk => ((unitsOf 32 o n).find? fun i => blk.poison.contains i).map fun i => .sp b (32 * i)
    | none => none

/-- Poisons the sectors that a range touches. -/
def State.poisonRange (s : State) (p : Place) (n : Nat) : State :=
  match p with
  | .phys k => { s with poison := setInsertAll (unitsOf 32 k n) s.poison }
  | .sp b o => s.updBlock b fun blk => { blk with poison := setInsertAll (unitsOf 32 o n) blk.poison }

/-- Clears the poison of the sectors that one access of `n` bytes writes whole (R354). -/
def State.clearPoison (s : State) (p : Place) (n : Nat) : State :=
  match p with
  | .phys k => { s with poison := setRemoveAll (wholeUnits 32 k n) s.poison }
  | .sp b o => s.updBlock b fun blk => { blk with poison := setRemoveAll (wholeUnits 32 o n) blk.poison }

/-- A write that clears the poison of the sectors it covers: engines, host and peers (R354). -/
def State.writeWhole (s : State) (who : Option GroupRef) (p : Place) (bytes : List Byte) : State :=
  (s.writeBytes who p bytes).clearPoison p bytes.length

/-! ## Full/empty bits (R201) -/

def State.isFull (s : State) (blk granule : Nat) : Bool :=
  match s.block? blk with
  | some b => b.full.contains granule
  | none => false

def State.setFull (s : State) (blk : Nat) (granules : List Nat) (full : Bool) : State :=
  s.updBlock blk fun b => { b with full := if full then setInsertAll granules b.full else setRemoveAll granules b.full }

/-- An engine's write into a scratchpad sets the granules it reaches full (R201). -/
def State.fillGranules (s : State) (p : Place) (n : Nat) : State :=
  match p with
  | .phys _ => s
  | .sp b o => s.setFull b (unitsOf 16 o n) true

/-- A write of an engine: bytes, poison cleared, granules full. -/
def State.engineWrite (s : State) (who : GroupRef) (p : Place) (bytes : List Byte) : State :=
  (s.writeWhole (some who) p bytes).fillGranules p bytes.length

end Sys2Proof.Machine
end

