-- ==== Sys2Proof/Machine/Translate.lean ====
section
/-! DEFINITION. Addresses: the windows (R197, R198), translation and protection (R203 to R206, R13, R377), the version
table (R216 to R218, R321, R322) and ownership of pages (R214), up to the place an access reaches or why it stops. -/

namespace Sys2Proof.Machine

open Sys2Proof

/-- Why an instruction does not complete. -/
inductive Stop where
  /-- A precise trap: code, `TADDR`, DETAIL of `TAUX` (R341, R342). -/
  | trap (code : TrapCode) (addr : Word) (detail : Nat)
  /-- A read that met poison: `TADDR` and DETAIL of the park's record (R353). -/
  | park (addr : Word) (detail : Nat)
  /-- The instruction waits and has no effect yet. -/
  | wait (w : Wait)
  /-- An open transaction aborts: REASON, CODE, address (R300). -/
  | abort (reason code : Nat) (addr : Word)
  /-- The machine has no such memory. -/
  | fault (f : Fault)
  deriving DecidableEq, Repr

/-- The result of a check or a read. -/
abbrev Res := Except Stop

/-- Kinds of access (R205). -/
inductive Access where
  | load | store | atomic
  deriving DecidableEq, Repr

def Access.writes : Access → Bool
  | .load => false
  | _ => true

/-! ## Translation (R204, R205) -/

/-- What a walk finds: the physical key of the address, the page's base key, its size and attributes. -/
structure Leaf where
  key : Nat
  pageKey : Nat
  attr : Nat
  writable : Bool
  versioned : Bool
  deriving DecidableEq, Repr

def nbits (x hi lo : Nat) : Nat := x / 2 ^ lo % 2 ^ (hi - lo + 1)

/-- Whether a local physical range lies in a tenant's memory window (R377). -/
def Tenant.inWindow (t : Tenant) (addr n : Nat) : Bool :=
  let base := nbits t.twBase.toNat 51 16 * 65536
  let size := nbits t.twSize.toNat 51 16 * 65536
  decide (base ≤ addr) && decide (addr + n ≤ base + size)

/-- Whether an entry breaks R204 or R205 as a non-leaf entry. -/
def nonLeafBad (e : Nat) : Bool :=
  nbits e 63 62 != 0 || nbits e 61 52 != 0 || nbits e 15 12 != 0 || nbits e 11 10 != 0 || nbits e 9 9 != 0 ||
  nbits e 8 8 != 0 || nbits e 7 6 != 0 || nbits e 5 4 != 0 || nbits e 3 3 != 0 || nbits e 2 2 != 0

/-- Whether an entry breaks R204 or R205 as a leaf at a level. -/
def leafBad (e level : Nat) : Bool :=
  let tgt := nbits e 11 10
  let size := nbits e 7 6
  let attr := nbits e 5 4
  nbits e 63 62 != 0 || nbits e 15 12 != 0 || nbits e 8 8 != 0 || nbits e 3 3 != 0 || tgt == 3 || size == 3 ||
  level == 0 || (level == 1 && size != 2) || (level == 2 && size == 2) ||
  (nbits e 9 9 == 1 && !(size == 0 && attr == 2 && tgt == 0)) ||
  (attr == 3 && tgt != 0) || (attr == 1 && tgt == 1) || (tgt != 2 && nbits e 61 52 != 0) ||
  (size == 1 && nbits e 51 16 % 32 != 0) || (size == 2 && nbits e 51 16 % 16384 != 0)

/-- The key and attributes that a leaf gives an address: the page is of 64 KiB, 2 MiB or 1 GiB (R204). -/
def leafOf (e va : Nat) : Leaf :=
  let size := nbits e 7 6
  let span := if size = 0 then 2 ^ 16 else if size = 1 then 2 ^ 21 else 2 ^ 30
  let pfn := nbits e 51 16 * 65536
  let key := match nbits e 11 10 with
    | 0 => pfn
    | 1 => 2 ^ 52 + pfn
    | _ => 2 ^ 52 * (2 + nbits e 61 52) + pfn
  { key := key + va % span, pageKey := (key + va % span) / pageSize * pageSize, attr := nbits e 5 4
    writable := nbits e 2 2 == 1, versioned := nbits e 9 9 == 1 }

/-- A tenant's translation tables as they stand (R203, R204). -/
def State.tables (s : State) (tenant : Nat) : Tables := ⟨s.mem, s.poison, (s.tenant tenant).txRoot⟩

/-- Reading the entry of one level: the walk is bounded by the window (R377) and stops at poison (R389). -/
def Tables.entry (tb : Tables) (t : Tenant) (va : Word) (table idx : Nat) : Res Nat :=
  let a := table + 8 * idx
  if !t.inWindow a 8 then .error (.trap .protection va 0)
  else if noMemory a then .error (.fault (.noSuchMemory a))
  else if tb.poison.contains (a / 32) then .error (.park (BitVec.ofNat 64 (a / 32 * 32)) (2 ^ 31))
  else .ok (leNat (tb.mem.readBytes a 8))

/-- One level of the walk: a leaf, the next table, or TRAP_PAGE. -/
def Tables.level (tb : Tables) (t : Tenant) (va : Word) (table level : Nat) : Res (Nat × Option Leaf) := do
  let e ← tb.entry t va table (nbits va.toNat (51 - 12 * level) (40 - 12 * level))
  if nbits e 0 0 = 0 then .error (.trap .page va 0)
  else if nbits e 1 1 = 0 then
    if level = 2 || nonLeafBad e then .error (.trap .page va 0) else .ok (nbits e 51 16 * 65536, none)
  else if leafBad e level then .error (.trap .page va 0)
  else .ok (0, some (leafOf e va.toNat))

/-- The walk of R204 from the root. -/
def Tables.walk (tb : Tables) (t : Tenant) (va : Word) : Res Leaf := do
  let r0 ← tb.level t va (nbits tb.root.toNat 51 16 * 65536) 0
  match r0.2 with
  | some l => .ok l
  | none => do
    let r1 ← tb.level t va r0.1 1
    match r1.2 with
    | some l => .ok l
    | none => do
      let r2 ← tb.level t va r1.1 2
      match r2.2 with
      | some l => .ok l
      | none => .error (.trap .page va 0)

/-- Kinds of container pages (R12, R13). -/
inductive PageRole where
  | code | rodata | data
  deriving DecidableEq, Repr

/-- What Ocard's record says of a page of a loaded or unloading container (R13). The pages of the destination area that hold the
copied note segment have no role: R12 never maps the note, R61 copies it into the area, and the tenant's own entries decide what
an access to those pages does. A page that segments of two containers hold has the role of the one loaded first, and one that two
segments of a container hold is code first, then `.rodata` (log 44, DESIGN CHOICE). -/
def State.pageRole (s : State) (pageKey : Nat) : Option PageRole :=
  s.containers.findSome? fun c =>
    let within (g : Seg) : Bool := g.pages.contains pageKey
    if within c.stream || within c.lanes then some .code
    else match c.rodata, c.data with
      | some r, d => if within r then some .rodata
        else match d with
          | some d => if within d then some .data else none
          | none => none
      | none, some d => if within d then some .data else none
      | none, none => none

/-- A leaf with Ocard's attributes in place of the table's (R13). -/
def State.effective (s : State) (l : Leaf) : Leaf :=
  match s.pageRole l.pageKey with
  | some .code => { l with writable := false, attr := 1 }
  | some .rodata => { l with writable := false, attr := 1 }
  | some .data => { l with writable := true, attr := 2 }
  | none => l

/-- Ocard holds the page locked, for a load that is under way (R61). -/
def State.locked (s : State) (pageKey : Nat) : Bool := s.tenants.toList.any fun t => t.ocLocked.contains pageKey

/-- Ocard's own view, which no lock of Ocard's bounds (R61). -/
def State.unlocked (s : State) : State := { s with tenants := s.tenants.map fun t => { t with ocLocked := [] } }

/-- The protection checks of R205 in their order, for `n` bytes at `va`. -/
def State.protect (s : State) (tenant : Nat) (k : Access) (va : Word) (n : Nat) (l : Leaf) : Res Leaf :=
  let prot : Res Leaf := .error (.trap .protection va 0)
  if k.writes && (!l.writable || s.locked l.pageKey) then prot
  else if k = .atomic && l.attr == 1 then prot
  else if isHbm l.key && !(s.tenant tenant).inWindow l.key n then prot
  else if noMemory (l.key + n - 1) then .error (.fault (.noSuchMemory l.key))
  else .ok l

def windowBase : Nat := 0x000FFFF000000000
def windowEnd : Nat := 0x0010000000000000

/-- An address in the window range (R197). -/
def inWindowRange (va : Word) : Bool := decide (windowBase ≤ va.toNat) && decide (va.toNat < windowEnd)

/-- Translation and protection of `n` bytes that lie in one page (R205, with R13), by given tables; address bits [63:52] are
zero and the window range is never translated (R197). -/
def State.translateBy (s : State) (tb : Tables) (tenant : Nat) (k : Access) (va : Word) (n : Nat) : Res Leaf := do
  if nbits va.toNat 63 52 ≠ 0 ∨ inWindowRange va then .error (.trap .protection va 0)
  else
    let l ← tb.walk (s.tenant tenant) va
    s.protect tenant k va n (s.effective l)

/-- Translation by the tables as they stand. -/
def State.translate (s : State) (tenant : Nat) (k : Access) (va : Word) (n : Nat) : Res Leaf :=
  s.translateBy (s.tables tenant) tenant k va n

/-! ## Peers (R214, R332) -/

/-- The device that holds a key: the peer of a peer key, else this device. -/
def State.holder (s : State) (key : Nat) : Nat := (peerOf key).getD s.mgmt.uaId

/-- The owner of a page: the holder, where no hand-over has moved it (R214; log 5). Ownership is kept for each 64 KiB, also inside
a larger mapping: R214 does not say the page's size (log 45, DESIGN CHOICE). -/
def State.owner (s : State) (pageKey : Nat) : Nat :=
  match s.owners.find? fun o => o.1 == pageKey with
  | some o => o.2
  | none => s.holder pageKey

/-- Whether LINK_EN lets the device use its UALink ports, and CXL (R376). -/
def State.uaLinkOn (s : State) : Bool := s.mgmt.linkEn.extractLsb' 0 16 != 0#16

def State.cxlOn (s : State) : Bool := s.mgmt.linkEn.getLsbD 16

/-- A coherent page that another device owns must be asked for first, over a link that may be held off (R214, R331, R376). -/
def State.reachOwner (s : State) (l : Leaf) (va : Word) : Res Unit :=
  let d := s.owner l.pageKey
  if l.attr ≠ 2 ∨ d = s.mgmt.uaId then .ok ()
  else if s.lost.contains d then .error (.trap .mcheck va 3)
  else if s.recovering.any fun r => r.1 == d then .error (.wait (.recovery d va))
  else if !s.uaLinkOn then .error (.wait (.link va))
  else .error (.wait (.owner l.pageKey va))

/-- What a peer answers to an access: refusals are precise traps of the access (R219, R330). -/
def State.peerServes (s : State) (d : Nat) (l : Leaf) (va : Word) (write : Bool) : Res Unit :=
  match Config.peerRefusal d (l.key % 2 ^ 52) write s.aoc.toNat with
  | some .protection => .error (.trap .protection va 0)
  | some (.version code) => .error (.trap .version va (32 * code.toNat))
  | none => .ok ()

/-- Whether an access must wait for a link or for ownership, or meets a lost peer (R214, R332, R355, R376). -/
def State.onWay (s : State) (l : Leaf) (va : Word) : Res Unit :=
  match peerOf l.key with
  | some d =>
    if s.lost.contains d then .error (.trap .mcheck va 3)
    else if s.recovering.any fun r => r.1 == d then .error (.wait (.recovery d va))
    else if !s.uaLinkOn then .error (.wait (.link va))
    else s.reachOwner l va
  | none => if isHbm l.key then s.reachOwner l va else if s.cxlOn then .ok () else .error (.wait (.link va))

/-- As `onWay`, and whether the peer refuses the access (R330; log 43). -/
def State.reach (s : State) (l : Leaf) (va : Word) (write : Bool) : Res Unit := do
  s.onWay l va
  match peerOf l.key with
  | some d => s.peerServes d l va write
  | none => .ok ()

/-! ## Versions (R216 to R218, R321, R322) -/

/-- The version table entry of a page; a page first seen starts with CUR 0, unpublished (R216). -/
def State.version (s : State) (tenant pageKey : Nat) : Version :=
  (s.versions.find? fun v => v.page == pageKey).getD ⟨pageKey, tenant, 0, false, [], false⟩

def State.setVersion (s : State) (v : Version) : State :=
  if s.versions.any fun w => w.page == v.page then
    { s with versions := s.versions.map fun w => if w.page = v.page then v else w }
  else { s with versions := s.versions ++ [v] }

/-- Where a read of a step finds its bytes: the live page, or the retained copy's base key (R217, R322). -/
def Version.resolve (v : Version) (q : Word32) : Option (Option Nat) :=
  if q = v.cur then some none
  else (v.rset.find? fun r => r.step == q).map fun r => r.copy

/-- The keys of a tenant's retained pool pages (R321). -/
def Tenant.pool (t : Tenant) : List Nat :=
  (List.range t.npg).map fun i => nbits t.vpBase.toNat 51 16 * 65536 + i * pageSize

/-! The pages that accepted commands hold (R206). -/

/-- The pages of a matrix command's reads, and of its writes. -/
def MCmd.heldReads (m : MCmd) : Held :=
  match m with
  | .load _ _ _ _ _ h => h
  | .swap _ => []
  | .loop _ _ recs _ _ => recs.flatMap (·.xheld)

def MCmd.mapReads (f : HeldPage → HeldPage) (m : MCmd) : MCmd :=
  match m with
  | .load i sh w k n h => .load i sh w k n (h.map f)
  | .swap i => .swap i
  | .loop i pc recs r st => .loop i pc (recs.map fun x => { x with xheld := x.xheld.map f }) r st

/-- A read of a named step that has resolved to the live page goes on to read that step's content: the copy (R217, R220). -/
def HeldPage.redirect (page dest : Nat) (h : HeldPage) : HeldPage :=
  if h.step.isSome ∧ h.place = .phys page then { h with place := .phys dest } else h

def State.redirectHeld (s : State) (page dest : Nat) : State :=
  let f := HeldPage.redirect page dest
  { s with
    groups := s.groups.map fun g => { g with mcmds := g.mcmds.map (MCmd.mapReads f) }
    colls := s.colls.map fun c => { c with sheld := c.sheld.map f } }

/-- Every page that an accepted command holds for a read of a step. -/
def State.stepReads (s : State) : Held :=
  (s.groups.flatMap fun g => g.mcmds.flatMap MCmd.heldReads) ++ s.colls.flatMap (·.sheld)

/-- Pool pages that retained entries, copies in progress or returning pages hold. -/
def State.poolHeld (s : State) : List Nat :=
  s.versions.flatMap (fun v => v.rset.filterMap (·.copy)) ++ s.cows.map (·.dest) ++ s.returning.map (·.2)

/-- Free pool pages, lowest first (log 13). -/
def State.poolFree (s : State) (tenant : Nat) : List Nat :=
  let held := s.poolHeld
  (s.tenant tenant).pool.filter fun p => !held.contains p

/-- The fault of a write that must make a copy-on-write with step `q`, or none; `need` counts the pool pages that the same
instruction needs up to and with this page (R218). -/
def State.cowFault (s : State) (v : Version) (tenant : Nat) (q : Word32) (need : Nat) : Option Nat :=
  if q = v.cur || v.rset.any (fun r => r.step == q) then some 4
  else if v.rset.length = 4 then some 2
  else if (s.poolFree tenant).length < need then some 3
  else none

/-- The snapshot engine's copy of a live page, poison with it (R218); it reads every line of the page (R299). -/
def State.copyPage (s : State) (src dst : Nat) : State :=
  let s := (s.touch none false (.phys src) pageSize).putBytes (.phys dst) (s.readBytes (.phys src) pageSize)
  let bad := (List.range 2048).filter fun i => s.poison.contains (src / 32 + i)
  { s with poison := setInsertAll (bad.map (dst / 32 + ·)) (setRemoveAll (unitsOf 32 dst pageSize) s.poison) }

/-- The update of R218 and R322: the old step and every tied step take the copy, and the page's step becomes `q`. Steps that
were retired while their content was live end here (R328). -/
def Version.afterCow (v : Version) (q : Word32) (dest : Nat) : Version :=
  let kept := v.rset.filter fun r => !(r.copy.isNone && r.retired)
  let old : List Retained := if v.retired then [] else [⟨v.cur, some dest, false⟩]
  { v with
    rset := (kept.map fun r => if r.copy.isNone then { r with copy := some dest } else r) ++ old
    cur := q, pub := false, retired := false }

/-- The atomic update of R218 with the copy `dest` made: the table, and the reads of commands that have resolved to the live
page. A copy that no entry refers to goes back to the pool (R322, R328). -/
def State.cowUpdate (s : State) (tenant pageKey dest : Nat) (q : Word32) : State :=
  let v := (s.version tenant pageKey).afterCow q dest
  let s := (s.setVersion v).redirectHeld pageKey dest
  if v.rset.any fun r => r.copy == some dest then s else { s with returning := s.returning ++ [(tenant, dest)] }

/-- A whole copy-on-write at once, as an engine makes it; the caller has checked `cowFault`. -/
def State.cowNow (s : State) (tenant pageKey : Nat) (q : Word32) : State :=
  match s.poolFree tenant with
  | dest :: _ => (s.copyPage pageKey dest).cowUpdate tenant pageKey dest q
  | [] => s

/-- The start of a copy-on-write for a waiting store: a pool page is reserved (R218). -/
def State.cowStart (s : State) (tenant pageKey : Nat) (q : Word32) : State :=
  match s.poolFree tenant with
  | dest :: _ => { s with cows := s.cows ++ [⟨pageKey, dest, q⟩] }
  | [] => s

/-! ## Windows (R197, R198) -/

/-- What an access depends on besides memory: its group, whether a lane path makes it, and the tables with which it has
issued, when it waits (R206). -/
structure Ctx where
  g : Group
  b : Block
  l : Launch
  c : Container
  k : Kernel
  lane : Bool
  walk : Option Tables
  deriving DecidableEq, Repr

/-- The context of a group's scalar stream. -/
def State.ctxOf (s : State) (g : Group) : Option Ctx := do
  let b ← s.block? g.ref.blk
  let l ← s.launch? b.launch
  let c ← s.container? l.tenant l.handle
  let k ← c.kernels[l.kidx]?
  pure ⟨g, b, l, c, k, false, g.swalk⟩

/-- The context of an accepted command of a group: it walks the tables as they stand (R245). -/
def State.engineCtx (s : State) (r : GroupRef) : Option Ctx :=
  ((s.group? r).bind s.ctxOf).map fun c => { c with walk := none }

/-- The context of an instruction of a path. -/
def Ctx.onPath (c : Ctx) (p : Path) : Ctx := { c with lane := true, walk := p.walk }

/-- The tables that an access is translated by. -/
def State.tablesOf (s : State) (c : Ctx) : Tables := c.walk.getD (s.tables c.l.tenant)

def clusterBase : Nat := 0x000FFFF001000000

/-- An address in one of the two windows. -/
def inWindows (va : Word) : Bool :=
  let a := va.toNat
  (decide (windowBase ≤ a) && decide (a < windowBase + 0x80000)) ||
  (decide (clusterBase ≤ a) && decide (a < clusterBase + 0x200000))

def inBlockWindow (va : Word) : Bool := decide (windowBase ≤ va.toNat) && decide (va.toNat < windowBase + 0x80000)

/-- The block of a cluster instance with a cluster-local index, while it has not retired (R198). -/
def State.clusterMate (s : State) (c : Ctx) (idx : Nat) : Option Block :=
  s.blocks.find? fun m => m.launch == c.l.uid && m.b == c.b.b && m.cluster == idx &&
    m.vx / 2 ^ c.l.cwl == c.b.vx / 2 ^ c.l.cwl && m.vy / 2 ^ c.l.chl == c.b.vy / 2 ^ c.l.chl

/-- The checks of R198 in their order, for `n` bytes at an address of the window range. -/
def State.windowPlace (s : State) (c : Ctx) (va : Word) (n : Nat) : Res Place :=
  let a := va.toNat
  let prot : Res Place := .error (.trap .protection va 0)
  if a < windowBase + 0x80000 then
    let o := a - windowBase
    if o + n > 1024 * c.l.scratch then prot else .ok (.sp c.b.id o)
  else if clusterBase ≤ a ∧ a < clusterBase + 0x200000 then
    let o := a - clusterBase
    if c.l.det then .error (.trap .determinism va 0)
    else if !c.k.clus then prot
    else if o / 0x80000 ≥ 2 ^ (c.l.cwl + c.l.chl) ∨ o % 0x80000 + n > 1024 * c.l.scratch then prot
    else match s.clusterMate c (o / 0x80000) with
      | some m => .ok (.sp m.id (o % 0x80000))
      | none => prot
  else prot

/-! ## One access of a group (R142, R223) -/

/-- Where an access goes: its place, its virtual address, the page's attribute (2 in a window), and the versioned page it writes that is
published and must be copied first. -/
structure Target where
  place : Place
  va : Word
  attr : Nat
  pageKey : Nat
  versioned : Bool
  window : Bool
  writes : Bool
  deriving DecidableEq, Repr

/-- Checks 2 to 7 of R142 (3 to 6 of R223 and alignment) for `n` bytes that lie in one page. -/
def State.resolveChecks (s : State) (c : Ctx) (k : Access) (va : Word) (n : Nat) : Res Target :=
  if va.toNat % n ≠ 0 then .error (.trap .align va 0)
  else if nbits va.toNat 63 52 ≠ 0 then .error (.trap .protection va 0)
  else if inWindowRange va then do
    let p ← s.windowPlace c va n
    if k = .atomic && c.l.det && !inBlockWindow va then .error (.trap .determinism va 0)
    else .ok ⟨p, va, 2, 0, false, true, k.writes⟩
  else if k = .atomic && c.l.det then .error (.trap .determinism va 0)
  else do
    let l ← s.translateBy (s.tablesOf c) c.l.tenant k va n
    .ok ⟨.phys l.key, va, l.attr, l.pageKey, l.versioned, false, k.writes⟩

/-! ## Posted operations and group order (R114, R291, R309, R390; log 42) -/

/-- The bytes that a posted operation works on. -/
def Arrival.size (a : Arrival) : Nat :=
  match a.op with
  | .store bytes => bytes.length
  | .atomic _ n _ _ _ | .load n _ _ => n
  | _ => 16

/-- The register that a posted operation writes when it is performed. -/
def PostOp.dst : PostOp → Option (BitVec 6)
  | .atomic _ _ _ _ d | .load _ _ d | .test _ d | .count d => some d
  | _ => none

/-- A posted operation that only reads. -/
def PostOp.reads : PostOp → Bool
  | .load .. | .test .. | .count _ => true
  | _ => false

/-- A posted test, an acquire where it passes: what follows it in group order is made after it (R308, R309). -/
def PostOp.acquires : PostOp → Bool
  | .test .. | .count _ => true
  | _ => false

def PostOp.isStore : PostOp → Bool
  | .store _ => true
  | _ => false

/-- The segments that must have completed before the operation: those enqueued before a `parr` (R114). -/
def Arrival.needs (a : Arrival) : Nat :=
  match a.op with
  | .arrive _ => if a.lane then 0 else a.seg
  | _ => 0

/-- An arrival whose turn has come, held back by a poisoned sector: the group's other operations go on (R390). -/
def State.heldBack (s : State) (g : Group) (a : Arrival) : Bool :=
  match a.op with
  | .arrive _ | .register _ => decide (a.needs ≤ g.segDone) && (s.poisoned a.obj 16).isSome
  | _ => false

/-- One posted operation of a group precedes another in group order (R114). -/
def Arrival.precedes (e a : Arrival) : Bool :=
  if e.lane = a.lane then decide (e.id < a.id) else if a.lane then decide (e.seg ≤ a.seg) else decide (e.seg < a.seg)

/-- The group's posted operations that precede what its scalar stream, or a path of its running segment, issues now. -/
def State.outstanding (s : State) (g : Group) (lane : Bool) : List Arrival :=
  s.arrivals.filter fun a => a.grp == g.ref && !s.heldBack g a &&
    (if lane then a.lane || decide (a.seg ≤ g.segDone) else !a.lane || decide (a.seg < g.segIssued))

/-- A read of a range follows a posted operation of the group that is still outstanding: one that works on its bytes, or a posted
test, which may be an acquire (R308, R309, R312). A plain store does not count for the scalar stream, whose reads return its bytes
(R313). -/
def State.updatePending (s : State) (g : Group) (lane : Bool) (p : Place) (n : Nat) : Bool :=
  (s.outstanding g lane).any fun a => a.op.acquires || (a.obj.meets a.size p n && (lane || !a.op.isStore))

/-- The registers that the group's posted operations still write: they are interlocked (R113, R116). -/
def State.pendingRegs (s : State) (r : GroupRef) : List (BitVec 6) :=
  ((s.arrivals.filter fun a => a.grp == r).filterMap fun a => a.op.dst).filter (· != 0)

/-- Releases and updates follow the posted operations that precede them (R309, R316). -/
def State.settled (s : State) (c : Ctx) : Res Unit :=
  if (s.outstanding c.g c.lane).isEmpty then .ok () else .error (.wait .engines)

/-- An access follows the posted operations before it to the same bytes, and a posted test, which may be an acquire; a write follows
all of them: a read precedes a later write (R308, R309, R312). What the scalar stream does behind an operation that may wait for segments is posted instead. -/
def State.resolve (s : State) (c : Ctx) (k : Access) (va : Word) (n : Nat) : Res Target := do
  let t ← s.resolveChecks c k va n
  if (s.outstanding c.g c.lane).any fun a => a.op.acquires || a.obj.meets a.size t.place n || k.writes then .error (.wait .engines)
  else .ok t

/-- Whether a write must wait for or make a copy-on-write. -/
def State.mustCopy (s : State) (tenant : Nat) (t : Target) : Bool := t.versioned && (s.version tenant t.pageKey).pub

/-- A copy-on-write of the page is in progress (R218). -/
def State.copying (s : State) (pageKey : Nat) : Bool := s.cows.any fun w => w.page == pageKey

/-- Links, ownership and lost or refusing peers on the way to a target (R214, R330, R332). -/
def State.wayTo (s : State) (t : Target) : Res Unit :=
  match t.place with
  | .phys k => if t.window then .ok () else s.reach ⟨k, t.pageKey, t.attr, true, t.versioned⟩ t.va t.writes
  | .sp _ _ => .ok ()

/-- How a record names a poisoned sector that an access of a target has met: by its physical address, and in a scratchpad by its
address in the window that the access used (R353; log 14). -/
def Target.report (t : Target) (sector : Place) : Word :=
  match sector, t.place with
  | .phys k, _ => BitVec.ofNat 64 (k % 2 ^ 52)
  | .sp _ o, .sp _ p => t.va - BitVec.ofNat 64 p + BitVec.ofNat 64 o
  | .sp _ o, .phys _ => BitVec.ofNat 64 (windowBase + o)

end Sys2Proof.Machine
end

