-- ==== Sys2Proof/Machine/Objects.lean ====
section
/-! DEFINITION. The objects that groups and engines share in memory: phasers (R287, R290) and barrier objects (R242, R246, R247);
what a read of one, or of plain bytes, gives a register (R141, R248, R292), and a group's own view of its block's scratchpad
(R303). -/

namespace Sys2Proof.Machine

open Sys2Proof

/-! ## Phasers (R287, R290) -/

structure Phaser where
  phase : Nat
  sig : Nat
  pend : Nat
  dsig : Int
  flags : Nat
  deriving DecidableEq, Repr

def Phaser.ofBytes (l : List Byte) : Phaser :=
  let f (i n : Nat) : Nat := leNat ((l.drop i).take n)
  ⟨f 0 4, f 4 2, f 6 2, readInt true 32 (f 8 4), f 13 1⟩

/-- The object's bytes; SCOPE and the reserved bytes keep what they hold. -/
def Phaser.toBytes (p : Phaser) (old : List Byte) : List Byte :=
  leBytes 4 p.phase ++ leBytes 2 p.sig ++ leBytes 2 p.pend ++ leBytes 4 (wrapInt 32 p.dsig) ++
  (old.drop 12).take 1 ++ leBytes 1 p.flags ++ old.drop 14

def State.phaserAt (s : State) (p : Place) : Phaser := Phaser.ofBytes (s.readBytes p 16)

/-- FLAGS A: abandoned. -/
def Phaser.abandoned (p : Phaser) : Bool := p.flags % 2 == 1

/-- FLAGS O: over-arrival. -/
def Phaser.overArrived (p : Phaser) : Phaser := { p with flags := p.flags ||| 2 }

/-- `Arrive(P, u)` of R290. -/
def Phaser.arrive (p : Phaser) (u : Nat) : Phaser :=
  if p.sig = 0 then p.overArrived
  else
    let p := if p.pend < u then p.overArrived else p
    let pend := p.pend - min u p.pend
    if pend = 0 then
      let sum := (p.sig : Int) + p.dsig
      let p := if sum < 0 then p.overArrived else p
      { p with phase := (p.phase + 1) % 2 ^ 32, sig := sum.toNat, pend := sum.toNat, dsig := 0 }
    else { p with pend := pend }

/-- `Reg(P, d)` of R290; no result when R289 forbids the update. -/
def Phaser.reg (p : Phaser) (d : Int) : Option Phaser :=
  if p.pend = p.sig then
    let sig := (p.sig : Int) + d
    if sig < 0 ∨ 65535 < sig ∨ 65535 < sig + p.dsig then none
    else some { p with sig := sig.toNat, pend := sig.toNat }
  else
    let dsig := p.dsig + d
    if dsig < -(2 ^ 31) ∨ 2 ^ 31 ≤ dsig ∨ 65535 < (p.sig : Int) + dsig then none
    else
      let p := { p with dsig := dsig }
      some (if d < 0 then p.arrive d.natAbs else p)

/-! ## Barrier objects (R242, R243, R246, R247) -/

/-- COUNT, SCOPE, FIDX and FLAGS of a barrier object. -/
structure Barrier where
  count : Nat
  scope : Nat
  fidx : Nat
  flags : Nat
  deriving DecidableEq, Repr

def Barrier.ofBytes (l : List Byte) : Barrier :=
  let f (i n : Nat) : Nat := leNat ((l.drop i).take n)
  ⟨f 0 8, f 8 1, f 10 2, f 12 4⟩

/-- The object's bytes; the reserved byte keeps what it holds. -/
def Barrier.toBytes (b : Barrier) (old : List Byte) : List Byte :=
  leBytes 8 b.count ++ leBytes 1 b.scope ++ (old.drop 9).take 1 ++ leBytes 2 b.fidx ++ leBytes 4 b.flags

/-- F: a copy counted on the object faulted. -/
def Barrier.fault (b : Barrier) : Bool := b.flags % 2 == 1

/-- `t` more bytes announced at a scope (R243). -/
def Barrier.announce (b : Barrier) (t : Nat) (sc : Scope) : Barrier :=
  let s := sc.code.toNat
  { b with count := (b.count + t) % 2 ^ 64, scope := if b.count = 0 then s else max (b.scope % 8) s }

/-- `t` bytes counted down (R246). -/
def Barrier.countDown (b : Barrier) (t : Nat) : Barrier := { b with count := (b.count + 2 ^ 64 - t % 2 ^ 64) % 2 ^ 64 }

/-- A copy fault at record `r` (R247). -/
def Barrier.fail (b : Barrier) (r : Nat) : Barrier := { b with fidx := r, flags := b.flags ||| 1 }

/-! ## What a read answers -/

/-- The word that a read gives its register from the bytes at its place; `abandoned`: the group's block is (R302). A load is zero- or
sign-extended (R141); `ptest` gives PHASE, ABN and PASSED (R292); `kwait.nb` gives FIDX with bit 63, or COUNT (R248). -/
def PostOp.answer (op : PostOp) (abandoned : Bool) (l : List Byte) : Word :=
  match op with
  | .load n signed _ => if signed then BitVec.ofInt 64 (readInt true (8 * n) (leNat l)) else BitVec.ofNat 64 (leNat l)
  | .test bit _ =>
    let p := Phaser.ofBytes l
    BitVec.ofNat 64 (p.phase * 2 ^ 32 + 2 * boolNat (p.abandoned || abandoned) + boolNat (decide (p.phase % 2 ≠ boolNat bit)))
  | .count _ => let b := Barrier.ofBytes l; BitVec.ofNat 64 (if b.fault then 2 ^ 63 + b.fidx else b.count)
  | _ => 0

/-! ## The view of a group in a deterministic launch (R303) -/

/-- The `n` bytes at a place of the group's own block, in the view from which its tests answer, become what `f` makes of them. -/
def Group.snapAt (g : Group) (p : Place) (n : Nat) (f : List Byte → List Byte) : Group :=
  match p with
  | .sp b o => if b = g.ref.blk then { g with snap := g.snap.map fun m => m.writeBytes o (f (m.readBytes o n)) } else g
  | .phys _ => g

end Sys2Proof.Machine
end

