-- ==== Sys2Proof/Machine/Desc.lean ====
section
/-! DEFINITION. Tensor descriptors (R18 to R23), where an element and its scales lie (R20, R21, R37, R40), and byte ranges that may
span pages. -/

namespace Sys2Proof.Machine

open Sys2Proof

/-! ## Formats (R20) -/

/-- Elements in a block; 0 for a format without blocks. -/
def fmtBlockLen (fmt : Nat) : Nat := if fmt = 14 then 64 else if 15 ≤ fmt ∧ fmt ≤ 20 then 32 else 0

/-- Bytes of an element, or of a block. -/
def fmtBytes (fmt : Nat) : Nat := [1, 2, 4, 8, 1, 2, 4, 8, 8, 4, 2, 2, 1, 1, 32, 32, 32, 24, 24, 16, 32].getD fmt 1

def fmtAlign (fmt : Nat) : Nat := [1, 2, 4, 8, 1, 2, 4, 8, 8, 4, 2, 2, 1, 1, 32, 32, 32, 8, 8, 16, 32].getD fmt 1

/-- Block formats carry scales. -/
def fmtScaled (fmt : Nat) : Bool := decide (14 ≤ fmt)

/-- The element kind of an MX format. -/
def fmtMxk (fmt : Nat) : Mxk :=
  match fmt with
  | 15 => .e4m3 | 16 => .e5m2 | 17 => .e3m2 | 18 => .e2m3 | 19 => .e2m1 | _ => .int8

/-- Bits of an element code. -/
def fmtElemBits (fmt : Nat) : Nat :=
  match fmt with
  | 14 | 19 => 4
  | 17 | 18 => 6
  | 15 | 16 | 20 => 8
  | f => 8 * fmtBytes f

/-- Where element `i` of a block lies in its bytes: first byte, number of bytes, shift within them (R37, R40). -/
def fmtElemAt (fmt i : Nat) : Nat × Nat × Nat :=
  let w := fmtElemBits fmt
  let bit := w * i
  (bit / 8, (bit % 8 + w + 7) / 8, bit % 8)

/-! ## Records (R18, R19) -/

/-- A signed 48-bit stride, when its upper bits repeat bit 47. -/
def stride48 (x : Nat) : Option Int :=
  let v := readInt true 64 x
  if -(2 ^ 47) ≤ v ∧ v < 2 ^ 47 then some v else none

/-- Whether a descriptor's fields meet R19; reserved fields are checked on the record. -/
def Desc.valid (d : Desc) : Bool :=
  let al := fmtAlign d.fmt
  decide (d.fmt ≤ 20) && decide (1 ≤ d.rank) && decide (d.rank ≤ 5) &&
  (List.finRange 5).all (fun i => if i.val < d.rank then decide (1 ≤ d.ext[i]) else decide (d.ext[i] = 1)) &&
  (List.finRange 4).all (fun i => decide (i.val + 1 < d.rank) || decide (d.str[i] = 0)) &&
  decide (d.slay ≤ 2) && (decide (d.slay = 0) != fmtScaled d.fmt) && decide (d.vsel ≤ 2) &&
  decide (d.base.toNat % al = 0) && (List.finRange 4).all (fun i => decide (d.str[i] % (al : Int) = 0)) &&
  (decide (d.slay = 0) || decide (d.sbase.toNat % 4 = 0)) && (decide (d.slay ≠ 2) || decide (d.sstr % 4 = 0)) &&
  (decide (fmtBlockLen d.fmt = 0) || decide (d.ext[0] % fmtBlockLen d.fmt = 0)) &&
  decide (d.base.toNat < 2 ^ 52) && decide (d.sbase.toNat < 2 ^ 52)

/-- A 128-byte record as a descriptor; none when it breaks R18 or R19. -/
def Desc.ofBytes (l : List Byte) : Option Desc :=
  let f (i n : Nat) : Nat := leNat ((l.drop i).take n)
  let ctl := f 0x10 8
  let sstr := if nbits ctl 10 8 = 2 then stride48 (f 0x50 8) else some 0
  match stride48 (f 0x30 8), stride48 (f 0x38 8), stride48 (f 0x40 8), stride48 (f 0x48 8), sstr with
  | some s1, some s2, some s3, some s4, some ss =>
    let d : Desc :=
      { base := BitVec.ofNat 64 (f 0 8), sbase := BitVec.ofNat 64 (f 8 8), fmt := nbits ctl 4 0, rank := nbits ctl 7 5
        slay := nbits ctl 10 8, vsel := nbits ctl 12 11, padm := BitVec.ofNat 5 (nbits ctl 20 16)
        vstepv := BitVec.ofNat 32 (nbits ctl 63 32)
        ext := #v[f 0x18 4, f 0x1C 4, f 0x20 4, f 0x24 4, f 0x28 4], str := #v[s1, s2, s3, s4], sstr := ss }
    if d.valid && nbits ctl 15 13 == 0 && nbits ctl 31 21 == 0 && f 0x2C 4 == 0 && (l.drop 0x58).all (· == 0) then some d
    else none
  | _, _, _, _, _ => none

/-! ## Elements (R21 to R23) -/

/-- Where an access of one element goes: bytes at an address with the shift of the code in them, and the addresses of
its scale code and super-scale; padded; or out of range in a dimension. -/
inductive Loc where
  | elem (addr : Word) (n shift : Nat) (scale super : Option Word)
  | padded
  | out (dim : Nat)
  deriving DecidableEq, Repr

/-- The dimensions a coordinate lies outside. -/
def Desc.outside (d : Desc) (x : Vector Int 5) : List (Fin 5) :=
  (List.finRange 5).filter fun i => decide (x[i] < 0) || decide ((d.ext[i] : Int) ≤ x[i])

/-- The block number within the row, and the row number (R21). -/
def Desc.blockOf (d : Desc) (x : Vector Int 5) : Int := x[0] / (max (fmtBlockLen d.fmt) 1 : Nat)

def Desc.rowOf (d : Desc) (x : Vector Int 5) : Int :=
  x[1] + d.ext[1] * (x[2] + d.ext[2] * (x[3] + d.ext[3] * x[4]))

/-- `PackedScaleOffset` (R37, R40). -/
def packedScale (fmt : Nat) (n : Int) : Int := if fmt = 14 then 260 * (n / 256) + 4 + n % 256 else n

/-- The address of an element, or of the block that holds it. -/
def Desc.addrOf (d : Desc) (x : Vector Int 5) : Word :=
  let off := (List.finRange 4).foldl (fun a i => a + x[i.succ] * d.str[i]) 0
  if fmtBlockLen d.fmt = 0 then d.base + BitVec.ofInt 64 (x[0] * fmtBytes d.fmt + off)
  else d.base + BitVec.ofInt 64 (d.blockOf x * fmtBytes d.fmt + off)

/-- The base of the scale codes that number a block, and the block's number among them; like every number of an address it wraps
modulo 2^64 (R21). -/
def Desc.scaleBase (d : Desc) (c : Vector Int 5) : Word × Int :=
  if d.slay = 2 then (d.sbase + BitVec.ofInt 64 (d.rowOf c * d.sstr), d.blockOf c)
  else (d.sbase, (d.rowOf c * ((d.ext[0] / max (fmtBlockLen d.fmt) 1 : Nat) : Int) + d.blockOf c) % 2 ^ 64)

/-- Where an access of the element at a coordinate goes. -/
def Desc.locate (d : Desc) (x : Vector Int 5) : Loc :=
  let outs := d.outside x
  match outs.find? fun i => !d.padm.getLsbD i.val with
  | some i => .out i.val
  | none =>
    if !outs.isEmpty then .padded
    else if fmtBlockLen d.fmt = 0 then .elem (d.addrOf x) (fmtBytes d.fmt) 0 none none
    else
      let e := fmtElemAt d.fmt (x[0] % (fmtBlockLen d.fmt : Nat)).toNat
      let sb := d.scaleBase x
      .elem (d.addrOf x + BitVec.ofNat 64 e.1) e.2.1 e.2.2 (some (sb.1 + BitVec.ofInt 64 (packedScale d.fmt sb.2)))
        (if d.fmt = 14 then some (sb.1 + BitVec.ofInt 64 (260 * (sb.2 / 256))) else none)

/-- The step that a read through a descriptor names (R22). -/
def Desc.step (d : Desc) (vstep : Word32) : Option Word32 :=
  match d.vsel with
  | 1 => some d.vstepv
  | 2 => some (vstep - d.vstepv)
  | _ => none

/-- The entry of a block's table (R25); a number beyond the table names none. -/
def Block.tid? (b : Block) (n : Nat) : Option Desc := b.tids[n]?.getD none

/-! ## Ranges of bytes -/

/-- A range cut at page boundaries, ascending: the remaining bytes of each page. -/
def pieces (va : Word) (n : Nat) : List (Word × Nat) :=
  let room := pageSize - va.toNat % pageSize
  if n ≤ room then [(va, n)] else [(va, room), (va + BitVec.ofNat 64 room, n - room)]

/-- One piece of a range: translation or window, without alignment (checks 3 to 6 of R223). -/
def State.resolvePiece (s : State) (c : Ctx) (k : Access) (va : Word) (n : Nat) : Res Target :=
  if nbits va.toNat 63 52 ≠ 0 then .error (.trap .protection va 0)
  else if inWindowRange va then do
    let p ← s.windowPlace c va n
    .ok ⟨p, va, 2, 0, false, true, k.writes⟩
  else do
    let l ← s.translateBy (s.tablesOf c) c.l.tenant k va n
    .ok ⟨.phys l.key, va, l.attr, l.pageKey, l.versioned, false, k.writes⟩

/-- Where a read that names a step finds a target's bytes (R217, R322); a window and an unversioned page are live. -/
def State.stepPlace (s : State) (tenant : Nat) (q : Option Word32) (t : Target) : Option Place :=
  match q with
  | none => some t.place
  | some q =>
    if !t.versioned then some t.place
    else match (s.version tenant t.pageKey).resolve q, t.place with
      | some (some copy), .phys k => some (.phys (copy + k % pageSize))
      | some none, p => some p
      | some (some _), p => some p
      | none, _ => none

/-- One checked range of bytes that lies in one page. -/
structure Piece where
  va : Word
  n : Nat
  tgt : Target
  place : Place
  deriving DecidableEq, Repr

end Sys2Proof.Machine
end

