-- ==== Sys2Proof/Machine/Reach.lean ====
section
/-! DEFINITION. What accepted engine commands are still to write (R241, R245, R254 to R256, R285), and the accesses of threads, which
wait for the engines' destination lines (R245, R256, R316). -/

namespace Sys2Proof.Machine

open Sys2Proof

/-! ## Boxes (R241) -/

/-- The numbers 0, `k`, 2·`k`, … below `n`. -/
def stepsBelow (n k : Nat) : List Int := (List.range ((n + k - 1) / k)).map fun i => ((i * k : Nat) : Int)

/-- In-extent coordinates in canonical order, dimension 0 in steps of `k` (R21). -/
def Desc.coords (d : Desc) (k : Nat) : List (Vector Int 5) :=
  (stepsBelow d.ext[4] 1).flatMap fun c4 => (stepsBelow d.ext[3] 1).flatMap fun c3 =>
    (stepsBelow d.ext[2] 1).flatMap fun c2 => (stepsBelow d.ext[1] 1).flatMap fun c1 =>
      (stepsBelow d.ext[0] k).map fun c0 => #v[c0, c1, c2, c3, c4]

/-- One unit that a copy moves: `n` bytes from `src`, or `fill` where the source is padded, to `dst`, unless dropped. -/
structure Move where
  src : Option Word
  fill : List Byte
  dst : Option Word
  n : Nat
  deriving DecidableEq, Repr

/-- What a move moves: an element or the bytes of a block, a scale code, a super-scale. -/
inductive Unit3 where
  | bytes | scale | super
  deriving DecidableEq, Repr

/-- Bytes, R23's fill and the address of a unit at a coordinate. -/
def Desc.unitBytes (d : Desc) : Unit3 → Nat
  | .bytes => fmtBytes d.fmt
  | .scale => 1
  | .super => 4

def Desc.unitFill (d : Desc) : Unit3 → List Byte
  | .bytes => List.replicate (fmtBytes d.fmt) 0
  | .scale => if d.fmt = 14 then [0] else [127]
  | .super => leBytes 4 0x3F800000

def Desc.unitAddr (d : Desc) (c : Vector Int 5) (u : Unit3) : Option Word :=
  match d.locate c with
  | .elem _ _ _ scale super => match u with
    | .bytes => some (d.addrOf c)
    | .scale => scale
    | .super => super
  | _ => none

/-- The moves of one kind of unit, dimension 0 in steps of `k`. -/
def unitMoves (box src dst : Desc) (so dO : Vector Int 5) (k : Nat) (u : Unit3) : List Move :=
  (box.coords k).map fun c =>
    ⟨src.unitAddr (c.zipWith (· + ·) so) u, src.unitFill u, dst.unitAddr (c.zipWith (· + ·) dO) u, box.unitBytes u⟩

/-- Every unit of a tensor's element bytes: elements or blocks, scale codes, super-scales (R23). -/
def Desc.units (d : Desc) : List (Word × Nat) :=
  let bl := fmtBlockLen d.fmt
  let of (k : Nat) (u : Unit3) : List (Word × Nat) :=
    (d.coords k).filterMap fun c => (d.unitAddr c u).map fun a => (a, d.unitBytes u)
  if bl = 0 then of 1 .bytes
  else of bl .bytes ++ of bl .scale ++ (if d.fmt = 14 then (of bl .super).eraseDups else [])

/-- All moves of a box: `so` and `dO` are the origins in the source and the destination. -/
def boxMoves (box src dst : Desc) (so dO : Vector Int 5) : List Move :=
  let bl := fmtBlockLen box.fmt
  if bl = 0 then unitMoves box src dst so dO 1 .bytes
  else unitMoves box src dst so dO bl .bytes ++ unitMoves box src dst so dO bl .scale ++
    (if box.fmt = 14 then unitMoves box src dst so dO (bl * 256) .super else [])

/-- Bytes of a list of moves, dropped ones included. -/
def moveBytes (ms : List Move) : Nat := ms.foldl (fun n m => n + m.n) 0

def zero5 : Vector Int 5 := Vector.replicate 5 0

/-- The moves of a captured record (R241). -/
def CopyRec.moves (r : CopyRec) : List Move :=
  if r.skip then []
  else if r.scatter then boxMoves r.src r.src r.dst zero5 r.origin
  else boxMoves r.dst r.src r.dst r.origin zero5

/-- `BoxBytes(r)`. -/
def CopyRec.bytes (r : CopyRec) : Nat := moveBytes r.moves

/-- Checked pieces of one range; `kick`: a poisoned walk reports the virtual address being translated (R389). -/
def State.movePieces (s : State) (c : Ctx) (kick : Bool) (k : Access) (va : Option Word) (n : Nat) : Res (List Piece) :=
  match va with
  | none => .ok []
  | some va => (pieces va n).mapM fun (p, m) =>
    match s.resolvePiece c k p m with
    | .ok t => .ok ⟨p, m, t, t.place⟩
    | .error (.park a d) => .error (.park (if kick then p else a) d)
    | .error e => .error e

/-- The place of a virtual address in the pages that a command holds. -/
def Held.at (h : Held) (va : Word) : Option Place :=
  (h.find? fun e => e.vpn == va.toNat / pageSize).map fun e => e.place.add (va.toNat % pageSize)

/-- The places of the bytes of a range in held pages: one or two pieces. -/
def Held.range (h : Held) (va : Word) (n : Nat) : List (Place × Nat) :=
  (pieces va n).filterMap fun (a, m) => (h.at a).map fun p => (p, m)

/-- Coordinates of dimensions 0 and 1 alone. -/
def coord2 (a b : Int) : Vector Int 5 := #v[a, b, 0, 0, 0]

/-- The units that a rectangle of elements touches: addresses and lengths of elements or blocks, scales, super-scales. -/
def Desc.rectUnits (d : Desc) (a0 : Int) (n0 : Nat) (b0 : Int) (n1 : Nat) : List (Word × Nat) :=
  let k := max (fmtBlockLen d.fmt) 1
  (stepsBelow n1 1).flatMap fun j => (stepsBelow n0 k).flatMap fun i =>
    let c := coord2 (a0 + i) (b0 + j)
    match d.locate c with
    | .elem _ _ _ scale super =>
      [(d.addrOf c, fmtBytes d.fmt)] ++ (scale.toList.map fun a => (a, 1)) ++ (super.toList.map fun a => (a, 4))
    | _ => []

/-- Origins of a step: X's K and row, C's column and row (R256). R21's coordinates are signed 32-bit numbers, and no rule says what a
sum beyond them gives: these are exact integers (log 56, DESIGN CHOICE). -/
def LoopRec.xk (r : LoopRec) (s : Nat) : Int := r.xk0 + s * r.dxk
def LoopRec.xr (r : LoopRec) (s : Nat) : Int := r.xrow0 + s * r.dxrow
def LoopRec.cc (r : LoopRec) (s : Nat) : Int := r.ccol0 + s * r.dccol
def LoopRec.cr (r : LoopRec) (s : Nat) : Int := r.crow0 + s * r.dcrow

/-! ## The moves of a halo exchange (R335) -/

/-- The box of a halo exchange: the source's coordinates, in units of the destination. -/
def haloBox (src dst : Desc) : Desc := { src with fmt := dst.fmt }

/-- Elements and blocks of two tensors have the same size, so that bit patterns can be copied. -/
def sameUnits (src dst : Desc) : Bool := fmtBlockLen src.fmt == fmtBlockLen dst.fmt && fmtBytes src.fmt == fmtBytes dst.fmt

/-- The moves: bit patterns, with every super-scale that a block has; where the sizes differ, the spec does not say what the
destination's bytes become (log 16). -/
def haloMoves (src dst : Desc) : List Move :=
  if src.fmt = 14 ∧ dst.fmt = 14 then
    unitMoves src src dst zero5 zero5 64 .bytes ++ unitMoves src src dst zero5 zero5 64 .scale ++
      (unitMoves src src dst zero5 zero5 64 .super).eraseDups
  else if sameUnits src dst then boxMoves src src dst zero5 zero5
  else (boxMoves (haloBox src dst) (haloBox src dst) dst zero5 zero5).map fun m => { m with src := none }

/-- The units of the destination that a collective writes. -/
def dataUnits (reduce : Bool) (src dst : Desc) : List (Word × Nat) :=
  if reduce then dst.units else (haloMoves src dst).filterMap fun m => m.dst.map fun a => (a, m.n)

/-! ## Destination lines (R245, R256, R285, R316) -/

/-- A posted operation of the group, issued before the command `id`, has not been performed: every access of the command
follows it (R316). -/
def State.behindPosted (s : State) (r : GroupRef) (id : Nat) : Bool :=
  match s.group? r with
  | some g => s.arrivals.any fun a => a.grp == r && decide (a.id < id) && !s.heldBack g a
  | none => false

/-- Bytes that an accepted command is still to write: its group and number, and whether it makes granules of a scratchpad full
(R201). -/
structure Dest where
  grp : GroupRef
  id : Nat
  fills : Bool
  place : Place
  n : Nat
  deriving DecidableEq, Repr

/-- What the remaining records of a kick write, by the tables as they stand. -/
def State.kickDests (s : State) (k : Kick) : List Dest :=
  match s.engineCtx k.grp with
  | none => []
  | some c => (k.recs.drop k.next).flatMap fun r => r.moves.flatMap fun m =>
    match s.movePieces c true .store m.dst m.n with
    | .ok ps => ps.map fun p => ⟨k.grp, k.id, true, p.place, p.n⟩
    | .error _ => []

/-- The C elements of a step of a loop record. -/
def LoopRec.outs (r : LoopRec) (st : Nat) : List (Place × Nat) :=
  (r.c.rectUnits (r.cc st) r.ncol (r.cr st) r.m).flatMap fun u => r.cheld.range u.1 u.2

/-- What a matrix command is still to write. -/
def MCmd.dests (r : GroupRef) (m : MCmd) : List Dest :=
  match m with
  | .loop id _ recs rec st =>
    (((recs.drop rec).zipIdx).flatMap fun q => ((List.range q.1.steps).drop (if q.2 = 0 then st else 0)).flatMap q.1.outs).map
      fun p => ⟨r, id, true, p.1, p.2⟩
  | .load .. | .swap _ => []

/-- The bytes of the destination of an accepted `gbread`. -/
def GbCmd.dests (q : GbCmd) : List Dest :=
  match q.work with
  | .read d _ held => (List.range d.ext[0]).flatMap fun j => (held.range (d.addrOf (coord2 (j : Nat) 0)) 1).map fun p => ⟨q.grp, q.id, true, p.1, p.2⟩
  | .sweep .. => []

/-- What a collective writes; it makes no granule full (R201). -/
def Coll.dests (q : Coll) : List Dest :=
  (dataUnits q.reduce q.src q.dst).flatMap fun u => (q.dheld.range u.1 u.2).map fun p => ⟨q.grp, q.id, false, p.1, p.2⟩

/-- What accepted commands are still to write. -/
def State.dests (s : State) : List Dest :=
  s.kicks.flatMap s.kickDests ++ (s.groups.flatMap fun g => g.mcmds.flatMap (MCmd.dests g.ref)) ++ s.gbcmds.flatMap GbCmd.dests ++
    s.colls.flatMap Coll.dests

/-- A place outside the scratchpads. -/
def Place.inMemory : Place → Bool
  | .phys _ => true
  | .sp _ _ => false

/-- Two ranges of memory share a line of 128 bytes. -/
def sharesLine (p : Place) (m : Nat) (q : Place) (n : Nat) : Bool :=
  match p, q with
  | .phys a, .phys b => decide (0 < m) && decide (0 < n) && decide (a / 128 ≤ (b + n - 1) / 128) && decide (b / 128 ≤ (a + m - 1) / 128)
  | _, _ => false

/-- Memory that an accepted command owns until it has written it: an access of another agent waits (R245, R256, R316). The command's
own group does not wait for a command that itself still follows a posted operation of the group, which may follow the access
(log 22, DESIGN CHOICE). -/
def State.lineHeld (s : State) (who : Option GroupRef) (p : Place) (n : Nat) : Bool :=
  p.inMemory && s.dests.any fun d => sharesLine d.place d.n p n && !(who == some d.grp && s.behindPosted d.grp d.id)

/-- A group's access to `n` bytes waits for the engines that own their lines. -/
def State.lineFree (s : State) (c : Ctx) (p : Place) (n : Nat) (va : Word) : Res Unit :=
  if s.lineHeld (some c.g.ref) p n then .error (.wait (.line va)) else .ok ()

/-- An access of a group to a target can be made: its way is open, and no engine owns its lines (R214, R245, R330, R332). An aligned
access lies in one line. -/
def State.reachable (s : State) (c : Ctx) (t : Target) : Res Unit := do
  s.wayTo t
  s.lineFree c t.place 1 t.va

/-- A reachable place without poison: what a load or an atomic meets after its checks (R353, R332, R214). -/
def State.readable (s : State) (c : Ctx) (t : Target) (n : Nat) : Res Unit := do
  s.reachable c t
  match s.poisoned t.place n with
  | some q => .error (.park (t.report q) 0)
  | none => .ok ()

end Sys2Proof.Machine
end

