-- ==== Sys2Proof/Machine/Ops.lean ====
section
/-! DEFINITION. The shared operations of a group: registers, completing an instruction, waiting, taking a trap, killing,
parking (R341 to R355), posting records in a tenant's rings (R349 to R351, R367), aborting a transaction (R300), and the
frames of scalar instructions. -/

namespace Sys2Proof.Machine

open Sys2Proof

abbrev Out := Host.Outcome State Fault Refusal

/-! ## Scalar registers (R78, R101) -/

/-- A read of x0 gives zero. -/
def Group.getX (g : Group) (r : BitVec 6) : Word := if r = 0 then 0 else g.x[r.toNat]'r.isLt

/-- A write to x0 is discarded. -/
def Group.setX (g : Group) (r : BitVec 6) (v : Word) : Group :=
  if r = 0 then g else { g with x := g.x.set r.toNat v r.isLt }

/-- A scalar instruction completes: the scalar stream stands at `pc`, waits for nothing, and its blocked time is 0
(R356). -/
def Group.complete (g : Group) (pc : Word) : Group :=
  { g with pc := pc, swait := none, swalk := none, blocked := 0 }

/-- Completion at the next instruction (R74). -/
def Group.advance (g : Group) : Group := g.complete (g.pc + 4)

/-- A region-ending instruction has taken effect: the group is closing until its next `rgn` (R155). -/
def Group.close (g : Group) : Group := { g with closing := true }

/-! ## Lane paths (R118) -/

def Group.path (g : Group) (slot : Bool) : Option Path := if slot then g.path1 else g.path0

def Group.setPath (g : Group) (slot : Bool) (p : Option Path) : Group :=
  if slot then { g with path1 := p } else { g with path0 := p }

/-- A lane instruction of a path completes at `pc`. -/
def Group.completeLane (g : Group) (slot : Bool) (pc : Word32) : Group :=
  let g := { g with blocked := 0 }
  g.setPath slot ((g.path slot).map fun p => { p with pc := pc, wait := none, walk := none })

/-- Completion at the next lane instruction (R75). -/
def Group.advanceLane (g : Group) (slot : Bool) : Group :=
  match g.path slot with
  | some p => g.completeLane slot (p.pc + 12)
  | none => g

/-- Every lane of the 32. -/
def allLanes : BitVec 32 := BitVec.allOnes 32

/-- The head of the segment queue starts as one path with all lanes (R112, R118); an empty queue leaves the lane side
idle. -/
def Group.startHead (g : Group) : Group :=
  match g.segs with
  | sg :: _ =>
    { g with path0 := some ⟨sg.start, allLanes, false, none, none⟩, path1 := none, frame := ⟨0, 0, 0⟩, issue1 := false }
  | [] => { g with path0 := none, path1 := none, frame := ⟨0, 0, 0⟩, issue1 := false }

/-- o0 to o7, l0 and l1 of a thread set to zero (R115, R343). -/
def Lane.clearSmall (l : Lane) : Lane := { l with o := Vector.replicate 8 0, l0 := 0, l1 := 0 }

/-- What a trap, a kill and a pre-emption discard of the lane side (R343, R360): segments with the traversal requests at work,
return queue, monitor, frames, the small lane files; B returns to its value at the region's `rgn`. -/
def Group.discard (g : Group) : Group :=
  { g with
    segs := [], segDone := g.segIssued, path0 := none, path1 := none, frame := ⟨0, 0, 0⟩, issue1 := false, retq := []
    units := [], monitor := none, lanes := g.lanes.map Lane.clearSmall, genB := g.rB, swait := none, swalk := none
    blocked := 0 }

/-! ## Transactions (R300) -/

/-- An abort: buffered stores are dropped, x1 to x63 restored, the status and address written to x62 and x61, and the
scalar stream stands at the fallback. -/
def Group.abortTx (g : Group) (reason code : Nat) (addr : Word) : Group :=
  match g.tx with
  | none => g
  | some t =>
    let g := { g with x := t.saved, tx := none }
    let g := (g.setX 62 (BitVec.ofNat 64 (reason + 256 * code))).setX 61 (if reason = 4 then addr else 0)
    g.complete t.fallback

/-! ## Records and rings (R349 to R351, R366, R367) -/

def TrapCode.num : TrapCode → Nat
  | .illegal => 1 | .operand => 2 | .align => 3 | .protection => 4 | .page => 5 | .version => 6 | .copy => 7
  | .determinism => 8 | .divergence => 9 | .user => 10 | .brk => 11 | .poison => 12 | .mirror => 13 | .mcheck => 14
  | .watchdog => 15

/-- The codes whose handling in R341 is "segment". -/
def TrapCode.segment : TrapCode → Bool
  | .page | .version | .copy | .user => true
  | _ => false

/-- The codes that a machine check carries (R355). -/
def TrapCode.machineCheck : TrapCode → Bool
  | .mirror | .mcheck => true
  | _ => false

/-- Precise traps (R341). -/
def TrapCode.precise : TrapCode → Bool
  | .copy | .watchdog => false
  | _ => true

/-- `TAUX`: the region start above DETAIL (R342). -/
def Group.tauxOf (g : Group) (detail : Word32) : Word := g.rstart.extractLsb' 0 32 ++ detail

/-- The bytes of a fault record but for PHASE (R350). -/
def faultBytes (code flags queue : Nat) (seq : Word32) (ctag tpc taddr taux time : Word) (blk vcx vcy gid pcore : Nat) :
    List Byte :=
  leBytes 1 code ++ leBytes 1 flags ++ leBytes 1 queue ++ leBytes 1 0 ++ leBytes 4 seq.toNat ++ leBytes 8 ctag.toNat ++
  leBytes 8 tpc.toNat ++ leBytes 8 taddr.toNat ++ leBytes 8 taux.toNat ++ leBytes 8 time.toNat ++ leBytes 4 blk ++
  leBytes 1 vcx ++ leBytes 1 vcy ++ leBytes 1 gid ++ leBytes 1 pcore ++ leBytes 4 0 ++ leBytes 3 0

/-- What became of a record that was to be posted (R351). -/
inductive Posting where
  | noRoom
  | dropped (s : State)
  | posted (s : State) (slot : Option Nat)

def Tenant.ring (t : Tenant) (fault : Bool) : Ring := if fault then t.fq else t.cq

def Tenant.setRing (t : Tenant) (fault : Bool) (r : Ring) : Tenant := if fault then { t with fq := r } else { t with cq := r }

/-- A vector message of the tenant's function (R374); while the CXL link is held off it waits (R376). -/
def State.sendVector (s : State) (t n : Nat) : State :=
  s.updTenant t fun x => if s.cxlOn then { x with vectors := n :: x.vectors } else { x with vectorsDue := n :: x.vectorsDue }

def State.logEvent (s : State) (e : LogEvent) : State := { s with mgmt := { s.mgmt with log := e :: s.mgmt.log } }

/-- A record dropped: DROP counts it, saturating (R349). -/
def State.dropRecord (s : State) (t : Nat) (fault : Bool) : State :=
  s.updTenant t fun x =>
    let r := x.ring fault
    x.setRing fault { r with drop := min (r.drop + 1) 0xFFFF }

/-- Records in the ring that the runtime has not consumed. -/
def Ring.fill (r : Ring) : Nat := (r.put - r.get).toNat

/-- The next slot of a ring, as the tenant's tables translate it (R351); an engine may still own a line of it (R316). -/
def State.ringSlot (s : State) (t : Nat) (fault : Bool) : Res Leaf := do
  let r := (s.tenant t).ring fault
  let va : Word := BitVec.ofNat 64 (nbits r.base.toNat 51 0 + 64 * (r.put.toNat % 2 ^ r.logn))
  let l ← s.translate t .store va 64
  s.reach l va true
  if s.lineHeld none (.phys l.key) 64 then .error (.wait (.line va)) else .ok l

/-- The next slot lies behind a link, an owner or an engine that must be waited for (R214, R316, R332). -/
def State.slotWaits (s : State) (t : Nat) (fault : Bool) : Bool :=
  match s.ringSlot t fault with
  | .error (.wait _) => true
  | _ => false

/-- A copy-on-write in progress comes to its end (R218). -/
def State.cowFinish (s : State) (w : Cow) : State :=
  let tenant := ((s.versions.find? fun v => v.page == w.page).map (·.tenant)).getD 0
  let s := { s with cows := s.cows.filter fun x => x.page != w.page }
  (s.copyPage w.page w.dest).cowUpdate tenant w.page w.dest w.step

/-- A copy-on-write ends. Where the table has changed since it began, so that the copy would break R216, nothing is copied and the
stores find that. -/
def State.endCopy (s : State) (w : Cow) : State :=
  match s.versions.find? fun v => v.page == w.page with
  | some v =>
    if !v.pub || v.cur == w.step || v.rset.any (fun r => r.step == w.step) || v.rset.length == 4 then
      { s with cows := s.cows.filter fun x => x.page != w.page }
    else s.cowFinish w
  | none => { s with cows := s.cows.filter fun x => x.page != w.page }

/-- A write that the device makes in place, without a copy of its own, comes behind the copies in progress of its pages: what it
writes is no part of the step that they keep (R218, R320; log 40). -/
def State.finishCopies (s : State) (key n : Nat) : State :=
  (s.cows.filter fun w => decide (w.page < key + n) && decide (key < w.page + pageSize)).foldl (fun (s : State) w => s.endCopy w) s

/-- Writing a record into slot PUT, PHASE last (R351); the slot must be translatable and writable for the tenant. -/
def State.writeSlot (s : State) (t : Nat) (fault : Bool) (rec : PendingRec) : Posting :=
  let r := (s.tenant t).ring fault
  let phase : Byte := if r.put.toNat / 2 ^ r.logn % 2 = 0 then 1 else 0
  match s.ringSlot t fault with
  | .error _ => .dropped ((s.dropRecord t fault).logEvent (.recordDropped t))
  | .ok l =>
    let bytes := if fault then rec.bytes ++ [phase] else rec.bytes.take 31 ++ [phase] ++ rec.bytes.drop 31
    let s := (s.finishCopies l.key bytes.length).writeBytes none (.phys l.key) bytes
    let s := s.updTenant t fun x => x.setRing fault { x.ring fault with put := r.put + 1 }
    let s := match rec.park with
      | some id => { s with groups := s.groups.map fun g =>
          { g with park := g.park.map fun (p : Park) => if p.id = id then { p with slot := some l.key } else p } }
      | none => s
    let s := match rec.vector with
      | some q => s.sendVector t q
      | none => if r.irq then s.sendVector t (if fault then 8 else 10) else s
    .posted s (some l.key)

/-- Posting a record: into the ring, else into the buffer of 64, else there is no room (R351, R367). -/
def State.postRecord (s : State) (t : Nat) (fault : Bool) (rec : PendingRec) : Posting :=
  let r := (s.tenant t).ring fault
  if !r.en then .dropped (s.dropRecord t fault)
  else if r.buffer.isEmpty && decide (r.fill ≠ 2 ^ r.logn) && !s.slotWaits t fault then s.writeSlot t fault rec
  else if r.buffer.length < 64 then
    .posted (s.updTenant t fun x => x.setRing fault { x.ring fault with buffer := r.buffer ++ [rec] }) none
  else .noRoom

/-- The record of a group's trap (R350); FLAGS: KILLED 1, PARKED 2, NESTED 8 are given, CLOSING, DET and CHK added. -/
def State.faultRecord (s : State) (g : Group) (info : TrapInfo) (flags : Nat) : List Byte :=
  let taux := g.tauxOf info.detail
  match s.ctxOf g with
  | some c =>
    faultBytes info.code.num (flags + (if g.closing then 4 else 0) + (if c.l.det then 16 else 0) + (if c.l.chk then 32 else 0))
      c.l.queue c.l.seq c.l.ctag info.tpc info.taddr taux info.time c.b.b c.b.vx c.b.vy g.ref.gid g.core
  | none => faultBytes info.code.num flags 0 0 0 info.tpc info.taddr taux info.time 0 0 0 g.ref.gid g.core

def State.tenantOf (s : State) (g : Group) : Nat :=
  match s.ctxOf g with
  | some c => c.l.tenant
  | none => 0

/-! ## Killing (R302, R348) -/

/-- A page that the device itself must write: a copy in progress is finished, and a published page copied; no result where R218
faults. -/
def State.ownPage (s : State) (tenant pageKey : Nat) (q : Word32) : Option State :=
  let s := match s.cows.find? fun w => w.page == pageKey with
    | some w => s.endCopy w
    | none => s
  let v := s.version tenant pageKey
  if !v.pub then some s
  else if (s.cowFault v tenant q 1).isSome then none
  else some (s.cowNow tenant pageKey q)

/-- A kill's way to an object: a live owner of its page serves the update; a lost peer does not (R302; log 46). -/
def served (r : Res Unit) : Bool :=
  match r with
  | .ok _ | .error (.wait (.owner _ _)) => true
  | _ => false

/-- FLAGS of a phaser lies at byte 13; A is bit 0 (R287). A kill sets it where the object can still be updated: its page
translates and is writable, the object meets no poison, a lost peer does not hold it, and a published page can be copied (R302;
log 46). -/
def State.abandonObject (s : State) (c : Ctx) (r : Registration) : State :=
  match s.resolveChecks { c with walk := none } .atomic r.addr 16 with
  | .ok t =>
    if (s.poisoned t.place 16).isSome || !served (s.wayTo t) then s
    else match (if t.versioned then s.ownPage c.l.tenant t.pageKey (c.g.vstep.extractLsb' 0 32) else some s) with
      | some s1 => s1.writeNat (some c.g.ref) (t.place.add 13) 1 (s1.readNat (t.place.add 13) 1 ||| 1)
      | none => s
  | .error _ => s

/-- Abandonment: A on the registered objects, then the block's mark (R302). -/
def State.abandon (s : State) (g : Group) : State :=
  let s := match s.ctxOf g with
    | some c => g.regs.foldl (fun (s : State) r => s.abandonObject c r) s
    | none => s
  s.updBlock g.ref.blk fun b => { b with abandoned := true }

/-- A kill waits: a peer in recovery, or a link held off, is on the way to an object of the group that would receive A, or an engine
owns a line of it; accesses to it wait (R302, R316, R332, R376; log 46). The group's own commands count too: what they write would
undo the mark. -/
def State.killHeld (s : State) (g : Group) : Bool :=
  match s.ctxOf g with
  | none => false
  | some c => g.regs.any fun r => match s.resolveChecks { c with walk := none } .atomic r.addr 16 with
    | .ok t => (s.poisoned t.place 16).isNone && match s.wayTo t with
      | .error (.wait (.recovery ..)) | .error (.wait (.link _)) => true
      | way => served way && s.lineHeld none t.place 16
    | .error _ => false

/-- Posted operations of a group that bring no value back any more are given up. -/
def State.dropPosted (s : State) (r : GroupRef) (f : PostOp → Bool) : State :=
  { s with arrivals := s.arrivals.filter fun a => !(a.grp == r && f a.op) }

/-- The end of a group, by `done` or a kill: its slot and registers are free, and an open transaction, registrations and
monitor are gone; a coroutine position it held is open (R129, R348). -/
def State.endGroup (s : State) (r : GroupRef) (st : GroupStatus) : State :=
  let s := s.updGroup r fun g =>
    { g with status := st, tx := none, regs := [], monitor := none, swait := none, swalk := none, park := none, preemptAt := none
             closing := false, held := [], detected := [], segs := [], path0 := none, path1 := none
             units := [], segDone := g.segIssued, retq := [], acu := false, sat := false
             planes := if g.mcmds.isEmpty then none else g.planes }
  (s.dropPosted r PostOp.reads).updBlock r.blk fun b => if b.co = .current r.gid then { b with co := .opened none } else b

/-- A kill in the order of R348; no result when its record finds no room (R351), or while its mark must wait for a peer or a link. -/
def State.kill (s : State) (r : GroupRef) (info : TrapInfo) (nested : Bool) : Option State :=
  match s.group? r with
  | none => some s
  | some g =>
    if s.killHeld g then none
    else
    let s1 := s.abandon g
    let rec' := s.faultRecord g info (1 + if nested then 8 else 0)
    let finish (s2 : State) : State :=
      let s3 := s2.endGroup r .killed
      let s4 := match s.block? r.blk with
        | some b => s3.updLaunch b.launch fun l =>
            { l with kcode := l.kcode.or (some info.code), nkill := min (l.nkill + 1) 0xFFFFFFFF }
        | none => s3
      if info.code.machineCheck then s4.logEvent (.machineCheck r info.code) else s4
    match s1.postRecord (s.tenantOf g) true ⟨rec', none, none⟩ with
    | .noRoom => none
    | .dropped s2 => some (finish s2)
    | .posted s2 _ => some (finish s2)

/-! ## Parking (R352, R353) -/

/-- Posts a record with PARKED set and holds the group; a park that cannot be posted becomes a kill (R351). -/
def State.parkGroup (s : State) (r : GroupRef) (info : TrapInfo) : Option State :=
  match s.group? r with
  | none => some s
  | some g =>
    let id := s.nextId
    let s1 := { s with nextId := id + 1 }
    let hold (s2 : State) (slot : Option Nat) : State := s2.updGroup r fun g => { g with park := some ⟨id, info.code, info, slot, false⟩ }
    match s1.postRecord (s.tenantOf g) true ⟨s.faultRecord g info 2, some id, none⟩ with
    | .noRoom => none
    | .dropped s2 => s2.kill r info (g.trapMode && info.code != .brk)
    | .posted s2 slot => some (hold s2 slot)

/-! ## Taking a trap (R343 to R346) -/

/-- A deferred trap is due (R346). -/
def Group.deferredDue (g : Group) : Bool := !g.held.isEmpty && !g.closing && g.tx.isNone && !g.trapMode

def Kernel.hasTrapSegment (k : Kernel) : Bool := k.trapseg != 0xFFFFFFFF

/-- Whether a trap is delivered to the trap segment (R344). -/
def delivered (g : Group) (k : Kernel) (code : TrapCode) : Bool :=
  code.segment && k.hasTrapSegment && !g.trapMode && !g.closing

/-- Delivery: the trap state is written, trap mode starts, and the scalar stream stands at the trap segment (R343). -/
def Group.deliver (g : Group) (k : Kernel) (info : TrapInfo) : Group :=
  { g with
    tcode := BitVec.ofNat 64 info.code.num, tpc := info.tpc, taddr := info.taddr, taux := g.tauxOf info.detail
    trapMode := true, pc := k.trapseg.zeroExtend 64, swait := none, swalk := none, blocked := 0 }

/-- Taking a trap (R343): both streams stop, the lane side and the loads in flight are discarded and B restored; then the trap is
delivered, parks or kills. No result when a record must be posted and finds no room (R351), or a kill waits for a peer (R332). -/
def State.takeTrap (s : State) (r : GroupRef) (info : TrapInfo) : Option State :=
  match s.group? r with
  | none => some s
  | some g =>
    let s1 := (s.updGroup r Group.discard).dropPosted r PostOp.reads
    if info.code = .brk then s1.parkGroup r info
    else match s.ctxOf g with
      | some c => if delivered g c.k info.code then some (s1.updGroup r fun g => g.deliver c.k info)
                  else s1.kill r info (g.trapMode && info.code.precise)
      | none => s1.kill r info (g.trapMode && info.code.precise)

/-- `TPC` of a scalar instruction (R342). -/
def Group.scalarTpc (g : Group) : Word := (g.pc.extractLsb' 0 32).zeroExtend 64

/-- `TPC` of a lane instruction: LANE, the `lrun`'s PC, the lane PC (R342). -/
def Group.laneTpc (g : Group) (pc : Word32) : Word :=
  let lrun : BitVec 31 := match g.segs with
    | sg :: _ => sg.lrunPc.extractLsb' 0 31
    | [] => 0
  (1#1 ++ lrun ++ pc)

/-! ## Frames of instructions -/

/-- The scalar stream, or a path, starts to wait. -/
def Group.await (g : Group) (slot : Option Bool) (w : Wait) : Group :=
  match slot with
  | none => { g with swait := some w }
  | some b => g.setPath b ((g.path b).map fun p => { p with wait := some w })

/-- The `TPC` of the instruction that a stream stands at. -/
def Group.tpcOf (g : Group) (slot : Option Bool) : Word :=
  match slot with
  | none => g.scalarTpc
  | some b => match g.path b with
    | some p => g.laneTpc p.pc
    | none => g.scalarTpc

/-- A waiting access keeps the tables with which it has issued (R206). -/
def Group.keepWalk (g : Group) (slot : Option Bool) (w : Wait) (tb : Tables) : Group :=
  match w with
  | .copy _ | .owner _ _ | .recovery _ _ | .link _ | .line _ | .fe _ =>
    match slot with
    | none => { g with swalk := some (g.swalk.getD tb) }
    | some b => g.setPath b ((g.path b).map fun p => { p with walk := some (p.walk.getD tb) })
  | _ => g

/-- A stream that parks keeps no tables: what it replays walks the tables as they then stand (R352, R389). -/
def Group.dropWalk (g : Group) (slot : Option Bool) : Group :=
  match slot with
  | none => { g with swalk := none }
  | some b => g.setPath b ((g.path b).map fun p => { p with walk := none })

/-- A group waits in an access that has issued. -/
def State.holdAccess (s : State) (r : GroupRef) (slot : Option Bool) (w : Wait) : State :=
  s.updGroup r fun g => (g.await slot w).keepWalk slot w (s.tables (s.tenantOf g))

/-- A group that must post a record and finds no room waits at that point with its cause, which it takes next (R351). -/
def Group.awaitRoom (g : Group) (info : TrapInfo) : Group :=
  { g with detected := if g.detected.contains info then g.detected else info :: g.detected }

/-- The result of taking a trap or of a kill, or the wait for room of R351. -/
def State.orRoom (s : State) (r : GroupRef) (info : TrapInfo) (t : Option State) : State :=
  t.getD (s.updGroup r fun g => g.awaitRoom info)

/-- What happens when an instruction of group `g` does not complete: `s` is the state in which it was issued. -/
def State.stopped (s : State) (g : Group) (slot : Option Bool) (st : Stop) : Out :=
  match st with
  | .trap code addr detail =>
    let info : TrapInfo := ⟨code, g.tpcOf slot, addr, BitVec.ofNat 32 detail, s.aoc⟩
    .next (s.orRoom g.ref info (s.takeTrap g.ref info))
  | .park addr detail =>
    let info : TrapInfo := ⟨.poison, g.tpcOf slot, addr, BitVec.ofNat 32 detail, s.aoc⟩
    .next ((s.orRoom g.ref info (s.parkGroup g.ref info)).updGroup g.ref fun g => g.dropWalk slot)
  | .wait w => .next (s.holdAccess g.ref slot w)
  | .abort reason code addr => .next (s.updGroup g.ref fun g => g.abortTx reason code addr)
  | .fault f => .fault f

def State.settle (s : State) (g : Group) (slot : Option Bool) (r : Res State) : Out :=
  match r with
  | .ok s' => .next s'
  | .error st => s.stopped g slot st

/-- A scalar instruction that a transaction allows (R298), on the group's registers alone. -/
def State.scalarPure (s : State) (f : Group → Group) : Out :=
  match s.group? s.who.grp with
  | none => .next s
  | some _ => .next (s.updGroup s.who.grp f)

/-- A scalar instruction that a transaction allows. -/
def State.scalar (s : State) (body : Group → Res State) : Out :=
  match s.group? s.who.grp with
  | none => .next s
  | some g => s.settle g none (body g)

/-- A scalar instruction that a transaction does not allow: with one open it aborts with REASON 6 (R298, R300). -/
def State.scalarOut (s : State) (body : Group → Res State) : Out :=
  s.scalar fun g => if g.tx.isSome then .error (.abort 6 0 0) else body g

/-- As `scalarOut`, with the group's block, launch, container and kernel. -/
def State.scalarCtx (s : State) (body : Ctx → Res State) : Out :=
  s.scalarOut fun g => match s.ctxOf g with
    | some c => body c
    | none => .ok s

/-- The drain of R113. -/
def Group.drained (g : Group) : Res Unit := if g.segs.isEmpty then .ok () else .error (.wait .drain)

/-- The issuing group's update, on success. -/
def State.done (s : State) (f : Group → Group) : Res State := .ok (s.updGroup s.who.grp f)

/-- A precise trap with `TADDR` and DETAIL zero. -/
def trapNow {α : Type} (code : TrapCode) : Res α := .error (.trap code 0 0)

/-- A check whose failure raises a trap. -/
def ensure (b : Bool) (code : TrapCode) (addr : Word := 0) (detail : Nat := 0) : Res Unit :=
  if b then .ok () else .error (.trap code addr detail)

end Sys2Proof.Machine
end

