-- ==== Sys2Proof/Machine/Generator.lean ====
section
/-! DEFINITION. The counter-based generator (R44, R45). -/

namespace Sys2Proof.Machine

open Sys2Proof

/-- One round of `Mix`. -/
def mixRound (k : Word) (i : Nat) (x : Word) : Word :=
  let x := x + k.rotateLeft (13 * i + 7)
  let x := x ^^^ (x >>> 29)
  let x := x * 0xA3B195C4D7E6F28B#64
  x ^^^ (x >>> 32)

/-- The mixing function of R44. -/
def mix (k c : Word) : Word :=
  mixRound k 3 (mixRound k 2 (mixRound k 1 (mixRound k 0 (c ^^^ k))))

/-- The draw of lane `lane` in slot `slot` (R44). -/
def Group.draw (g : Group) (slot lane : Nat) : Word := mix g.genK (g.genB + BitVec.ofNat 64 (32 * slot + lane))

/-- The advance of B by `m` slots (R45). -/
def Group.advanceB (g : Group) (m : Nat) : Group := { g with genB := g.genB + BitVec.ofNat 64 (32 * m) }

/-- The 32 bits that a stochastic rounding compares (R33). -/
def Group.rsDraw (g : Group) (slot lane : Nat) : Nat := (g.draw slot lane).toNat % 2 ^ 32

end Sys2Proof.Machine
end

