-- ==== Sys2Proof/Machine/Operands.lean ====
section
/-! DEFINITION. Operands of lane instructions (R84 to R87, R101), sub-elements (R27), the small lane files (R117) and the
frame that every lane instruction shares (R157). -/

namespace Sys2Proof.Machine

open Sys2Proof

/-! ## Sub-elements (R27) -/

/-- Sub(v, w, j). -/
def subOf (v : Word) (w j : Nat) : Nat := v.toNat / 2 ^ (w * j) % 2 ^ w

/-- The register whose sub-elements of width `w`, from the lowest, are given. -/
def packNat (w : Nat) : List Nat → Nat
  | [] => 0
  | x :: rest => x % 2 ^ w + 2 ^ w * packNat w rest

def packSubs (w : Nat) (xs : List Nat) : Word := BitVec.ofNat 64 (packNat w xs)

/-- Sub-elements of width `w` in a register. -/
def lanesOf (w : Nat) : Nat := 64 / w

/-- A value in every sub-element (R86). -/
def replicateSub (w x : Nat) : Word := packSubs w (List.replicate (lanesOf w) x)

/-! ## Constants (R85, R86) -/

/-- The floating-point constants of R86. -/
def fpConst (f : FFmt) (n : Nat) : Nat :=
  let pow (e : Int) : Nat := (e + (f.bias : Int)).toNat * 2 ^ f.mb
  match n with
  | 0 => 0 | 1 => pow (-1) | 2 => pow 0 | 3 => pow 1 | 4 => pow 2 | 5 => pow 3 | 6 => pow (-2)
  | 7 => f.signed true (pow (-1)) | 8 => f.signed true (pow 0) | 9 => f.signed true (pow 1)
  | 10 => f.infMag | 11 => f.signed true f.infMag | 12 => f.canonical | 13 => f.maxMag | 14 => 2 ^ f.mb
  | _ => f.signed true 0

/-- The staging values of the running segment (R112). -/
def Group.k (g : Group) (n : BitVec 4) : Word :=
  match g.segs with
  | sg :: _ => sg.k[n.toNat]'n.isLt
  | [] => 0

/-- The value of a source in a lane, for a position of format `t` (R85 to R87). -/
def Group.src (g : Group) (t : Ty) (imm : BitVec 13) (i : Fin 32) (s : Src) : Word :=
  match s with
  | .v n => g.lanes[i].v[n.toNat]'n.isLt
  | .o n => g.lanes[i].o[n.toNat]'n.isLt
  | .l n => if n = 0 then g.lanes[i].l0 else g.lanes[i].l1
  | .ic n => replicateSub t.width (wrapInt t.width n.toInt)
  | .fc n => replicateSub t.width (fpConst (fmtOf t) n.toNat)
  | .k n => g.k n
  | .lane => replicateSub t.width i.val
  | .simm => replicateSub t.width (wrapInt t.width imm.toInt)
  | .zero => 0

/-- The value of a uniform position (R87, kind U). -/
def Group.uni (g : Group) (imm : BitVec 13) (u : Uni) : Word :=
  match u with
  | .k n => g.k n
  | .simm => imm.signExtend 64

/-! ## Destinations (R87, R117) -/

def Lane.getD (l : Lane) (d : Dst) : Word :=
  match d with
  | .v n => l.v[n.toNat]'n.isLt
  | .o n => l.o[n.toNat]'n.isLt

def Lane.setD (l : Lane) (d : Dst) (x : Word) : Lane :=
  match d with
  | .v n => { l with v := l.v.set n.toNat x n.isLt }
  | .o n => { l with o := l.o.set n.toNat x n.isLt }

/-- The destination history: l1 takes l0, and l0 the value of DST after the instruction (R117). -/
def Lane.history (l : Lane) (d : Dst) : Lane := { l with l1 := l.l0, l0 := l.getD d }

def Lane.getP (l : Lane) (p : Fin 12) : Bool := l.p[p]

def Lane.setP (l : Lane) (p : Fin 12) (b : Bool) : Lane := { l with p := l.p.set p b }

/-! ## Which lanes execute (R84) -/

def Guard.passes (gd : Guard) (l : Lane) : Bool :=
  match gd with
  | .always => true
  | .on neg p => xor neg (l.getP p)

/-- Whether a lane executes an instruction of a path with mask `mask`. -/
def Group.executes (g : Group) (mask : BitVec 32) (c : Lc) (i : Fin 32) : Bool :=
  mask.getLsbD i.val && Guard.passes c.g0 g.lanes[i] && Guard.passes c.g1 g.lanes[i]

/-- Every lane in ascending order. -/
def lane32 : List (Fin 32) := List.finRange 32

/-- The lanes that execute, ascending. -/
def Group.executing (g : Group) (mask : BitVec 32) (c : Lc) : List (Fin 32) := lane32.filter fun i => g.executes mask c i

def Group.mapLanes (g : Group) (f : Fin 32 → Lane → Lane) : Group :=
  { g with lanes := Vector.ofFn fun i => f i g.lanes[i] }

/-! ## The frame of a lane instruction (R157) -/

/-- What a lane writes: the value and the flags. -/
structure LRes where
  val : Word
  flags : BitVec 16
  deriving DecidableEq, Repr

/-- A result in a kind-D destination: executing lanes write it and raise its flags; every lane of the path keeps its
history (R117, R157). All sources are read from `g`, before any destination is written. -/
def Group.writeD (g : Group) (mask : BitVec 32) (c : Lc) (d : Dst) (f : Fin 32 → LRes) : Group :=
  g.mapLanes fun i l =>
    let l' := if g.executes mask c i then (l.setD d (f i).val).raise (f i).flags else l
    if mask.getLsbD i.val then l'.history d else l'

/-- A result in two destinations; DST goes into l0 (R117). -/
def Group.writeDD (g : Group) (mask : BitVec 32) (c : Lc) (d e : Dst) (f : Fin 32 → LRes) (h : Fin 32 → Word) : Group :=
  g.mapLanes fun i l =>
    let l' := if g.executes mask c i then ((l.setD d (f i).val).setD e (h i)).raise (f i).flags else l
    if mask.getLsbD i.val then l'.history d else l'

/-- A result in a predicate; l0 and l1 stay (R117). -/
def Group.writeP (g : Group) (mask : BitVec 32) (c : Lc) (p : Fin 12) (f : Fin 32 → Bool × BitVec 16) : Group :=
  g.mapLanes fun i l => if g.executes mask c i then (l.setP p (f i).1).raise (f i).2 else l

/-- A lane instruction on registers alone: its effect on the group, then its path stands at the next instruction. -/
def State.lanePure (s : State) (f : Group → Path → Group) : Out :=
  match s.group? s.who.grp with
  | none => .next s
  | some g => match g.path s.who.slot with
    | none => .next s
    | some p => .next (s.updGroup s.who.grp fun g => (f g p).advanceLane s.who.slot)

/-- A lane instruction that can stop. -/
def State.laneRes (s : State) (body : Group → Path → Res State) : Out :=
  match s.group? s.who.grp with
  | none => .next s
  | some g => match g.path s.who.slot with
    | none => .next s
    | some p => s.settle g (some s.who.slot) (body g p)

/-- As `laneRes`, with the group's block, launch, container and kernel. -/
def State.laneCtx (s : State) (body : Ctx → Path → Res State) : Out :=
  s.laneRes fun g p => match s.ctxOf g with
    | some c => body (c.onPath p) p
    | none => .ok s

/-- The sub-element operation that R157 gives: `f` on the sub-elements of each source. -/
def mapSubs (w : Nat) (f : Nat → FRes) : LRes :=
  let rs := (List.range (lanesOf w)).map f
  ⟨packSubs w (rs.map (·.bits)), rs.foldl (fun a r => a ||| r.flags) flNone⟩

/-- A register read as n16, n32 or n64 for an address or a count. -/
def Group.word (g : Group) (imm : BitVec 13) (i : Fin 32) (s : Src) : Word := g.src .n64 imm i s

end Sys2Proof.Machine
end

