-- ==== Sys2Proof/Machine/Access.lean ====
section
/-! DEFINITION. What accesses of a group share: the version check and the start of copy-on-write (R218), posted operations (log 42),
the die mask (R7), atomic operations (R143, R236), and the group's commands in the engines. -/

namespace Sys2Proof.Machine

open Sys2Proof

/-- A trap or park of an access of `lane` carries the lane number in DETAIL; a machine check carries its cause (R355). -/
def withLane {α : Type} (lane : Nat) (r : Res α) : Res α :=
  match r with
  | .error (.trap code addr d) => .error (.trap code addr (if code.machineCheck then d else d + lane))
  | .error (.park addr d) => .error (.park addr (d + lane))
  | x => x

/-- The version check of a write with step `q` (R142 check 8, R223 check 7): `pages` are the pages that the instruction
must copy so far. -/
def State.versionGate (s : State) (c : Ctx) (q : Word32) (pages : List Nat) (t : Target) (va : Word) (lane : Nat) :
    Res (List Nat) :=
  if !s.mustCopy c.l.tenant t || s.copying t.pageKey || pages.contains t.pageKey then .ok pages
  else match s.cowFault (s.version c.l.tenant t.pageKey) c.l.tenant q (pages.length + 1) with
    | some code => .error (.trap .version va (32 * code + lane))
    | none => .ok (pages ++ [t.pageKey])

/-- The copies of `pages` start, and the instruction waits for the first of them (R218). -/
def State.beginCopies (s : State) (c : Ctx) (slot : Option Bool) (q : Word32) (pages : List Nat) : State :=
  let s := pages.foldl (fun (s : State) p => s.cowStart c.l.tenant p q) s
  match pages with
  | p :: _ => s.holdAccess c.g.ref slot (.copy p)
  | [] => s

/-- The step of the scalar stream's writes (R218). -/
def Group.step32 (g : Group) : Word32 := g.vstep.extractLsb' 0 32

/-- `VSTEP` as captured by the running segment (R140). -/
def Group.laneStep (g : Group) : Word32 :=
  match g.segs with
  | sg :: _ => sg.vstep.extractLsb' 0 32
  | [] => g.step32

/-- `DMASK` as captured by the running segment (R140). -/
def Group.laneDmask (g : Group) : Word :=
  match g.segs with
  | sg :: _ => sg.dmask
  | [] => g.dmask

/-! ## Posting (R291, R390; log 42) -/

/-- Posting an operation of the scalar stream, or of a path; the stream or path goes on. -/
def State.postOp (s : State) (c : Ctx) (tpc : Word) (t : Target) (op : PostOp) : State :=
  let seg := if c.lane then c.g.segDone else c.g.segIssued
  { s with nextId := s.nextId + 1, arrivals := s.arrivals ++ [⟨s.nextId, c.g.ref, tpc, t.place, t.va, t.attr, op, c.lane, seg, false⟩] }

/-- `n` bytes at a place with stored bytes laid over them. -/
def overlay (p : Place) (n : Nat) (old : List Byte) (at_ : Place) (new : List Byte) : List Byte :=
  (List.range n).map fun i => match at_.offset (p.add i) with
    | some k => new[k]?.getD (old[i]?.getD 0)
    | none => old[i]?.getD 0

/-- The bytes that a load of the scalar stream returns: memory, under the group's posted stores (R313). -/
def State.ownBytes (s : State) (g : Group) (p : Place) (n : Nat) : List Byte :=
  (s.outstanding g false).foldl (fun old a => match a.op with
    | .store bytes => overlay p n old a.obj bytes
    | _ => old) (s.readBytes p n)

/-- A read follows the group's posted operations on the bytes that it reads; posted stores the scalar stream sees by `ownBytes`
(R312, R313, R316). -/
def State.updatesDone (s : State) (c : Ctx) (p : Place) (n : Nat) : Res Unit :=
  if s.updatePending c.g c.lane p n then .error (.wait .engines) else .ok ()

/-- A block that is abandoned (R302). -/
def State.blockAbandoned (s : State) (r : GroupRef) : Bool :=
  match s.block? r.blk with
  | some b => b.abandoned
  | none => false

/-- A checked read of the scalar stream into register `d`: behind an own operation on its bytes, or an own test, that is still
outstanding it is posted (R308, R309, R312; log 42); else it is made now, and sees the group's posted stores. -/
def State.readOrPost (s : State) (c : Ctx) (t : Target) (n : Nat) (op : PostOp) (d : BitVec 6) : Res State :=
  if s.updatePending c.g false t.place n then (s.postOp c c.g.scalarTpc t op).done Group.advance
  else
    (s.touch (some c.g.ref) false t.place n).done fun g =>
      (g.setX d (op.answer (s.blockAbandoned c.g.ref) (s.ownBytes c.g t.place n))).advance

/-! ## The die mask (R7) -/

/-- The compute dies of a partition (R46). -/
def partitionDies (division part : Nat) : List Nat :=
  match division with
  | 2 => if part = 0 then [0, 1] else [2, 3]
  | 4 => [part]
  | _ => [0, 1, 2, 3]

/-- The check of R7 for a tenant. -/
def State.dmaskOk (s : State) (tenant : Nat) (m : Word) : Bool :=
  let dies := partitionDies s.mgmt.division (s.tenant tenant).partition
  nbits m.toNat 15 7 == 0 && nbits m.toNat 6 0 != 0 &&
  (List.range 4).all fun d => !m.getLsbD d || dies.contains d

/-! ## Atomics -/

/-- The new value of an integer atomic (R143, R236). -/
def aopInt (op : Aop) (signed : Bool) (w old v c : Nat) : Nat :=
  match op with
  | .add => (old + v) % 2 ^ w
  | .cas => if old = c then v else old
  | .swp => v
  | .min => if readInt signed w old ≤ readInt signed w v then old else v
  | .max => if readInt signed w v ≤ readInt signed w old then old else v
  | .and => old &&& v
  | .or => old ||| v
  | .xor => old ^^^ v

/-- The new value of a floating-point atomic (R236). Of two NaNs `min` and `max` give the canonical NaN of R31, not the first source
of R30 (log 57, DESIGN CHOICE). -/
def aopFloat (op : Aop) (f : FFmt) (old v : Nat) : Nat :=
  match op with
  | .min => (f.minMax false old v).bits
  | .max => (f.minMax true old v).bits
  | _ => (f.add .rn 0 old v).bits

/-- Whether an atomic writes: `cas` does not when the value stays (R143, R236). -/
def aopWrites (op : Aop) (old new : Nat) : Bool := op != .cas || new != old

/-- An atomic's access: the new value written, or only the read seen by others. -/
def State.putAtomic (s : State) (who : Option GroupRef) (p : Place) (n : Nat) (op : Aop) (old new : Nat) : State :=
  if aopWrites op old new then s.writeNat who p n new else s.touch who false p n

/-! ## Commands of a group in the engines (R149, R155) -/

/-- An engine command of the group has not completed; traversal requests hold their path and are not counted. -/
def State.commandsOf (s : State) (r : GroupRef) : Bool :=
  s.kicks.any (fun k => k.grp == r) || s.gbcmds.any (fun k => k.grp == r) || s.colls.any (fun k => k.grp == r) ||
  match s.group? r with
  | some g => !g.mcmds.isEmpty
  | none => false

end Sys2Proof.Machine
end

