-- ==== Sys2Proof/Machine/ScalarInt.lean ====
section
/-! DEFINITION. Scalar integer and constant instructions (R133 to R135). -/

namespace Sys2Proof.Machine

open Sys2Proof

/-- xd := f of the group's registers; the scalar stream goes on behind the instruction. -/
def State.xop (s : State) (d : BitVec 6) (f : Group → Word) : Out := s.scalarPure fun g => (g.setX d (f g)).advance

/-- The shift amount of R133: the low six bits. -/
def shift6 (b : Word) : Nat := b.toNat % 64

def mulHigh (signed : Bool) (a b : Word) : Word :=
  if signed then (a.signExtend 128 * b.signExtend 128).extractLsb' 64 64
  else (a.zeroExtend 128 * b.zeroExtend 128).extractLsb' 64 64

/-- Leading zero bits, 64 for 0 (R133). -/
def clz64 (a : Word) : Nat := if a = 0 then 64 else 63 - Nat.log2 a.toNat

/-- One bits (R133). -/
def popc64 (a : Word) : Nat := (List.range 64).foldl (fun n i => n + boolNat (a.getLsbD i)) 0

def execAdd (d a b : BitVec 6) (s : State) : Out := s.xop d fun g => g.getX a + g.getX b
def execSub (d a b : BitVec 6) (s : State) : Out := s.xop d fun g => g.getX a - g.getX b
def execMul (d a b : BitVec 6) (s : State) : Out := s.xop d fun g => g.getX a * g.getX b
def execMulh (d a b : BitVec 6) (s : State) : Out := s.xop d fun g => mulHigh true (g.getX a) (g.getX b)
def execMulhn (d a b : BitVec 6) (s : State) : Out := s.xop d fun g => mulHigh false (g.getX a) (g.getX b)
def execAnd (d a b : BitVec 6) (s : State) : Out := s.xop d fun g => g.getX a &&& g.getX b
def execOr (d a b : BitVec 6) (s : State) : Out := s.xop d fun g => g.getX a ||| g.getX b
def execXor (d a b : BitVec 6) (s : State) : Out := s.xop d fun g => g.getX a ^^^ g.getX b
def execShl (d a b : BitVec 6) (s : State) : Out := s.xop d fun g => g.getX a <<< shift6 (g.getX b)
def execShr (d a b : BitVec 6) (s : State) : Out := s.xop d fun g => g.getX a >>> shift6 (g.getX b)
def execSar (d a b : BitVec 6) (s : State) : Out := s.xop d fun g => (g.getX a).sshiftRight (shift6 (g.getX b))
def execRot (d a b : BitVec 6) (s : State) : Out := s.xop d fun g => (g.getX a).rotateLeft (shift6 (g.getX b))
def execMin (d a b : BitVec 6) (s : State) : Out :=
  s.xop d fun g => if (g.getX b).slt (g.getX a) then g.getX b else g.getX a
def execMax (d a b : BitVec 6) (s : State) : Out :=
  s.xop d fun g => if (g.getX a).slt (g.getX b) then g.getX b else g.getX a
def execMinn (d a b : BitVec 6) (s : State) : Out :=
  s.xop d fun g => if (g.getX b).ult (g.getX a) then g.getX b else g.getX a
def execMaxn (d a b : BitVec 6) (s : State) : Out :=
  s.xop d fun g => if (g.getX a).ult (g.getX b) then g.getX b else g.getX a
def execClz (d a : BitVec 6) (s : State) : Out := s.xop d fun g => BitVec.ofNat 64 (clz64 (g.getX a))
def execPopc (d a : BitVec 6) (s : State) : Out := s.xop d fun g => BitVec.ofNat 64 (popc64 (g.getX a))
def execSeq (d a b : BitVec 6) (s : State) : Out := s.xop d fun g => Word.ofBool (g.getX a == g.getX b)
def execSne (d a b : BitVec 6) (s : State) : Out := s.xop d fun g => Word.ofBool (g.getX a != g.getX b)
def execSlt (d a b : BitVec 6) (s : State) : Out := s.xop d fun g => Word.ofBool ((g.getX a).slt (g.getX b))
def execSltn (d a b : BitVec 6) (s : State) : Out := s.xop d fun g => Word.ofBool ((g.getX a).ult (g.getX b))

/-! ## Immediates (R134) -/

/-- SignExtend(IMM13). -/
def imm64 (imm : BitVec 13) : Word := imm.signExtend 64

def execAddi (d a : BitVec 6) (imm : BitVec 13) (s : State) : Out := s.xop d fun g => g.getX a + imm64 imm
def execAndi (d a : BitVec 6) (imm : BitVec 13) (s : State) : Out := s.xop d fun g => g.getX a &&& imm64 imm
def execOri (d a : BitVec 6) (imm : BitVec 13) (s : State) : Out := s.xop d fun g => g.getX a ||| imm64 imm
def execXori (d a : BitVec 6) (imm : BitVec 13) (s : State) : Out := s.xop d fun g => g.getX a ^^^ imm64 imm
def execShli (d a sh : BitVec 6) (s : State) : Out := s.xop d fun g => g.getX a <<< sh.toNat
def execShri (d a sh : BitVec 6) (s : State) : Out := s.xop d fun g => g.getX a >>> sh.toNat
def execSari (d a sh : BitVec 6) (s : State) : Out := s.xop d fun g => (g.getX a).sshiftRight sh.toNat
def execSlti (d a : BitVec 6) (imm : BitVec 13) (s : State) : Out :=
  s.xop d fun g => Word.ofBool ((g.getX a).slt (imm64 imm))
def execSltni (d a : BitVec 6) (imm : BitVec 13) (s : State) : Out :=
  s.xop d fun g => Word.ofBool ((g.getX a).ult (imm64 imm))

/-! ## Constants (R135) -/

def execLi (d : BitVec 6) (imm : BitVec 19) (s : State) : Out := s.xop d fun _ => imm.signExtend 64

/-- `lih` shifts the old xd left by 19 and puts the immediate below. -/
def execLih (d : BitVec 6) (imm : BitVec 19) (s : State) : Out :=
  s.xop d fun g => (g.getX d <<< 19) ||| imm.zeroExtend 64

end Sys2Proof.Machine
end

