-- ==== Sys2Proof/Machine/ScalarControl.lean ====
section
/-! DEFINITION. Branches, calls and the lane interface of the scalar stream (R136 to R140, R112, R113), and the system
registers, generator seed and traps (R150, R152, R153). -/

namespace Sys2Proof.Machine

open Sys2Proof

/-! ## Branches and calls (R136 to R138) -/

/-- PC + 4·OFF for the signed 13-bit offset. -/
def Group.target13 (g : Group) (off : BitVec 13) : Word := g.pc + (off.signExtend 64 <<< 2)

/-- PC + 4·OFF25. -/
def Group.target25 (g : Group) (off : BitVec 25) : Word := g.pc + (off.signExtend 64 <<< 2)

def execBr (off : BitVec 25) (s : State) : Out := s.scalarPure fun g => g.complete (g.target25 off)

def execCall (off : BitVec 25) (s : State) : Out :=
  s.scalarPure fun g => (g.setX 63 (g.pc + 4)).complete (g.target25 off)

/-- A register holds a place that a transfer may go to (R99). -/
def Group.targetOk (g : Group) (r : BitVec 6) : Bool := decide ((g.getX r).toNat % 4 = 0)

/-- A transfer to a register's value: TRAP_ALIGN when it is no multiple of 4 (R137). -/
def State.transfer (s : State) (r : BitVec 6) : Out :=
  s.scalar fun g => do
    ensure (g.targetOk r) .align
    s.done fun g => g.complete (g.getX r)

def execJr (a : BitVec 6) (s : State) : Out := s.transfer a

def execRet (s : State) : Out := s.transfer 63

/-- A conditional branch (R136). -/
def State.branchIf (s : State) (off : BitVec 13) (taken : Group → Bool) : Out :=
  s.scalarPure fun g => if taken g then g.complete (g.target13 off) else g.advance

def execBz (a : BitVec 6) (off : BitVec 13) (s : State) : Out := s.branchIf off fun g => g.getX a == 0
def execBnz (a : BitVec 6) (off : BitVec 13) (s : State) : Out := s.branchIf off fun g => g.getX a != 0
def execBlt (a b : BitVec 6) (off : BitVec 13) (s : State) : Out := s.branchIf off fun g => (g.getX a).slt (g.getX b)
def execBge (a b : BitVec 6) (off : BitVec 13) (s : State) : Out := s.branchIf off fun g => !(g.getX a).slt (g.getX b)
def execBltn (a b : BitVec 6) (off : BitVec 13) (s : State) : Out := s.branchIf off fun g => (g.getX a).ult (g.getX b)
def execBgen (a b : BitVec 6) (off : BitVec 13) (s : State) : Out := s.branchIf off fun g => !(g.getX a).ult (g.getX b)

/-- `loop`: the count goes down by one, and the branch is taken while it is not 0; x0 is no counter (R138). -/
def execLoop (a : BitVec 6) (off : BitVec 13) (s : State) : Out :=
  s.scalar fun _ =>
    if a = 0 then trapNow .operand
    else s.done fun g =>
      let n := g.getX a - 1
      let g := g.setX a n
      if n ≠ 0 then g.complete (g.target13 off) else g.advance

/-! ## The lane interface (R112, R113, R139) -/

def execLframe (n : BitVec 4) (a : BitVec 6) (s : State) : Out :=
  s.scalarOut fun _ => s.done fun g => { g with stage := g.stage.set n.toNat (g.getX a) n.isLt }.advance

/-- Appending a segment; an idle lane side starts it at once (R112, R140). -/
def Group.enqueue (g : Group) (start : Word32) : Group :=
  let sg : Segment := ⟨start, g.stage, g.vstep, g.dmask, g.pc.extractLsb' 0 32⟩
  let g' := { g with segs := g.segs ++ [sg], segIssued := g.segIssued + 1 }
  if g.segs.isEmpty then g'.startHead else g'

/-- A segment's start lies in the kernel's lane range (R99). -/
def Kernel.startOk (k : Kernel) (imm : BitVec 19) : Bool := decide (12 * imm.toNat < k.lsize.toNat)

/-- `lrun` (R140); inside a transaction it aborts before its start is checked (log 53, DESIGN CHOICE). -/
def execLrun (imm : BitVec 19) (s : State) : Out :=
  s.scalarCtx fun c => do
    ensure (c.k.startOk imm) .operand
    if 8 ≤ c.g.segs.length then .error (.wait .segRoom)
    else s.done fun g => (g.enqueue (c.k.lbase + BitVec.ofNat 32 (12 * imm.toNat))).advance

/-- `qpop` removes the oldest entry; with both queues empty it traps (R113). -/
def execQpop (d : BitVec 6) (s : State) : Out :=
  s.scalarOut fun g =>
    match g.retq with
    | x :: rest => s.done fun g => ({ g with retq := rest }.setX d x).advance
    | [] => if g.segs.isEmpty then trapNow .operand else .error (.wait .retEntry)

/-- `qcount` answers at once in free mode, behind the drain in a deterministic launch (R113). -/
def execQcount (d : BitVec 6) (s : State) : Out :=
  s.scalarCtx fun c =>
    if c.l.det && !c.g.segs.isEmpty then .error (.wait .lanesIdle)
    else s.done fun g => (g.setX d (BitVec.ofNat 64 g.retq.length)).advance

/-! ## System registers, generator, traps (R102, R150, R152, R153) -/

/-- Bits of the harvest map register: PRESENT with its COUNT above (R64). -/
def corePresentWord (present : BitVec 36) : Word :=
  BitVec.ofNat 64 ((List.range 36).foldl (fun n i => n + boolNat (present.getLsbD i)) 0 * 2 ^ 36 + present.toNat)

/-- DCYC of a die, in cycles (R340). -/
def State.dcycOf (s : State) (die : Nat) : Word := BitVec.ofNat 64 (s.dcyc[die]?.getD 0 / 100)

/-- A segment's load address; 0 when the container has none, where R73 and R102 give no value (log 67, DESIGN CHOICE). -/
def segBase (g : Option Seg) : Word :=
  match g with
  | some x => BitVec.ofNat 64 x.va
  | none => 0

/-- The value of a system register (R102, R73). `L2P_BASE` is the tenant's register as it stands at the read, not as it stood at the
group's start (log 67, DESIGN CHOICE). -/
def State.sysReg (s : State) (c : Ctx) (r : SysReg) : Word :=
  match r with
  | .gid => BitVec.ofNat 64 c.g.ref.gid
  | .ngrp => BitVec.ofNat 64 c.b.ngrp
  | .blk => BitVec.ofNat 64 c.b.b
  | .vcx => BitVec.ofNat 64 c.b.vx
  | .vcy => BitVec.ofNat 64 c.b.vy
  | .tenant => BitVec.ofNat 64 c.l.tenant
  | .mode => BitVec.ofNat 64 (boolNat c.l.det + 2 * boolNat c.l.chk)
  | .pcore => BitVec.ofNat 64 c.g.core
  | .vstep => c.g.vstep
  | .dmask => c.g.dmask
  | .argb => c.l.argp
  | .rodataBase => segBase c.c.rodata
  | .dataBase => segBase c.c.data
  | .l2pBase => (s.tenant c.l.tenant).l2pBase
  | .aoc => s.aoc
  | .dcyc => s.dcycOf (c.g.core / 36)
  | .corePresent die => corePresentWord (s.present[die.toNat]'die.isLt)
  | .gkey => c.g.genK
  | .gctr => c.g.genB
  | .tcode => if c.g.trapMode then c.g.tcode else 0
  | .tpc => if c.g.trapMode then c.g.tpc else 0
  | .taddr => if c.g.trapMode then c.g.taddr else 0
  | .taux => if c.g.trapMode then c.g.taux else 0

/-- `srd`: B may not be read while lane instructions can advance it (R152); a transaction allows it (R298). -/
def execSrd (d : BitVec 6) (r : SysReg) (s : State) : Out :=
  s.scalar fun g =>
    match s.ctxOf g with
    | none => .ok s
    | some c =>
      if r = .gctr ∧ ¬ g.segs.isEmpty then trapNow .operand
      else s.done fun g => (g.setX d (s.sysReg c r)).advance

/-- DMASK keeps its low 16 bits (R6, R146). -/
def Group.setDmask (g : Group) (v : Word) : Group := { g with dmask := v &&& 0xFFFF }

/-- `swr` writes VSTEP and DMASK; a read-only register ignores it (R4, R102, R152). -/
def execSwr (r : SysReg) (a : BitVec 6) (s : State) : Out :=
  s.scalarOut fun _ => s.done fun g =>
    (match r with
      | .vstep => { g with vstep := g.getX a }
      | .dmask => g.setDmask (g.getX a)
      | _ => g).advance

def execRseed (a b : BitVec 6) (s : State) : Out :=
  s.scalarOut fun g =>
    if ¬ g.segs.isEmpty then trapNow .operand
    else s.done fun g => { g with genK := g.getX a, genB := g.getX b }.advance

/-- `trap` and `brk` raise their trap with the code in DETAIL (R150). -/
def execTrap (code : BitVec 13) (s : State) : Out :=
  s.scalarOut fun _ => .error (.trap .user 0 code.toNat)

def execBrk (code : BitVec 13) (s : State) : Out :=
  s.scalarOut fun _ => .error (.trap .brk 0 code.toNat)

def execNop (s : State) : Out := s.scalarPure Group.advance

end Sys2Proof.Machine
end

