-- ==== Sys2Proof/Machine/ScalarMemory.lean ====
section
/-! DEFINITION. Scalar loads, stores and atomics (R141 to R144), fences and the die mask (R145, R146), bounded transactions
(R298 to R301), and the running of the group (R147 to R149). -/

namespace Sys2Proof.Machine

open Sys2Proof

/-! ## Transactions (R298 to R300) -/

/-- A check inside a transaction: what would trap aborts it with REASON 4 (R300); a machine check kills all the same (R355). -/
def txCheck {α : Type} (r : Res α) : Res α :=
  match r with
  | .error (.trap code addr d) => if code.machineCheck then .error (.trap code addr d) else .error (.abort 4 0 addr)
  | x => x

/-- The footprint with a line added. -/
def Tx.addLine (t : Tx) (line : Nat) : Tx := { t with lines := setInsert line t.lines }

/-- A transactional access: its place, after the checks of R142 and the limits of R298. -/
def State.txResolve (s : State) (c : Ctx) (t : Tx) (k : Access) (va : Word) (n : Nat) : Res Nat := do
  let tg ← txCheck (s.resolve c k va n)
  if k.writes then
    let _ ← txCheck (s.versionGate c c.g.step32 [] tg va 0)
  match tg.place with
  | .sp _ _ => .error (.abort 3 0 0)
  | .phys key =>
    if tg.attr ≠ 2 ∨ !isHbm key ∨ s.mustCopy c.l.tenant tg then .error (.abort 3 0 0)
    else if 4 < (setInsert (key / 128) t.lines).length then .error (.abort 3 0 0)
    else do
      let _ ← txCheck (s.reachable c tg)
      .ok key

/-- The byte a transactional load returns: its own store, else memory. -/
def Tx.byte (t : Tx) (s : State) (k : Nat) : Byte := if t.written.contains k then t.bytes.read k else s.mem.read k

def State.txLoad (s : State) (c : Ctx) (t : Tx) (va : Word) (n : Nat) (op : PostOp) (d : BitVec 6) : Res State := do
  let key ← s.txResolve c t .load va n
  match s.poisoned (.phys key) n with
  | some (.phys k) => .error (.park (BitVec.ofNat 64 k) 0)
  | _ =>
    let x := op.answer false ((List.range n).map fun i => t.byte s (key + i))
    let s := s.touch (some c.g.ref) false (.phys key) n
    s.done fun g => ({ g with tx := some (t.addLine (key / 128)) }.setX d x).advance

def State.txStore (s : State) (c : Ctx) (t : Tx) (va : Word) (n x : Nat) : Res State := do
  let key ← s.txResolve c t .store va n
  if 16 ≤ t.stores then .error (.abort 3 0 0)
  else
    let t := { t.addLine (key / 128) with
      bytes := t.bytes.writeBytes key (leBytes n x), storedLines := setInsert (key / 128) t.storedLines
      written := setInsertAll ((List.range n).map (key + ·)) t.written, stores := t.stores + 1 }
    s.done fun g => { g with tx := some t }.advance

/-! ## Loads and stores (R141, R142) -/

/-- A scalar load of `n` bytes at XA + IMM, zero- or sign-extended; behind an own update of these bytes it is posted (R309). -/
def State.scalarLoad (s : State) (signed : Bool) (d a : BitVec 6) (imm : BitVec 13) (n : Nat) : Out :=
  s.scalar fun g => match s.ctxOf g with
    | none => .ok s
    | some c =>
      let va := g.getX a + imm.signExtend 64
      match g.tx with
      | some t => s.txLoad c t va n (.load n signed d) d
      | none => do
        let t ← s.resolveChecks c .load va n
        s.readable c t n
        s.readOrPost c t n (.load n signed d) d

def execLd8 (d a : BitVec 6) (imm : BitVec 13) (s : State) : Out := s.scalarLoad false d a imm 1
def execLd16 (d a : BitVec 6) (imm : BitVec 13) (s : State) : Out := s.scalarLoad false d a imm 2
def execLd32 (d a : BitVec 6) (imm : BitVec 13) (s : State) : Out := s.scalarLoad false d a imm 4
def execLd64 (d a : BitVec 6) (imm : BitVec 13) (s : State) : Out := s.scalarLoad false d a imm 8
def execLds8 (d a : BitVec 6) (imm : BitVec 13) (s : State) : Out := s.scalarLoad true d a imm 1
def execLds16 (d a : BitVec 6) (imm : BitVec 13) (s : State) : Out := s.scalarLoad true d a imm 2
def execLds32 (d a : BitVec 6) (imm : BitVec 13) (s : State) : Out := s.scalarLoad true d a imm 4

/-- A scalar store of the low `n` bytes of XB at XA + OFF; a published page is copied first (R141, R218). Behind an operation of
the group that is still outstanding the store is posted (R309). -/
def State.scalarStore (s : State) (b a : BitVec 6) (off : BitVec 13) (n : Nat) : Out :=
  s.scalar fun g => match s.ctxOf g with
    | none => .ok s
    | some c =>
      let va := g.getX a + off.signExtend 64
      let x := (g.getX b).toNat
      match g.tx with
      | some t => s.txStore c t va n x
      | none => do
        let t ← s.resolveChecks c .store va n
        let pages ← s.versionGate c g.step32 [] t va 0
        s.reachable c t
        if !pages.isEmpty then .ok (s.beginCopies c none g.step32 pages)
        else if s.mustCopy c.l.tenant t then .error (.wait (.copy t.pageKey))
        else if !(s.outstanding g false).isEmpty then
          ((s.postOp c g.scalarTpc t (.store (leBytes n x))).noteStore (some g.ref) t.place (leBytes n x)).done Group.advance
        else (s.writeNat (some g.ref) t.place n x).done Group.advance

def execSt8 (b a : BitVec 6) (off : BitVec 13) (s : State) : Out := s.scalarStore b a off 1
def execSt16 (b a : BitVec 6) (off : BitVec 13) (s : State) : Out := s.scalarStore b a off 2
def execSt32 (b a : BitVec 6) (off : BitVec 13) (s : State) : Out := s.scalarStore b a off 4
def execSt64 (b a : BitVec 6) (off : BitVec 13) (s : State) : Out := s.scalarStore b a off 8

/-! ## Atomics (R143, R144) -/

/-- A scalar atomic of 64 or 32 bits; `amin` and `amax` compare as signed. Behind an operation of the group that is still
outstanding it is posted, and ends the region when it is performed (R155, R309). -/
def State.scalarAtomic (s : State) (op : Aop) (wide : Bool) (sc : Scope) (d a b : BitVec 6) : Out :=
  s.scalarCtx fun c => do
    let n := if wide then 8 else 4
    let g := c.g
    let va := g.getX a
    ensure (sc != .dm || s.dmaskOk c.l.tenant g.dmask) .operand
    let t ← s.resolveChecks c .atomic va n
    let pages ← s.versionGate c g.step32 [] t va 0
    s.readable c t n
    if !pages.isEmpty then .ok (s.beginCopies c none g.step32 pages)
    else if s.mustCopy c.l.tenant t then .error (.wait (.copy t.pageKey))
    else
      let cut (x : Word) : Nat := x.toNat % 2 ^ (8 * n)
      let new (old : Nat) : Nat := aopInt op true (8 * n) old (cut (g.getX b)) (cut (g.getX d))
      if !(s.outstanding g false).isEmpty then
        (s.postOp c g.scalarTpc t (.atomic op n (cut (g.getX b)) (cut (g.getX d)) d)).done fun g =>
          (g.snapAt t.place n fun l => leBytes n (new (leNat l))).advance
      else
        let old := s.readNat t.place n
        (s.putAtomic (some g.ref) t.place n op old (new old)).done fun g => (g.setX d (BitVec.ofNat 64 old)).advance.close

def execAadd (w : Bool) (sc : Scope) (d a b : BitVec 6) (s : State) : Out := s.scalarAtomic .add w sc d a b
def execAcas (w : Bool) (sc : Scope) (d a b : BitVec 6) (s : State) : Out := s.scalarAtomic .cas w sc d a b
def execAswp (w : Bool) (sc : Scope) (d a b : BitVec 6) (s : State) : Out := s.scalarAtomic .swp w sc d a b
def execAmin (w : Bool) (sc : Scope) (d a b : BitVec 6) (s : State) : Out := s.scalarAtomic .min w sc d a b
def execAmax (w : Bool) (sc : Scope) (d a b : BitVec 6) (s : State) : Out := s.scalarAtomic .max w sc d a b
def execAand (w : Bool) (sc : Scope) (d a b : BitVec 6) (s : State) : Out := s.scalarAtomic .and w sc d a b
def execAor (w : Bool) (sc : Scope) (d a b : BitVec 6) (s : State) : Out := s.scalarAtomic .or w sc d a b
def execAxor (w : Bool) (sc : Scope) (d a b : BitVec 6) (s : State) : Out := s.scalarAtomic .xor w sc d a b

/-! ## Fences, die mask (R145, R146) -/

/-- A fence: its die mask is checked and it waits for the drain; every access of the model is already in order (log 2). -/
def execFence (sc : Scope) (s : State) : Out :=
  s.scalarCtx fun c => do
    ensure (sc != .dm || s.dmaskOk c.l.tenant c.g.dmask) .operand
    c.g.drained
    s.settled c
    s.done Group.advance

def execSetdm (a : BitVec 6) (s : State) : Out := s.scalarOut fun _ => s.done fun g => (g.setDmask (g.getX a)).advance

/-! ## Running the group (R147 to R149) -/

/-- A switch point: the position of the block's coroutine set opens (R127, R128). -/
def State.openPosition (s : State) (blk : Nat) (after : Option Nat) : State :=
  s.updBlock blk fun b => { b with co := .opened after }

/-- The scalar stream of a deterministic launch waits at a switch point; the group's drain is done. -/
def State.switchWait (s : State) (r : GroupRef) (after : Option Nat) (w : Wait) : State :=
  (s.updGroup r fun g => g.await none w).openPosition r.blk after

/-- `yield`: nothing in free mode; a switch point in a deterministic launch, where the group's release comes first (R147, R319). -/
def execYield (s : State) : Out :=
  s.scalarCtx fun c =>
    if c.l.det then do
      c.g.drained
      s.settled c
      .ok (s.switchWait c.g.ref (some c.g.ref.gid) .turn)
    else s.done Group.advance

/-- What `rgn` does after the drain (R115, R155, R301, R345). -/
def Group.region (g : Group) : Group :=
  let start := match g.tx with
    | some t => t.fallback
    | none => g.pc
  { g with
    retq := [], lanes := g.lanes.map Lane.clearSmall, rstart := start, rB := g.genB, closing := false
    trapMode := false, tcode := 0, tpc := 0, taddr := 0, taux := 0 }

/-- `rgn`, which a transaction allows (R298). What the region has posted to a register is written first: the next region starts with
every register as the last one left it (log 42). -/
def execRgn (s : State) : Out :=
  s.scalar fun g => do
    g.drained
    if !(s.pendingRegs g.ref).isEmpty then .error (.wait .engines)
    else s.done fun g => g.region.advance

/-- `done` ends the group; with a transaction open it traps (R149). -/
def execDone (s : State) : Out :=
  s.scalar fun g => do
    ensure g.tx.isNone .operand
    g.drained
    .ok (s.endGroup g.ref .ended)

/-! ## Transaction instructions (R298 to R301) -/

/-- `xopen` opens after the drain, in a deterministic launch after the group's engine commands too. -/
def execXopen (off : BitVec 25) (s : State) : Out :=
  s.scalarCtx fun c => do
    c.g.drained
    s.settled c
    if c.l.det && s.commandsOf c.g.ref then .error (.wait .engines)
    else s.done fun g =>
      { g with tx := some ⟨g.x, g.target25 off, [], Memory.empty, [], [], 0, none⟩ }.advance.close

/-- Buffered stores take effect, byte by byte, in one step (R299). -/
def State.commit (s : State) (r : GroupRef) (t : Tx) : State :=
  t.written.foldl (fun (s : State) k => s.writeBytes (some r) (.phys k) [t.bytes.read k]) s

/-- A page that the transaction has stored to has been published since: its stores may not reach it (R298, R320; log 47). -/
def State.txPublished (s : State) (t : Tx) : Bool :=
  t.written.any fun k => s.versions.any fun v => v.page == k / pageSize * pageSize && v.pub

/-- An engine owns a line that the transaction has stored to: the commit waits for the engine's write (R316). -/
def State.txHeld (s : State) (r : GroupRef) (t : Tx) : Bool := t.written.any fun k => s.lineHeld (some r) (.phys k) 1

def execXclose (s : State) : Out :=
  s.scalar fun g => match g.tx with
    | none => trapNow .operand
    | some t => match t.abort with
      | some (reason, code, addr) => .error (.abort reason code addr)
      | none =>
        if s.txPublished t then .error (.abort 3 0 0)
        else if s.txHeld g.ref t then .error (.wait .engines)
        else (s.commit g.ref t).done fun g => { g with tx := none }.advance.close

def execXabort (a : BitVec 6) (s : State) : Out :=
  s.scalar fun g => match g.tx with
    | none => trapNow .operand
    | some _ => s.done fun g => (g.abortTx 1 ((g.getX a).toNat % 256) 0).close

end Sys2Proof.Machine
end

