-- ==== Sys2Proof/Machine/Phaser.lean ====
section
/-! DEFINITION. Phasers (R287 to R295, R390, R302, R303) and monitored waits (R296, R297). -/

namespace Sys2Proof.Machine

open Sys2Proof

/-! ## The checks of R288 -/

/-- The object's target: alignment, window or translation, attribute, determinism. -/
def State.objectTarget (s : State) (c : Ctx) (k : Access) (va : Word) : Res Target := do
  let t ← s.resolveChecks c k va 16
  if t.attr ≠ 2 ∧ t.attr ≠ 3 then .error (.trap .protection va 0)
  else if c.l.det && !inBlockWindow va then .error (.trap .determinism va 0)
  else .ok t

/-- The group's view of its block's scratchpad follows its own registrations and arrivals (R303). -/
def Group.snapPhaser (g : Group) (obj : Place) (f : Phaser → Phaser) : Group :=
  g.snapAt obj 16 fun old => (f (Phaser.ofBytes old)).toBytes old

/-- One indivisible update of an object; engines perform it, so it belongs to no group's own stores. -/
def State.putPhaser (s : State) (obj : Place) (p : Phaser) : State :=
  s.writeBytes none obj (p.toBytes (s.readBytes obj 16))

/-- The bytes of a posted operation's place, as it leaves them; a registration that no longer fits changes nothing (log 42). -/
def PostOp.apply (op : PostOp) (old : List Byte) : List Byte :=
  match op with
  | .store bytes => bytes
  | .arrive u => ((Phaser.ofBytes old).arrive u).toBytes old
  | .register d => (((Phaser.ofBytes old).reg d).getD (Phaser.ofBytes old)).toBytes old
  | .announce sc t => ((Barrier.ofBytes old).announce t sc).toBytes old
  | .atomic op n v c _ => leBytes n (aopInt op true (8 * n) (leNat old) v c)
  | .load .. | .test .. | .count _ => old

/-- The `n` bytes at `p` with a posted operation done; an update that does not lie inside them leaves them as they are. -/
def Arrival.on (a : Arrival) (p : Place) (n : Nat) (old : List Byte) : List Byte :=
  match a.op with
  | .store bytes => overlay p n old a.obj bytes
  | op => match p.offset a.obj with
    | some k => if k + a.size ≤ n then overlay p n old a.obj (op.apply ((old.drop k).take a.size)) else old
    | none => old

/-- An object as the group's scalar stream will find it: with the group's outstanding operations done (R303, R313; log 42). -/
def State.ownPhaser (s : State) (g : Group) (p : Place) : Phaser :=
  Phaser.ofBytes ((s.outstanding g false).foldl (fun old a => a.on p 16 old) (s.readBytes p 16))

/-! ## Registration (R289, R290) -/

def Group.entry? (g : Group) (addr : Word) : Option Registration := g.regs.find? fun r => r.addr == addr

/-- The table with an entry recorded or replaced. -/
def Group.record (g : Group) (r : Registration) : Group :=
  if (g.entry? r.addr).isSome then { g with regs := g.regs.map fun x => if x.addr = r.addr then r else x }
  else { g with regs := g.regs ++ [r] }

/-- Units that an entry has registered for signalling. -/
def sigUnits (e : Option Registration) : Nat :=
  match e with
  | some r => if r.sig then r.units else 0
  | none => 0

/-- A registration change `d` on an object, then `f` on the group; a published page is copied first (R218). Behind an operation
of the group that is still outstanding the change is posted, checked on the object as the group sees it (R309; log 42). -/
def State.register (s : State) (c : Ctx) (va : Word) (t : Target) (d : Int) (f : Group → Group) : Res State := do
  let pages ← s.versionGate c c.g.step32 [] t va 0
  s.readable c t 16
  match (s.ownPhaser c.g t.place).reg d with
  | none => trapNow .operand
  | some p =>
    if !pages.isEmpty then .ok (s.beginCopies c none c.g.step32 pages)
    else if s.mustCopy c.l.tenant t then .error (.wait (.copy t.pageKey))
    else
      let s1 := if (s.outstanding c.g false).isEmpty then s.putPhaser t.place p
        else s.postOp c c.g.scalarTpc t (.register d)
      s1.done fun g => (f (g.snapPhaser t.place fun q => (q.reg d).getD q)).advance.close

def execPreg (a b : BitVec 6) (s : State) : Out :=
  s.scalarCtx fun c => do
    let va := c.g.getX a
    let v := (c.g.getX b).toNat
    let t ← s.objectTarget c .store va
    let u := v % 65536
    let sig := nbits v 16 16 == 1
    let wait := nbits v 17 17 == 1
    let old := c.g.entry? va
    ensure (nbits v 63 18 == 0 && (sig || wait) && (decide (u = 0) != sig) && (old.isSome || decide (c.g.regs.length < 4)))
      .operand
    let e : Registration := ⟨va, t.place, u, sig, wait⟩
    if sig then s.register c va t ((u : Int) - (sigUnits old : Int)) fun g => g.record e
    else if 0 < sigUnits old then s.register c va t (-(sigUnits old : Int)) fun g => g.record e
    else s.done fun g => (g.record e).advance.close

def execPdrop (a : BitVec 6) (s : State) : Out :=
  s.scalarCtx fun c => do
    let va := c.g.getX a
    let t ← s.objectTarget c .store va
    let drop (g : Group) : Group := { g with regs := g.regs.filter fun r => r.addr != va }
    match c.g.entry? va with
    | none => trapNow .operand
    | some e =>
      if e.sig then s.register c va t (-(e.units : Int)) drop
      else s.done fun g => (drop g).advance.close

/-! ## Arrivals (R291, R293, R390) -/

/-- Posting an arrival; the scalar stream or the path goes on. -/
def State.post (s : State) (c : Ctx) (tpc : Word) (t : Target) (units : Nat) : State :=
  (s.postOp c tpc t (.arrive units)).updGroup c.g.ref fun g => g.snapPhaser t.place fun p => p.arrive units

def execParr (a : BitVec 6) (s : State) : Out :=
  s.scalarCtx fun c => do
    let va := c.g.getX a
    let t ← s.objectTarget c .store va
    let e := c.g.entry? va
    ensure (0 < sigUnits e) .operand
    let pages ← s.versionGate c c.g.step32 [] t va 0
    s.reachable c t
    if !pages.isEmpty then .ok (s.beginCopies c none c.g.step32 pages)
    else if s.mustCopy c.l.tenant t then .error (.wait (.copy t.pageKey))
    else (s.post c c.g.scalarTpc t (sigUnits e)).done fun g => g.advance.close

/-- `bar.arr`: the lowest executing lane arrives; with none there is no effect (R293). -/
def execBarArr (c : Lc) (a b : Src) (s : State) : Out :=
  s.laneCtx fun x p =>
    match (x.g.executing p.mask c).head? with
    | none => s.done fun g => g.advanceLane s.who.slot
    | some e => do
      let va := x.g.src .n64 c.imm e a &&& ~~~1#64
      let units := (x.g.src .n16 c.imm e b).toNat % 65536
      let t ← withLane e.val (s.objectTarget x .store va)
      let pages ← s.versionGate x x.g.laneStep [] t va e.val
      s.reachable x t
      if !pages.isEmpty then .ok (s.beginCopies x (some s.who.slot) x.g.laneStep pages)
      else if s.mustCopy x.l.tenant t then .error (.wait (.copy t.pageKey))
      else (s.post x (x.g.laneTpc p.pc) t units).done fun g => (g.advanceLane s.who.slot).close

/-- The pages of a posted operation's bytes. -/
def Arrival.pages (a : Arrival) : List Nat :=
  match a.obj with
  | .phys k => (unitsOf pageSize k a.size).map (· * pageSize)
  | .sp _ _ => []

/-- The turn of a posted operation: the segments before an arrival have completed, and the group's earlier operations have been
performed; one that waits for its poisoned object holds back only those on the same bytes (R114, R291, R309, R390). -/
def State.arrivalTurn (s : State) (a : Arrival) : Bool :=
  match s.group? a.grp with
  | none => true
  | some g =>
    decide (a.needs ≤ g.segDone) &&
    !(s.arrivals.any fun e => e.grp == a.grp && e.precedes a && (!s.heldBack g e || e.obj.meets e.size a.obj a.size))

/-- Its turn has come, no copy of its page is being made, and no engine owns a line of it (R316, R320). -/
def State.arrivalReady (s : State) (a : Arrival) : Bool :=
  !(a.pages.any s.copying) && s.arrivalTurn a && !s.lineHeld (some a.grp) a.obj a.size

/-- The way to the operation's place (R214, R332). -/
def State.arrivalWay (s : State) (a : Arrival) : Res Unit :=
  match a.obj with
  | .phys k => s.onWay ⟨k, k / pageSize * pageSize, a.attr, true, false⟩ a.addr
  | .sp _ _ => .ok ()

def State.dropArrival (s : State) (id : Nat) : State := { s with arrivals := s.arrivals.filter fun e => e.id != id }

/-- The register of a posted read or atomic is written (R116); an atomic ends its region when it is performed (R155). -/
def State.returnTo (s : State) (a : Arrival) (d : BitVec 6) (v : Word) (ends : Bool) : State :=
  s.updGroup a.grp fun g =>
    if g.status ≠ .resident then g else if ends then (g.setX d v).close else g.setX d v

/-- The operation is performed and leaves the list; the group's own view has followed it when it was posted (R303). -/
def State.performArrival (s : State) (a : Arrival) : State :=
  let old := s.readBytes a.obj a.size
  let who := some a.grp
  let s := match a.op with
    | .store bytes => s.storeBytes who a.obj bytes
    | .arrive _ | .register _ | .announce .. => s.writeBytes none a.obj (a.op.apply old)
    | .atomic op n _ _ d =>
      let new := a.op.apply old
      (if aopWrites op (leNat old) (leNat new) then s.storeBytes who a.obj new else s.touch who false a.obj n).returnTo
        a d (BitVec.ofNat 64 (leNat old)) true
    | .load _ _ d | .test _ d | .count d =>
      (s.touch who false a.obj a.size).returnTo a d (a.op.answer (s.blockAbandoned a.grp) old) false
  s.dropArrival a.id

/-- How a posted operation's record names a poisoned sector (R353, R390). -/
def Arrival.report (a : Arrival) (sector : Place) : Word := (⟨a.obj, a.addr, a.attr, 0, false, false, true⟩ : Target).report sector

/-- The poison record of a held arrival (R390); it is posted once. -/
def State.arrivalRecord (s : State) (a : Arrival) (sector : Place) : Option State :=
  let s1 := { s with arrivals := s.arrivals.map fun e => if e.id = a.id then { e with posted := true } else e }
  match s.group? a.grp with
  | none => some s1
  | some g =>
    let addr := a.report sector
    let bytes := match s.ctxOf g with
      | some c => faultBytes TrapCode.poison.num 0 c.l.queue c.l.seq c.l.ctag a.tpc addr 0 s.aoc c.b.b c.b.vx c.b.vy g.ref.gid g.core
      | none => faultBytes TrapCode.poison.num 0 0 0 0 a.tpc addr 0 s.aoc 0 0 0 g.ref.gid g.core
    match s1.postRecord (s.tenantOf g) true ⟨bytes, none, none⟩ with
    | .noRoom => none
    | .dropped s2 => some s2
    | .posted s2 _ => some s2

def State.arrival? (s : State) (id : Nat) : Option Arrival := s.arrivals.find? fun a => a.id == id

/-- The operation's turn has come: it is performed; behind a link or an owner it waits, and a lost peer is a machine check of its
group (R332, R355). -/
def State.arrive (s : State) (a : Arrival) : State :=
  match s.arrivalWay a with
  | .ok _ => s.performArrival a
  | .error (.trap code addr d) =>
    (s.dropArrival a.id).updGroup a.grp fun g =>
      if g.status = .resident ∨ g.status = .preempted then
        { g with detected := g.detected ++ [⟨code, a.tpc, addr, BitVec.ofNat 32 d, s.aoc⟩] }
      else g
  | .error _ => s

/-- The poisoned sector that an operation meets; a plain store, and an engine's announcement, meet none. -/
def State.arrivalPoison (s : State) (a : Arrival) : Option Place :=
  match a.op with
  | .store _ | .announce .. => none
  | _ => s.poisoned a.obj a.size

/-- Its turn has come, and it meets no poison: nothing of its group is before it (R128, R319). -/
def State.arrivalDue (s : State) (a : Arrival) : Bool := s.arrivalTurn a && (s.arrivalPoison a).isNone

/-- A posted read that meets poison parks its group, and is tried again when the group has resumed (R353; log 42). A trap that the
group is already to take goes first, a due deferred trap among them (R346). -/
def State.parkPosted (s : State) (a : Arrival) (sector : Place) : State :=
  let info : TrapInfo := ⟨.poison, a.tpc, a.report sector, 0, s.aoc⟩
  match s.group? a.grp with
  | none => s
  | some g =>
    if g.status ≠ .resident ∨ g.park.isSome ∨ !g.detected.isEmpty ∨ g.deferredDue then s
    else s.orRoom a.grp info (s.parkGroup a.grp info)

/-- ARRIVAL_UPDATE: the operation is performed; an update of an object that meets poison has its record (R291, R390), and a read parks
its group. -/
def execArrivalUpdate (id : Nat) (s : State) : Out :=
  match s.arrival? id with
  | none => .next s
  | some a =>
    if !s.arrivalReady a then .next s
    else match s.arrivalPoison a with
      | none => .next (s.arrive a)
      | some sector =>
        if a.op.dst.isSome then .next (s.parkPosted a sector)
        else if a.posted then .next s else .next ((s.arrivalRecord a sector).getD s)

/-- POISONED_ARRIVAL_RETRY: a write has cleared the sector; the update is performed in its place (R390). -/
def execPoisonedArrivalRetry (id : Nat) (s : State) : Out :=
  match s.arrival? id with
  | none => .next s
  | some a => if a.posted && s.arrivalReady a && (s.arrivalPoison a).isNone then .next (s.arrive a) else .next s

/-! ## Waiting and testing (R292, R294, R302, R303) -/

/-- A waiter on phase bit `bit` is released: the phase has passed, or abandonment. -/
def State.released (s : State) (r : GroupRef) (obj : Place) (bit : Bool) : Bool :=
  let p := s.phaserAt obj
  decide (p.phase % 2 ≠ boolNat bit) || p.abandoned || s.blockAbandoned r

/-- What a completing waiter reports. -/
def State.reportsAbn (s : State) (r : GroupRef) (obj : Place) : Bool := (s.phaserAt obj).abandoned || s.blockAbandoned r

/-- ABN in the lanes of a mask. -/
def Group.setAbn (g : Group) (mask : BitVec 32) : Group :=
  g.mapLanes fun i l => if mask.getLsbD i.val then l.raise flAbn else l

/-- Completion of `pwait`: an acquire, and ABN in every thread when it reports abandonment. -/
def State.pwaitDone (s : State) (r : GroupRef) (obj : Place) : State :=
  let abn := s.reportsAbn r obj
  (s.touch (some r) false obj 16).updGroup r fun g => (if abn then g.setAbn allLanes else g).advance

/-- `pwait`: in a deterministic launch a switch point (R127, R292). -/
def execPwait (a b : BitVec 6) (s : State) : Out :=
  s.scalarCtx fun c => do
    c.g.drained
    let va := c.g.getX a
    let t ← s.objectTarget c .load va
    ensure (match c.g.entry? va with | some e => e.wait | none => false) .operand
    s.settled c
    s.readable c t 16
    let bit := (c.g.getX b).getLsbD 0
    let w : Wait := .phaser t.place va t.attr bit
    if c.l.det then .ok (s.switchWait c.g.ref none w)
    else if s.released c.g.ref t.place bit then .ok (s.pwaitDone c.g.ref t.place)
    else .error (.wait w)

/-- `ptest` reads the object once: in a deterministic launch as it stood when the group became current, with the group's own
registrations and arrivals since then (R303); else behind the group's own operations on it (R292, R312; log 42). -/
def execPtest (d a b : BitVec 6) (s : State) : Out :=
  s.scalarCtx fun c => do
    let t ← s.objectTarget c .load (c.g.getX a)
    s.readable c t 16
    let op : PostOp := .test ((c.g.getX b).getLsbD 0) d
    match t.place, (if c.l.det then c.g.snap else none) with
    | .sp _ o, some m => (s.touch (some c.g.ref) false t.place 16).done fun g =>
        (g.setX d (op.answer c.b.abandoned (m.readBytes o 16))).advance
    | _, _ => s.readOrPost c t 16 op d

/-- Completion of `bar.wait` on a path (R294). -/
def State.barWaitDone (s : State) (r : GroupRef) (slot : Bool) (obj : Place) (d : Fin 12) : State :=
  let abn := s.reportsAbn r obj
  (s.touch (some r) false obj 16).updGroup r fun g =>
    match g.path slot with
    | some p =>
      (g.mapLanes fun i l =>
        if p.mask.getLsbD i.val then (let l := l.setP d abn; if abn then l.raise flAbn else l) else l).advanceLane slot
    | none => g

/-- `bar.wait` takes its object from the lowest lane of its path (R294); in a deterministic launch its path always stops
here, and its wait is tested when the paths are examined (R130). Its object's register is read as n64 (log 41, DEDUCED). -/
def execBarWait (imm : BitVec 13) (d : Fin 12) (a : Src) (s : State) : Out :=
  s.laneCtx fun x p =>
    match lane32.find? fun i => p.mask.getLsbD i.val with
    | none => .ok s
    | some e => do
      let v := x.g.src .n64 imm e a
      let va := v &&& ~~~1#64
      let bit := v.getLsbD 0
      let t ← withLane e.val (s.objectTarget x .load va)
      s.updatesDone x t.place 16
      withLane e.val (s.readable x t 16)
      if !x.l.det && s.released x.g.ref t.place bit then .ok (s.barWaitDone x.g.ref s.who.slot t.place d)
      else .error (.wait (.barWait t.place va t.attr bit d))

/-! ## Monitored waits (R296, R297) -/

/-- `mon` arms the monitor on a granule; checks 2 to 4 and 6 of R223, and no memory-side page. -/
def execMon (a : BitVec 6) (s : State) : Out :=
  s.scalarCtx fun c => do
    let va := c.g.getX a
    let t ← s.resolveChecks c .load va 1
    ensure (t.attr != 3) .protection va
    s.wayTo t
    s.done fun g => { g with monitor := some ⟨t.place.alignDown 16, 0⟩ }.advance

/-- The address lies in the armed granule, or `wmon` traps; a poisoned table entry parks (R297, R389). -/
def State.inMonitor (s : State) (c : Ctx) (va : Word) : Res Unit :=
  match c.g.monitor, s.resolveChecks c .load va 1 with
  | some m, .ok t => ensure (t.place.alignDown 16 == m.granule) .operand
  | some _, .error (.park addr detail) => .error (.park addr detail)
  | _, _ => trapNow .operand

/-- The monitored wait returns: the monitor is disarmed (R297). -/
def Group.wake (g : Group) : Group := { g with monitor := none }.advance

def execWmon (a b : BitVec 6) (s : State) : Out :=
  s.scalarCtx fun c => do
    c.g.drained
    s.inMonitor c (c.g.getX a)
    if c.l.det then s.settled c
    let t := (c.g.getX b).toNat
    let w : Wait := .monitor (c.g.getX a) (if t = 0 then none else some (s.aoc.toNat + t))
    if c.l.det then .ok (s.switchWait c.g.ref none w)
    else if (match c.g.monitor with | some m => m.written != 0 | none => false) then s.done Group.wake
    else .error (.wait w)

end Sys2Proof.Machine
end

