-- ==== Sys2Proof/Machine/Tensor.lean ====
section
/-! DEFINITION. Checked reads of byte ranges that may span pages (R217, R223), and the exact values of elements (R36, R39). -/

namespace Sys2Proof.Machine

open Sys2Proof

/-! ## Checked reads -/

/-- A read of `n` bytes at `va` that names a step: checks 3, 4, 6 and 7 of R223 for each page in ascending order. -/
def State.readPieces (s : State) (c : Ctx) (q : Option Word32) (va : Word) (n : Nat) : Res (List Piece) :=
  (pieces va n).mapM fun (a, m) => do
    let t ← s.resolvePiece c .load a m
    match s.stepPlace c.l.tenant q t with
    | some p => .ok ⟨a, m, t, p⟩
    | none => .error (.trap .version a 32)

/-- R217 and R218 put the version code into `TAUX` as it is; the layouts of R142, R223 and R325 are the accesses' own. -/
def plainVersion {α : Type} (r : Res α) : Res α :=
  match r with
  | .error (.trap .version a d) => .error (.trap .version a (d / 32))
  | x => x

/-- The checked reads of `lane` are reachable, follow the group's posted operations, and meet no poison. -/
def State.readyPieces (s : State) (c : Ctx) (lane : Nat) (ps : List Piece) : Res Unit :=
  ps.forM fun p => do
    withLane lane (s.wayTo p.tgt)
    s.lineFree c p.place p.n p.va
    s.updatesDone c p.place p.n
    match s.poisoned p.place p.n with
    | some q => .error (.park (p.tgt.report q) lane)
    | none => .ok ()

/-- The bytes of checked pieces, in order. -/
def State.pieceBytes (s : State) (ps : List Piece) : List Byte := ps.flatMap fun p => s.readBytes p.place p.n

/-- Others see the reads. -/
def State.touchPieces (s : State) (who : Option GroupRef) (ps : List Piece) : State :=
  ps.foldl (fun (s : State) p => s.touch who false p.place p.n) s

/-! ## Element values -/

/-- A plain element's bits as an exact value. -/
def plainValue (fmt bits : Nat) : EVal :=
  let t := Ty.ofCode (BitVec.ofNat 4 fmt)
  if t.isInt then .num (Exact.ofInt (readInt t.isSigned t.width bits) 0) else EVal.ofFVal ((fmtOf t).decode bits)

/-- The exact value of an element from its code, scale code and super-scale bits (R36, R39). -/
def fmtValue (fmt code scale super : Nat) : EVal :=
  if fmt = 14 then g4Elem code scale super
  else if 15 ≤ fmt then mxElem (fmtMxk fmt) code scale
  else plainValue fmt code

end Sys2Proof.Machine
end

