-- ==== Sys2Proof/Machine/Copy.lean ====
section
/-! DEFINITION. Binding descriptors (R240), barrier objects (R242), and the copy request engine (R241 to R249). -/

namespace Sys2Proof.Machine

open Sys2Proof

/-! ## `tdesc` and `tinv` (R240) -/

/-- The whole record is read, checked and written into the block's table. -/
def execTdesc (t a : BitVec 6) (s : State) : Out :=
  s.scalarCtx fun c => do
    c.g.drained
    let va := c.g.getX a
    let tg ← s.resolve c .load va 128
    s.readable c tg 128
    match Desc.ofBytes (s.readBytes tg.place 128) with
    | none => trapNow .operand
    | some d =>
      ((s.touch (some c.g.ref) false tg.place 128).updBlock c.b.id fun b =>
        { b with tids := b.tids.set t.toNat (some d) t.isLt }).done Group.advance

def execTinv (t : BitVec 6) (s : State) : Out :=
  s.scalarCtx fun c => do
    c.g.drained
    (s.updBlock c.b.id fun b => { b with tids := b.tids.set t.toNat none t.isLt }).done Group.advance

/-! ## Updates of barrier objects (R242, R243) -/

/-- An engine's indivisible update of the object at a scratchpad offset; the granule's bit stays (R242). -/
def State.updBarrier (s : State) (blk off : Nat) (f : Barrier → Barrier) : State :=
  let old := s.readBytes (.sp blk off) 16
  s.writeBytes none (.sp blk off) ((f (Barrier.ofBytes old)).toBytes old)

/-- An announcement behind operations of the group that are still outstanding is posted: it reads the object, and no command writes
it before they are performed (R309, R314, R316; log 42). The group's own view follows it at once (R248, R303). -/
def State.announce (s : State) (c : Ctx) (off t : Nat) (sc : Scope) : State :=
  let s1 := if (s.outstanding c.g false).isEmpty then s.updBarrier c.b.id off fun b => b.announce t sc
    else s.postOp c c.g.scalarTpc ⟨.sp c.b.id off, BitVec.ofNat 64 (windowBase + off), 2, 0, false, true, true⟩ (.announce sc t)
  s1.updGroup c.g.ref fun g => g.snapAt (.sp c.b.id off) 16 fun old => ((Barrier.ofBytes old).announce t sc).toBytes old

/-- A range of the block window below 1024·SCRATCH, as an offset. -/
def Ctx.blockOffset (c : Ctx) (va : Word) (n : Nat) : Option Nat :=
  if inBlockWindow va && decide (va.toNat - windowBase + n ≤ 1024 * c.l.scratch) then some (va.toNat - windowBase) else none

/-! ## Traps that engines raise -/

/-- The group can still take a trap. -/
def Group.alive (g : Group) : Bool := g.status = .resident || g.status = .preempted

/-- A deferred trap is held for the group (R247, R346). -/
def State.holdTrap (s : State) (r : GroupRef) (info : TrapInfo) : State :=
  s.updGroup r fun g => if g.alive then { g with held := g.held ++ [info] } else g

/-- A machine check is detected for the group (R258, R355). -/
def State.detectTrap (s : State) (r : GroupRef) (info : TrapInfo) : State :=
  s.updGroup r fun g => if g.alive then { g with detected := g.detected ++ [info] } else g

/-! ## Boxes (R241) -/

/-- A counterpart coordinate of the box lies outside an extent whose PADM bit is clear (R244). -/
def boxOut (box other : Desc) (o : Vector Int 5) : Bool :=
  (List.finRange 5).any fun i =>
    !other.padm.getLsbD i.val && (decide (o[i] < 0) || decide ((other.ext[i] : Int) < box.ext[i] + o[i]))

/-! ## `kick` (R243, R244) -/

/-- Every byte of units that lies in the window range passes R198; `keep`: the trap names the address. -/
def State.windowUnits (s : State) (c : Ctx) (keep : Bool) (detail : Nat) (us : List (Word × Nat)) : Res Unit :=
  us.forM fun u =>
    if inWindowRange u.1 then
      match s.windowPlace c u.1 u.2 with
      | .error (.trap code a _) => .error (.trap code (if keep then a else 0) detail)
      | .error e => .error e
      | .ok _ => .ok ()
    else .ok ()

/-- A record that does nothing (R241). -/
def CopyRec.skipped : CopyRec :=
  let d : Desc := ⟨0, 0, 0, 1, 0, 0, 0, 0, Vector.replicate 5 1, Vector.replicate 4 0, 0⟩
  ⟨true, false, d, d, none, zero5⟩

/-- The static checks of one record, and what is captured of it (R244). A skip record names nothing that the checks behind the KIND
check could concern: only KIND and the reserved bits are checked of it (log 56, DESIGN CHOICE). -/
def State.captureRecord (s : State) (c : Ctx) (r : Nat) (bits : Nat) : Res CopyRec := do
  let bad (b : Bool) : Res Unit := ensure (!b) .operand 0 r
  let kind := nbits bits 1 0
  bad (2 ≤ kind || nbits bits 3 3 == 1 || nbits bits 127 116 != 0)
  if kind = 0 then .ok CopyRec.skipped
  else match c.b.tid? (nbits bits 9 4), c.b.tid? (nbits bits 15 10) with
    | some src, some dst => do
      let o (lo : Nat) : Int := readInt true 20 (nbits bits (lo + 19) lo)
      let org : Vector Int 5 := #v[o 16, o 36, o 56, o 76, o 96]
      let scatter := nbits bits 2 2 == 1
      let box := if scatter then src else dst
      let other := if scatter then dst else src
      let bl := fmtBlockLen src.fmt
      let rec' : CopyRec := ⟨false, scatter, src, dst, src.step c.g.step32, org⟩
      bad (src.fmt != dst.fmt)
      bad (dst.vsel != 0)
      bad ((List.finRange 5).any fun i => decide (other.rank ≤ i.val) && decide (org[i] ≠ 0))
      bad (boxOut box other org)
      bad (bl != 0 && (decide (org[0] % (bl : Int) ≠ 0) ||
        (src.fmt == 14 && (src.slay != 2 || dst.slay != 2 || decide (org[0] % 16384 ≠ 0)))))
      s.windowUnits c false r (src.units ++ dst.units)
      .ok rec'
    | _, _ => .error (.trap .operand 0 r)

/-- A command reads `n` bytes of its record from the block's scratchpad; a poisoned sector parks (R353). -/
def State.recordBytes (s : State) (c : Ctx) (off n : Nat) : Res (List Byte) := do
  s.updatesDone c (.sp c.b.id off) n
  match s.poisoned (.sp c.b.id off) n with
  | some (.sp _ o) | some (.phys o) => .error (.park (BitVec.ofNat 64 (windowBase + o)) 0)
  | none => .ok (s.ownBytes c.g (.sp c.b.id off) n)

/-- Fetching and checking record `r` (R243, R244). -/
def State.fetchRecord (s : State) (c : Ctx) (off r : Nat) : Res CopyRec := do
  let l ← s.recordBytes c (off + 16 * r) 16
  s.captureRecord c r (leNat l)

/-- Kicks that a core's engine holds. -/
def State.kicksOn (s : State) (core : Nat) : Nat := (s.kicks.filter fun k => k.core == core).length

/-- `kick` (R243): it waits for room before it is checked; the spec gives no order (log 56, DESIGN CHOICE). -/
def execKick (a b : BitVec 6) (s : State) : Out :=
  s.scalarCtx fun c => do
    let va := c.g.getX a
    let xb := (c.g.getX b).toNat
    if 64 ≤ s.kicksOn c.g.core then .error (.wait .engineRoom)
    else
      match Scope.ofCode (BitVec.ofNat 3 (nbits xb 30 28)) with
      | none => trapNow .operand
      | some sc => do
        let n := nbits xb 26 19 + 1
        let bar := nbits xb 18 0
        ensure (nbits xb 63 31 == 0 && nbits xb 27 27 == 0) .operand
        ensure (decide (va.toNat % 16 = 0) && decide (bar % 16 = 0)) .align
        match c.blockOffset va (16 * n) with
        | none => trapNow .operand
        | some off => do
          ensure (decide (bar + 16 ≤ 1024 * c.l.scratch)) .operand
          let recs ← (List.range n).mapM fun r => s.fetchRecord c off r
          let total := recs.foldl (fun t r => t + r.bytes) 0
          let s1 := (s.touch (some c.g.ref) false (.sp c.b.id off) (16 * n)).announce c bar total sc
          let k : Kick := ⟨s1.nextId, c.g.ref, c.g.core, c.l.tenant, c.g.pc.extractLsb' 0 32, bar, c.g.step32, recs, 0⟩
          ({ s1 with nextId := s1.nextId + 1, kicks := s1.kicks ++ [k] }).done fun g => g.advance.close

/-! ## `kwait` (R248) -/

/-- The barrier object that a group's `kwait` names. -/
def Ctx.kwaitObject (c : Ctx) (va : Word) : Res Nat := do
  ensure (decide (va.toNat % 16 = 0)) .align
  match c.blockOffset va 16 with
  | some off => .ok off
  | none => trapNow .operand

/-- COUNT is 0 and F clear. -/
def State.barrierOpen (s : State) (blk off : Nat) : Bool :=
  let b := Barrier.ofBytes (s.readBytes (.sp blk off) 16)
  b.count == 0 && !b.fault

/-- The object's sector meets poison: the park names it by its address in the block window. -/
def State.barrierReadable (s : State) (c : Ctx) (off : Nat) : Res Unit :=
  match s.poisoned (.sp c.b.id off) 16 with
  | some _ => .error (.park (BitVec.ofNat 64 (windowBase + off / 32 * 32)) 0)
  | none => .ok ()

/-- The group's own operations on the object, and its own tests, have been performed, and it is open (R248, R309, R312). -/
def State.kwaitOpen (s : State) (g : Group) (off : Nat) : Bool :=
  !(s.outstanding g false).any (fun a => a.op.acquires || a.obj.meets a.size (.sp g.ref.blk off) 16) && s.barrierOpen g.ref.blk off

/-- `kwait`: in a deterministic launch a switch point (R127); its condition is tested when the operations and commands of the set that
can change it are performed (R128, R319). -/
def execKwait (a : BitVec 6) (s : State) : Out :=
  s.scalarCtx fun c => do
    if c.l.det then c.g.drained
    let off ← c.kwaitObject (c.g.getX a)
    s.barrierReadable c off
    if c.l.det then .ok (s.switchWait c.g.ref none (.kwait off))
    else if s.kwaitOpen c.g off then (s.touch (some c.g.ref) false (.sp c.b.id off) 16).done Group.advance
    else .error (.wait (.kwait off))

/-- `kwait.nb` reads the object: in a deterministic launch as the group sees it (R303). -/
def execKwaitNb (d a : BitVec 6) (s : State) : Out :=
  s.scalarCtx fun c => do
    let off ← c.kwaitObject (c.g.getX a)
    s.barrierReadable c off
    let t : Target := ⟨.sp c.b.id off, c.g.getX a, 2, 0, false, true, false⟩
    match (if c.l.det then c.g.snap else none) with
    | some m => (s.touch (some c.g.ref) false t.place 16).done fun g =>
        (g.setX d ((PostOp.count d).answer c.b.abandoned (m.readBytes off 16))).advance
    | none => s.readOrPost c t 16 (.count d) d

/-! ## Performing moves (R245) -/

/-- A move with its checked pieces. -/
structure Ready where
  move : Move
  src : List Piece
  dst : List Piece
  deriving DecidableEq, Repr

/-- Translation and protection of every page of a list of moves (R205). The first faulting address of R247 is the first in the order
of the moves, source before destination, element bytes before scales (log 62, DESIGN CHOICE). -/
def State.translateMoves (s : State) (c : Ctx) (kick : Bool) (ms : List Move) : Res (List Ready) :=
  ms.mapM fun m => do
    let src ← s.movePieces c kick .load m.src m.n
    let dst ← s.movePieces c kick .store m.dst m.n
    .ok ⟨m, src, dst⟩

/-- Source pages at the captured step (R217). -/
def State.resolveSteps (s : State) (tenant : Nat) (q : Option Word32) (rs : List Ready) : Res (List Ready) :=
  rs.mapM fun r => do
    let src ← r.src.mapM fun p => match s.stepPlace tenant q p.tgt with
      | some pl => .ok { p with place := pl }
      | none => .error (.trap .version p.va 32)
    .ok { r with src := src }

/-- Destination pages that must be copied first (R218); `vstep` is the issuing group's step. -/
def State.gateMoves (s : State) (tenant : Nat) (vstep : Word32) (ps : List Piece) : Res (List Nat) :=
  ps.foldlM (fun pages p =>
    if !s.mustCopy tenant p.tgt || pages.contains p.tgt.pageKey then .ok pages
    else if s.copying p.tgt.pageKey then .error (.wait (.copy p.tgt.pageKey))
    else match s.cowFault (s.version tenant p.tgt.pageKey) tenant vstep (pages.length + 1) with
      | some code => .error (.trap .version p.va (32 * code))
      | none => .ok (pages ++ [p.tgt.pageKey])) []

/-- Copies on write that an engine makes (R218). -/
def State.cowAll (s : State) (tenant : Nat) (vstep : Word32) (pages : List Nat) : State :=
  pages.foldl (fun (s : State) p => s.cowNow tenant p vstep) s

/-- A piece of the destination and the bytes it receives; `taint`: byte by byte, whether a poisoned sector supplied it. -/
structure Put where
  place : Place
  bytes : List Byte
  taint : List Bool
  deriving DecidableEq, Repr

/-- Byte by byte, whether it lies in a poisoned sector. -/
def State.taintOf (s : State) (p : Place) (n : Nat) : List Bool :=
  (List.range n).map fun i => (s.poisoned (p.add i) 1).isSome

/-- Bytes with their taint, cut as the destination's ranges are. -/
def cutPuts : List (Place × Nat) → List Byte → List Bool → List Put
  | [], _, _ => []
  | (p, n) :: rest, bytes, taint => ⟨p, bytes.take n, taint.take n⟩ :: cutPuts rest (bytes.drop n) (taint.drop n)

/-- The bytes that a ready move writes, cut as its destination is. -/
def State.putsOf (s : State) (r : Ready) : List Put :=
  let bytes := if r.src.isEmpty then r.move.fill else s.pieceBytes r.src
  cutPuts (r.dst.map fun p => (p.place, p.n)) bytes (r.src.flatMap fun p => s.taintOf p.place p.n)

/-- One access of an engine covers a byte. -/
def Put.covers (u : Put) (p : Place) : Bool :=
  match u.place.offset p with
  | some d => decide (d < u.bytes.length)
  | none => false

/-- A poisoned sector supplied the byte at `p`. -/
def Put.taints (u : Put) (p : Place) : Bool :=
  match u.place.offset p with
  | some d => u.taint[d]?.getD false
  | none => false

/-- The sectors that a list of puts touches, as places. -/
def putSectors (us : List Put) : List Place :=
  us.foldl (fun l u =>
    let mk (i : Nat) : Place := match u.place with
      | .phys _ => .phys (32 * i)
      | .sp b _ => .sp b (32 * i)
    let o := match u.place with
      | .phys k => k
      | .sp _ o => o
    (unitsOf 32 o u.bytes.length).foldl (fun l i => if l.contains (mk i) then l else l ++ [mk i]) l) []

/-- An engine's write of a record or a row: the bytes in order; a sector written whole loses its poison, and a sector that
received poisoned data gains it (R245, R354). -/
def State.putAll (s : State) (us : List Put) : State :=
  let s1 := us.foldl (fun (s : State) u => s.writeBytes none u.place u.bytes) s
  (putSectors us).foldl (fun (s : State) q =>
    let bad := us.any fun u => (List.range 32).any fun i => u.taints (q.add i)
    let whole := (List.range 32).all fun i => us.any fun u => u.covers (q.add i)
    if bad then s.poisonRange q 1 else if whole then s.clearPoison q 32 else s) s1

/-- The scratchpad granules of destinations. -/
def putGranules (ps : List (Place × Nat)) : List (Nat × Nat) :=
  ps.flatMap fun p => match p.1 with
    | .sp b o => (unitsOf 16 o p.2).map fun i => (b, i)
    | .phys _ => []

def State.fillAll (s : State) (gs : List (Nat × Nat)) : State := gs.foldl (fun (s : State) g => s.setFull g.1 [g.2] true) s

/-- The granules that the moves of a record reach. -/
def State.recGranules (s : State) (c : Ctx) (r : CopyRec) : List (Nat × Nat) :=
  r.moves.flatMap fun m => match m.dst with
    | some va => if inWindowRange va then
        match s.windowPlace c va m.n with
        | .ok p => putGranules [(p, m.n)]
        | .error _ => []
      else []
    | none => []

/-! ## COPY_RECORD (R245 to R247) -/

/-- Cause and version code of a copy fault (R247). -/
def copyCause (st : Stop) : Option (Word × Nat × Nat) :=
  match st with
  | .trap .version addr d => some (addr, 3, d / 32)
  | .trap .page addr _ => some (addr, 1, 0)
  | .trap _ addr _ => some (addr, 2, 0)
  | .park addr _ => some (addr, 1, 0)
  | _ => none

def State.kick? (s : State) (id : Nat) : Option Kick := s.kicks.find? fun k => k.id == id

def State.dropKick (s : State) (id : Nat) : State := { s with kicks := s.kicks.filter fun k => k.id != id }

/-- The granules of completed records that the failing rest of the kick would have reached later. -/
def State.fillDone (s : State) (c : Ctx) (k : Kick) : State :=
  let rest := (k.recs.drop k.next).flatMap fun r => s.recGranules c r
  s.fillAll (((k.recs.take k.next).flatMap fun r => s.recGranules c r).filter fun g => rest.contains g)

/-- A copy fault ends the kick (R247). -/
def State.copyFault (s : State) (c : Ctx) (k : Kick) (addr : Word) (cause vcode : Nat) : State :=
  let left := (k.recs.drop k.next).foldl (fun t r => t + r.bytes) 0
  let s1 := (s.fillDone c k).updBarrier k.grp.blk k.bar fun b => (b.countDown left).fail k.next
  (s1.dropKick k.id).holdTrap k.grp
    ⟨.copy, k.pc.zeroExtend 64, addr, BitVec.ofNat 32 (k.next + 256 * cause + 65536 * vcode), s.aoc⟩

/-- A kick whose request reaches a lost peer ends as a copy fault does, with a machine check in its group (R332). -/
def State.kickLost (s : State) (c : Ctx) (k : Kick) (addr : Word) : State :=
  let left := (k.recs.drop k.next).foldl (fun t r => t + r.bytes) 0
  let s1 := (s.fillDone c k).updBarrier k.grp.blk k.bar fun b => (b.countDown left).fail k.next
  (s1.dropKick k.id).detectTrap k.grp ⟨.mcheck, k.pc.zeroExtend 64, addr, 3, s.aoc⟩

/-- The checks of one record before it writes (R245). -/
def State.recordReady (s : State) (c : Ctx) (k : Kick) (r : CopyRec) : Res (List Ready × List Nat) := do
  let rs ← s.translateMoves c true r.moves
  let rs ← s.resolveSteps k.tenant r.step rs
  let pages ← s.gateMoves k.tenant k.vstep (rs.flatMap (·.dst))
  rs.forM fun x => (x.src ++ x.dst).forM fun p => s.wayTo p.tgt
  .ok (rs, pages)

/-- One record is written and counted down. -/
def State.performRecord (s : State) (c : Ctx) (k : Kick) (r : CopyRec) (rs : List Ready) (pages : List Nat) : State :=
  let puts := rs.flatMap s.putsOf
  let s1 := s.touchPieces none (rs.flatMap (·.src))
  let s2 := (s1.cowAll k.tenant k.vstep pages).putAll puts
  let later := (k.recs.drop (k.next + 1)).flatMap fun q => s.recGranules c q
  let s3 := s2.fillAll ((putGranules (puts.map fun u => (u.place, u.bytes.length))).filter fun g => !later.contains g)
  let s4 := s3.updBarrier k.grp.blk k.bar fun b => b.countDown r.bytes
  if k.next + 1 = k.recs.length then s4.dropKick k.id
  else { s4 with kicks := s4.kicks.map fun q => if q.id = k.id then { q with next := k.next + 1 } else q }

/-- The kick is the first of its group's kicks (R245). -/
def State.kickFirst (s : State) (k : Kick) : Bool := !(s.kicks.any fun q => q.grp == k.grp && decide (q.id < k.id))

/-- COPY_RECORD: the next record of an accepted kick. -/
def execCopyRecord (id : Nat) (s : State) : Out :=
  match s.kick? id with
  | none => .next s
  | some k => match s.engineCtx k.grp, k.recs[k.next]? with
    | some c, some r =>
      if !s.kickFirst k || s.behindPosted k.grp id then .next s
      else match s.recordReady c k r with
        | .ok (rs, pages) => .next (s.performRecord c k r rs pages)
        | .error (.fault f) => .fault f
        | .error (.trap .mcheck addr _) => .next (s.kickLost c k addr)
        | .error st => match copyCause st with
          | some (addr, cause, code) => .next (s.copyFault c k addr cause code)
          | none => .next s
    | _, _ => .next (s.dropKick id)

end Sys2Proof.Machine
end

