-- ==== Sys2Proof/Machine/Matrix.lean ====
section
/-! DEFINITION. The matrix engine (R41, R35, R250 to R259). -/

namespace Sys2Proof.Machine

open Sys2Proof

/-! ## Held pages (R206) -/

/-- Every held page can be reached now (R214, R332): a link in recovery or an owner is waited for, a lost peer is a machine
check. -/
def State.heldReady (s : State) (h : Held) : Res Unit :=
  h.forM fun e => match e.place with
    | .phys k => s.onWay ⟨k, k, e.attr, true, false⟩ (BitVec.ofNat 64 (e.vpn * pageSize))
    | .sp _ _ => .ok ()

/-- The start of the page that a checked piece lies in. -/
def Piece.pageStart (p : Piece) : Place :=
  let back := p.va.toNat % pageSize
  match p.place with
  | .phys k => .phys (k - back)
  | .sp b o => .sp b (o - back)

/-- The pages of checked pieces, each once; `q`: the step that reads of them name. -/
def heldOf (q : Option Word32) (ps : List Piece) : Held :=
  ps.foldl (fun h p =>
    if h.any (fun e => e.vpn == p.va.toNat / pageSize) then h
    else h ++ [⟨p.va.toNat / pageSize, p.pageStart, p.tgt.attr, p.tgt.pageKey, if p.tgt.versioned then q else none⟩]) []

def State.heldBytes (s : State) (h : Held) (va : Word) (n : Nat) : List Byte :=
  (h.range va n).flatMap fun p => s.readBytes p.1 p.2

/-- Others see an engine's reads of units in held pages (R299). -/
def State.touchUnits (s : State) (h : Held) (us : List (Word × Nat)) : State :=
  us.foldl (fun (s : State) u => (h.range u.1 u.2).foldl (fun (s : State) p => s.touch none false p.1 p.2) s) s

def State.heldPoison (s : State) (h : Held) (va : Word) (n : Nat) : Bool :=
  (h.range va n).any fun p => (s.poisoned p.1 p.2).isSome

/-- What an engine reads of an element: code, scale code, super-scale, and whether a poisoned sector supplied any. -/
def State.heldElem (s : State) (d : Desc) (h : Held) (c : Vector Int 5) : PlaneElem :=
  match d.locate c with
  | .elem addr n shift scale super =>
    let code := leNat (s.heldBytes h addr n) / 2 ^ shift % 2 ^ fmtElemBits d.fmt
    let part (a : Option Word) (k : Nat) : Nat := match a with
      | some a => leNat (s.heldBytes h a k)
      | none => 0
    let bad (a : Option Word) (k : Nat) : Bool := match a with
      | some a => s.heldPoison h a k
      | none => false
    ⟨code, part scale 1, part super 4, s.heldPoison h addr n || bad scale 1 || bad super 4⟩
  | _ => if d.fmt = 14 then ⟨0, 0, 0x3F800000, false⟩ else ⟨0, 127, 0, false⟩

/-- The exact value of an element as read. -/
def PlaneElem.value (fmt : Nat) (e : PlaneElem) : EVal := fmtValue fmt e.code e.scale e.super

/-! ## Plane formats (R250) -/

structure PlaneShape where
  k : Nat                                      -- K
  n : Nat                                      -- N
  blk : Nat                                    -- block length of R41
  kstep : Nat
  cfmt : Nat
  deriving DecidableEq, Repr

def planeShape (fmt : Nat) : Option PlaneShape :=
  match fmt with
  | 8 => some ⟨64, 32, 8, 8, 8⟩
  | 9 => some ⟨64, 64, 16, 4, 9⟩
  | 10 | 11 => some ⟨128, 128, 32, 4, 9⟩
  | 12 | 13 | 15 | 16 | 17 | 18 | 20 => some ⟨256, 128, 32, 8, 9⟩
  | 4 => some ⟨256, 128, 32, 8, 6⟩
  | 19 => some ⟨256, 256, 32, 8, 9⟩
  | 14 => some ⟨256, 256, 64, 4, 9⟩
  | _ => none

/-! ## Accumulation (R41, R35) -/

/-- A product of two element values, its zero signed. -/
def EVal.times (a b : EVal) : EVal :=
  match a, b with
  | .nan, _ => .nan
  | _, .nan => .nan
  | .inf m, .inf n => .inf (xor m n)
  | .inf m, .num x => if x.isZero then .nan else .inf (xor m x.neg)
  | .num x, .inf n => if x.isZero then .nan else .inf (xor x.neg n)
  | .num x, .num y => .num (x.mul y)

/-- A block sum before rounding: NaN, an infinity, or the exact sum; `allNeg` tells that every product was −0. -/
def blockSum (ps : List EVal) : EVal :=
  let nan := ps.any fun p => match p with | .nan => true | _ => false
  let inf (n : Bool) : Bool := ps.any fun p => p == .inf n
  if nan || (inf true && inf false) then .nan
  else if inf true then .inf true
  else if inf false then .inf false
  else
    let x := ps.foldl (fun (a : Exact) p => match p with | .num y => a.add y | _ => a) Exact.zero
    if x.isZero then
      .num ⟨ps.all fun p => match p with | .num y => y.isZero && y.neg | _ => false, 0, 1⟩
    else .num x

/-- `Ftz` of R35, with the accumulator-underflow flag. -/
def ftz (bits : Nat) : Nat × Bool :=
  let mag := bits % 2 ^ 31
  if 0 < mag ∧ mag < 2 ^ 23 then (bits - mag, true) else (bits, false)

/-- One block into an FP64 or FP32 accumulator: the new accumulator and ACU. -/
def accBlock (f : FFmt) (acc : Nat) (s : EVal) : Nat × Bool :=
  let t := match s with
    | .nan => f.canonical
    | .inf n => f.signed n f.infMag
    | .num x => (f.roundOr .rn 0 false x.neg x).bits
  let flush (b : Nat) : Nat × Bool := if f.mb = 23 then ftz b else (b, false)
  let t' := flush t
  let sum := (f.add .rn 0 acc t'.1).bits
  let sum' := flush (if f.isNan sum then f.canonical else sum)
  (sum'.1, t'.2 || sum'.2)

/-- One block into an `s32` accumulator: the new accumulator and SAT. -/
def accInt (acc : Nat) (s : EVal) : Nat × Bool :=
  let b : Int := match s with
    | .num x => if x.neg then -((x.num / x.den : Nat) : Int) else ((x.num / x.den : Nat) : Int)
    | _ => 0
  let y := readInt true 32 acc + b
  let z := clampInt true 32 y
  (wrapInt 32 z, y != z)

/-- Groups of `k` consecutive values. -/
def blocksOf {α : Type} (k : Nat) : Nat → List α → List (List α)
  | 0, _ => []
  | n + 1, l => l.take k :: blocksOf k n (l.drop k)

/-- R41 for one output element: `ps` are its products in K order; the accumulator, ACU and SAT. -/
def accumulate (cfmt blk nb acc : Nat) (ps : List EVal) : Nat × Bool × Bool :=
  (blocksOf blk nb ps).foldl (fun (a : Nat × Bool × Bool) b =>
    if cfmt = 6 then
      let r := accInt a.1 (blockSum b)
      (r.1, a.2.1, a.2.2 || r.2)
    else
      let r := accBlock (if cfmt = 8 then fp64 else fp32) a.1 (blockSum b)
      (r.1, a.2.1 || r.2, a.2.2)) (acc, false, false)

/-! ## Plane pairs (R250, R252, R259) -/

def Plane.empty : Plane := ⟨0, false, []⟩

/-- Plane pairs bound on a core. -/
def State.pairsOn (s : State) (core : Nat) : Nat :=
  (s.groups.filter fun g => match g.planes with | some p => p.bound && p.core == core | none => false).length

/-- The group's pair on its core, bound or to be bound; all eight bound makes it wait (R252, R259). A group resumes when its
commands have completed (R361), so a bound pair lies on its core. -/
def State.pairFor (s : State) (g : Group) : Res PlanePair :=
  match g.planes with
  | some p =>
    if p.bound then (if p.core = g.core then .ok p else .error (.wait .engines))
    else if 8 ≤ s.pairsOn g.core then .error (.wait .planePair)
    else .ok { p with core := g.core, bound := true }
  | none =>
    if 8 ≤ s.pairsOn g.core then .error (.wait .planePair)
    else .ok ⟨g.core, true, Plane.empty, Plane.empty, none, none⟩

/-- At most 4 accepted matrix commands (R251). A fifth waits for room before its checks, `mswap` behind its check for a pair: the spec
gives no order (log 56, DESIGN CHOICE). -/
def Group.matrixRoom (g : Group) : Res Unit := if 4 ≤ g.mcmds.length then .error (.wait .engineRoom) else .ok ()

/-- A matrix command is accepted: the pair as it will stand, the command, and the region ends (R155). -/
def Group.acceptMatrix (g : Group) (p : PlanePair) (m : MCmd) : Group :=
  { g with planes := some p, mcmds := g.mcmds ++ [m] }.advance.close

/-- The issuing group's matrix command is accepted, with the next number. -/
def State.acceptCommand (s : State) (p : PlanePair) (m : MCmd) : Res State :=
  ({ s with nextId := s.nextId + 1 } : State).done fun g => g.acceptMatrix p m

/-! ## `mload` (R252) -/

/-- Some coordinate of `n` from `o` in dimension `i` lies outside its extent with the PADM bit clear. -/
def Desc.rangeOut (d : Desc) (i : Fin 5) (o : Int) (n : Nat) : Bool :=
  !d.padm.getLsbD i.val && (decide (o < 0) || decide ((d.ext[i] : Int) < o + n))

/-- The checks of a list of reads at a step: translation, protection and versions of each page (R205, R217), unit by unit; the first
that fails gives `TADDR` (log 62, DESIGN CHOICE). -/
def State.checkReads (s : State) (c : Ctx) (q : Option Word32) (us : List (Word × Nat)) : Res (List Piece) := do
  let ps ← us.mapM fun u => plainVersion (s.readPieces c q u.1 u.2)
  let ps := ps.flatten
  ps.forM fun p => s.wayTo p.tgt
  .ok ps

def State.mloadOp (s : State) (shadow : Bool) (a b : BitVec 6) : Out :=
  s.scalarCtx fun c => do
    c.g.matrixRoom
    let pair ← s.pairFor c.g
    let xa := (c.g.getX a).toNat
    let xb := (c.g.getX b).toNat
    let k0 := readInt true 32 (nbits xb 31 0)
    let n0 := readInt true 32 (nbits xb 63 32)
    ensure (nbits xa 63 6 == 0) .operand
    match c.b.tid? xa with
    | none => trapNow .operand
    | some d => match planeShape d.fmt with
      | none => trapNow .operand
      | some sh => do
        let bl := fmtBlockLen d.fmt
        ensure ((bl == 0 || decide (k0 % (bl : Int) = 0)) && !d.rangeOut 0 k0 sh.k && !d.rangeOut 1 n0 sh.n) .operand
        let ps ← s.checkReads c (d.step c.g.step32) (d.rectUnits k0 sh.k n0 sh.n)
        let pair := if shadow then { pair with nextShadow := some d.fmt } else { pair with nextStat := some d.fmt }
        s.acceptCommand pair (.load s.nextId shadow d k0 n0 (heldOf (d.step c.g.step32) ps))

/-- In a deterministic launch a wait for a plane pair is a switch point once the lane side is idle or stopped, which
`coroutineSwitch` finds (R127). -/
def execMload (a b : BitVec 6) (s : State) : Out := s.mloadOp false a b

def execMloadSh (a b : BitVec 6) (s : State) : Out := s.mloadOp true a b

/-- `mswap` (R253): a group with no pair traps. -/
def execMswap (s : State) : Out :=
  s.scalarCtx fun c => do
    ensure c.g.planes.isSome .operand
    c.g.matrixRoom
    let pair ← s.pairFor c.g
    s.acceptCommand { pair with nextStat := pair.nextShadow, nextShadow := pair.nextStat } (.swap s.nextId)

/-! ## `mloop` (R254, R255) -/

/-- A loop record as stored. -/
structure LoopFields where
  xtid : Nat
  ctid : Nat
  flags : Nat
  kstep : Nat
  m : Nat
  ncol : Nat
  steps : Nat
  baroff : Nat
  org : Vector Int 8
  reserved : Bool
  deriving DecidableEq, Repr

def LoopFields.ofBytes (l : List Byte) : LoopFields :=
  let f (i n : Nat) : Nat := leNat ((l.drop i).take n)
  let o (i : Nat) : Int := readInt true 32 (f i 4)
  { xtid := f 0 1, ctid := f 1 1, flags := f 2 1, kstep := f 3 1, m := f 4 2, ncol := f 6 2, steps := f 8 2, baroff := f 12 4
    org := #v[o 0x10, o 0x14, o 0x18, o 0x1C, o 0x20, o 0x24, o 0x28, o 0x2C]
    reserved := f 10 2 != 0 || (l.drop 0x30).any (· != 0) }

/-- Reserved fields and ranges of a record (R254, R255). -/
def LoopFields.ok (r : LoopFields) (sh : PlaneShape) (scratch : Nat) : Bool :=
  let baren := nbits r.flags 1 1 == 1
  !r.reserved && decide (r.xtid < 64) && decide (r.ctid < 64) && decide (r.flags < 32) &&
  (Scope.ofCode (BitVec.ofNat 3 (nbits r.flags 4 2))).isSome &&
  decide (1 ≤ r.kstep) && decide (r.kstep ≤ sh.kstep) && decide (1 ≤ r.m) && decide (r.m ≤ 256) &&
  decide (1 ≤ r.ncol) && decide (r.ncol ≤ sh.n) && decide (1 ≤ r.steps) && decide (r.steps ≤ 256) &&
  decide (r.m * r.steps ≤ 8192) &&
  (if baren then decide (r.baroff % 16 = 0) && decide (r.baroff + 16 ≤ 1024 * scratch) else r.baroff == 0)

/-- The record with its descriptors; the held pages are added by the address checks. -/
def LoopFields.toRec (r : LoopFields) (x c : Desc) : LoopRec :=
  { x := x, c := c, xheld := [], cheld := [], z := nbits r.flags 0 0 == 1, baren := nbits r.flags 1 1 == 1
    scope := (Scope.ofCode (BitVec.ofNat 3 (nbits r.flags 4 2))).getD .grp, kstep := r.kstep, m := r.m, ncol := r.ncol
    steps := r.steps, baroff := r.baroff, xrow0 := r.org[0], xk0 := r.org[1], crow0 := r.org[2], ccol0 := r.org[3]
    dxrow := r.org[4], dxk := r.org[5], dcrow := r.org[6], dccol := r.org[7] }

/-- Every coordinate of every step is in extent or padded, and K starts on blocks (R255). -/
def LoopRec.coordsOk (r : LoopRec) (sh : PlaneShape) : Bool :=
  let bl := fmtBlockLen r.x.fmt
  (List.range r.steps).all fun s =>
    !r.x.rangeOut 0 (r.xk s) (r.kstep * sh.blk) && !r.x.rangeOut 1 (r.xr s) r.m && !r.c.rangeOut 0 (r.cc s) r.ncol &&
    !r.c.rangeOut 1 (r.cr s) r.m && (bl == 0 || decide (r.xk s % (bl : Int) = 0))

/-- Errors of the checks of record `i`: `TAUX` holds the record index, and a version code in bits [18:16]. -/
def loopStop {α : Type} (i : Nat) (r : Res α) : Res α :=
  match r with
  | .error (.trap .version addr d) => .error (.trap .version addr (65536 * (d / 32) + i))
  | .error (.trap code addr d) => .error (.trap code addr (if code.machineCheck then d else i))
  | x => x

/-- The address checks of one record, in order: windows, translation and protection, R217 for X, R218 for C; `before`: the pages
that earlier records copy first (R255). Of several pages that fail one check `TADDR` names the first: X's pages of every step come
before C's (log 62, DESIGN CHOICE). -/
def State.loopPages (s : State) (c : Ctx) (sh : PlaneShape) (before : List Nat) (r : LoopRec) :
    Res (LoopRec × List (Nat × Word)) := do
  let xs := (List.range r.steps).flatMap fun i => r.x.rectUnits (r.xk i) (r.kstep * sh.blk) (r.xr i) r.m
  let cs := (List.range r.steps).flatMap fun i => r.c.rectUnits (r.cc i) r.ncol (r.cr i) r.m
  s.windowUnits c true 0 (xs ++ cs)
  let xt ← xs.mapM fun u => s.movePieces c false .load (some u.1) u.2
  let ct ← cs.mapM fun u => s.movePieces c false .store (some u.1) u.2
  let q := r.x.step c.g.step32
  let xp ← xt.flatten.mapM fun p => match s.stepPlace c.l.tenant q p.tgt with
    | some pl => .ok { p with place := pl }
    | none => .error (.trap .version p.va 32)
  let pages ← ct.flatten.foldlM (fun (pages : List (Nat × Word)) p =>
    if !s.mustCopy c.l.tenant p.tgt || before.contains p.tgt.pageKey || pages.any (fun e => e.1 == p.tgt.pageKey) then .ok pages
    else if s.copying p.tgt.pageKey then .error (.wait (.copy p.tgt.pageKey))
    else match s.cowFault (s.version c.l.tenant p.tgt.pageKey) c.l.tenant c.g.step32 (before.length + pages.length + 1) with
      | some code => .error (.trap .version p.va (32 * code))
      | none => .ok (pages ++ [(p.tgt.pageKey, p.va)])) []
  (xp ++ ct.flatten).forM fun p => s.wayTo p.tgt
  .ok ({ r with xheld := heldOf q xp, cheld := heldOf none ct.flatten }, pages)

/-- The three checks of each record, in ascending index. -/
def State.loopRecords (s : State) (c : Ctx) (fmt : Nat) (sh : PlaneShape) (off : Nat) :
    List Nat → List Nat → Res (List (LoopRec × List (Nat × Word)))
  | [], _ => .ok []
  | i :: rest, before => do
    let l ← s.recordBytes c (off + 64 * i) 64
    let f := LoopFields.ofBytes l
    loopStop i (ensure (f.ok sh c.l.scratch) .operand)
    let r ← match c.b.tid? f.xtid, c.b.tid? f.ctid with
      | some x, some d => do
        let r := f.toRec x d
        loopStop i (ensure (x.fmt == fmt && d.fmt == sh.cfmt && d.vsel == 0 && r.coordsOk sh) .operand)
        loopStop i (s.loopPages c sh before r)
      | _, _ => .error (.trap .operand 0 i)
    let rs ← s.loopRecords c fmt sh off rest (before ++ r.2.map (·.1))
    pure (r :: rs)

/-- The copies on write of the records in order; one that fails now ends the `mloop` with its trap (R255 step 3). -/
def State.loopCopies (s : State) (tenant : Nat) (q : Word32) : List (Nat × Nat × Word) → State × Option Stop
  | [] => (s, none)
  | (i, page, va) :: rest =>
    let v := s.version tenant page
    if !v.pub then s.loopCopies tenant q rest
    else match s.cowFault v tenant q 1 with
      | some code => (s, some (.trap .version va (65536 * code + i)))
      | none => (s.cowNow tenant page q).loopCopies tenant q rest

/-- A trap in a state that already holds part of an effect. -/
def State.settleIn (s : State) (g : Group) (st : Stop) : Res State :=
  match s.stopped g none st with
  | .next t => .ok t
  | .fault f => .error (.fault f)
  | .refused _ => .ok s

def fmtSize (fmt : Nat) : Nat := fmtBytes fmt

/-- The wider of two scopes. -/
def Scope.wider (a b : Scope) : Scope := if a.code.toNat ≤ b.code.toNat then b else a

/-- Acceptance: barriers announce each record's bytes, and the widest scope is noted. -/
def State.acceptLoop (s : State) (c : Ctx) (rs : List LoopRec) (pair : PlanePair) : State :=
  let s1 := rs.foldl (fun (s : State) r =>
    if r.baren then s.announce c r.baroff (r.m * r.steps * r.ncol * fmtBytes r.c.fmt) r.scope else s) s
  ({ s1 with nextId := s1.nextId + 1 } : State).updGroup c.g.ref fun g =>
    { g with mscope := rs.foldl (fun a (r : LoopRec) => Scope.wider a r.scope) g.mscope }.acceptMatrix pair
      (.loop s1.nextId (c.g.pc.extractLsb' 0 32) rs 0 0)

/-- `mloop` (R254, R255): a group without a bound pair, as after a resumption, waits for one behind the checks of the whole
instruction and before those of its records (log 56, DESIGN CHOICE). -/
def execMloop (a b : BitVec 6) (s : State) : Out :=
  s.scalarCtx fun c => do
    c.g.matrixRoom
    let va := c.g.getX a
    let n := (c.g.getX b).toNat
    ensure (decide (va.toNat % 64 = 0)) .align va
    ensure (decide (1 ≤ n) && decide (n ≤ 16)) .operand
    match c.blockOffset va (64 * n), c.g.planes.bind (·.nextStat) with
    | some off, some fmt => match planeShape fmt with
      | none => trapNow .operand
      | some sh => do
        let pair ← s.pairFor c.g
        let rs ← s.loopRecords c fmt sh off (List.range n) []
        let s0 := s.touch (some c.g.ref) false (.sp c.b.id off) (64 * n)
        let cows := (List.zip (List.range n) rs).flatMap fun r => r.2.2.map fun p => (r.1, p)
        match s0.loopCopies c.l.tenant c.g.step32 cows with
        | (s1, some st) => s1.settleIn c.g st
        | (_, none) => .ok ((s0.acceptLoop c (rs.map (·.1)) pair).loopCopies c.l.tenant c.g.step32 cows).1
    | none, _ => .error (.trap .operand va 0)
    | _, none => trapNow .operand

/-! ## `mwait` (R257) -/

/-- ACU and SAT go into every thread's `LST`, and the engine's copies are cleared. -/
def Group.collect (g : Group) : Group :=
  { g with
    lanes := g.lanes.map fun (l : Lane) => l.raise (flIf g.acu flAcu ||| flIf g.sat flSat), acu := false, sat := false
    mscope := .grp }.advance

/-- A posted operation of the group is still to bring a value back. -/
def State.readsDue (s : State) (r : GroupRef) : Bool := s.arrivals.any fun a => a.grp == r && a.op.dst.isSome

/-- `mwait` is an acquire without a read of its own: every read before it, a posted one too, is made before what follows it (R257,
R308, R309). -/
def execMwait (s : State) : Out :=
  s.scalarCtx fun c => do
    c.g.drained
    if !c.g.mcmds.isEmpty then .error (.wait .mwait)
    else if s.readsDue c.g.ref then .error (.wait .engines)
    else s.done Group.collect

/-! ## The engine's steps (R252, R253, R256) -/

def MCmd.id : MCmd → Nat
  | .load i .. => i
  | .swap i => i
  | .loop i .. => i

/-- The pages that the next step of a command reads and writes. -/
def MCmd.stepHeld (m : MCmd) : Held :=
  match m with
  | .load _ _ _ _ _ h => h
  | .swap _ => []
  | .loop _ _ recs rec _ => match recs[rec]? with
    | some r => r.xheld ++ r.cheld
    | none => []

/-- The head command of a group can take its step: it follows no posted operation of the group, and its pages wait for no owner, peer
or link (R214, R316, R332). -/
def State.matrixReady (s : State) (r : GroupRef) (m : MCmd) : Bool :=
  !s.behindPosted r m.id && match s.heldReady m.stepHeld with
    | .error (.wait _) => false
    | _ => true

/-- The least of a list of numbers. -/
def leastOf : List Nat → Option Nat
  | [] => none
  | a :: rest => some (rest.foldl min a)

/-- The matrix command that a core's engine steps next: steps of different groups' commands take turns by age, behind the command
stepped last the next younger one that can take a step, and behind the youngest the oldest (R259; log 65, DESIGN CHOICE). -/
def State.matrixNext (s : State) (core : Nat) : Option Nat :=
  let ready := s.groups.filterMap fun g => match g.planes, g.mcmds with
    | some p, m :: _ => if p.core = core ∧ s.matrixReady g.ref m then some m.id else none
    | _, _ => none
  let last := ((s.engineAt.find? fun e => e.1 == core).map (·.2)).getD 0
  (leastOf (ready.filter (last < ·))).or (leastOf ready)

/-- The engine has stepped a command. -/
def State.stepped (s : State) (core id : Nat) : State :=
  { s with engineAt := s.engineAt.filter (fun e => e.1 != core) ++ [(core, id)] }

/-- The head command leaves; with none left, the pair of a group that is away, on another core or gone is saved or
released (R259). -/
def Group.retireMatrix (g : Group) : Group :=
  let g := { g with mcmds := g.mcmds.drop 1 }
  if !g.mcmds.isEmpty then g
  else match g.planes, g.status with
    | some p, .resident => if p.core = g.core then g else { g with planes := some { p with bound := false } }
    | some p, .preempted => { g with planes := some { p with bound := false } }
    | _, .ended | _, .killed => { g with planes := none, acu := false, sat := false }
    | none, _ => g

/-- A command whose request reaches a lost peer ends, nothing is written, and its group has a machine check (R332, R355). -/
def State.matrixLost (s : State) (r : GroupRef) (tpc addr : Word) : State :=
  (s.updGroup r Group.retireMatrix).detectTrap r ⟨.mcheck, tpc, addr, 3, s.aoc⟩

/-- The plane that a tile comes to: every element, row κ after row (R252). -/
def State.planeOf (s : State) (sh : PlaneShape) (d : Desc) (k0 n0 : Int) (held : Held) : Plane :=
  ⟨d.fmt, true, (stepsBelow sh.k 1).flatMap fun k => (stepsBelow sh.n 1).map fun n => s.heldElem d held (coord2 (k0 + k) (n0 + n))⟩

/-- PLANE_LOAD: the plane is filled from the tile, at the command's turn (R259). -/
def execPlaneLoad (r : GroupRef) (s : State) : Out :=
  match s.group? r with
  | none => .next s
  | some g => match g.mcmds, g.planes with
    | .load id shadow d k0 n0 held :: _, some p => match planeShape d.fmt with
      | some sh =>
        if s.matrixNext p.core ≠ some id then .next s
        else match s.heldReady held with
          | .ok _ =>
            let plane := s.planeOf sh d k0 n0 held
            let p' := if shadow then { p with shadow := plane } else { p with stat := plane }
            .next (((s.stepped p.core id).touchUnits held (d.rectUnits k0 sh.k n0 sh.n)).updGroup r fun g =>
              { g with planes := some p' }.retireMatrix)
          | .error (.trap _ addr _) => .next ((s.stepped p.core id).matrixLost r g.scalarTpc addr)
          | .error _ => .next s
      | none => .next s
    | _, _ => .next s

/-- PLANE_SWAP: the planes are exchanged, at the command's turn. -/
def execPlaneSwap (r : GroupRef) (s : State) : Out :=
  match s.group? r with
  | none => .next s
  | some g => match g.mcmds, g.planes with
    | .swap id :: _, some p =>
      if s.matrixNext p.core ≠ some id then .next s
      else .next ((s.stepped p.core id).updGroup r fun g => { g with planes := some { p with stat := p.shadow, shadow := p.stat } }.retireMatrix)
    | _, _ => .next s

/-- What one C element comes to: its bits, poison, ACU and SAT; nothing is written where it is padded. -/
structure CElem where
  addr : Option Word
  bits : Nat
  poison : Bool
  acu : Bool
  sat : Bool
  deriving DecidableEq, Repr

/-- Element (i, j) of a step (R256). -/
def State.loopElem (s : State) (sh : PlaneShape) (stat : Plane) (r : LoopRec) (st i : Nat) (xs : List PlaneElem) (j : Nat) : CElem :=
  let cpos := coord2 (r.cc st + j) (r.cr st + i)
  let c := s.heldElem r.c r.cheld cpos
  let w := (List.range (r.kstep * sh.blk)).map fun q => stat.elems.getD (q * sh.n + j) ⟨0, 127, 0, false⟩
  let ps := List.zipWith (fun (x w : PlaneElem) => (x.value r.x.fmt).times (w.value stat.fmt)) xs w
  let acc := accumulate sh.cfmt sh.blk r.kstep (if r.z then 0 else c.code) ps
  let addr := match r.c.locate cpos with
    | .elem a _ _ _ _ => some a
    | _ => none
  ⟨addr, acc.1, (!r.z && c.poison) || xs.any (·.poison) || w.any (·.poison), acc.2.1, acc.2.2⟩

/-- The scratchpad granules that a step of a record writes. -/
def LoopRec.granules (r : LoopRec) (st : Nat) : List (Nat × Nat) :=
  putGranules (r.outs st)

/-- The reads of one row: X's units, and C's unless Z starts it at +0. -/
def State.touchRow (s : State) (sh : PlaneShape) (r : LoopRec) (st i : Nat) : State :=
  let s1 := s.touchUnits r.xheld (r.x.rectUnits (r.xk st) (r.kstep * sh.blk) (r.xr st + i) 1)
  if r.z then s1 else s1.touchUnits r.cheld (r.c.rectUnits (r.cc st) r.ncol (r.cr st + i) 1)

/-- One row: its elements are computed, then written as one access; `bad`: its residue failed twice (R258). -/
def State.loopRow (s : State) (sh : PlaneShape) (stat : Plane) (r : LoopRec) (st i : Nat) (bad : Bool) : State × Bool × Bool :=
  let xs := (stepsBelow (r.kstep * sh.blk) 1).map fun q => s.heldElem r.x r.xheld (coord2 (r.xk st + q) (r.xr st + i))
  let es := (List.range r.ncol).map fun j => s.loopElem sh stat r st i xs j
  let size := fmtBytes r.c.fmt
  let puts := es.flatMap fun e => match e.addr with
    | some a => cutPuts (r.cheld.range a size) (leBytes size e.bits) (List.replicate size (bad || e.poison))
    | none => []
  ((s.touchRow sh r st i).putAll puts, es.any (·.acu), es.any (·.sat))

/-- All rows of a step, in order. -/
def State.loopRows (s : State) (sh : PlaneShape) (stat : Plane) (r : LoopRec) (st : Nat) (residue : List Nat) :
    List Nat → State × Bool × Bool
  | [] => (s, false, false)
  | i :: rest =>
    let a := s.loopRow sh stat r st i (residue.contains i)
    let b := State.loopRows a.1 sh stat r st residue rest
    (b.1, a.2.1 || b.2.1, a.2.2 || b.2.2)

/-- Granules that later steps of the command still write. -/
def laterGranules (recs : List LoopRec) (rec st : Nat) : List (Nat × Nat) :=
  (match recs[rec]? with
    | some r => ((List.range r.steps).drop (st + 1)).flatMap r.granules
    | none => []) ++
  (recs.drop (rec + 1)).flatMap fun r => (List.range r.steps).flatMap r.granules

/-- The step after a step of a loop, or the end of the command. -/
def Group.nextLoopStep (g : Group) (id : Nat) (pc : Word32) (recs : List LoopRec) (l : LoopRec) (rec st : Nat) : Group :=
  if st + 1 < l.steps then { g with mcmds := .loop id pc recs rec (st + 1) :: g.mcmds.drop 1 }
  else if rec + 1 < recs.length then { g with mcmds := .loop id pc recs (rec + 1) 0 :: g.mcmds.drop 1 }
  else g.retireMatrix

/-- LOOP_STEP: the rows of the next step of the running loop record, at the command's turn; `residue` names the rows whose check failed twice. -/
def execLoopStep (r : GroupRef) (residue : List Nat) (s : State) : Out :=
  match s.group? r with
  | none => .next s
  | some g => match g.mcmds, g.planes with
    | .loop id pc recs rec st :: _, some p => match recs[rec]?, planeShape p.stat.fmt with
      | some l, some sh =>
        if s.matrixNext p.core ≠ some id then .next s
        else match s.heldReady (l.xheld ++ l.cheld) with
          | .ok _ =>
            let rows := (s.stepped p.core id).loopRows sh p.stat l st residue (List.range l.m)
            let later := laterGranules recs rec st
            let s1 := rows.1.fillAll ((l.granules st).filter fun x => !later.contains x)
            let s2 := if l.baren then s1.updBarrier r.blk l.baroff fun b => b.countDown (l.m * l.ncol * fmtBytes l.c.fmt) else s1
            let s3 := s2.updGroup r fun g =>
              { g with acu := g.acu || rows.2.1, sat := g.sat || rows.2.2 }.nextLoopStep id pc recs l rec st
            .next (if residue.any fun i => decide (i < l.m) then s3.detectTrap r ⟨.mirror, pc.zeroExtend 64, 0, 2, s.aoc⟩ else s3)
          | .error (.trap _ addr _) => .next ((s.stepped p.core id).matrixLost r (pc.zeroExtend 64) addr)
          | .error _ => .next s
      | _, _ => .next s
    | _, _ => .next s

end Sys2Proof.Machine
end

