-- ==== Sys2Proof/Machine/GibbsArray.lean ====
section
/-! DEFINITION. The probabilistic bit array (R274 to R286). -/

namespace Sys2Proof.Machine

open Sys2Proof

/-! ## Windows (R274, R275) -/

/-- A leased window: its die, its first array cell and its number of cells. -/
structure Window where
  num : Nat
  die : Nat
  first : Nat
  size : Nat
  deriving DecidableEq, Repr

/-- Window `w` of a tenant, when its lease is enabled. -/
def Tenant.window? (t : Tenant) (w : Nat) : Option Window :=
  let r := (t.leases[w]?.getD 0).toNat
  if nbits r 31 31 = 1 then some ⟨w, nbits r 29 28, 256 * nbits r 9 0, 256 * (nbits r 25 16 + 1)⟩ else none

/-- An array cell belongs to the window. -/
def Window.holds (w : Window) (c : Cell) : Bool :=
  c.die == w.die && decide (w.first ≤ c.cell) && decide (c.cell < w.first + w.size)

/-- The loaded cell at a window index; none when it is void. -/
def State.windowCell (s : State) (w : Window) (c : Nat) : Option Cell :=
  s.cells.find? fun x => x.die == w.die && x.cell == w.first + c && decide (c < w.size)

/-- The window's loaded cells. -/
def State.windowCells (s : State) (w : Window) : List Cell := s.cells.filter w.holds

/-! ## The sigmoid table (R279) -/

/-- 2^96 · e^(n/64), within a few hundred units. -/
def expFix (n : Nat) : Nat := (expTerms ((n * 2 ^ 96 / 64 : Nat) : Int) 96 200 (2 ^ 96 : Nat) 0).toNat

/-- `num / den` to the nearest integer; no tie occurs. -/
def nearest (num den : Nat) : Nat := (2 * num + den) / (2 * den)

/-- P[i]: 65,536 / (1 + e^(−(i−512)/64)) to the nearest integer. -/
def sigmoid (i : Nat) : Nat :=
  if 512 ≤ i then let e := expFix (i - 512); nearest (65536 * e) (e + 2 ^ 96)
  else nearest (65536 * 2 ^ 96) (expFix (512 - i) + 2 ^ 96)

/-! ## The update rule (R278) -/

def Cell.spin (c : Cell) : Int := if c.up then 1 else -1

/-- The state of an array cell among loaded cells; a void cell reads −1. -/
def spinAt (cs : List Cell) (cell : Nat) : Int :=
  match cs.find? fun c => c.cell == cell with
  | some c => c.spin
  | none => -1

/-- H of a cell, with its neighbours' states from `cs`. -/
def Cell.field (c : Cell) (cs : List Cell) : Int :=
  c.bias + 256 * (c.cpl.foldl (fun a p => a + p.1 * spinAt cs p.2) 0)

/-- Floor of m · 2^e. -/
def floorScaled (m e : Int) : Int := if e < 0 then m / ((2 ^ (-e).toNat : Nat) : Int) else m * ((2 ^ e.toNat : Nat) : Int)

/-- The table index for an inverse temperature ±m · 2^e: Floor(64·β·2^(TSC−8)·H) + 512, cut to the table. -/
def Cell.index (c : Cell) (cs : List Cell) (neg : Bool) (m : Nat) (e : Int) : Nat :=
  let b : Int := if neg then -(m : Int) else m
  (max 0 (min 1023 (floorScaled (b * c.field cs) (e + c.tsc - 2) + 512))).toNat

/-! ## Operands and order (R281) -/

/-- A trap of an array command: the window index and the reason. -/
def arrayTrap {α : Type} (cell reason : Nat) : Res α := .error (.trap .operand 0 (cell % 2 ^ 18 + 2 ^ 20 * reason))

def arrayCheck (b : Bool) (cell reason : Nat) : Res Unit := if b then .ok () else arrayTrap cell reason

/-- The command waits behind every accepted command on its window, from any group of the tenant. -/
def State.windowFree (s : State) (tenant w : Nat) : Res Unit :=
  if s.gbcmds.any fun q => q.tenant == tenant && q.window == w then .error (.wait (.window w)) else .ok ()

/-- The enabled window that an operand names, once the window is free; `undefined` tells that an undefined bit is set. -/
def State.commandWindow (s : State) (c : Ctx) (w : Nat) (undefined : Bool) : Res Window := do
  s.windowFree c.l.tenant w
  ensure (!undefined) .operand
  match (s.tenant c.l.tenant).window? w with
  | some x => .ok x
  | none => trapNow .operand

/-- Another block of a deterministic launch owns the window (R281). -/
def State.ownedWindow (s : State) (c : Ctx) (w : Nat) : Res Unit :=
  ensure (!(c.l.det && s.blocks.any fun b => b.launch == c.l.uid && b.id != c.b.id && b.windows.contains w)) .determinism

/-- The block of a deterministic launch comes to own the window. -/
def State.own (s : State) (c : Ctx) (w : Nat) : State :=
  if c.l.det then s.updBlock c.b.id fun b => { b with windows := setInsert w b.windows } else s

/-- The descriptor that an operand names. -/
def Ctx.arrayDesc (c : Ctx) (a : Word) : Res Desc :=
  match c.b.tid? (nbits a.toNat 5 0) with
  | some d => .ok d
  | none => trapNow .operand

/-- The words of a tensor, checked and read at the step that the descriptor names; they follow the group's own updates of their
bytes and show its posted stores (R313, R316). -/
def State.readWords (s : State) (c : Ctx) (d : Desc) (coords : List (Vector Int 5)) : Res (List Nat × List Piece) := do
  let ps ← coords.mapM fun p => plainVersion (s.readPieces c (d.step c.g.step32) (d.addrOf p) 4)
  s.readyPieces c 0 ps.flatten
  .ok (ps.map fun p => leNat (p.flatMap fun q => s.ownBytes c.g q.place q.n), ps.flatten)

/-! ## `gbload` (R276, R277, R282) -/

/-- The words of a record as a cell of the window, when no field is reserved or out of range. -/
def cellOf (w : Window) (index : Nat) (ws : List Nat) : Option Cell :=
  let w0 := ws.getD 0 0
  let n := nbits w0 24 19
  let cs := ws.drop 1
  if 32 < n || (cs.take n).any (fun x => nbits x 31 26 != 0) || (cs.drop n).any (· != 0) then none
  else some
    { die := w.die, cell := w.first + index, tsc := readInt true 6 (nbits w0 31 26), up := nbits w0 25 25 == 1
      col := nbits w0 18 16, bias := readInt true 16 (nbits w0 15 0)
      cpl := (cs.take n).map fun x => (readInt true 8 (nbits x 25 18), w.first + nbits x 17 0), clamp := false }

/-- Step 2 of R282 for one record: `tscs` are the scale exponents that count, with their window indices. -/
def recordCheck (w : Window) (index : Nat) (ws : List Nat) (tscs : List (Nat × Int)) : Res Cell :=
  match cellOf w index ws with
  | none => arrayTrap index 1
  | some c => do
    arrayCheck (c.cpl.all fun p => decide (p.2 < w.first + w.size)) index 2
    arrayCheck (tscs.all fun t => t.1 / 256 != index / 256 || t.2 == c.tsc) index 4
    .ok c

/-- Step 2 over all records, from window index `index` upwards. -/
def recordChecks (w : Window) (tscs : List (Nat × Int)) : Nat → List (List Nat) → Res (List Cell)
  | _, [] => .ok []
  | index, ws :: rest => do
    let c ← recordCheck w index ws tscs
    let cs ← recordChecks w tscs (index + 1) rest
    pure (c :: cs)

/-- The array cells at both ends of improper couplings from or to a new cell, given all loaded cells (R277). -/
def improper (all new : List Cell) : List Nat :=
  all.flatMap fun c => c.cpl.flatMap fun p =>
    match all.find? fun n => n.cell == p.2 with
    | some n =>
      if n.col = c.col ∧ (new.any fun x => x.cell == c.cell || x.cell == n.cell) then [c.cell, n.cell] else []
    | none => []

/-- Loaded cells with some replaced or added. -/
def replaceCells (old new : List Cell) : List Cell :=
  (old.filter fun c => !new.any fun n => n.die == c.die && n.cell == c.cell) ++ new

def execGbload (a b : BitVec 6) (s : State) : Out :=
  s.scalarCtx fun c => do
    let xa := c.g.getX a
    let xb := (c.g.getX b).toNat
    let w ← s.commandWindow c (nbits xb 21 20) (nbits xa.toNat 63 6 != 0 || nbits xb 63 22 != 0 || nbits xb 19 18 != 0)
    s.ownedWindow c w.num
    let d ← c.arrayDesc xa
    let fc := nbits xb 17 0
    ensure (d.fmt == 2 && d.rank == 2 && d.ext[0] == 33) .operand
    arrayCheck (decide (fc + d.ext[1] ≤ w.size)) fc 2
    let r ← s.readWords c d ((stepsBelow d.ext[1] 1).flatMap fun j => (stepsBelow 33 1).map fun i => coord2 i j)
    let recs := blocksOf 33 d.ext[1] r.1
    let old := s.windowCells w
    let kept := old.filter fun x => decide (x.cell < w.first + fc) || decide (w.first + fc + d.ext[1] ≤ x.cell)
    let tscs := (kept.map fun x => (x.cell - w.first, x.tsc)) ++
      (List.zip (List.range recs.length) recs).map fun q => (fc + q.1, readInt true 6 (nbits (q.2.getD 0 0) 31 26))
    let new ← recordChecks w tscs fc recs
    match leastOf (improper (kept ++ new) new) with
    | some x => arrayTrap (x - w.first) 3
    | none =>
      let s1 := s.touchPieces (some c.g.ref) r.2
      ({ s1 with cells := replaceCells s1.cells new }.own c w.num).done fun g => g.advance.close

/-! ## `gbclamp` (R283) -/

/-- The checks of the entries in order. -/
def State.clampChecks (s : State) (w : Window) : List Nat → Res Unit
  | [] => .ok ()
  | e :: rest => do
    let cell := nbits e 17 0
    arrayCheck (nbits e 31 30 == 0 && nbits e 27 18 == 0) cell 1
    arrayCheck (decide (cell < w.size)) cell 2
    arrayCheck (s.windowCell w cell).isSome cell 5
    s.clampChecks w rest

/-- A clamp operation on a cell: 0 releases, 1 clamps to −1, 2 to +1, 3 at the current state. -/
def Cell.clampOp (c : Cell) (op : Nat) : Cell :=
  match op with
  | 0 => { c with clamp := false }
  | 1 => { c with clamp := true, up := false }
  | 2 => { c with clamp := true, up := true }
  | _ => { c with clamp := true }

/-- One entry applied. -/
def State.applyClamp (s : State) (w : Window) (e : Nat) : State :=
  { s with cells := s.cells.map fun c =>
      if c.die = w.die ∧ c.cell = w.first + nbits e 17 0 then c.clampOp (nbits e 29 28) else c }

def execGbclamp (a b : BitVec 6) (s : State) : Out :=
  s.scalarCtx fun c => do
    let xa := c.g.getX a
    let xb := (c.g.getX b).toNat
    let w ← s.commandWindow c (nbits xb 21 20) (nbits xa.toNat 63 6 != 0 || nbits xb 63 22 != 0 || nbits xb 19 0 != 0)
    s.ownedWindow c w.num
    let d ← c.arrayDesc xa
    ensure (d.fmt == 2 && d.rank == 1) .operand
    let r ← s.readWords c d ((stepsBelow d.ext[0] 1).map fun i => coord2 i 0)
    s.clampChecks w r.1
    let s1 := s.touchPieces (some c.g.ref) r.2
    ((r.1.foldl (fun (s : State) e => s.applyClamp w e) s1).own c w.num).done fun g => g.advance.close

/-! ## `gbsweep` (R280, R284) -/

/-- The lowest window index of a cell that holds a dangling coupling. -/
def State.dangling (s : State) (w : Window) : Option Nat :=
  let cs := s.windowCells w
  leastOf ((cs.filter fun c => c.cpl.any fun p => !cs.any fun n => n.cell == p.2).map fun c => c.cell - w.first)

/-- A command joins the accepted ones. -/
def State.acceptArray (s : State) (c : Ctx) (w : Window) (work : GbWork) : State :=
  let q : GbCmd := ⟨s.nextId, c.g.ref, c.l.tenant, w.num, work⟩
  { s with nextId := s.nextId + 1, gbcmds := s.gbcmds ++ [q] }.own c w.num

def execGbsweep (a : BitVec 6) (s : State) : Out :=
  s.scalarCtx fun c => do
    let x := (c.g.getX a).toNat
    if !c.g.segs.isEmpty then throw (.wait (.sweepDrain (nbits x 21 20)))
    s.settled c
    let w ← s.commandWindow c (nbits x 21 20) (nbits x 62 48 != 0 || nbits x 31 22 != 0 || nbits x 19 16 != 0)
    s.ownedWindow c w.num
    let beta := nbits x 15 0
    arrayCheck (match fp16.decode beta with | .fin _ _ _ => true | _ => false) 0 1
    match s.dangling w with
    | some i => arrayTrap i 5
    | none =>
      let n := nbits x 47 32 + 1
      let work : GbWork := .sweep (BitVec.ofNat 16 beta) n (c.l.det || nbits x 63 63 == 1) c.g.genK c.g.genB
      (s.acceptArray c w work).done fun g => (g.advanceB n).advance.close

/-- The draw of a cell in a sweep: from the sweep key, or from the tile's physical noise (R280, log 6). -/
def drawOf (arch : Bool) (key : Word) (index free : Nat) : Nat :=
  if arch then (mix key (BitVec.ofNat 64 index)).toNat / 2 ^ 48 else (Config.fastDraw free).toNat

/-- One phase over the cells `cs`, whose states at its start are `s0`: new cells, the free index behind, and the number of
changes. `failed` are the tiles that take architected draws. -/
def phase (w : Window) (s0 : List Cell) (col : Nat) (neg : Bool) (m : Nat) (e : Int) (arch : Bool) (failed : List Nat)
    (key : Word) : List Cell → Nat → List Cell × Nat × Nat
  | [], free => ([], free, 0)
  | c :: rest, free =>
    if c.col ≠ col ∨ c.clamp then
      let r := phase w s0 col neg m e arch failed key rest free
      (c :: r.1, r.2)
    else
      let byKey := arch || failed.contains (c.cell / 256)
      let up := decide (drawOf byKey key (c.cell - w.first) free < sigmoid (c.index s0 neg m e))
      let r := phase w s0 col neg m e arch failed key rest (if byKey then free else free + 1)
      ({ c with up := up } :: r.1, r.2.1, r.2.2 + (if up = c.up then 0 else 1))

/-- The colours from `col` upwards. -/
def colours (w : Window) (neg : Bool) (m : Nat) (e : Int) (arch : Bool) (failed : List Nat) (key : Word) :
    List Nat → List Cell → Nat → List Cell × Nat × Nat
  | [], cs, free => (cs, free, 0)
  | col :: rest, cs, free =>
    let p := phase w cs col neg m e arch failed key cs free
    let r := colours w neg m e arch failed key rest p.1 p.2.1
    (r.1, r.2.1, p.2.2 + r.2.2)

/-- Tiles of the window whose noise source fails its test in this sweep (R280). -/
def failingTiles (w : Window) (failed : List Nat) (free : Nat) : List Nat :=
  (List.range (w.size / 256)).filterMap fun i =>
    let t := w.first / 256 + i
    if failed.contains t then none else if Config.noiseFails (free + i) then some t else none

/-- What the sweeps of a command come to. -/
structure Swept where
  cells : List Cell
  free : Nat
  changes : Nat
  failures : Nat
  deriving DecidableEq, Repr

/-- The sweeps from number `i` upwards. -/
def sweeps (w : Window) (beta : BitVec 16) (arch : Bool) (k b : Word) : Nat → Nat → List Nat → Swept → Swept
  | 0, _, _, r => r
  | n + 1, i, failed, r =>
    let new := if arch then [] else failingTiles w failed r.free
    let free := if arch then r.free else r.free + w.size / 256
    let failed := failed ++ new
    let key := mix k (b + BitVec.ofNat 64 (32 * i))
    let (neg, m, e) := match fp16.decode beta.toNat with
      | .fin neg m e => (neg, m, e)
      | _ => (false, 0, 0)
    let p := colours w neg m e arch failed key (List.range 8) r.cells free
    sweeps w beta arch k b n (i + 1) failed ⟨p.1, p.2.1, r.changes + p.2.2, r.failures + new.length⟩

def bump (v : Vector Nat 4) (i n : Nat) : Vector Nat 4 := v.setIfInBounds i (v[i]?.getD 0 + n)

def State.gbcmd? (s : State) (id : Nat) : Option GbCmd := s.gbcmds.find? fun q => q.id == id

def State.dropGb (s : State) (id : Nat) : State := { s with gbcmds := s.gbcmds.filter fun q => q.id != id }

/-- SWEEP_RUN: an accepted `gbsweep` is performed. -/
def execSweepRun (id : Nat) (s : State) : Out :=
  match s.gbcmd? id with
  | some ⟨_, _, tenant, num, .sweep beta n arch k b⟩ =>
    match (s.tenant tenant).window? num with
    | some w =>
      let r := sweeps w beta arch k b n 0 [] ⟨s.windowCells w, s.freeIx, 0, 0⟩
      let s1 := { s with cells := replaceCells s.cells r.cells, freeIx := r.free }
      .next ((s1.updTenant tenant fun t =>
        { t with sweeps := bump t.sweeps num n, changes := bump t.changes num r.changes
                 noise := bump t.noise num r.failures }).dropGb id)
    | none => .next (s.dropGb id)
  | _ => .next s

/-! ## `gbread` (R285) -/

/-- The command is accepted, and the scalar stream waits until the bytes are written. -/
def execGbread (a b : BitVec 6) (s : State) : Out :=
  s.scalarCtx fun c => do
    let xa := c.g.getX a
    let xb := (c.g.getX b).toNat
    let w ← s.commandWindow c (nbits xb 21 20) (nbits xa.toNat 63 6 != 0 || nbits xb 63 22 != 0 || nbits xb 19 18 != 0)
    s.ownedWindow c w.num
    let fc := nbits xb 17 0
    arrayCheck (decide (fc % 8 = 0)) fc 1
    let d ← c.arrayDesc xa
    ensure (d.fmt == 0 && d.rank == 1) .operand
    arrayCheck (decide (fc + 8 * d.ext[0] ≤ w.size)) fc 2
    ensure (d.vsel == 0) .operand
    let ps ← (stepsBelow d.ext[0] 1).mapM fun j => s.movePieces c false .store (some (d.addrOf (coord2 j 0))) 1
    let ps := ps.flatten
    let pages ← plainVersion (s.gateMoves c.l.tenant c.g.step32 ps)
    ps.forM fun p => s.wayTo p.tgt
    ((s.cowAll c.l.tenant c.g.step32 pages).acceptArray c w (.read d fc (heldOf none ps))).done fun g =>
      g.advance.close.await none .stateWrite

/-- Byte `j` of the destination. -/
def State.stateByte (s : State) (w : Window) (fc j : Nat) : Byte :=
  BitVec.ofNat 8 ((List.range 8).foldl (fun n b =>
    match s.windowCell w (fc + 8 * j + b) with
    | some c => n + boolNat c.up * 2 ^ b
    | none => n) 0)

/-- The scalar stream of a `gbread` goes on. -/
def Group.stateWritten (g : Group) : Group := if g.swait = some .stateWrite then { g with swait := none } else g

/-- The bytes that a `gbread` writes. -/
def State.statePuts (s : State) (w : Window) (d : Desc) (fc : Nat) (held : Held) : List Put :=
  (List.range d.ext[0]).flatMap fun j =>
    (held.range (d.addrOf (coord2 (j : Nat) 0)) 1).map fun p => ⟨p.1, [s.stateByte w fc j], []⟩

/-- What holds the accepted `gbread` of a group: an owner, a peer in recovery or a link on the way to its destination, or an operation
of the group before it (R214, R316, R332, R376). -/
def State.stateWriteWait (s : State) (r : GroupRef) : Option Wait :=
  s.gbcmds.findSome? fun q => match q.work with
    | .read _ _ held => if q.grp ≠ r then none else if s.behindPosted r q.id then some .engines else match s.heldReady held with
      | .error (.wait w) => some w
      | _ => none
    | .sweep .. => none

/-- STATE_WRITE: the states are written, granules become full, and the scalar stream goes on. -/
def execStateWrite (id : Nat) (s : State) : Out :=
  match s.gbcmd? id with
  | some ⟨_, r, tenant, num, .read d fc held⟩ =>
    match (s.tenant tenant).window? num with
    | some w =>
      if s.behindPosted r id then .next s
      else match s.heldReady held with
        | .ok _ =>
          let puts := s.statePuts w d fc held
          let s1 := (s.putAll puts).fillAll (putGranules (puts.map fun u => (u.place, u.bytes.length)))
          .next ((s1.updGroup r Group.stateWritten).dropGb id)
        | .error (.trap _ addr _) =>
          let tpc := match s.group? r with
            | some g => g.scalarTpc
            | none => 0
          .next (((s.updGroup r Group.stateWritten).dropGb id).detectTrap r ⟨.mcheck, tpc, addr, 3, s.aoc⟩)
        | .error _ => .next s
    | none => .next (s.dropGb id)
  | _ => .next s

/-! ## `gbstat` (R286) -/

def execGbstat (d a : BitVec 6) (s : State) : Out :=
  s.scalarCtx fun c => do
    let x := (c.g.getX a).toNat
    let num := nbits x 21 20
    let w ← s.commandWindow c num (nbits x 63 22 != 0 || nbits x 19 4 != 0)
    let sel := nbits x 3 0
    ensure (decide (sel ≤ 5)) .operand
    let t := s.tenant c.l.tenant
    let cs := s.windowCells w
    let v : Word := match sel with
      | 0 => t.leases[num]?.getD 0
      | 1 => BitVec.ofNat 64 (t.sweeps[num]?.getD 0)
      | 2 => BitVec.ofNat 64 (t.changes[num]?.getD 0)
      | 3 => BitVec.ofNat 64 ((cs.flatMap fun c => c.cpl.filter fun p => !cs.any fun n => n.cell == p.2).length)
      | 4 => BitVec.ofNat 64 cs.length
      | _ => BitVec.ofNat 64 (t.noise[num]?.getD 0)
    s.done fun g => (g.setX d v).advance

end Sys2Proof.Machine
end

