-- ==== Sys2Proof/Machine/Versions.lean ====
section
/-! DEFINITION. Publishing and retiring versions (R323 to R329), the snapshot engine's copies (R218) and the return of pool
pages (R328). -/

namespace Sys2Proof.Machine

open Sys2Proof

/-! ## The span of a tensor (R325) -/

/-- The virtual page numbers that a list of ranges touches, rising. -/
def pagesOf (us : List (Word × Nat)) : List Nat :=
  us.foldl (fun l u => setInsertAll (unitsOf pageSize u.1.toNat u.2) l) []

/-- Lowest and highest address of units, as a range of bytes. -/
def rangeOf (us : List (Word × Nat)) : Option (Nat × Nat) :=
  us.foldl (fun (r : Option (Nat × Nat)) u => match r with
    | none => some (u.1.toNat, u.1.toNat + u.2)
    | some (a, b) => some (min a u.1.toNat, max b (u.1.toNat + u.2))) none

/-- The span: from the lowest to the highest element byte, and likewise for the scale area. -/
def Desc.spans (d : Desc) : List (Nat × Nat) :=
  let k := max (fmtBlockLen d.fmt) 1
  let elems := (d.coords k).filterMap fun c => (d.unitAddr c .bytes).map fun a => (a, d.unitBytes .bytes)
  (rangeOf elems).toList ++ (rangeOf (d.units.drop elems.length)).toList

/-- Virtual page numbers of the span, each once, rising. -/
def Desc.spanPages (d : Desc) : List Nat :=
  d.spans.foldl (fun l r => setInsertAll (unitsOf pageSize r.1 (r.2 - r.1)) l) []

/-! ## `vpub` (R325, R326) -/

/-- The leaf of each page of the span; a failure reports the page's base address. -/
def State.spanLeaves (s : State) (tenant : Nat) : List Nat → Res (List (Nat × Leaf))
  | [] => .ok []
  | n :: rest => do
    let va : Word := BitVec.ofNat 64 (n * pageSize)
    let l ← s.translate tenant .load va 1
    let ls ← s.spanLeaves tenant rest
    pure ((n, l) :: ls)

/-- The field: page keys with the base addresses of their pages. -/
def Desc.field (d : Desc) (ls : List (Nat × Leaf)) : List (Nat × Word) :=
  let own := pagesOf d.units
  ls.filterMap fun l => if l.2.versioned && own.contains l.1 then some (l.2.pageKey, BitVec.ofNat 64 (l.1 * pageSize)) else none

/-- Page keys that a kick's records write, until the kick has completed. -/
def State.kickPages (s : State) (k : Kick) : List Nat :=
  (k.recs.flatMap CopyRec.moves).flatMap fun m => match m.dst with
    | some va => (pieces va m.n).filterMap fun (a, n) =>
      if inWindowRange a then none
      else match s.translate k.tenant .store a n with
        | .ok l => some l.pageKey
        | .error _ => none
    | none => []

/-- Page keys among held pages. -/
def Held.pages (h : Held) : List Nat := h.filterMap fun e => match e.place with
  | .phys k => some k
  | .sp _ _ => none

def MCmd.writes : MCmd → List Nat
  | .loop _ _ recs _ _ => recs.flatMap fun r => r.cheld.pages
  | _ => []

/-- Page keys that a collective writes: its destination and the phaser of its arrival. -/
def Coll.writes (q : Coll) : List Nat :=
  q.dheld.pages ++ match q.rph with
    | some (_, .phys k, _) => [k / pageSize * pageSize]
    | _ => []

/-- An accepted engine command of the tenant may write a page of the field (R326), or a posted operation that has passed its
check of PUB is still to be performed there (R218, R390; log 42). -/
def State.fieldBusy (s : State) (tenant : Nat) (field : List Nat) : Bool :=
  let hits (ps : List Nat) : Bool := ps.any fun p => field.contains p
  (s.kicks.any fun k => k.tenant == tenant && hits (s.kickPages k)) ||
  (s.groups.any fun g => s.tenantOf g == tenant && g.mcmds.any fun m => hits m.writes) ||
  (s.colls.any fun q => q.tenant == tenant && hits q.writes) ||
  (s.gbcmds.any fun q => q.tenant == tenant && match q.work with
    | .read _ _ held => hits held.pages
    | .sweep .. => false) ||
  s.arrivals.any fun a => hits a.pages

/-- The version code of a page that cannot be published as step `q`. -/
def Version.publishFault (v : Version) (q : Word32) : Option Nat :=
  if v.pub && v.cur == q then none
  else if v.rset.any fun r => r.step == q then some 4
  else if v.pub && v.rset.length == 4 then some 2
  else none

/-- A page published as step `q`; its old published step becomes tied (R322, R326), with its mark when it has been retired
(R328). -/
def Version.publish (v : Version) (q : Word32) : Version :=
  if v.pub ∧ v.cur = q then v
  else if v.pub then { v with rset := v.rset ++ [⟨v.cur, none, v.retired⟩], cur := q, retired := false }
  else { v with cur := q, pub := true, retired := false }

/-- The fourth check of R325, page by page. -/
def State.publishChecks (s : State) (tenant : Nat) (q : Word32) (field : List (Nat × Word)) : Res Unit :=
  field.forM fun p => match (s.version tenant p.1).publishFault q with
    | some code => .error (.trap .version p.2 (32 * code))
    | none => .ok ()

def execVpub (a b : BitVec 6) (s : State) : Out :=
  s.scalarCtx fun c => do
    c.g.drained
    s.settled c
    let xa := (c.g.getX a).toNat
    let xb := (c.g.getX b).toNat
    let q : Word32 := BitVec.ofNat 32 xb
    ensure (nbits xa 63 6 == 0 && nbits xb 63 32 == 0) .operand
    if s.commandsOf c.g.ref then .error (.wait .engines)
    else match c.b.tid? xa with
      | none => trapNow .operand
      | some d => do
        ensure (d.vsel == 0 && !(d.spans.any fun r => decide (r.1 < windowEnd) && decide (windowBase < r.2))) .operand
        let pages := d.spanPages
        ensure (decide (pages.length ≤ 65536)) .operand
        let leaves ← s.spanLeaves c.l.tenant pages
        let field := d.field leaves
        if s.fieldBusy c.l.tenant (field.map (·.1)) then .error (.wait .engines)
        else do
          s.publishChecks c.l.tenant q field
          let s1 := field.foldl (fun (s : State) p => s.setVersion ((s.version c.l.tenant p.1).publish q)) s
          s1.done fun g => g.advance.close

/-! ## `vret` (R328) -/

/-- The accepted commands with the pages that they read. -/
def State.commandReads (s : State) : List (Nat × Held) :=
  (s.groups.flatMap fun g => g.mcmds.map fun m => (m.id, m.heldReads)) ++ s.colls.map fun q => (q.id, q.sheld)

/-- A versioned page of a tenant: it lies in its memory window, which may overlap another tenant's (R219, R377; log 30). -/
def State.ownsPage (s : State) (tenant page : Nat) : Bool := (s.tenant tenant).inWindow page pageSize

/-- A read of step `n` in a page of the tenant that a command, accepted before the number `before`, has resolved is still under way
(R220, R328). -/
def State.readsUnderWay (s : State) (tenant : Nat) (n : Word32) (before : Nat) : Bool :=
  s.commandReads.any fun q => decide (q.1 < before) && q.2.any fun h => h.step == some n && s.ownsPage tenant h.page

/-- The pool pages that retained entries refer to. -/
def State.copiesOf (s : State) : List Nat := s.versions.flatMap fun v => v.rset.filterMap (·.copy)

/-- A page's entry without step `n`; a page whose current step it is keeps it for its live content until the page's next
copy-on-write (R328). -/
def Version.retire (v : Version) (n : Word32) : Version :=
  { v with rset := v.rset.filter fun r => r.step != n, retired := v.retired || v.cur == n }

/-- The retire instant: step `n` leaves every versioned page of the tenant, and the pool pages that no entry refers to any more
are on their way back. -/
def State.retireStep (s : State) (tenant : Nat) (n : Word32) : State :=
  let before := s.copiesOf
  let s1 : State := { s with versions := s.versions.map fun (v : Version) => if s.ownsPage tenant v.page then v.retire n else v }
  let gone := before.filter fun p => !s1.copiesOf.contains p
  { s1 with returning := s1.returning ++ gone.eraseDups.map fun p => (tenant, p) }

/-- The pool pages on their way back that no command reads and no waiting `vret` keeps are free again (R328). -/
def State.mayReturn (s : State) (tenant page : Nat) : Bool :=
  !(s.stepReads.any fun h => h.place == .phys page) &&
  s.groups.all fun g => match g.swait with
    | some (.reads n before) => s.tenantOf g != tenant || !s.readsUnderWay tenant n before
    | _ => true

/-- The pages of a tenant that may return do so. -/
def State.returnPages (s : State) (tenant : Nat) : State :=
  { s with returning := s.returning.filter fun p => p.1 != tenant || !s.mayReturn p.1 p.2 }

/-- `vret` takes effect at its retire instant, and then waits for the reads resolved before it; when it is issued again in that
wait, it retires nothing more. -/
def execVret (a : BitVec 6) (s : State) : Out :=
  s.scalarCtx fun c => do
    c.g.drained
    match c.g.swait with
    | some (.reads n before) =>
      if s.readsUnderWay c.l.tenant n before then .error (.wait (.reads n before))
      else s.done Group.advance
    | _ => do
      let x := (c.g.getX a).toNat
      ensure (nbits x 63 32 == 0) .operand
      let n : Word32 := BitVec.ofNat 32 x
      let s1 := s.retireStep c.l.tenant n
      if s1.readsUnderWay c.l.tenant n s.nextId then .ok (s1.updGroup c.g.ref fun g => g.close.await none (.reads n s.nextId))
      else (s1.returnPages c.l.tenant).done fun g => g.advance.close

/-- POOL_PAGE_RETURN: the reads of a retired step have completed, and its page is free again. -/
def execPoolPageReturn (tenant page : Nat) (s : State) : Out :=
  if s.mayReturn tenant page then .next { s with returning := s.returning.filter fun p => p != (tenant, page) } else .next s

/-! ## `vstep` (R324) -/

def execVstep (a : BitVec 6) (s : State) : Out :=
  s.scalarCtx fun c => do
    c.g.drained
    let x := (c.g.getX a).toNat
    ensure (nbits x 63 32 == 0) .operand
    if s.kicks.any fun k => k.grp == c.g.ref then .error (.wait .engines)
    else s.done fun g => { g with vstep := BitVec.ofNat 64 x }.advance

/-! ## COPY_ON_WRITE (R218) -/

/-- The snapshot engine ends a copy: the page's content in a pool page, and the table's update; the waiting stores issue
again and find the page unpublished. -/
def execCopyOnWrite (page : Nat) (s : State) : Out :=
  match s.cows.find? fun w => w.page == page with
  | none => .next s
  | some w => .next (s.endCopy w)

end Sys2Proof.Machine
end

