-- ==== Sys2Proof/Machine/Collective.lean ====
section
/-! DEFINITION. The collective engine (R333 to R338, R42, R43). -/

namespace Sys2Proof.Machine

open Sys2Proof

/-! ## The record (R333) -/

structure CollFields where
  kind : Nat
  stid : Nat
  dtid : Nat
  dfmt : Nat
  n : Nat
  seq : Nat
  baroff : Nat
  runits : Nat
  gtab : Nat
  rph : Nat
  reserved : Bool
  deriving DecidableEq, Repr

def CollFields.ofBytes (l : List Byte) : CollFields :=
  let f (i n : Nat) : Nat := leNat ((l.drop i).take n)
  { kind := f 0 1, stid := f 1 1, dtid := f 2 1, dfmt := f 3 1, n := f 4 2, seq := f 6 2, baroff := f 8 4, runits := f 12 2
    gtab := f 0x10 8, rph := f 0x18 8, reserved := f 14 2 != 0 || (l.drop 0x20).any (· != 0) }

/-- The first check of R334: reserved fields and values, fields that the kind does not use, and the barrier object. -/
def CollFields.ok (r : CollFields) (scratch : Nat) : Bool :=
  !r.reserved && decide (r.stid < 64) && decide (r.dtid < 64) && decide (r.baroff % 16 = 0) &&
  decide (r.baroff + 16 ≤ 1024 * scratch) &&
  (if r.kind = 1 then
    decide (8 ≤ r.dfmt) && decide (r.dfmt ≤ 13) && decide (2 ≤ r.n) && decide (r.n ≤ 1024) && r.runits == 0 && r.rph == 0
  else r.kind == 2 && r.dfmt == 0 && r.n == 0 && r.seq == 0 && r.gtab == 0)

/-- Elements of a tensor. -/
def Desc.count (d : Desc) : Nat := d.ext.foldl (· * ·) 1

/-- The formats of an all-reduce. -/
def reduceFormatsOk (src dst : Desc) (dfmt : Nat) : Bool :=
  decide (8 ≤ src.fmt) && decide (src.fmt ≤ 14) && (if src.fmt = 8 then dfmt == 8 else decide (9 ≤ dfmt)) && src.count == dst.count

/-- The member list. -/
def membersOk (own : Nat) (ms : List Nat) : Bool :=
  ms.eraseDups.length == ms.length && (ms.all fun m => decide (m ≤ 1023)) && ms.contains own

/-! ## Units of the tensors -/

/-- The units that an all-reduce writes, in canonical order. -/
def Desc.elements (d : Desc) : List (Word × Nat) :=
  (d.coords 1).map fun c => match d.locate c with
    | .elem a n _ _ _ => (a, n)
    | _ => (d.base, 0)

/-- Bytes that a collective announces at its barrier: the destination's element bytes (R334). -/
def collBytes (dst : Desc) : Nat := dst.units.foldl (fun n u => n + u.2) 0

/-! ## `coll` (R334) -/

/-- Collectives that a core's groups have accepted. -/
def State.collsOn (s : State) (core : Nat) : Nat := (s.colls.filter fun q => q.core == core).length

/-- The member list that a record names. -/
def State.readMembers (s : State) (c : Ctx) (r : CollFields) : Res (List Nat × List Piece) := do
  let va : Word := BitVec.ofNat 64 r.gtab
  ensure (decide (r.gtab % 2 = 0)) .align va
  let ps ← s.readPieces c none va (2 * r.n)
  s.readyPieces c 0 ps
  let bytes := s.pieceBytes ps
  .ok ((List.range r.n).map fun i => leNat ((bytes.drop (2 * i)).take 2), ps)

/-- Checked pieces of a list of units. -/
def State.collPieces (s : State) (c : Ctx) (k : Access) (us : List (Word × Nat)) : Res (List Piece) := do
  let ps ← us.mapM fun u => s.movePieces c false k (some u.1) u.2
  .ok ps.flatten

/-- The address checks: the windows, every page of both tensors, the source's step, the pages that get data, the phaser. -/
def State.collPages (s : State) (c : Ctx) (r : CollFields) (src dst : Desc) :
    Res (List Piece × List Piece × List Nat × Option (Word × Place × Nat)) := do
  s.windowUnits c true 0 (src.units ++ dst.units)
  let sp ← s.collPieces c .load src.units
  let dp ← s.collPieces c .store dst.units
  let sp ← sp.mapM fun p => match s.stepPlace c.l.tenant (src.step c.g.step32) p.tgt with
    | some pl => .ok { p with place := pl }
    | none => .error (.trap .version p.va 32)
  let data ← s.collPieces c .store (dataUnits (r.kind == 1) src dst)
  let pages ← s.gateMoves c.l.tenant c.g.step32 data
  if r.rph = 0 then
    (sp ++ dp).forM fun p => s.wayTo p.tgt
    .ok (sp, dp, pages, none)
  else
    let va : Word := BitVec.ofNat 64 r.rph
    let t ← s.objectTarget c .store va
    let pages ← s.gateMoves c.l.tenant c.g.step32 (data ++ [⟨va, 16, t, t.place⟩])
    (sp ++ dp).forM fun p => s.wayTo p.tgt
    s.wayTo t
    .ok (sp, dp, pages, some (va, t.place, t.attr))

def execColl (a : BitVec 6) (s : State) : Out :=
  s.scalarCtx fun c => do
    c.g.drained
    s.settled c
    if s.commandsOf c.g.ref then .error (.wait .engines)
    else if 8 ≤ s.collsOn c.g.core then .error (.wait .engineRoom)
    else
      let va := c.g.getX a
      ensure (decide (va.toNat % 64 = 0)) .align
      match c.blockOffset va 64 with
      | none => trapNow .operand
      | some off => do
        let r := CollFields.ofBytes (← s.recordBytes c off 64)
        ensure (r.ok c.l.scratch) .operand
        match c.b.tid? r.stid, c.b.tid? r.dtid with
        | some src, some dst => do
          ensure (dst.vsel == 0) .operand
          ensure (r.kind == 2 || reduceFormatsOk src dst r.dfmt) .operand
          let (ms, mp) ← if r.kind = 1 then plainVersion (s.readMembers c r) else pure ([], [])
          ensure (r.kind == 2 || membersOk s.mgmt.uaId ms) .operand
          ensure (r.kind == 1 || !boxOut src dst zero5) .operand
          let (sp, dp, pages, rph) ← plainVersion (s.collPages c r src dst)
          let q : Coll :=
            { id := s.nextId, grp := c.g.ref, core := c.g.core, tenant := c.l.tenant, pc := c.g.pc.extractLsb' 0 32
              reduce := r.kind == 1, src := src, dst := dst, sheld := heldOf (src.step c.g.step32) sp, dheld := heldOf none dp
              dfmt := r.dfmt, members := ms, seq := r.seq, bar := r.baroff, runits := r.runits, rph := rph
              accepted := s.aoc.toNat }
          let s1 := (s.touch (some c.g.ref) false (.sp c.b.id off) 64).touchPieces (some c.g.ref) mp
          let s2 := { s1 with nextId := s.nextId + 1, colls := s1.colls ++ [q] }.cowAll c.l.tenant c.g.step32 pages
          (s2.announce c r.baroff (collBytes dst) .sys).done fun g => g.advance.close
        | _, _ => trapNow .operand

/-! ## Performing collectives (R335, R336) -/

def State.coll? (s : State) (id : Nat) : Option Coll := s.colls.find? fun q => q.id == id

def State.dropColl (s : State) (id : Nat) : State := { s with colls := s.colls.filter fun q => q.id != id }

/-- Peers that hold pages of the collective, and its members. -/
def Coll.peers (q : Coll) : List Nat := ((q.sheld ++ q.dheld).filterMap fun e => match e.place with
  | .phys k => peerOf k
  | .sp _ _ => none) ++ q.members

/-- No peer of the collective is lost or in recovery, its links are enabled, and its pages can be reached (R214, R332, R376). -/
def State.peersUp (s : State) (q : Coll) : Bool :=
  (q.peers.all fun d => d == s.mgmt.uaId || (s.uaLinkOn && !s.lost.contains d && !s.recovering.any fun r => r.1 == d)) &&
  match s.heldReady (q.sheld ++ q.dheld) with
  | .ok _ => true
  | .error _ => false

/-- `n` free bytes at an address (log 16). -/
def freeBytes (free : Nat) (va : Word) (n : Nat) : List Byte := (List.range n).map fun i => Config.freeByte free (va.toNat + i)

/-- Bytes that land at a virtual address of the destination; `taint`: byte by byte, whether a poisoned sector supplied it. -/
def Coll.puts (q : Coll) (va : Word) (bytes : List Byte) (taint : List Bool) : List Put :=
  cutPuts (q.dheld.range va bytes.length) bytes taint

/-- The bytes of a collective reach memory: no full/empty bit changes (R201), no poison is cleared (R354), and a sector that
receives poisoned data is poisoned (log 16). -/
def State.landPuts (s : State) (us : List Put) : State :=
  let s1 := us.foldl (fun (s : State) u => s.writeBytes none u.place u.bytes) s
  (putSectors us).foldl (fun (s : State) p =>
    if us.any fun u => (List.range 32).any fun i => u.taints (p.add i) then s.poisonRange p 1 else s) s1

/-- The collective ends: its sources are read, its bytes written, and what it has announced is counted down. -/
def State.landColl (s : State) (q : Coll) (puts : List Put) : State :=
  (((s.touchUnits q.sheld q.src.units).landPuts puts).updBarrier q.grp.blk q.bar fun b =>
    b.countDown (collBytes q.dst)).dropColl q.id

/-- Byte by byte, whether a unit in held pages lies in a poisoned sector. -/
def State.heldTaint (s : State) (h : Held) (va : Word) (n : Nat) : List Bool :=
  (h.range va n).flatMap fun p => s.taintOf p.1 p.2

/-- The puts of a halo exchange. -/
def State.haloPuts (s : State) (q : Coll) : List Put :=
  (haloMoves q.src q.dst).flatMap fun m => match m.dst with
    | none => []
    | some va => match m.src with
      | some a => q.puts va (s.heldBytes q.sheld a m.n) (s.heldTaint q.sheld a m.n)
      | none => q.puts va (freeBytes s.freeIx va m.n) []

/-- HALO_EXCHANGE: the bytes land, and the arrival at the peer is posted behind them. -/
def execHaloExchange (id : Nat) (s : State) : Out :=
  match s.coll? id with
  | none => .next s
  | some q =>
    if q.reduce || !s.peersUp q then .next s
    else
      let s1 := { s.landColl q (s.haloPuts q) with freeIx := s.freeIx + 1 }
      match q.rph with
      | none => .next s1
      | some (va, obj, attr) =>
        let seg := ((s1.group? q.grp).map (·.segIssued)).getD 0
        let a : Arrival := ⟨s1.nextId, q.grp, q.pc.zeroExtend 64, obj, va, attr, .arrive q.runits, true, seg, false⟩
        .next { s1 with nextId := s1.nextId + 1, arrivals := s1.arrivals ++ [a] }

/-- Bytes of a contribution: an element of the source; FP32 for G4 (R42). -/
def contribBytes (fmt : Nat) : Nat := if fmt = 14 then 4 else fmtBytes fmt

def contribFmt (fmt : Nat) : FFmt := if fmt = 14 then fp32 else fmtOf (Ty.ofCode (BitVec.ofNat 4 fmt))

/-- The device's own contribution for an element, with poison. -/
def State.ownContrib (s : State) (q : Coll) (c : Vector Int 5) : Nat × Bool :=
  let e := s.heldElem q.src q.sheld c
  (if q.src.fmt = 14 then (fp32.ofElem .rn 0 false (e.value 14)).bits else e.code, e.poison)

/-- The canonical tree of R43 over FP64 encodings. -/
def treeSum : Nat → List Nat → Nat
  | 0, l => l.headD 0
  | fuel + 1, l =>
    match l with
    | [] => 0
    | [a] => a
    | l => treeSum fuel (level l)
where
  /-- One level: pairs added, an odd last one carried over. -/
  level : List Nat → List Nat
    | a :: b :: rest => (fp64.add .rn 0 a b).bits :: level rest
    | l => l

/-- The reduction of one element's contributions, by rank (R42, R43, R336). -/
def reduceElem (fmt dfmt : Nat) (vs : List Nat) : Nat :=
  if fmt = 8 then treeSum vs.length vs
  else
    let f := fmtOf (Ty.ofCode (BitVec.ofNat 4 dfmt))
    match blockSum (vs.map fun v => EVal.ofFVal ((contribFmt fmt).decode v)) with
    | .nan => f.canonical
    | .inf n => f.signed n f.infCode
    | .num x => (f.roundOr .rn 0 false x.neg x).bits

/-- Element `e` of a member's bytes. -/
def memberElem (fmt : Nat) (bytes : List Byte) (e : Nat) : Nat :=
  leNat ((bytes.drop (contribBytes fmt * e)).take (contribBytes fmt))

/-- The bytes of a result in the destination's element; where its size is another, the spec does not say which (log 16). -/
def resultBytes (dst : Desc) (dfmt result free : Nat) (va : Word) : List Byte :=
  if fmtBlockLen dst.fmt = 0 ∧ fmtBytes dst.fmt = fmtBytes dfmt then leBytes (fmtBytes dfmt) result
  else freeBytes free va (fmtBytes dst.fmt)

/-- The puts of an all-reduce: `members` holds each rank's contributions in canonical order; the device's own are read. -/
def State.reducePuts (s : State) (q : Coll) (members : List (List Byte)) : List Put :=
  let rank := q.members.idxOf s.mgmt.uaId
  let n := q.src.count
  (List.zip (List.range n) (List.zip (q.src.coords 1) q.dst.elements)).flatMap fun p =>
    let own := s.ownContrib q p.2.1
    let vs := (List.zip (List.range members.length) members).map fun m =>
      if m.1 = rank then own.1 else memberElem q.src.fmt m.2 p.1
    q.puts p.2.2.1 ((resultBytes q.dst q.dfmt (reduceElem q.src.fmt q.dfmt vs) s.freeIx p.2.2.1).take p.2.2.2)
      (List.replicate p.2.2.2 own.2)

/-- ALL_REDUCE: every member has accepted a matching call; the operand brings the other members' contributions. -/
def execAllReduce (id : Nat) (members : List (List Byte)) (s : State) : Out :=
  match s.coll? id with
  | none => .next s
  | some q =>
    let size := contribBytes q.src.fmt * q.src.count
    if !q.reduce || members.length != q.members.length || !(members.all fun m => m.length == size) || !s.peersUp q then .next s
    else .next { s.landColl q (s.reducePuts q members) with freeIx := s.freeIx + 1 }

/-! ## Failure (R337) -/

/-- What a failure's status needs: an all-reduce; the long timeout passed; a lost peer. -/
def State.collFails (s : State) (q : Coll) (status : Nat) : Bool :=
  match status with
  | 1 => q.reduce
  | 2 => q.reduce && (s.tenant q.tenant).xtl != 0 && decide (q.accepted + 1000 * (s.tenant q.tenant).xtl.toNat ≤ s.aoc.toNat)
  | 3 => q.peers.any fun d => s.lost.contains d
  | _ => false

/-- COLLECTIVE_FAILURE: the collective ends as a copy fault does. -/
def execCollectiveFailure (id : Nat) (status : BitVec 3) (s : State) : Out :=
  match s.coll? id with
  | none => .next s
  | some q =>
    if !s.collFails q status.toNat then .next s
    else
      let s1 := s.updBarrier q.grp.blk q.bar fun b => (b.countDown (collBytes q.dst)).fail 0
      .next ((s1.dropColl id).holdTrap q.grp
        ⟨.copy, q.pc.zeroExtend 64, 0, BitVec.ofNat 32 (256 * 4 + 65536 * status.toNat), s.aoc⟩)

end Sys2Proof.Machine
end

