-- ==== Sys2Proof/Machine/Sha.lean ====
section
/-! DEFINITION. SHA-256 as FIPS 180-4 gives it (log 8), which measures containers (R10, R11, R61) and digests outputs (R369). -/

namespace Sys2Proof.Machine

open Sys2Proof

def shaK0 : List Word32 :=
  [0x428A2F98, 0x71374491, 0xB5C0FBCF, 0xE9B5DBA5, 0x3956C25B, 0x59F111F1, 0x923F82A4, 0xAB1C5ED5,
   0xD807AA98, 0x12835B01, 0x243185BE, 0x550C7DC3, 0x72BE5D74, 0x80DEB1FE, 0x9BDC06A7, 0xC19BF174]

def shaK1 : List Word32 :=
  [0xE49B69C1, 0xEFBE4786, 0x0FC19DC6, 0x240CA1CC, 0x2DE92C6F, 0x4A7484AA, 0x5CB0A9DC, 0x76F988DA,
   0x983E5152, 0xA831C66D, 0xB00327C8, 0xBF597FC7, 0xC6E00BF3, 0xD5A79147, 0x06CA6351, 0x14292967]

def shaK2 : List Word32 :=
  [0x27B70A85, 0x2E1B2138, 0x4D2C6DFC, 0x53380D13, 0x650A7354, 0x766A0ABB, 0x81C2C92E, 0x92722C85,
   0xA2BFE8A1, 0xA81A664B, 0xC24B8B70, 0xC76C51A3, 0xD192E819, 0xD6990624, 0xF40E3585, 0x106AA070]

def shaK3 : List Word32 :=
  [0x19A4C116, 0x1E376C08, 0x2748774C, 0x34B0BCB5, 0x391C0CB3, 0x4ED8AA4A, 0x5B9CCA4F, 0x682E6FF3,
   0x748F82EE, 0x78A5636F, 0x84C87814, 0x8CC70208, 0x90BEFFFA, 0xA4506CEB, 0xBEF9A3F7, 0xC67178F2]

def shaK : List Word32 := shaK0 ++ shaK1 ++ shaK2 ++ shaK3

def shaH : List Word32 :=
  [0x6A09E667, 0xBB67AE85, 0x3C6EF372, 0xA54FF53A, 0x510E527F, 0x9B05688C, 0x1F83D9AB, 0x5BE0CD19]

/-- The big-endian number in bytes. -/
def beNat (l : List Byte) : Nat := l.foldl (fun n b => 256 * n + b.toNat) 0

def beBytes (n x : Nat) : List Byte := (leBytes n x).reverse

/-- A message padded to whole blocks of 64 bytes. -/
def shaPad (m : List Byte) : List Byte :=
  m ++ 0x80 :: List.replicate ((119 - m.length % 64) % 64) 0 ++ beBytes 8 (8 * m.length)

/-- The message schedule, latest word first: `n` more words. -/
def shaExpand : Nat → List Word32 → List Word32
  | 0, w => w
  | n + 1, w =>
    let g (i : Nat) : Word32 := w.getD i 0
    let s0 := (g 14).rotateRight 7 ^^^ (g 14).rotateRight 18 ^^^ (g 14 >>> 3)
    let s1 := (g 1).rotateRight 17 ^^^ (g 1).rotateRight 19 ^^^ (g 1 >>> 10)
    shaExpand n ((g 15 + s0 + g 6 + s1) :: w)

/-- One round on the eight working variables. -/
def shaRound (v : List Word32) (kw : Word32 × Word32) : List Word32 :=
  let g (i : Nat) : Word32 := v.getD i 0
  let a := g 0
  let e := g 4
  let t1 := g 7 + (e.rotateRight 6 ^^^ e.rotateRight 11 ^^^ e.rotateRight 25) + ((e &&& g 5) ^^^ (~~~e &&& g 6)) + kw.1 + kw.2
  let t2 := (a.rotateRight 2 ^^^ a.rotateRight 13 ^^^ a.rotateRight 22) + ((a &&& g 1) ^^^ (a &&& g 2) ^^^ (g 1 &&& g 2))
  [t1 + t2, a, g 1, g 2, g 3 + t1, e, g 5, g 6]

/-- One block into the hash value. -/
def shaBlock (h : List Word32) (block : List Byte) : List Word32 :=
  let w0 := (List.range 16).map fun i => BitVec.ofNat 32 (beNat ((block.drop (4 * i)).take 4))
  let w := (shaExpand 48 w0.reverse).reverse
  List.zipWith (· + ·) h ((List.zip shaK w).foldl shaRound h)

/-- `n` blocks. -/
def shaBlocks : Nat → List Word32 → List Byte → List Word32
  | 0, h, _ => h
  | n + 1, h, m => shaBlocks n (shaBlock h (m.take 64)) (m.drop 64)

/-- The 32 bytes of the digest. -/
def sha256 (m : List Byte) : List Byte :=
  let p := shaPad m
  (shaBlocks (p.length / 64) shaH p).flatMap fun w => beBytes 4 w.toNat

end Sys2Proof.Machine
end

