-- ==== Sys2Proof/Machine/Lms.lean ====
section
/-! DEFINITION. Checking LMS signatures as RFC 8554 gives it, for the parameter sets of R8 alone: LMS_SHA256_M32_H10,
LMOTS_SHA256_N32_W4, and HSS of one or two levels (R14; log 8). -/

namespace Sys2Proof.Machine

open Sys2Proof

/-- The type codes of LMOTS_SHA256_N32_W4 and LMS_SHA256_M32_H10. -/
def lmotsType : Nat := 3
def lmsType : Nat := 6

/-- Hash chains of a one-time signature, and the height of a tree. -/
def lmotsChains : Nat := 67
def lmsHeight : Nat := 10

/-- Bytes of a one-time signature, of a tree's signature and of a tree's public key. -/
def lmotsLength : Nat := 4 + 32 + 32 * lmotsChains
def lmsSigLength : Nat := 4 + lmotsLength + 4 + 32 * lmsHeight
def lmsKeyLength : Nat := 56

/-- `n` bytes from an offset. -/
def slice (l : List Byte) (off n : Nat) : List Byte := (l.drop off).take n

/-- The 4-bit coefficients of a string of bytes, high half first. -/
def nibbles (l : List Byte) : List Nat := l.flatMap fun b => [b.toNat / 16, b.toNat % 16]

/-- The checksum of a digest's coefficients, shifted left by 4. -/
def lmotsChecksum (q : List Nat) : Nat := 16 * q.foldl (fun s c => s + (15 - c)) 0

/-- The chain `i` of a one-time key from step `j` on, `n` steps. -/
def lmotsChain (id : List Byte) (q i : Nat) : Nat → Nat → List Byte → List Byte
  | 0, _, v => v
  | n + 1, j, v => lmotsChain id q i n (j + 1) (sha256 (id ++ beBytes 4 q ++ beBytes 2 i ++ beBytes 1 j ++ v))

/-- The one-time public key that a signature of a message comes to (RFC 8554, algorithm 4b). -/
def lmotsCandidate (id : List Byte) (q : Nat) (msg sig : List Byte) : List Byte :=
  let digest := sha256 (id ++ beBytes 4 q ++ beBytes 2 0x8181 ++ slice sig 4 32 ++ msg)
  let cs := nibbles digest
  let coefs := cs ++ (nibbles (beBytes 2 (lmotsChecksum cs))).take 3
  let z := (List.zip (List.range lmotsChains) coefs).flatMap fun p =>
    lmotsChain id q p.1 (15 - p.2) p.2 (slice sig (36 + 32 * p.1) 32)
  sha256 (id ++ beBytes 4 q ++ beBytes 2 0x8080 ++ z)

/-- From a node up its path to the root. -/
def lmsRoot (id : List Byte) : List (List Byte) → Nat → List Byte → List Byte
  | [], _, v => v
  | p :: rest, node, v =>
    lmsRoot id rest (node / 2) (sha256 (id ++ beBytes 4 (node / 2) ++ beBytes 2 0x8383 ++ if node % 2 = 1 then p ++ v else v ++ p))

/-- A tree's signature of a message under its public key: type codes, `I` and the root (RFC 8554, algorithms 6 and 6a). -/
def lmsVerify (key msg sig : List Byte) : Bool :=
  let id := slice key 8 16
  let q := beNat (slice sig 0 4)
  let ots := slice sig 4 lmotsLength
  let path := (List.range lmsHeight).map fun i => slice sig (8 + lmotsLength + 32 * i) 32
  let leaf := 2 ^ lmsHeight + q
  key.length == lmsKeyLength && sig.length == lmsSigLength && beNat (slice key 0 4) == lmsType &&
  beNat (slice key 4 4) == lmotsType && beNat (slice ots 0 4) == lmotsType &&
  beNat (slice sig (4 + lmotsLength) 4) == lmsType && decide (q < 2 ^ lmsHeight) &&
  lmsRoot id path leaf (sha256 (id ++ beBytes 4 leaf ++ beBytes 2 0x8282 ++ lmotsCandidate id q msg ots)) == slice key 24 32

/-- A signature of one or two levels under an HSS public key: the number of levels and the top tree's key (RFC 8554, section 6). -/
def hssVerify (key msg sig : List Byte) : Bool :=
  let levels := beNat (slice key 0 4)
  let top := key.drop 4
  let signed := beNat (slice sig 0 4)
  if levels = 1 then signed == 0 && decide (4 ≤ sig.length) && lmsVerify top msg (sig.drop 4)
  else
    let lower := slice sig (4 + lmsSigLength) lmsKeyLength
    levels == 2 && signed == 1 && lmsVerify top lower (slice sig 4 lmsSigLength) &&
      lmsVerify lower msg (sig.drop (4 + lmsSigLength + lmsKeyLength))

/-- A signature that Ocard accepts: under one of the keys that it trusts (R14; log 7). -/
def signedBy (keys : List (List Byte)) (msg sig : List Byte) : Bool := keys.any fun k => hssVerify k msg sig

end Sys2Proof.Machine
end

