-- ==== Sys2Proof/Machine/Container.lean ====
section
/-! DEFINITION. Containers (R10 to R17, R24, R368) and the Ocard mailbox (R60 to R62). -/

namespace Sys2Proof.Machine

open Sys2Proof

/-! ## Reading and writing for a tenant -/

/-- `n` bytes at a tenant's address: a page may fail R205, a sector be poisoned (R59, R60, R370), and a link, an owner or an engine that
owns a line must be waited for (R214, R316, R332). -/
def State.readFor (s : State) (tenant : Nat) (va : Word) (n : Nat) : Res (List Byte) :=
  rangeRead (n / pageSize + 2) va n
where
  /-- Page by page; `fuel` bounds the pages. -/
  rangeRead : Nat → Word → Nat → Res (List Byte)
    | 0, va, _ => .error (.trap .page va 0)
    | fuel + 1, va, n =>
      if n = 0 then .ok []
      else do
        let m := min n (pageSize - va.toNat % pageSize)
        let l ← s.translate tenant .load va m
        s.reach l va false
        if s.lineHeld none (.phys l.key) m then .error (.wait (.line va))
        else if (s.poisoned (.phys l.key) m).isSome then .error (.park va 0)
        else
          let rest ← rangeRead fuel (va + BitVec.ofNat 64 m) (n - m)
          .ok (s.readBytes (.phys l.key) m ++ rest)

/-- What `readFor` reads, as other agents see it (R299): page by page, where the pages can be read. -/
def State.touchFor (s : State) (tenant : Nat) (va : Word) (n : Nat) : State :=
  touchPages (n / pageSize + 2) va n s
where
  touchPages : Nat → Word → Nat → State → State
    | 0, _, _, s => s
    | fuel + 1, va, n, s =>
      if n = 0 then s
      else
        let m := min n (pageSize - va.toNat % pageSize)
        match s.translate tenant .load va m with
        | .ok l => touchPages fuel (va + BitVec.ofNat 64 m) (n - m) (s.touch none false (.phys l.key) m)
        | .error _ => s

/-- A page as Ocard writes it for a tenant: its own locks do not bind it (R61). -/
def State.areaLeaf (s : State) (tenant page : Nat) : Res Leaf := s.unlocked.translate tenant .store (BitVec.ofNat 64 (page * pageSize)) 1

/-- The keys of the pages of an area that starts on a page and that the tenant may write. -/
def State.areaPages (s : State) (tenant : Nat) (va : Nat) (n : Nat) : Res (List Nat) :=
  (unitsOf pageSize va n).mapM fun p => do
    let a : Word := BitVec.ofNat 64 (p * pageSize)
    let l ← s.areaLeaf tenant p
    s.reach l a true
    if s.lineHeld none (.phys l.pageKey) pageSize then .error (.wait (.line a)) else .ok l.pageKey

/-- The pages of an area that a load locks (R61): those that the tenant's tables give. -/
def State.lockable (s : State) (tenant : Nat) (va n : Nat) : List Nat :=
  (unitsOf pageSize va n).filterMap fun p => match s.areaLeaf tenant p with
    | .ok l => some l.pageKey
    | .error _ => none

/-- A read that the device makes for itself must wait. -/
def mustWait {α : Type} (r : Res α) : Bool :=
  match r with
  | .error (.wait _) => true
  | _ => false

/-- Bytes that Ocard writes into pages, from the first one's start: in place also on a published versioned page, behind a copy under
way, and with the poison marks of the sectors left as they are (log 40, DESIGN CHOICE). -/
def State.writePages (s : State) (pages : List Nat) (bytes : List Byte) : State :=
  (pages.foldl (fun (a : State × List Byte) p =>
    let w := a.2.take pageSize
    ((a.1.finishCopies p w.length).writeBytes none (.phys p) w, a.2.drop pageSize)) (s, bytes)).1

/-- Number in `n` bytes at an offset. -/
def num (l : List Byte) (off n : Nat) : Nat := leNat ((l.drop off).take n)

def allZero (l : List Byte) (off n : Nat) : Bool := ((l.drop off).take n).all (· == 0)

/-! ## The header and the segment table (R10 to R12) -/

structure SegEntry where
  kind : Nat
  align : Nat
  foff : Nat
  fsize : Nat
  msize : Nat
  meas : List Byte
  sigoff : Nat
  siglen : Nat
  head : List Byte                             -- entry bytes 0x00 to 0x0F
  reserved : Bool
  deriving DecidableEq, Repr

def SegEntry.ofBytes (l : List Byte) : SegEntry :=
  { kind := num l 0 1, align := num l 2 1, foff := num l 4 4, fsize := num l 8 4, msize := num l 12 4
    meas := (l.drop 0x10).take 32, sigoff := num l 0x30 4, siglen := num l 0x34 4, head := l.take 16
    reserved := !(allZero l 1 1 && allZero l 3 1 && allZero l 0x38 8) }

structure Header where
  size : Nat
  nseg : Nat
  nker : Nat
  stoff : Nat
  ktoff : Nat
  sboff : Nat
  sbsize : Nat
  dsigoff : Nat
  dsiglen : Nat
  dmeas : List Byte
  reserved : Bool
  deriving DecidableEq, Repr

def Header.ofBytes (l : List Byte) : Header :=
  { size := num l 8 4, nseg := num l 12 2, nker := num l 14 2, stoff := num l 16 4, ktoff := num l 20 4, sboff := num l 24 4
    sbsize := num l 28 4, dsigoff := num l 32 4, dsiglen := num l 36 4, dmeas := (l.drop 0x40).take 32
    reserved := !(allZero l 6 2 && allZero l 0x28 24) }

/-- Two ranges of the image share a byte. -/
def overlap (a b : Nat × Nat) : Bool :=
  decide (0 < a.2) && decide (0 < b.2) && decide (a.1 < b.1 + b.2) && decide (b.1 < a.1 + a.2)

/-- No two of a list of ranges overlap. -/
def disjoint : List (Nat × Nat) → Bool
  | [] => true
  | a :: rest => !rest.any (overlap a) && disjoint rest

/-- One entry meets R11 and R12. -/
def SegEntry.ok (e : SegEntry) : Bool :=
  !e.reserved && decide (1 ≤ e.kind) && decide (e.kind ≤ 5) && decide (16 ≤ e.align) && decide (e.align ≤ 30) &&
  (if e.kind = 4 then decide (e.fsize ≤ e.msize) else e.msize == e.fsize) &&
  (if e.kind = 1 then e.fsize != 0 && e.fsize % 4 == 0 else true) &&
  (if e.kind = 2 then e.fsize != 0 && e.fsize % 12 == 0 else true)

/-- The header's ranges and the segment table meet R10 to R12. A header that breaks R10 otherwise than by MAGIC or VER has no
status of its own in R14: it ends the load with 0x03, as a bad segment table does (log 49, DESIGN CHOICE). -/
def tableOk (h : Header) (es : List SegEntry) : Bool :=
  let count (k : Nat) : Nat := (es.filter fun e => e.kind == k).length
  let ranges := [(0, 0x60), (h.stoff, 64 * h.nseg), (h.ktoff, 64 * h.nker), (h.sboff, h.sbsize)] ++
    es.map fun e => (e.foff, e.fsize)
  !h.reserved && decide (2 ≤ h.nseg) && decide (h.nseg ≤ 5) && decide (1 ≤ h.nker) && decide (h.nker ≤ 256) &&
  h.stoff % 64 == 0 && h.ktoff % 64 == 0 && es.all SegEntry.ok && count 1 == 1 && count 2 == 1 && decide (count 3 ≤ 1) &&
  decide (count 4 ≤ 1) && decide (count 5 ≤ 1) && disjoint ranges && (ranges.all fun r => decide (r.1 + r.2 ≤ h.size)) &&
  decide (h.dsigoff + h.dsiglen ≤ h.sbsize) && es.all fun e => decide (e.sigoff + e.siglen ≤ h.sbsize)

/-! ## The kernel table (R15, R17, R24) -/

/-- The word that encodes `rgn` (R82). -/
def isRgn (w : Word32) : Bool := decodeScalar w == .instr .rgn

/-- The region table of a kernel descriptor (R17). -/
def regionsOk (stream rodata : List Byte) (rgoff rgcnt : Nat) : Bool :=
  let offs := (List.range rgcnt).map fun i => num rodata (rgoff + 4 * i) 4
  rgoff % 4 == 0 && (rgcnt == 0 || decide (rgoff + 4 * rgcnt ≤ rodata.length)) &&
  (List.zipWith (fun (a b : Nat) => decide (a < b)) offs (offs.drop 1)).all id &&
  offs.all fun o => o % 4 == 0 && decide (o + 4 ≤ stream.length) && isRgn (BitVec.ofNat 32 (num stream o 4))

/-- A kernel descriptor's own fields (R15); its bindings are read apart. A region table that breaks R17 ends the load with 0x06,
the status of the descriptor that names it; R14's table names none (log 49, DESIGN CHOICE). -/
def kernelOf (l : List Byte) (stream rodata : List Byte) (lanesSize : Nat) : Option Kernel :=
  let entry := num l 0 4
  let trapseg := num l 4 4
  let lbase := num l 8 4
  let lsize := num l 12 4
  let vregs := num l 16 1
  let gmax := num l 17 1
  let scratch := num l 18 2
  let flags := num l 20 1
  let argw := num l 21 1
  let inStream (o : Nat) : Bool := o % 4 == 0 && decide (o < stream.length)
  if inStream entry && (trapseg == 0xFFFFFFFF || inStream trapseg) && lbase % 12 == 0 && lsize != 0 && lsize % 12 == 0 &&
      decide (lbase + lsize ≤ lanesSize) && decide (1 ≤ vregs) && decide (vregs ≤ 32) && decide (1 ≤ gmax) &&
      decide (gmax ≤ 32) && decide (scratch ≤ 480) && decide (flags < 4) && decide (argw ≤ 32) && allZero l 22 2 &&
      allZero l 0x26 10 && num l 0x20 4 % 16 == 0 && decide (num l 0x24 2 ≤ 64) &&
      regionsOk stream rodata (num l 0x18 4) (num l 0x1C 4) then
    some
      { entry := BitVec.ofNat 32 entry, trapseg := BitVec.ofNat 32 trapseg, lbase := BitVec.ofNat 32 lbase
        lsize := BitVec.ofNat 32 lsize, vregs := vregs, gmax := gmax, scratch := scratch, clus := nbits flags 0 0 == 1
        xblk := nbits flags 1 1 == 1, argw := argw, bindings := [], omask := 0 }
  else none

/-- A binding entry with its template (R24, R19). -/
def bindingOf (l rodata : List Byte) (argw : Nat) : Option Binding :=
  let flags := num l 1 1
  let toff := num l 4 4
  let barg := nbits flags 0 0 == 1
  let sarg := nbits flags 1 1 == 1
  if decide (num l 0 1 < 64) && decide (flags < 4) && (!barg || decide (num l 2 1 < argw)) &&
      (!sarg || decide (num l 3 1 < argw)) && allZero l 8 8 && toff % 128 == 0 && decide (toff + 128 ≤ rodata.length) then
    (Desc.ofBytes ((rodata.drop toff).take 128)).map fun d =>
      ⟨num l 0 1, if barg then some (num l 2 1) else none, if sarg then some (num l 3 1) else none, d⟩
  else none

/-- The binding list of a kernel descriptor. -/
def bindingsOf (l rodata : List Byte) (argw : Nat) : Option (List Binding) := do
  let tboff := num l 0x20 4
  let n := num l 0x24 2
  if n = 0 then some []
  else if rodata.length < tboff + 16 * n then none
  else
    let bs ← (List.range n).mapM fun i => bindingOf ((rodata.drop (tboff + 16 * i)).take 16) rodata argw
    if (bs.map (·.tid)).eraseDups.length = n then some bs else none

/-- The output mask of kernel `idx` in a note segment, restricted to bound identifiers (R368). -/
def omaskOf (note : List Byte) (idx : Nat) (bs : List Binding) : Word :=
  let all := (List.range (note.length / 16)).foldl (fun (m : Word) i =>
    let e := (note.drop (16 * i)).take 16
    if num e 0 1 = 0x4F ∧ num e 1 1 = idx ∧ allZero e 2 6 then m ||| BitVec.ofNat 64 (num e 8 8) else m) 0
  (List.range 64).foldl (fun (m : Word) t =>
    if all.getLsbD t && bs.any fun b => b.tid == t then m ||| (1#64 <<< t) else m) 0

/-! ## A load (R61): its stages, each ending with its status -/

/-- A failure of a load with the bytes already copied. -/
abbrev Load := ExceptT Nat (StateM State)

def Load.need (b : Bool) (status : Nat) : Load Unit := if b then pure () else throw status

def Load.get? {α : Type} (x : Option α) (status : Nat) : Load α :=
  match x with
  | some a => pure a
  | none => throw status

/-- A load whose next access must wait: no status of R60, and nothing has happened yet. -/
def loadWaits : Nat := 0x100

/-- An access of Ocard to the tenant's memory; one that fails ends the load with a status. -/
def Load.access {α : Type} (r : Res α) (status : Nat) : Load α :=
  match r with
  | .ok a => pure a
  | .error (.wait _) => throw loadWaits
  | .error _ => throw status

/-- A read of Ocard in the tenant's memory. -/
def Load.read (tenant : Nat) (va : Word) (n status : Nat) : Load (List Byte) := do
  let bytes ← Load.access ((← get).readFor tenant va n) status
  modify fun s => s.touchFor tenant va n
  pure bytes

/-- A copied segment with its bytes. -/
structure Copied where
  entry : SegEntry
  seg : Seg
  bytes : List Byte
  deriving DecidableEq, Repr

/-- Where the next segment goes. -/
def alignUp (a k : Nat) : Nat := (a + 2 ^ k - 1) / 2 ^ k * 2 ^ k

/-- One segment copied to the destination, measured and its signature checked over the copied bytes (R61 step 3); `signed` checks a
message against its signature. -/
def copySegment (signed : List Byte → List Byte → Bool) (tenant img dstEnd : Nat) (sigs : List Byte) (at' : Nat) (e : SegEntry) : Load Copied := do
  let va := alignUp at' e.align
  Load.need (decide (va + e.msize ≤ dstEnd)) 0x0A
  let bytes ← Load.read tenant (BitVec.ofNat 64 (img + e.foff)) e.fsize 0x09
  let pages ← Load.access ((← get).areaPages tenant va e.msize) 0x09
  modify fun s => s.writePages pages (bytes ++ List.replicate (e.msize - e.fsize) 0)
  Load.need (sha256 (e.head ++ bytes) == e.meas) 0x04
  Load.need (signed (e.head ++ e.meas) ((sigs.drop e.sigoff).take e.siglen)) 0x05
  pure ⟨e, ⟨va, e.fsize, e.msize, pages⟩, bytes⟩

/-- The segments in table order. -/
def copySegments (signed : List Byte → List Byte → Bool) (tenant img dstEnd : Nat) (sigs : List Byte) : Nat → List SegEntry → Load (List Copied)
  | _, [] => pure []
  | at', e :: rest => do
    let c ← copySegment signed tenant img dstEnd sigs at' e
    let cs ← copySegments signed tenant img dstEnd sigs (c.seg.va + c.seg.msize) rest
    pure (c :: cs)

def segOf (cs : List Copied) (kind : Nat) : Option Copied := cs.find? fun c => c.entry.kind == kind

/-- The kernel table against R15, R17, then its bindings against R19 and R24 (R61 step 4). -/
def loadKernels (table : List Byte) (n : Nat) (cs : List Copied) : Load (List Kernel) := do
  let bytes (k : Nat) : List Byte := ((segOf cs k).map (·.bytes)).getD []
  let entry (i : Nat) : List Byte := (table.drop (64 * i)).take 64
  let ks ← Load.get? ((List.range n).mapM fun i => kernelOf (entry i) (bytes 1) (bytes 3) (bytes 2).length) 0x06
  let bs ← Load.get? ((List.zip (List.range n) ks).mapM fun p => bindingsOf (entry p.1) (bytes 3) p.2.argw) 0x07
  pure ((List.zip (List.range n) (List.zip ks bs)).map fun p =>
    { p.2.1 with bindings := p.2.2, omask := omaskOf (bytes 5) p.1 p.2.2 })

/-- The lowest handle from 1 to 1,024 that the tenant does not use. -/
def State.freeHandle (s : State) (tenant : Nat) : Option Nat :=
  ((List.range 1024).map (· + 1)).find? fun h => (s.container? tenant h).isNone

/-- A whole load: the handle. An OC_DST that is not a multiple of 64 KiB has no status: the area is taken from the address as it
is, and segments are aligned up in it (log 49, DESIGN CHOICE). -/
def loadBy (signed : List Byte → List Byte → Bool) (tenant : Nat) : Load Nat := do
  let t := (← get).tenant tenant
  let img := nbits t.ocImg.toNat 51 0
  let dst := nbits t.ocDst.toNat 51 0
  let dstEnd := dst + t.ocDsize.toNat
  let _ ← Load.access ((← get).areaPages tenant dst t.ocDsize.toNat) 0x09
  let hdr ← Load.read tenant (BitVec.ofNat 64 img) 0x60 0x09
  Load.need (num hdr 0 4 == 0x3143584A && num hdr 4 2 == 1) 0x01
  let h := Header.ofBytes hdr
  let st ← Load.read tenant (BitVec.ofNat 64 (img + h.stoff)) (64 * h.nseg) 0x09
  let kt ← Load.read tenant (BitVec.ofNat 64 (img + h.ktoff)) (64 * h.nker) 0x09
  let sigs ← Load.read tenant (BitVec.ofNat 64 (img + h.sboff)) h.sbsize 0x09
  Load.need (sha256 (hdr.take 0x40 ++ st ++ kt) == h.dmeas &&
    signed h.dmeas ((sigs.drop h.dsigoff).take h.dsiglen)) 0x02
  let es := (List.range h.nseg).map fun i => SegEntry.ofBytes ((st.drop (64 * i)).take 64)
  Load.need (tableOk h es) 0x03
  let cs ← copySegments signed tenant img dstEnd sigs dst es
  let ks ← loadKernels kt h.nker cs
  let handle ← Load.get? ((← get).freeHandle tenant) 0x08
  let seg (k : Nat) : Option Seg := (segOf cs k).map (·.seg)
  let c : Container :=
    { tenant := tenant, handle := handle, unloading := false, stream := (seg 1).getD ⟨0, 0, 0, []⟩
      lanes := (seg 2).getD ⟨0, 0, 0, []⟩, rodata := seg 3, data := seg 4, note := seg 5, kernels := ks }
  modify fun s => ({ s with containers := s.containers ++ [c] }).updTenant tenant fun t =>
    { t with ocTmeas := sha256 (t.ocTmeas ++ h.dmeas ++ es.flatMap SegEntry.meas) }
  pure handle

/-- A load with the signatures that Ocard accepts (R14; log 7). -/
def loadContainer (tenant : Nat) : Load Nat := loadBy (signedBy Config.trustedKeys) tenant

/-- A tenant whose control page and view are in use: created, and the device not in the safe state (R61, R375). -/
def State.tenantUp (s : State) (t : Nat) : Bool := (s.tenant t).created && !s.mgmt.safe

/-- The tenant's pages can be reached: they lie in its virtual function, behind the CXL link, which LINK_EN may hold off (R373,
R376; log 43). -/
def State.vfUp (s : State) (t : Nat) : Bool := s.tenantUp t && s.cxlOn

/-- OC_LOAD: an `OC_CMD` write of 1, or the going on of a load that has begun to wait, and the whole load at the moment at which none
of its accesses must wait; until then the mailbox is busy and takes no other request, and the pages of the destination are locked
against every other writer from the moment at which the load began (R61; log 49). -/
def execOcLoad (tenant : Nat) (s : State) : Out :=
  let x := s.tenant tenant
  if !(if x.ocLoading then s.tenantUp tenant else s.vfUp tenant && !x.ocBusy) then .next s
  else
    let ends (s' : State) (f : Tenant → Tenant) : Out :=
      .next (s'.updTenant tenant fun t => f { t with ocBusy := false, ocLoading := false, ocLocked := [] })
    match (loadContainer tenant).run s with
    | (.ok h, s') => ends s' fun t => { t with ocStatus := 0, ocHandle := h }
    | (.error st, s') =>
      if st = loadWaits then .next (s.updTenant tenant fun t =>
        { t with ocBusy := true, ocLoading := true
                 ocLocked := if x.ocLoading then x.ocLocked else s.lockable tenant (nbits x.ocDst.toNat 51 0) x.ocDsize.toNat })
      else ends s' fun t => { t with ocStatus := BitVec.ofNat 8 st }

/-! ## Unloading (R62) -/

/-- A launch that will run or runs. -/
def LaunchState.live : LaunchState → Bool
  | .refused _ => false
  | _ => true

/-- Launches that still use a handle: read or admitted, and neither refused nor retired. -/
def State.usesHandle (s : State) (tenant handle : Nat) : Bool :=
  s.launches.any fun l => l.tenant == tenant && l.handle == handle && l.state.live

/-- Unloading handles that no launch uses any more become free, and their mailbox requests end. -/
def State.finishUnloads (s : State) : State :=
  let gone := s.containers.filter fun c => c.unloading && !s.usesHandle c.tenant c.handle
  gone.foldl (fun (s : State) c =>
    ({ s with containers := s.containers.filter fun d => !(d.tenant == c.tenant && d.handle == c.handle) }).updTenant
      c.tenant fun t => { t with ocBusy := false, ocStatus := 0 }) s

/-- OC_UNLOAD: an `OC_CMD` write of 2. -/
def execOcUnload (tenant : Nat) (handle : BitVec 16) (s : State) : Out :=
  if !s.vfUp tenant || (s.tenant tenant).ocBusy then .next s
  else match s.container? tenant handle.toNat with
    | none => .next (s.updTenant tenant fun t => { t with ocStatus := 0x0B })
    | some _ =>
      let s1 : State := { s with containers := s.containers.map fun (c : Container) =>
        if c.tenant = tenant ∧ c.handle = handle.toNat then { c with unloading := true } else c }
      .next (s1.updTenant tenant fun t => { t with ocBusy := true }).finishUnloads

end Sys2Proof.Machine
end

