-- ==== Sys2Proof/Machine/LaneControl.lean ====
section
/-! DEFINITION. Lane control: branches, divergence and segments (R118 to R125). -/

namespace Sys2Proof.Machine

open Sys2Proof

/-- A lane offset reached from a PC by a count of instructions, as an integer. -/
def laneTarget (pc : Word32) (n : Int) : Int := pc.toNat + 12 * n

/-- A target inside the kernel's lane range (R90, R119). -/
def Kernel.inRange (k : Kernel) (a : Int) : Bool :=
  decide ((k.lbase.toNat : Int) ≤ a) && decide (a < ((k.lbase.toNat + k.lsize.toNat : Nat) : Int))

/-- The check of `bra` (R99). -/
def Ctx.braCheck (x : Ctx) (p : Path) (tgt : BitVec 20) : Res Unit := ensure (x.k.inRange (laneTarget p.pc tgt.toInt)) .protection

def execBra (tgt : BitVec 20) (s : State) : Out :=
  s.laneCtx fun x p => do
    x.braCheck p tgt
    s.done fun g => g.completeLane s.who.slot (BitVec.ofInt 32 (laneTarget p.pc tgt.toInt))

/-- The place of entry `e` of a group's divergence stack (R124). -/
def Ctx.stackEntry (x : Ctx) (e : Nat) : Place := .sp x.b.id (1024 * (x.l.scratch + x.g.ref.gid) + 16 * e)

/-- The bytes of a spilled frame: JOIN, FMASK, SPC with SIDE and PARKED, SMASK. -/
def spillBytes (f : Frame) (sib : Path) (side : Bool) : List Byte :=
  leBytes 4 f.join.toNat ++ leBytes 4 f.fmask.toNat ++
  leBytes 4 (sib.pc.toNat / 4 * 4 + 2 * boolNat side + boolNat sib.parked) ++ leBytes 4 sib.mask.toNat

/-- Spilling the innermost frame with the path in slot `side`. -/
def State.spill (s : State) (x : Ctx) (side : Bool) : State :=
  match x.g.path side with
  | some sib => s.putBytes (x.stackEntry (x.g.frame.depth - 1)) (spillBytes x.g.frame sib side)
  | none => s

/-- The lanes of a path whose predicate is true. -/
def Group.takenMask (g : Group) (mask : BitVec 32) (p : Fin 12) : BitVec 32 :=
  lane32.foldl (fun m i => if mask.getLsbD i.val && g.lanes[i].getP p then m ||| (1#32 <<< i.val) else m) 0

/-- A path in an access that has issued and not completed (R121). -/
def Path.inAccess (p : Path) : Bool :=
  match p.wait with
  | some (.copy _) | some (.owner _ _) | some (.recovery _ _) | some (.link _) | some (.line _) => true
  | _ => false

/-- The checks of `bra.div`: JOIN before the ranges of the target and of the join offset (R99, R121; log 48, DESIGN CHOICE). -/
def Ctx.braDivCheck (x : Ctx) (p : Path) (tgt : BitVec 20) (join : BitVec 13) : Res Unit := do
  ensure (decide (0 < join.toInt)) .operand
  ensure (x.k.inRange (laneTarget p.pc tgt.toInt) && x.k.inRange (laneTarget p.pc join.toInt)) .protection

/-- A path whose lanes part finds the frames full (R121). -/
def Group.splitFull (g : Group) (p : Path) (pr : Fin 12) : Bool :=
  let t := g.takenMask p.mask pr
  t != 0 && p.mask &&& ~~~t != 0 && g.frame.depth == 65

/-- `bra.div` (R121). It spills a
path whose access is still on its way when that access has completed. A sibling that waits at an `ld.fe`, `st.fe` or `bar.wait` is
spilled without its wait, and issues the instruction again when it is back; whether such an instruction counts as issued, and
completes while its path is spilled, R121 leaves open (log 60, DESIGN CHOICE). -/
def execBraDiv (pr : Fin 12) (tgt : BitVec 20) (join : BitVec 13) (s : State) : Out :=
  s.laneCtx fun x p => do
    let slot := s.who.slot
    let a := laneTarget p.pc tgt.toInt
    let j := laneTarget p.pc join.toInt
    x.braDivCheck p tgt join
    let t := x.g.takenMask p.mask pr
    let f := p.mask &&& ~~~t
    if t = 0 then s.done fun g => g.advanceLane slot
    else if f = 0 then s.done fun g => g.completeLane slot (BitVec.ofInt 32 a)
    else do
      ensure (!x.g.splitFull p pr) .divergence
      if decide (1 ≤ x.g.frame.depth) && (match x.g.path (!slot) with | some o => o.inAccess | none => false) then
        throw (.wait .engines)
      let s1 := if 1 ≤ x.g.frame.depth then s.spill x (!slot) else s
      s1.done fun g =>
        { g with
          frame := ⟨BitVec.ofInt 32 j, p.mask, g.frame.depth + 1⟩
          path0 := some ⟨p.pc + 12, f, false, none, none⟩, path1 := some ⟨BitVec.ofInt 32 a, t, false, none, none⟩
          issue1 := false, blocked := 0 }

/-- A frame filled from the stack: the enclosing frame's JOIN and FMASK, the sibling and its slot. -/
structure Fill where
  join : Word32
  fmask : BitVec 32
  sib : Path
  side : Bool
  deriving DecidableEq, Repr

/-- The spilled path waits for its own traversal requests that are still at work. -/
def Group.unitWait (g : Group) (mask : BitVec 32) : Option Wait :=
  (g.units.find? fun u => u.mask == mask).map fun u => .unit u.id

/-- A stack entry holds no wait: the sibling issues again at its PC (log 60, DESIGN CHOICE). -/
def Fill.ofBytes (l : List Byte) : Fill :=
  let f (i : Nat) : Nat := leNat ((l.drop i).take 4)
  ⟨BitVec.ofNat 32 (f 0), BitVec.ofNat 32 (f 4),
    ⟨BitVec.ofNat 32 (f 8 / 4 * 4), BitVec.ofNat 32 (f 12), f 8 % 2 == 1, none, none⟩, f 8 / 2 % 2 == 1⟩

/-- The group's paths with `p` in `slot` and another path beside it; in a deterministic launch `p` goes on issuing. -/
def Group.place (g : Group) (slot : Bool) (p : Path) (other : Option Path) : Group :=
  { (g.setPath slot (some p)).setPath (!slot) other with issue1 := slot }

/-- The loop of R122 for the path in `slot`, which stands at the join offset `a`; `fuel` bounds the live frames. -/
def State.joinAt (s : State) (x : Ctx) : Nat → Group → Bool → Path → Res Group
  | 0, g, _, _ => .ok g
  | fuel + 1, g, slot, p =>
    if g.frame.depth = 0 ∨ g.frame.join ≠ p.pc then .ok ((g.setPath slot (some p)).completeLane slot (p.pc + 12))
    else
      let g := { g.setPath slot (some { p with parked := true, wait := none }) with blocked := 0 }
      match g.path (!slot) with
      | none => .ok g
      | some o =>
        if !o.parked then .ok g
        else
          let merged : Path := ⟨p.pc, g.frame.fmask, false, none, none⟩
          let depth := g.frame.depth - 1
          if depth = 0 then
            s.joinAt x fuel ({ g with frame := ⟨0, 0, 0⟩ }.place false merged none) false merged
          else
            let e := x.stackEntry (depth - 1)
            if (s.poisoned e 16).isSome then .error (.trap .mcheck 0 1)
            else
              let f := Fill.ofBytes (s.readBytes e 16)
              let sib := { f.sib with wait := g.unitWait f.sib.mask }
              s.joinAt x fuel ({ g with frame := ⟨f.join, f.fmask, depth⟩ }.place (!f.side) merged (some sib)) (!f.side) merged

/-- `join` (R122). -/
def execJoin (s : State) : Out :=
  s.laneCtx fun x p => do
    let g' ← s.joinAt x 67 x.g s.who.slot p
    s.done fun _ => g'

/-- `lend` ends the segment, and the next one starts (R123). -/
def Group.endSegment (g : Group) : Group :=
  { g with segs := g.segs.drop 1, segDone := g.segDone + 1, blocked := 0 }.startHead

/-- No frame is open: `lend` may end the segment (R123). -/
def Group.mayEnd (g : Group) : Bool := decide (g.frame.depth = 0)

def execLend (s : State) : Out :=
  s.laneCtx fun x _ => do
    ensure x.g.mayEnd .divergence
    s.done Group.endSegment

end Sys2Proof.Machine
end

