-- ==== Sys2Proof/Machine/Issue.lean ====
section
/-! DEFINITION. Fetching and issuing (R74 to R76, R99, R100, R126 to R130): which turn of the schedule does what. -/

namespace Sys2Proof.Machine

open Sys2Proof

/-! ## v registers that an instruction names (R87) -/

def Src.vTop : Src → Nat
  | .v n => n.toNat + 1
  | _ => 0

def Dst.vTop : Dst → Nat
  | .v n => n.toNat + 1
  | _ => 0

/-- One more than the highest v register among operands. -/
def tops (ds : List Dst) (ss : List Src) : Nat := max ((ds.map Dst.vTop).foldl max 0) ((ss.map Src.vTop).foldl max 0)

/-- One more than the highest v register that an instruction names; 0 when it names none. -/
def vTop (i : Instr) : Nat :=
  match i with
  | .laneAdd _ _ _ d a b | .laneSub _ _ _ d a b | .laneMul _ _ _ d a b => tops [d] [a, b]
  | .mad _ _ _ d a b e => tops [d] [a, b, e]
  | .laneMulh _ _ d a b | .laneMin _ _ d a b | .laneMax _ _ d a b | .laneAnd _ _ d a b | .laneOr _ _ d a b
  | .laneXor _ _ d a b | .laneShl _ _ d a b | .laneShr _ _ d a b | .laneSar _ _ d a b | .laneRot _ _ d a b
  | .rshRn _ _ d a b => tops [d] [a, b]
  | .laneAbs _ _ _ d a | .laneNeg _ _ _ d a | .not _ _ d a | .laneClz _ _ d a | .lanePopc _ _ d a => tops [d] [a]
  | .bfe _ _ d a b e | .prmt _ _ d a b e => tops [d] [a, b, e]
  | .bfi _ _ d a b e f => tops [d] [a, b, e, f]
  | .mac2 _ d a b e | .mac4 _ d a b e => tops [d] [a, b, e]
  | .fpAdd _ _ _ d a b | .fpSub _ _ _ d a b | .fpMul _ _ _ d a b | .div _ _ _ d a b => tops [d] [a, b]
  | .fma _ _ _ d a b e => tops [d] [a, b, e]
  | .fpMin _ _ d a b | .fpMax _ _ d a b => tops [d] [a, b]
  | .fpAbs _ _ d a | .fpNeg _ _ d a => tops [d] [a]
  | .sqrt _ _ _ d a | .rcp _ _ _ d a | .rsqrt _ _ _ d a | .exp2 _ _ _ d a | .lg2 _ _ _ d a | .sin _ _ _ d a
  | .cos _ _ _ d a => tops [d] [a]
  | .cvt _ _ _ _ _ _ d a => tops [d] [a]
  | .setp _ _ _ _ a b => tops [] [a, b]
  | .sel _ _ d a b _ => tops [d] [a, b]
  | .lst _ d | .ballot _ d _ | .rnd _ _ d => tops [d] []
  | .lclr _ a | .push _ a | .pf _ _ a | .barWait _ _ a => tops [] [a]
  | .shfl _ _ d a i | .bcast _ _ d a i => tops [d] [a, i]
  | .slideUp _ _ d a s f | .slideDn _ _ d a s f => tops [d] [a, s, f]
  | .red _ _ _ d a | .scan _ _ _ _ d a => tops [d] [a]
  | .maxi _ _ d ix a | .mini _ _ d ix a => tops [d, ix] [a]
  | .ldG _ _ _ d a | .ldSp _ _ d a | .ldFe _ _ _ d a => tops [d] [a]
  | .stG _ _ _ a b | .stSp _ _ a b | .stFe _ _ a b | .barArr _ a b => tops [] [a, b]
  | .ldV _ _ _ d a q => tops [d] [a, q]
  | .ldT _ _ _ d _ vc => max (tops [d] []) (vc.toNat + 3)
  | .ldMx _ _ _ d a sc => tops [d, sc] [a]
  | .stMx _ _ _ a b sc => tops [] [a, b, sc]
  | .atom _ _ _ _ _ d a b cmp => tops [d] (a :: b :: cmp.toList)
  | .redAt _ _ _ _ _ a b => tops [] [a, b]
  | .traceT _ d r _ | .traceV _ d r _ _ => max (d.toNat + 8) (r.toNat + 8)
  | .tex _ _ d _ vc => max (tops [d] []) (vc.toNat + 2)
  | _ => 0

/-! ## Scalar registers that an instruction names (R78, R116) -/

/-- The scalar registers that a scalar instruction reads or writes; x0 among them stands for no register. -/
def scalarRegs (i : Instr) : List (BitVec 6) :=
  match i with
  | .add d a b | .sub d a b | .mul d a b | .mulh d a b | .mulhn d a b | .and d a b | .or d a b | .xor d a b | .shl d a b
  | .shr d a b | .sar d a b | .rot d a b | .min d a b | .max d a b | .minn d a b | .maxn d a b | .seq d a b | .sne d a b
  | .slt d a b | .sltn d a b | .ptest d a b => [d, a, b]
  | .aadd _ _ d a b | .acas _ _ d a b | .aswp _ _ d a b | .amin _ _ d a b | .amax _ _ d a b | .aand _ _ d a b
  | .aor _ _ d a b | .axor _ _ d a b => [d, a, b]
  | .clz d a | .popc d a | .addi d a _ | .andi d a _ | .ori d a _ | .xori d a _ | .shli d a _ | .shri d a _ | .sari d a _
  | .slti d a _ | .sltni d a _ | .ld8 d a _ | .ld16 d a _ | .ld32 d a _ | .ld64 d a _ | .lds8 d a _ | .lds16 d a _
  | .lds32 d a _ | .kwaitNb d a | .gbstat d a | .launch d a => [d, a]
  | .li d _ | .lih d _ | .qpop d | .qcount d | .srd d _ => [d]
  | .call _ | .ret => [63]
  | .blt a b _ | .bge a b _ | .bltn a b _ | .bgen a b _ | .st8 b a _ | .st16 b a _ | .st32 b a _ | .st64 b a _ | .preg a b
  | .pwait a b | .wmon a b | .kick a b | .mload a b | .mloadSh a b | .mloop a b | .gbload a b | .gbclamp a b | .gbread a b
  | .vpub a b | .rseed a b => [a, b]
  | .jr a | .bz a _ | .bnz a _ | .loop a _ | .lframe _ a | .setdm a | .pdrop a | .parr a | .mon a | .xabort a | .tdesc _ a
  | .kwait a | .gbsweep a | .vret a | .vstep a | .coll a | .swr _ a => [a]
  | _ => []

/-! ## Fetch (R13, R74 to R76) -/

/-- The physical key of a byte of a loaded segment. -/
def Seg.keyOf (g : Seg) (off : Nat) : Nat := g.pages.getD (off / pageSize) 0 + off % pageSize

/-- `n` bytes of a loaded segment, through Ocard's record; a poisoned sector parks (R76). -/
def State.fetch (s : State) (g : Seg) (off n : Nat) : Res (List Byte) :=
  match (List.range n).find? fun i => s.poison.contains (g.keyOf (off + i) / 32) with
  | some i => .error (.park (BitVec.ofNat 64 (g.keyOf (off + i) / 32 * 32)) 0)
  | none => .ok ((List.range n).map fun i => s.mem.read (g.keyOf (off + i)))

/-- What decoding answers, as R99 reports it. -/
def Decoded.issue (d : Decoded) : Res Instr :=
  match d with
  | .instr i => .ok i
  | .reject .illegal => trapNow .illegal
  | .reject .operand => trapNow .operand

/-- The scalar instruction at the PC of a group (R74, R100). -/
def State.issueScalar (s : State) (c : Ctx) : Res Instr := do
  ensure (decide (c.g.pc.toNat < c.c.stream.fsize)) .protection
  let bytes ← s.fetch c.c.stream c.g.pc.toNat 4
  Decoded.issue (decodeScalar (BitVec.ofNat 32 (leNat bytes)))

/-- The lane instruction at the PC of a path (R75, R87, R100). -/
def State.issueLane (s : State) (c : Ctx) (p : Path) : Res Instr := do
  ensure (decide (c.k.lbase.toNat ≤ p.pc.toNat) && decide (p.pc.toNat < c.k.lbase.toNat + c.k.lsize.toNat)) .protection
  let bytes ← s.fetch c.c.lanes p.pc.toNat 12
  let i ← Decoded.issue (decodeLane (BitVec.ofNat 96 (leNat bytes)))
  ensure (decide (vTop i ≤ 8 * c.l.vregs)) .operand
  pure i

/-! ## Who may issue -/

/-- Waits that end by an event of their own; the others end when the instruction issues again. -/
def Wait.byEvent : Wait → Bool
  | .copy _ | .owner .. | .recovery .. | .link _ | .line _ | .reads .. | .engineRoom | .engines | .window _ | .interlock => false
  | _ => true

/-- A stream with this wait may issue. -/
def mayIssue (w : Option Wait) : Bool :=
  match w with
  | some x => !x.byEvent
  | none => true

/-- The group may issue: resident, not parked and, in a deterministic launch, current (R127). -/
def Ctx.runs (c : Ctx) : Bool :=
  c.g.status = .resident && c.g.park.isNone && (!c.l.det || decide (c.b.co = .current c.g.ref.gid))

/-- What a turn comes to. -/
inductive Issue where
  | tick
  | idle
  | run (i : Instr) (who : Who)
  | stop (g : Group) (slot : Option Bool) (st : Stop)

def Issue.ofRes (g : Group) (slot : Option Bool) (r : Res Instr) : Issue :=
  match r with
  | .ok i => .run i ⟨g.ref, slot.getD false⟩
  | .error st => .stop g slot st

/-- A request for pre-emption that nothing holds back: the group is not closing, and issues no further instruction (R155,
R359). -/
def Group.leaving (g : Group) : Bool := g.preemptAt.isSome && !g.closing

/-- The instruction that the scalar stream issues, when no register of it is interlocked (R113, R116). -/
def State.scalarReady (s : State) (c : Ctx) : Res Instr := do
  let i ← s.issueScalar c
  if (scalarRegs i).any (s.pendingRegs c.g.ref).contains then .error (.wait .interlock) else pure i

/-- The next thing at a scalar boundary: a pending abort (R300), a detected trap (R343), a due deferred trap (R346), else
the instruction, unless the group is about to be pre-empted. -/
def State.scalarTurn (s : State) (r : GroupRef) : Issue :=
  match s.group? r with
  | none => .idle
  | some g => match s.ctxOf g with
    | none => .idle
    | some c =>
      if !c.runs then .idle
      else if (match g.tx with | some t => t.abort.isSome | none => false) then .run (.txAbort r) s.who
      else if !g.detected.isEmpty then .run (.takeTrap r none) s.who
      else if g.deferredDue then .run (.deferredTrapTaken r) s.who
      else if g.leaving || !mayIssue g.swait then .idle
      else Issue.ofRes g none (s.scalarReady c)

/-- A path issues, unless its group is about to take a trap or to be pre-empted (R346, R347); in a deterministic launch the two
paths issue one at a time (R130). -/
def State.laneTurn (s : State) (r : GroupRef) (slot : Bool) : Issue :=
  match s.group? r with
  | none => .idle
  | some g => match s.ctxOf g, g.path slot with
    | some c, some p =>
      if !c.runs || c.g.deferredDue || !c.g.detected.isEmpty || c.g.leaving || p.parked || !mayIssue p.wait || (c.l.det && g.issue1 != slot) then .idle
      else Issue.ofRes g (some slot) (s.issueLane c p)
    | _, _ => .idle

/-- The events of the device; every other row is an instruction of a group. -/
def isEvent (i : Instr) : Bool :=
  match i with
  | .feWaitSatisfied .. | .phaserRelease .. | .kwaitRelease .. | .monitorWake .. | .drain .. | .queueRoom ..
  | .mwaitComplete .. | .planePairFree .. | .coroutineSwitch .. | .pathSelect .. | .deferredTrapTaken .. | .takeTrap ..
  | .parkResponse .. | .txAbort .. | .watchdog .. | .closingWindow .. | .preemptRequest .. | .preempt .. | .resume ..
  | .lqDb .. | .lqCtl .. | .ocLoad .. | .ocUnload .. | .recordRead .. | .launchAdmit .. | .blockDispatch ..
  | .blockRetire .. | .launchRetire .. | .completionPost .. | .faultRecordPost .. | .copyRecord .. | .planeLoad ..
  | .planeSwap .. | .loopStep .. | .traversalResult .. | .sweepRun .. | .stateWrite .. | .arrivalUpdate ..
  | .poisonedArrivalRetry .. | .copyOnWrite .. | .poolPageReturn .. | .haloExchange .. | .allReduce ..
  | .collectiveFailure .. | .homeRetry .. | .ownershipRequest .. | .peerAccess .. | .hostWrite .. | .hostRead ..
  | .peerRecoveryStart .. | .peerRecoveryEnd .. | .peerLost .. | .memoryError .. | .mbSetRoot .. | .mbBumpGen ..
  | .mbSetPool .. | .mbSetLease .. | .mbHostCoherent .. | .mbHostPlain .. | .fqCtl .. | .registerWrite .. | .reset ..
  | .bootLock | .powerSample .. | .overTemperature .. | .aocSlew .. | .cxlCacheSnoop .. | .laneFailure
  | .partitionConfigure .. | .tenantCreate .. => true
  | _ => false

/-- What a turn of the schedule comes to (log 1, log 3). -/
def State.issue (s : State) (t : Turn) : Issue :=
  match t with
  | .tick => .tick
  | .event i => if isEvent i then .run i s.who else .idle
  | .scalar r => s.scalarTurn r
  | .lane r slot => s.laneTurn r slot

end Sys2Proof.Machine
end

