-- ==== Sys2Proof/Machine/Fetch.lean ====
section
/-! DEFINITION. The smallest surroundings in which a group issues a given word: what loading a container, reading a record
and dispatching a block leave behind, for one group of one thread block (log 12). -/

namespace Sys2Proof.Machine

open Sys2Proof

def Lane.fresh : Lane := ⟨Vector.replicate 256 0, Vector.replicate 8 0, 0, 0, Vector.replicate 12 false, 0⟩

/-- A group at its start (R73). -/
def Group.fresh (ref : GroupRef) (core : Nat) (entry : Word32) (vbase : Word32) (dmask : Word) : Group :=
  { ref := ref, status := .resident, core := core, pc := entry.zeroExtend 64, x := Vector.replicate 64 0
    lanes := Vector.replicate 32 Lane.fresh, stage := Vector.replicate 16 0, segs := [], path0 := none, path1 := none
    frame := ⟨0, 0, 0⟩, issue1 := false, units := [], segIssued := 0, segDone := 0, retq := [], rstart := entry.zeroExtend 64, rB := 0
    genK := 0, genB := 0, vstep := vbase.zeroExtend 64, dmask := dmask, closing := false, preemptAt := none
    trapMode := false, tcode := 0, tpc := 0, taddr := 0, taux := 0, held := [], detected := [], regs := [], monitor := none
    tx := none, acu := false, sat := false, mscope := .grp, planes := none, mcmds := [], swait := none, swalk := none
    park := none, blocked := 0, snap := none }

/-- The kernel of a placed word: its code is the first page of each code segment. -/
def placedKernel : Kernel :=
  { entry := 0, trapseg := 0xFFFFFFFF, lbase := 0, lsize := 65532, vregs := 32, gmax := 1, scratch := 1, clus := false
    xblk := false, argw := 0, bindings := [], omask := 0 }

/-- A container whose `.stream` is the physical page at 0 and whose `.lanes` is the page above it. -/
def placedContainer : Container :=
  { tenant := 0, handle := 0, unloading := false, stream := ⟨0, 65536, 65536, [0]⟩, lanes := ⟨65536, 65536, 65536, [65536]⟩
    rodata := none, data := none, note := none, kernels := [placedKernel] }

/-- A free-mode launch of one block of one group on physical core 0. -/
def placedLaunch (uid : Nat) : Launch :=
  { uid := uid, tenant := 0, queue := 0, epoch := 0, seq := 0, state := .admitted, handle := 0, kidx := 0, clus := false, prio := 0
    pre := false, irq := false, dabt := false, ovlp := false, ord := false, chk := false, det := false, vx0 := 0, vy0 := 0
    w := 1, h := 1, cwl := 0, chl := 0, bpv := 1, g := 1, vregs := 32, scratch := 1, argp := 0, stime := 0
    vbase := 0, dep0 := 0, dep1 := 0, ctag := 0, cores := [0], tids := Vector.replicate 64 none, next := 1, admittedAt := 0
    claim := none, noRoomSince := none, kcode := none, nkill := 0 }

def placedBlock (id uid : Nat) : Block :=
  { id := id, launch := uid, b := 0, vx := 0, vy := 0, cluster := 0, home := 0, ngrp := 1, scratch := Memory.empty, full := []
    poison := [], tids := Vector.replicate 64 none, co := .opened none, windows := [], abandoned := false, saved := false }

/-- A group about to run a segment that starts at lane offset 0. -/
def Group.withSegment (g : Group) : Group :=
  { g with segs := [⟨0, g.stage, g.vstep, g.dmask, 0⟩], segIssued := 1 }.startHead

/-- A state in which the next turn issues the word `w`, a lane instruction when it has more than 32 bits. -/
def State.placed (s : State) (nbits w : Nat) : State :=
  let id := s.nextId
  let ref : GroupRef := ⟨id, 0⟩
  let lane := decide (32 < nbits)
  let g := Group.fresh ref 0 0 0 0x7F
  { s with
    mem := s.mem.writeBytes (if lane then 65536 else 0) (leBytes (if lane then 12 else 4) w)
    poison := setRemoveAll [0, 2048] s.poison
    groups := (if lane then g.withSegment else g) :: s.groups
    blocks := placedBlock id id :: s.blocks
    launches := placedLaunch id :: s.launches
    containers := placedContainer :: s.containers
    schedule := (if lane then .lane ref false else .scalar ref) :: s.schedule
    nextId := id + 1 }

end Sys2Proof.Machine
end

