-- ==== Sys2Proof/Machine/Launching.lean ====
section
/-! DEFINITION. Launch queues, launch records, admission, placement and dispatch (R46 to R59, R65 to R73), device-side
launches (R151), and retirement with its digest and completion record (R364 to R370). -/

namespace Sys2Proof.Machine

open Sys2Proof

/-! ## Queues (R48, R49) -/

def Tenant.queue (t : Tenant) (q : Nat) : LaunchQueue := t.queues[q]?.getD LaunchQueue.reset

def State.queue (s : State) (t q : Nat) : LaunchQueue := (s.tenant t).queue q

def State.updQueue (s : State) (t q : Nat) (f : LaunchQueue → LaunchQueue) : State :=
  s.updTenant t fun x => { x with queues := x.queues.setIfInBounds q (f (x.queue q)) }

/-- RET moves over every record that has been read and has retired (R49, R364); `fuel` bounds the records. -/
def LaunchQueue.advance (q : LaunchQueue) : Nat → LaunchQueue
  | 0 => q
  | fuel + 1 =>
    if q.ret ≠ q.head ∧ q.statuses.any fun p => p.1 == q.ret then { q with ret := q.ret + 1 }.advance fuel else q

/-- The status that a record which HEAD has passed has retired with. -/
def LaunchQueue.status? (q : LaunchQueue) (seq : Word32) : Option Byte :=
  if (q.head - seq - 1).toNat < 2 ^ 31 then (q.statuses.find? fun p => p.1 == seq).map (·.2) else none

/-- The bytes of a completion record but for PHASE (R366). -/
def completionBytes (l : Launch) (status : Nat) (digest : Option (List Byte)) (time : Word) : List Byte :=
  leBytes 1 status ++ leBytes 1 (boolNat digest.isSome + 2 * boolNat l.det + 4 * boolNat l.chk) ++ leBytes 1 l.queue ++
  leBytes 1 ((l.kcode.map TrapCode.num).getD 0) ++ leBytes 4 l.seq.toNat ++ leBytes 8 l.ctag.toNat ++ leBytes 8 time.toNat ++
  leBytes 4 l.nkill ++ leBytes 3 0 ++ digest.getD (List.replicate 32 0)

/-- A launch retires: its record is posted, its queue learns its status, and handles it kept loaded may become free
(R364, R62). No result while its record finds no room (R367). -/
def State.retire (s : State) (l : Launch) (status : Nat) (digest : Option (List Byte)) : Option State :=
  let finish (s : State) : State :=
    let s1 : State := { s with launches := s.launches.filter fun x => x.uid != l.uid }
    let s2 := s1.updQueue l.tenant l.queue fun q =>
      if q.epoch = l.epoch then
        let sts := (l.seq, BitVec.ofNat 8 status) :: q.statuses
        { q with statuses := sts }.advance (sts.length + 1)
      else q
    s2.finishUnloads
  match s.postRecord l.tenant false ⟨completionBytes l status digest s.aoc, none, if l.irq then some l.queue else none⟩ with
  | .noRoom => none
  | .dropped s1 => some (finish (if l.irq then s1.sendVector l.tenant l.queue else s1))
  | .posted s1 _ => some (finish s1)

/-- A refusal: the launch retires at once, or as soon as its record finds room. -/
def State.refuse (s : State) (l : Launch) (status : Nat) : State :=
  let s := s.updLaunch l.uid fun x => { x with state := .refused status }
  (s.retire l status none).getD s.finishUnloads

/-- A launch that has been read and neither admitted nor refused. -/
def LaunchState.waiting : LaunchState → Bool
  | .read | .admissible => true
  | _ => false

/-- Records of a queue that HEAD has passed and that are not yet admitted. -/
def State.unadmitted (s : State) (t q : Nat) : List Launch :=
  s.launches.filter fun l => l.tenant == t && l.queue == q && l.epoch == (s.queue t q).epoch && l.state.waiting

/-- LQ_CTL: enabling zeroes the counts; disabling refuses what is not yet admitted (R48). -/
def execLqCtl (t q : Nat) (v : Word) (s : State) : Out :=
  if !s.vfUp t then .next s
  else
    let old := s.queue t q
    let en := v.getLsbD 31
    if old.en then
      if en then .next s
      else
        let s1 := s.updQueue t q fun x => { x with en := false }
        .next ((s.unadmitted t q).foldl (fun (s : State) l => s.refuse l 0x0A) s1)
    else
      let n := nbits v.toNat 4 0
      let set (x : LaunchQueue) : LaunchQueue :=
        { x with devq := v.getLsbD 29, logn := if 4 ≤ n ∧ n ≤ 16 then n else x.logn, en := en }
      .next (s.updQueue t q fun x =>
        if en then { set x with err := false, head := 0, tail := 0, ret := 0, statuses := [], epoch := x.epoch + 1 }
        else set x)

/-- LQ_DB: the new tail, or ERR (R49). -/
def execLqDb (t q : Nat) (v : Word) (s : State) : Out :=
  if !s.vfUp t then .next s
  else
    let x := s.queue t q
    let tail : Word32 := v.extractLsb' 0 32
    if x.devq then .next s
    else if 2 ^ x.logn < (tail - x.head).toNat ∨ 2 ^ 31 ≤ (tail - x.tail).toNat then
      .next (s.updQueue t q fun x => { x with err := true })
    else .next (s.updQueue t q fun x => { x with tail := tail })

/-! ## The launch record (R51 to R53) -/

/-- A dependence word (R55). -/
structure Dep where
  en : Bool
  queue : Nat
  seq : Word32
  bad : Bool
  deriving DecidableEq, Repr

def Dep.ofWord (w : Word) : Dep :=
  ⟨w.getLsbD 63, nbits w.toNat 34 32, w.extractLsb' 0 32, nbits w.toNat 62 35 != 0⟩

/-- A dependence that names its own queue at or after its own record. -/
def Dep.ahead (d : Dep) (queue : Nat) (seq : Word32) : Bool :=
  d.en && d.queue == queue && decide ((d.seq - seq).toNat < 2 ^ 31)

/-- The rectangle's reserved bits and limits (R53). -/
def rectOk (r : Nat) (det : Bool) : Bool :=
  let f (hi lo : Nat) : Nat := nbits r hi lo
  let lim := if det then 5 else 1
  f 63 39 == 0 && f 35 35 == 0 && f 31 30 == 0 && f 23 22 == 0 && f 15 13 == 0 && f 7 5 == 0 &&
  decide (1 ≤ f 29 24) && decide (f 29 24 ≤ 32) && decide (1 ≤ f 21 16) && decide (f 21 16 ≤ 32) &&
  decide (f 4 0 + f 21 16 ≤ 32) && decide (f 12 8 + f 29 24 ≤ 32) && decide (f 34 32 ≤ lim) && decide (f 38 36 ≤ lim) &&
  f 4 0 % 2 ^ f 34 32 == 0 && f 21 16 % 2 ^ f 34 32 == 0 && f 12 8 % 2 ^ f 38 36 == 0 && f 29 24 % 2 ^ f 38 36 == 0

/-- The checks of row 0x01 of R59 on the record alone. -/
def recordOk (l : List Byte) (tenant queue : Nat) (seq : Word32) : Bool :=
  let attr := num l 8 8
  let d0 := Dep.ofWord (BitVec.ofNat 64 (num l 0x40 8))
  let d1 := Dep.ofWord (BitVec.ofNat 64 (num l 0x48 8))
  num l 0 1 == 0x4C && num l 1 1 == 1 && allZero l 2 2 && allZero l 7 1 && allZero l 0x3C 4 && allZero l 0x58 40 &&
  nbits attr 63 24 == 0 && nbits attr 19 12 == 0 && nbits attr 6 6 == 0 && nbits attr 2 2 == 0 &&
  nbits attr 23 20 == tenant && (nbits attr 8 8 == 0 || nbits attr 11 9 == 7) &&
  rectOk (num l 0x10 8) (nbits attr 0 0 == 1) &&
  decide (1 ≤ num l 0x18 4) && decide (num l 0x18 4 ≤ 65536) && decide (1 ≤ num l 0x1C 1) && decide (num l 0x1C 1 ≤ 32) &&
  decide (num l 0x1D 1 ≤ 32) && decide (num l 0x1E 2 ≤ 480) && num l 0x20 8 % 8 == 0 && nbits (num l 0x20 8) 63 52 == 0 &&
  !d0.bad && !d1.bad && !d0.ahead queue seq && !d1.ahead queue seq && (nbits attr 4 4 == 0 || d0.en)

/-- The launch that a record describes, with the effective values of its kernel still to come. -/
def launchOf (l : List Byte) (uid tenant queue epoch : Nat) (seq : Word32) : Launch :=
  let attr := num l 8 8
  let rect := num l 0x10 8
  let bit (n : Nat) : Bool := nbits attr n n == 1
  { uid := uid, tenant := tenant, queue := queue, epoch := epoch, seq := seq, state := .read, handle := num l 4 2
    kidx := num l 6 1, clus := false, prio := nbits attr 11 9, pre := bit 8, irq := bit 7, dabt := bit 5, ovlp := bit 4
    ord := bit 3, chk := bit 1, det := bit 0, vx0 := nbits rect 4 0, vy0 := nbits rect 12 8, w := nbits rect 21 16
    h := nbits rect 29 24, cwl := nbits rect 34 32, chl := nbits rect 38 36, bpv := num l 0x18 4, g := num l 0x1C 1
    vregs := num l 0x1D 1, scratch := num l 0x1E 2, argp := BitVec.ofNat 64 (num l 0x20 8)
    stime := BitVec.ofNat 64 (num l 0x30 8), vbase := BitVec.ofNat 32 (num l 0x38 4), dep0 := BitVec.ofNat 64 (num l 0x40 8)
    dep1 := BitVec.ofNat 64 (num l 0x48 8), ctag := BitVec.ofNat 64 (num l 0x50 8), cores := []
    tids := Vector.replicate 64 none, next := 0, admittedAt := 0, claim := none, noRoomSince := none, kcode := none, nkill := 0 }

/-! ## Placement (R63 to R70) -/

/-- A block's key: (b, vy, vx). -/
abbrev BlockKey := Nat × Nat × Nat

/-- The entry that the core table gives a virtual core. -/
def Launch.entry (l : Launch) (vx vy : Nat) : Nat := l.cores.getD ((vy - l.vy0) * l.w + (vx - l.vx0)) 0

/-- The virtual cores of the cluster that holds one. -/
def Launch.mates (l : Launch) (vx vy : Nat) : List (Nat × Nat) :=
  let x0 := vx / 2 ^ l.cwl * 2 ^ l.cwl
  let y0 := vy / 2 ^ l.chl * 2 ^ l.chl
  (List.range (2 ^ l.chl)).flatMap fun y => (List.range (2 ^ l.cwl)).map fun x => (x0 + x, y0 + y)

/-- The cluster-local index (R53). -/
def Launch.localIndex (l : Launch) (vx vy : Nat) : Nat := vy % 2 ^ l.chl * 2 ^ l.cwl + vx % 2 ^ l.cwl

/-- Dispatch units: whole cluster instances of a CLUS launch, single blocks of another (R70). -/
def Launch.unitsPerRow (l : Launch) : Nat := if l.clus then l.w / 2 ^ l.cwl else l.w

def Launch.unitsPerB (l : Launch) : Nat := l.unitsPerRow * (if l.clus then l.h / 2 ^ l.chl else l.h)

def Launch.units (l : Launch) : Nat := l.bpv * l.unitsPerB

/-- The blocks of unit `i`, ascending in (b, vy, vx) (R57). A CLUS launch goes instance by instance, in the order of each
instance's first block: where clusters span several rows, R70's whole instances cannot follow R57's order of single blocks
(log 51, DESIGN CHOICE). -/
def Launch.unit (l : Launch) (i : Nat) : List BlockKey :=
  let b := i / l.unitsPerB
  let r := i % l.unitsPerB
  let y := r / l.unitsPerRow
  let x := r % l.unitsPerRow
  if l.clus then (l.mates (l.vx0 + x * 2 ^ l.cwl) (l.vy0 + y * 2 ^ l.chl)).map fun p => (b, p.2, p.1)
  else [(b, l.vy0 + y, l.vx0 + x)]

def State.corePresent (s : State) (core : Nat) : Bool := (s.present[core / 36]?.getD 0).getLsbD (core % 36)

/-- The physical cluster of a core: die and cluster index (R63). -/
def physCluster (core : Nat) : Nat := core / 36 * 9 + core % 36 / 6 / 2 * 3 + core % 6 / 2

/-- A block with the core of each of its groups and its home core (R66 to R68). -/
structure Plan where
  key : BlockKey
  cores : List Nat
  home : Nat
  deriving DecidableEq, Repr

def State.planBlock (s : State) (l : Launch) (k : BlockKey) : Plan :=
  let (_, vy, vx) := k
  let own := l.entry vx vy
  let named := (l.mates vx vy).map fun p => l.entry p.1 p.2
  let pres := setInsertAll (named.filter s.corePresent) []
  if l.det ∨ pres.length = named.length then ⟨k, List.replicate l.g own, own⟩
  else
    let c := l.localIndex vx vy
    let at' (n : Nat) : Nat := pres.getD (n % max pres.length 1) 0
    ⟨k, (List.range l.g).map fun gid => at' (c * l.g + gid), at' c⟩

/-- What a core holds or must hold: groups, register units, KiB of scratchpad (R69). -/
structure Need where
  groups : Nat
  units : Nat
  kib : Nat
  deriving DecidableEq, Repr

def Need.add (a b : Need) : Need := ⟨a.groups + b.groups, a.units + b.units, a.kib + b.kib⟩

def Need.zero : Need := ⟨0, 0, 0⟩

def Need.ok (n : Need) : Bool := decide (n.groups ≤ 32) && decide (n.units ≤ 192) && decide (n.kib ≤ 512)

def Need.sum (ns : List Need) : Need := ns.foldl Need.add Need.zero

/-- What plans of a launch need of a core. -/
def plansNeed (l : Launch) (ps : List Plan) (core : Nat) : Need :=
  Need.sum (ps.map fun p =>
    let n := (p.cores.filter (· == core)).length
    ⟨n, n * l.vregs, if p.home = core then l.scratch + l.g else 0⟩)

def planCores (ps : List Plan) : List Nat := setInsertAll (ps.flatMap fun p => p.home :: p.cores) []

/-- An engine command of a block's groups is still to complete. -/
def State.blockCommands (s : State) (blk : Nat) : Bool :=
  s.kicks.any (fun k => k.grp.blk == blk) || s.gbcmds.any (fun k => k.grp.blk == blk) ||
  s.colls.any (fun k => k.grp.blk == blk) || s.groups.any fun g => g.ref.blk == blk && !g.mcmds.isEmpty

/-- A place in a block's scratchpad. -/
def Place.inBlock (blk : Nat) (p : Place) : Bool :=
  match p with
  | .sp b _ => b == blk
  | .phys _ => false

def Held.inBlock (h : Held) (blk : Nat) : Bool := h.any fun e => e.place.inBlock blk

/-- A kick writes into a block's scratchpad: its own block's barrier object, or a record's destination. -/
def State.kickInBlock (s : State) (k : Kick) (blk : Nat) : Bool :=
  k.grp.blk == blk || match s.engineCtx k.grp with
    | some c => k.recs.any fun r => (s.recGranules c r).any fun g => g.1 == blk
    | none => false

def MCmd.inBlock (m : MCmd) (r : GroupRef) (blk : Nat) : Bool :=
  match m with
  | .loop _ _ recs _ _ => recs.any fun l => (l.baren && r.blk == blk) || l.cheld.inBlock blk
  | _ => false

/-- An accepted command still writes into a block's scratchpad (R363). -/
def State.writesHome (s : State) (blk : Nat) : Bool :=
  s.kicks.any (fun k => s.kickInBlock k blk) || s.colls.any (fun q => q.grp.blk == blk || q.dheld.inBlock blk) ||
  s.gbcmds.any (fun q => match q.work with
    | .read _ _ held => held.inBlock blk
    | .sweep .. => false) ||
  s.groups.any fun g => g.mcmds.any fun m => m.inBlock g.ref blk

/-- A block's scratchpad still takes room on its home core (R69, R70, R363). -/
def State.holdsHome (s : State) (b : Block) : Bool := !b.saved || s.writesHome b.id

def State.launchOfGroup (s : State) (g : Group) : Option Launch :=
  match s.block? g.ref.blk with
  | some b => s.launch? b.launch
  | none => none

/-- A group's slot and register units are taken until its block retires; a kill and a pre-emption free them (R70, R348, R360). -/
def Group.holdsSlot (g : Group) : Bool := g.status = .resident || g.status = .ended

/-- What a core holds. -/
def State.occupied (s : State) (core : Nat) : Need :=
  let gs := s.groups.filter fun g => g.holdsSlot && g.core == core
  let units := gs.foldl (fun n g => n + ((s.launchOfGroup g).map (·.vregs)).getD 0) 0
  let kib := s.blocks.foldl (fun n b =>
    if b.home = core ∧ s.holdsHome b then n + ((s.launch? b.launch).map (·.scratch)).getD 0 + b.ngrp else n) 0
  ⟨gs.length, units, kib⟩

/-- Plans fit the room that cores have left. -/
def State.fits (s : State) (l : Launch) (ps : List Plan) : Bool :=
  (planCores ps).all fun c => ((s.occupied c).add (plansNeed l ps c)).ok

/-- Plans fit empty cores. -/
def fitsEmpty (l : Launch) (ps : List Plan) : Bool := (planCores ps).all fun c => (plansNeed l ps c).ok

def State.plans (s : State) (l : Launch) (unit : Nat) : List Plan := (l.unit unit).map (s.planBlock l)

/-! ## The core table (R65, R66, R68, R69) -/

/-- A check of the command processor: its result, a status, or no answer yet where a read must wait. -/
abbrev Check := Except (Option Nat)

/-- A read of the command processor; one that fails gives a status. -/
def Check.read {α : Type} (r : Res α) (status : Nat) : Check α :=
  match r with
  | .ok a => .ok a
  | .error (.wait _) => .error none
  | .error _ => .error (some status)

/-- A refusal. -/
def Check.refuse {α : Type} (status : Nat) : Check α := .error (some status)

/-- The entries of the rectangle, row by row. -/
def State.readTable (s : State) (l : Launch) (base : Word) : Res (List Nat) :=
  (List.range (l.w * l.h)).mapM fun i => do
    let off := 2 * ((l.vy0 + i / l.w) * 32 + l.vx0 + i % l.w)
    let b ← s.readFor l.tenant (base + BitVec.ofNat 64 off) 2
    .ok (leNat b)

/-- One cluster of a free-mode launch names distinct positions of one physical cluster, one of them present (R66). -/
def State.clusterOk (s : State) (named : List Nat) : Bool :=
  named.eraseDups.length == named.length && named.any s.corePresent &&
  match named with
  | c :: rest => rest.all fun d => physCluster d == physCluster c
  | [] => false

/-- The rectangle's clusters, each by its first virtual core. -/
def Launch.clusters (l : Launch) : List (Nat × Nat) :=
  (List.range (l.h / 2 ^ l.chl)).flatMap fun y => (List.range (l.w / 2 ^ l.cwl)).map fun x =>
    (l.vx0 + x * 2 ^ l.cwl, l.vy0 + y * 2 ^ l.chl)

/-- The table's entries meet R65, R66, R68 and R69. -/
def State.tableOk (s : State) (l : Launch) : Bool :=
  let dies := partitionDies s.mgmt.division (s.tenant l.tenant).partition
  (l.cores.all fun e => decide (e ≤ 143) && dies.contains (e / 36)) &&
  if l.det then l.cores.all s.corePresent
  else
    let named := l.clusters.map fun p => (l.mates p.1 p.2).map fun q => l.entry q.1 q.2
    let phys := named.map fun n => physCluster (n.headD 0)
    named.all s.clusterOk && phys.eraseDups.length == phys.length

/-! ## Reading and checking a record (R54, R59) -/

/-- The address of a queue's slot for a record (R47, R49). A base that is not a multiple of 4,096 is kept and used as it is: the
spec gives such a write no effect of its own (log 50, DESIGN CHOICE). -/
def LaunchQueue.slot (q : LaunchQueue) (seq : Word32) : Word :=
  BitVec.ofNat 64 (nbits q.base.toNat 51 0 + 128 * (seq.toNat % 2 ^ q.logn))

/-- An argument word that a binding names. -/
def State.argWord (s : State) (l : Launch) (i : Option Nat) : Res Word :=
  match i with
  | none => .ok 0
  | some i => do
    let b ← s.readFor l.tenant (l.argp + BitVec.ofNat 64 (8 * i)) 8
    .ok (BitVec.ofNat 64 (leNat b))

/-- A template with its patched addresses (R24). -/
def State.patch (s : State) (l : Launch) (b : Binding) : Check Desc := do
  let base ← Check.read (s.argWord l b.barg) 0x04
  let sbase ← Check.read (s.argWord l b.sarg) 0x04
  let d := { b.templ with base := b.templ.base + base, sbase := b.templ.sbase + sbase }
  if d.valid then .ok d else Check.refuse 0x04

/-- The bound descriptors, in list order (R24). -/
def State.bind (s : State) (l : Launch) (bs : List Binding) : Check (Vector (Option Desc) 64) :=
  bs.foldlM (fun (v : Vector (Option Desc) 64) b => (s.patch l b).map fun d => v.setIfInBounds b.tid (some d))
    (Vector.replicate 64 none)

/-- The launch with its core table, or none when the table cannot be read or breaks its rules. -/
def State.withTable (s : State) (l : Launch) (base : Word) : Check (Option Launch) :=
  if base.toNat % 2048 ≠ 0 then .ok none
  else match s.readTable l base with
    | .ok es => .ok (let l := { l with cores := es }; if s.tableOk l then some l else none)
    | .error (.wait _) => .error none
    | .error _ => .ok none

/-- The checks of R59 behind row 0x01, in table order: the launch as it is to run, or its status. -/
def State.checkLaunch (s : State) (l : Launch) (ltab : Word) : Check Launch := do
  let some c := s.container? l.tenant l.handle | Check.refuse 0x02
  if c.unloading then Check.refuse 0x02
  let some k := c.kernels[l.kidx]? | Check.refuse 0x02
  if (l.vregs ≠ 0 ∧ l.vregs < k.vregs) ∨ (l.scratch ≠ 0 ∧ l.scratch < k.scratch) then Check.refuse 0x01
  let l := { l with
    vregs := if l.vregs = 0 then k.vregs else l.vregs, scratch := if l.scratch = 0 then k.scratch else l.scratch
    clus := k.clus && !l.det }
  if 512 < l.scratch + l.g ∨ k.gmax < l.g then Check.refuse 0x03
  let base := if ltab = 0 then (s.tenant l.tenant).l2pBase else ltab
  let table ← s.withTable l base
  let spread := !l.det && decide (0 < l.cwl + l.chl)
  if spread then
    match table with
    | none => Check.refuse 0x06
    | some l => if !((List.range l.unitsPerB).all fun i => fitsEmpty l (s.plans l i)) then Check.refuse 0x03
  else if 192 < l.g * l.vregs then Check.refuse 0x03
  let tids ← s.bind l k.bindings
  if l.det ∧ (k.clus ∨ k.xblk) then Check.refuse 0x05
  match table with
  | none => Check.refuse 0x06
  | some l => .ok { l with tids := tids }

/-- Ranges of a tenant's memory that a part of the device reads for itself, as other agents see it (R299). -/
def State.touchRanges (s : State) (tenant : Nat) (rs : List (Word × Nat)) : State :=
  rs.foldl (fun (s : State) r => s.touchFor tenant r.1 r.2) s

/-- What the checks of a record read besides it: the entries of its core table and the argument words of its bindings, where it names
a kernel (log 47). -/
def State.checkRanges (s : State) (l : Launch) (ltab : Word) : List (Word × Nat) :=
  match (s.container? l.tenant l.handle).bind fun c => c.kernels[l.kidx]? with
  | none => []
  | some k =>
    let base := if ltab = 0 then (s.tenant l.tenant).l2pBase else ltab
    (if base.toNat % 2048 ≠ 0 then [] else (List.range (l.w * l.h)).map fun i =>
      (base + BitVec.ofNat 64 (2 * ((l.vy0 + i / l.w) * 32 + l.vx0 + i % l.w)), 2)) ++
    k.bindings.flatMap fun b => (b.barg.toList ++ b.sarg.toList).map fun i => (l.argp + BitVec.ofNat 64 (8 * i), 8)

/-- RECORD_READ: the command processor reads the record at HEAD and checks it, when none of its reads must wait; it considers a record only after the one
before has been admitted or refused (R54). A slot that cannot be read counts as one of zeros: CTAG as R59 has it, and no IRQ, DET or
CHK (log 64, DESIGN CHOICE). -/
def execRecordRead (t q : Nat) (s : State) : Out :=
  let x := s.queue t q
  if !s.tenantUp t || !x.en || x.err || x.head == x.tail || !(s.unadmitted t q).isEmpty then .next s
  else
    let seq := x.head
    let slot := s.readFor t (x.slot seq) 128
    let bytes := match slot with
      | .ok b => b
      | .error _ => List.replicate 128 0
    let l := launchOf bytes s.nextId t q x.epoch seq
    let s1 := ({ s with nextId := s.nextId + 1, launches := s.launches ++ [l] }.updQueue t q fun x =>
      { x with head := x.head + 1, statuses := x.statuses.filter fun p => p.1 != seq }).touchFor t (x.slot seq) 128
    if mustWait slot then .next s
    else if !slot.isOk || !recordOk bytes t q seq then .next (s1.refuse l 0x01)
    else
      let ltab : Word := BitVec.ofNat 64 (num bytes 0x28 8)
      let s2 := s1.touchRanges t (s.checkRanges l ltab)
      match s.checkLaunch l ltab with
      | .error none => .next s
      | .error (some st) => .next (s2.refuse l st)
      | .ok l' => .next (s2.updLaunch l.uid fun _ => l')

/-! ## Admission (R54 to R56, R58) -/

/-- An enabled dependence is satisfied by RET (R55). -/
def State.depMet (s : State) (t : Nat) (d : Dep) : Bool := decide (((s.queue t d.queue).ret - d.seq - 1).toNat < 2 ^ 31)

/-- The launch that a dependence names, while it has not retired; where its queue has been enabled anew meanwhile, the record of that
number which the queue has read since, if any (log 64, DESIGN CHOICE). -/
def State.depLaunch (s : State) (t : Nat) (d : Dep) : Option Launch :=
  s.launches.find? fun l => l.tenant == t && l.queue == d.queue && l.epoch == (s.queue t d.queue).epoch && l.seq == d.seq

/-- DEP0 of an early consumer: its launch has been admitted, refused, or has retired (R58). -/
def State.producerAdmitted (s : State) (t : Nat) (d : Dep) : Bool :=
  s.depMet t d || ((s.queue t d.queue).status? d.seq).isSome || match s.depLaunch t d with
    | some l => !l.state.waiting
    | none => false

/-- A dependence, with what it waits for. -/
def State.depOk (s : State) (t : Nat) (d : Dep) (early : Bool) : Bool :=
  !d.en || (if early then s.producerAdmitted t d else s.depMet t d)

/-- A dependence that is met and retired with a non-zero status; a refused producer of an early consumer counts as soon as it is
refused (R58). -/
def State.depBad (s : State) (t : Nat) (d : Dep) (early : Bool) : Bool :=
  d.en && s.depOk t d early && match (s.queue t d.queue).status? d.seq with
    | some st => st != 0
    | none => early && match s.depLaunch t d with
      | some l => !l.state.live
      | none => false

/-- LAUNCH_ADMIT: a checked launch becomes admissible, or is refused with 0x07. -/
def execLaunchAdmit (uid : Nat) (s : State) : Out :=
  match s.launch? uid with
  | none => .next s
  | some l =>
    if l.state ≠ .read then .next s
    else
      let d0 := Dep.ofWord l.dep0
      let d1 := Dep.ofWord l.dep1
      if l.dabt && (s.depBad l.tenant d0 l.ovlp || s.depBad l.tenant d1 false) then .next (s.refuse l 0x07)
      else if !s.depOk l.tenant d0 l.ovlp || !s.depOk l.tenant d1 false then .next s
      else if l.ord && l.seq != 0 && ((s.queue l.tenant l.queue).status? (l.seq - 1)).isNone then .next s
      else if s.aoc.toNat < l.stime.toNat then .next s
      else .next (s.updLaunch uid fun l => { l with state := .admissible })

/-! ## Dispatch (R57, R58, R70, R73) -/

/-- A launch with a block to dispatch. -/
def Launch.pending (l : Launch) : Bool :=
  (match l.state with | .admissible | .admitted => true | _ => false) && decide (l.next < l.units)

/-- The dispatch units of a producer that an early consumer must leave room for; units repeat with the block number. -/
def Launch.ahead (l : Launch) : List Nat := (List.range (min l.unitsPerB (l.units - l.next))).map (l.next + ·)

/-- The room that R58 keeps for the producer of an early consumer. The blocks of a CLUS producer start by whole instances (R70), and
the room kept is that of a whole instance on each of its cores, where R58 speaks of the largest block (log 66, DESIGN CHOICE). -/
def State.leavesRoom (s : State) (l : Launch) (ps : List Plan) : Bool :=
  !l.ovlp || match s.depLaunch l.tenant (Dep.ofWord l.dep0) with
    | none => true
    | some p =>
      p.state.waiting || !p.pending || p.ahead.all fun i =>
        let qs := s.plans p i
        (planCores ps).all fun c =>
          plansNeed p qs c == Need.zero || (((s.occupied c).add (plansNeed l ps c)).add (plansNeed p qs c)).ok

/-- The next block, or cluster instance, of a launch can be placed. -/
def State.placeable (s : State) (l : Launch) : Bool :=
  let ps := s.plans l l.next
  s.fits l ps && s.leavesRoom l ps

/-- A launch's rank in its partition: PRIO, then those that have been passed over, in the order in which they were; then round robin
over tenants, over the tenant's queues, and record order. -/
def State.rank (s : State) (l : Launch) : List Nat :=
  let t := s.tenant l.tenant
  let tp := s.mgmt.tenantPtr[t.partition]?.getD 0
  [7 - l.prio, boolNat l.claim.isNone, l.claim.getD 0, (l.tenant + 16 - tp) % 16, (l.queue + 8 - t.queuePtr) % 8, l.uid]

/-- Lexicographic order of ranks. -/
def rankBefore : List Nat → List Nat → Bool
  | a :: as, b :: bs => a < b || (a == b && rankBefore as bs)
  | _, _ => false

/-- The launch of highest rank whose next block fits. -/
def State.nextLaunch (s : State) (part : Nat) : Option Launch :=
  let cs := s.launches.filter fun l => l.pending && (s.tenant l.tenant).partition == part && s.placeable l
  cs.foldl (fun (best : Option Launch) l => match best with
    | none => some l
    | some m => if rankBefore (s.rank l) (s.rank m) then some l else best) none

/-- `DMASK` at the start of a group (R6). -/
def State.startDmask (s : State) (tenant : Nat) : Word :=
  (partitionDies s.mgmt.division (s.tenant tenant).partition).foldl (fun m d => m ||| (1#64 <<< d)) 0x70

/-- A block starts with all its groups (R70, R73, R129). -/
def State.startBlock (s : State) (l : Launch) (entry : Word32) (p : Plan) : State :=
  let id := s.nextId
  let (b, vy, vx) := p.key
  let blk : Block :=
    { id := id, launch := l.uid, b := b, vx := vx, vy := vy, cluster := l.localIndex vx vy, home := p.home, ngrp := l.g
      scratch := Memory.empty, full := [], poison := [], tids := l.tids
      co := if l.det then .current 0 else .opened none, windows := [], abandoned := false, saved := false }
  let dmask := s.startDmask l.tenant
  let gs := (List.zip (List.range l.g) p.cores).map fun c =>
    let g := Group.fresh ⟨id, c.1⟩ c.2 entry l.vbase dmask
    if l.det ∧ c.1 = 0 then { g with snap := some Memory.empty } else g
  { s with nextId := id + 1, blocks := s.blocks ++ [blk], groups := s.groups ++ gs }

def State.entryOf (s : State) (l : Launch) : Word32 :=
  match s.container? l.tenant l.handle with
  | some c => match c.kernels[l.kidx]? with
    | some k => k.entry
    | none => 0
  | none => 0

/-- The launches of the partition that a dispatch of `l` passes over: ranked before it, they found no room. Each keeps the rank it
has among them as its claim at every later choice, until a block of its own is dispatched (R57; log 58, DEDUCED). -/
def State.passOver (s : State) (l : Launch) : State :=
  let part := (s.tenant l.tenant).partition
  let passed := s.launches.filter fun m =>
    m.pending && (s.tenant m.tenant).partition == part && rankBefore (s.rank m) (s.rank l)
  let place (m : Launch) : Nat := (passed.filter fun k => rankBefore (s.rank k) (s.rank m)).length
  { s with
    nextId := s.nextId + passed.length
    launches := s.launches.map fun m =>
      if passed.any fun k => k.uid == m.uid then { m with claim := m.claim.or (some (s.nextId + place m)) } else m }

/-- A unit of a launch is dispatched; the first admits it, and both round-robin pointers move past it (R54, R57). -/
def State.dispatch (s : State) (l : Launch) : State :=
  let s1 := (s.plans l l.next).foldl (fun (s : State) p => s.startBlock l (s.entryOf l) p) (s.passOver l)
  let order := s1.nextId
  let s2 := { s1 with nextId := order + 1 }.updLaunch l.uid fun l =>
    { l with next := l.next + 1, noRoomSince := none, claim := none, state := .admitted
             admittedAt := if l.state = LaunchState.admitted then l.admittedAt else order }
  let part := (s.tenant l.tenant).partition
  let s3 := s2.updTenant l.tenant fun t => { t with queuePtr := (l.queue + 1) % 8 }
  { s3 with mgmt := { s3.mgmt with tenantPtr := s3.mgmt.tenantPtr.setIfInBounds part ((l.tenant + 1) % 16) } }

/-- BLOCK_DISPATCH in a partition. -/
def execBlockDispatch (part : Nat) (s : State) : Out :=
  match s.nextLaunch part with
  | none => .next s
  | some l => .next (s.dispatch l)

/-! ## Retirement (R70, R149, R364 to R370) -/

/-- BLOCK_RETIRE: the last group has ended, and no engine command or posted arrival of the block is left (R149, R390). -/
def execBlockRetire (blk : Nat) (s : State) : Out :=
  let gs := s.groups.filter fun g => g.ref.blk == blk
  let ended := gs.all fun g => decide (g.status = .ended) || decide (g.status = .killed)
  if !ended || s.blockCommands blk || s.arrivals.any (fun a => a.grp.blk == blk) then .next s
  else .next { s with
    blocks := s.blocks.filter fun b => b.id != blk
    groups := s.groups.filter fun g => g.ref.blk != blk }

/-- A block is the first of its scale group of 256 (R40). -/
def Desc.firstOfGroup (d : Desc) (c : Vector Int 5) : Bool := (d.scaleBase c).2 % 256 == 0

/-- The addresses that the digest reads for one coordinate, in order (R369). -/
def Desc.digestUnits (d : Desc) (c : Vector Int 5) : List (Option Word × Nat) :=
  let u (k : Unit3) : Option Word × Nat := (d.unitAddr c k, d.unitBytes k)
  if fmtBlockLen d.fmt = 0 then [u .bytes]
  else (if d.fmt = 14 ∧ d.firstOfGroup c then [u .super] else []) ++ [u .bytes, u .scale]

/-- The bytes that one output contributes. -/
def State.digestOf (s : State) (tenant t : Nat) (d : Desc) : Res (List Byte) := do
  let parts ← ((d.coords (max (fmtBlockLen d.fmt) 1)).flatMap d.digestUnits).mapM fun u => match u.1 with
    | some a => s.readFor tenant a u.2
    | none => trapNow .page
  pure (leBytes 1 t ++ leBytes 1 d.fmt ++ leBytes 1 d.rank ++ d.ext.toList.flatMap (leBytes 4) ++ parts.flatten)

/-- The byte string of R369; a read may fail (R370). -/
def State.digestString (s : State) (l : Launch) (omask : Word) : Res (List Byte) := do
  let parts ← ((List.range 64).filter omask.getLsbD).mapM fun t => match l.tids[t]?.getD none with
    | some d => s.digestOf l.tenant t d
    | none => .ok []
  pure parts.flatten

/-- The outputs that a launch's kernel names (R368). -/
def State.omaskFor (s : State) (l : Launch) : Word :=
  match (s.container? l.tenant l.handle).bind fun c => c.kernels[l.kidx]? with
  | some k => k.omask
  | none => 0

/-- The launch ends with a digest (R368). -/
def State.digests (s : State) (l : Launch) : Bool := l.det && s.omaskFor l != 0

/-- The status and digest of a launch that ran (R365, R368, R370); none while a read of the digest must wait. -/
def State.outcome (s : State) (l : Launch) : Option (Nat × Option (List Byte)) :=
  let killed := if l.kcode.isSome then 0x08 else 0
  if !s.digests l then some (killed, none)
  else match s.digestString l (s.omaskFor l) with
    | .ok bytes => some (killed, some (sha256 bytes))
    | .error (.wait _) => none
    | .error _ => some (if killed = 0 then 0x09 else killed, none)

/-- The reads of a launch's digest, as other agents see them (R299). -/
def State.touchDigest (s : State) (l : Launch) : State :=
  if !s.digests l then s
  else s.touchRanges l.tenant (((List.range 64).filter (s.omaskFor l).getLsbD).flatMap fun t => match l.tids[t]?.getD none with
    | some d => ((d.coords (max (fmtBlockLen d.fmt) 1)).flatMap d.digestUnits).filterMap fun u => u.1.map fun a => (a, u.2)
    | none => [])

/-- LAUNCH_RETIRE: every block has retired, or the launch was refused and waited for room. -/
def execLaunchRetire (uid : Nat) (s : State) : Out :=
  match s.launch? uid with
  | none => .next s
  | some l => match l.state with
    | .refused st => .next ((s.retire l st none).getD s)
    | .admitted =>
      if decide (l.next < l.units) || s.blocks.any (fun b => b.launch == uid) then .next s
      else match s.outcome l with
        | some r => .next (((s.touchDigest l).retire l r.1 r.2).getD s)
        | none => .next s
    | _ => .next s

/-! ## Records that waited for room (R351, R367) -/

/-- The oldest buffered record is written once its ring has room. A park whose record cannot be written becomes a kill, which is not
forgotten while it must wait (R351), and a launch whose record is dropped still has its vector (R364, R367). -/
def State.postBuffered (s : State) (t : Nat) (fault : Bool) : State :=
  let r := (s.tenant t).ring fault
  match r.buffer with
  | [] => s
  | rec :: rest =>
    let s1 := s.updTenant t fun x => x.setRing fault { r with buffer := rest }
    let vector (s2 : State) : State := match rec.vector with
      | some q => s2.sendVector t q
      | none => s2
    let lose (s2 : State) : State := match rec.park with
      | none => s2
      | some id => match s2.groups.find? fun g => (match g.park with | some p => p.id == id | none => false) with
        | some g => match g.park with
          | some p => (s2.kill g.ref p.info (g.trapMode && p.code != .brk)).getD
              (s2.updGroup g.ref fun g => { g with park := some { p with kill := true } })
          | none => s2
        | none => s2
    if !r.en then vector (lose (s1.dropRecord t fault))
    else if r.fill = 2 ^ r.logn ∨ s.slotWaits t fault then s
    else match s1.writeSlot t fault rec with
      | .posted s2 _ => s2
      | .dropped s2 => vector (lose s2)
      | .noRoom => s

def execFaultRecordPost (t : Nat) (s : State) : Out := .next (s.postBuffered t true)

def execCompletionPost (t : Nat) (s : State) : Out := .next (s.postBuffered t false)

/-! ## Device-side launch (R151) -/

/-- The tenant's lowest-numbered enabled queue that receives device-side launches. -/
def State.deviceQueue (s : State) (t : Nat) : Option Nat :=
  (List.range 8).find? fun q => (s.queue t q).en && (s.queue t q).devq

/-- The ring slot of a device-side launch, written for the tenant (R151). -/
def State.launchSlot (s : State) (c : Ctx) (va : Word) : Res Leaf := do
  let l ← s.translateBy (s.tablesOf c) c.l.tenant .store va 128
  s.reach l va true
  s.lineFree c (.phys l.key) 128 va
  .ok l

/-- `launch` copies its record into the ring, or answers why it did not; its record is checked before the release at `.sys`. A poisoned table sector in the walk to the slot parks
(R389), an owner or a link is waited for, and a lost peer is a machine check; the slot is written whole, which clears its
poison. -/
def execLaunch (d a : BitVec 6) (s : State) : Out :=
  s.scalarCtx fun c => do
    c.g.drained
    let va := c.g.getX a
    let tg ← s.resolveChecks c .load va 128
    s.settled c
    s.readable c tg 128
    let bytes := s.readBytes tg.place 128
    let s1 := s.touch (some c.g.ref) false tg.place 128
    let answer (t : State) (v : Word) : Res State := t.done fun g => (g.setX d v).advance.close
    match s.deviceQueue c.l.tenant with
    | none => answer s1 0x8000000000000001
    | some q =>
      let x := s.queue c.l.tenant q
      if (x.tail - x.head).toNat = 2 ^ x.logn then answer s1 0x8000000000000002
      else match s.launchSlot c (x.slot x.tail) with
        | .error (.park a d) => .error (.park a d)
        | .error (.wait w) => .error (.wait w)
        | .error (.trap .mcheck a d) => .error (.trap .mcheck a d)
        | .error _ => answer s1 0x8000000000000003
        | .ok l =>
          let s2 := (s1.finishCopies l.key 128).writeWhole none (.phys l.key) bytes
          let s3 := s2.updQueue c.l.tenant q fun x => { x with tail := x.tail + 1 }
          answer s3 (x.tail.zeroExtend 64)

/-! ## Pre-emption requested for room (R57, R359) -/

/-- Groups of one cluster instance: a request or a resumption reaches them all (R359). -/
def Launch.sameInstance (l : Launch) (a b : Block) : Bool :=
  if l.clus then a.launch == b.launch && a.b == b.b && a.vx / 2 ^ l.cwl == b.vx / 2 ^ l.cwl && a.vy / 2 ^ l.chl == b.vy / 2 ^ l.chl
  else a.id == b.id

/-- The resident groups of a launch on one of some cores. -/
def State.residentOn (s : State) (uid : Nat) (cores : List Nat) : List Group :=
  s.groups.filter fun g => g.status = .resident && cores.contains g.core && match s.block? g.ref.blk with
    | some b => b.launch == uid
    | none => false

/-- A request names groups, and with a CLUS kernel every resident group of their instances (R359). A group already named
keeps its time. -/
def State.request (s : State) (l : Launch) (gs : List Group) : State :=
  let named (r : GroupRef) : Bool := gs.any (fun g => g.ref == r) || (l.clus && gs.any fun g =>
    match s.block? g.ref.blk, s.block? r.blk with
    | some a, some b => l.sameInstance a b
    | _, _ => false)
  { s with groups := s.groups.map fun g =>
      if g.status = .resident ∧ named g.ref ∧ g.preemptAt.isNone then { g with preemptAt := some s.aoc.toNat } else g }

/-- Cores that a launch's waiting block needs and that lack room for it. A block that fits and is held back by R58's reserve alone
does not wait for room here, and no pre-emption is requested for it (log 52, DESIGN CHOICE). -/
def State.lacking (s : State) (l : Launch) : List Nat :=
  let ps := s.plans l l.next
  (planCores ps).filter fun c => !((s.occupied c).add (plansNeed l ps c)).ok

/-- The victim: lower PRIO, same partition; the lowest PRIO first, then the most recently admitted. A launch without resident groups on
these cores that no request has named yet is passed over, so that no request is empty (log 66, DESIGN CHOICE). -/
def State.victim (s : State) (l : Launch) (cores : List Nat) : Option Launch :=
  let part := (s.tenant l.tenant).partition
  let vs := s.launches.filter fun v =>
    decide (v.state = .admitted) && decide (v.prio < l.prio) && (s.tenant v.tenant).partition == part &&
    (s.residentOn v.uid cores).any fun g => g.preemptAt.isNone
  vs.foldl (fun (best : Option Launch) v => match best with
    | none => some v
    | some m => if v.prio < m.prio ∨ (v.prio = m.prio ∧ m.admittedAt < v.admittedAt) then some v else best) none

/-- PREEMPT_REQUEST: of a PRE launch whose next block has waited 4 µs, or of the management controllers. -/
def execPreemptRequest (by_ : PreemptBy) (s : State) : Out :=
  match by_ with
  | .launch uid => match s.launch? uid with
    | none => .next s
    | some l => match l.noRoomSince with
      | none => .next s
      | some t =>
        let cores := s.lacking l
        if !l.pre || !l.pending || cores.isEmpty || decide (s.aoc.toNat < t + 400) then .next s
        else match s.victim l cores with
          | none => .next s
          | some v =>
            let s1 := s.updLaunch uid fun l => { l with noRoomSince := some s.aoc.toNat }
            .next (s1.request v (s.residentOn v.uid cores))
  | .controller victim core => match s.launch? victim with
    | none => .next s
    | some v => .next (s.request v (s.residentOn victim [core]))

/-- Since when the next block of a PRE launch has lacked room. -/
def State.watchRoom (s : State) (l : Launch) : Launch :=
  if l.pre && l.pending then
    if (s.lacking l).isEmpty then { l with noRoomSince := none } else { l with noRoomSince := l.noRoomSince.or (some s.aoc.toNat) }
  else l

end Sys2Proof.Machine
end

