-- ==== Sys2Proof/Machine/LaneMemory.lean ====
section
/-! DEFINITION. Memory instructions of the lane side (R221 to R239). -/

namespace Sys2Proof.Machine

open Sys2Proof

/-! ## Checks of R223 -/

/-- One lane's checked access. -/
structure LaneAcc where
  lane : Fin 32
  va : Word
  tgt : Target
  deriving DecidableEq, Repr

/-- The checks of every executing lane in ascending order, and the pages that a write must copy first. -/
def State.laneTargets (s : State) (c : Ctx) (k : Access) (windowOnly : Bool) (n : Nat) :
    List (Fin 32 × Word) → List Nat → Res (List LaneAcc × List Nat)
  | [], pages => .ok ([], pages)
  | (i, va) :: rest, pages => do
    if windowOnly && !inWindows va then .error (.trap .operand va i.val)
    else
      let t ← withLane i.val (s.resolve c k va n)
      let pages ← if k.writes then s.versionGate c c.g.laneStep pages t va i.val else pure pages
      let r ← s.laneTargets c k windowOnly n rest pages
      pure (⟨i, va, t⟩ :: r.1, r.2)

/-- The address of each executing lane: S0 + IMM as R221 gives it. -/
def Ctx.addresses (x : Ctx) (mask : BitVec 32) (c : Lc) (a : Src) : List (Fin 32 × Word) :=
  (x.g.executing mask c).map fun i => (i, x.g.src .n64 c.imm i a + c.imm.signExtend 64)

/-- Reads of checked lanes are reachable and meet no poison. Every lane's own checks come first, then lane by lane the way to its bytes
with a peer's refusal, and its poison; a park names the lowest lane and its first sector, for loads as R353 has it for atomics (log 68,
DESIGN CHOICE). -/
def State.laneReadable (s : State) (x : Ctx) (n : Nat) (as : List LaneAcc) : Res Unit :=
  as.forM fun a => do
    withLane a.lane.val (s.reachable x a.tgt)
    match s.poisoned a.tgt.place n with
    | some q => .error (.park (a.tgt.report q) a.lane.val)
    | none => .ok ()

/-- The bits read into a register of type `t` (R222). -/
def placeValue (t : Ty) (bits : Nat) : Word :=
  if t.isSigned then BitVec.ofInt 64 (readInt true t.width bits) else BitVec.ofNat 64 bits

/-- The result of a lane among results listed by lane. -/
def byLane {α : Type} (rs : List (Fin 32 × α)) (dflt : α) (i : Fin 32) : α :=
  match rs.find? fun r => r.1 == i with
  | some r => r.2
  | none => dflt

/-- Others see the reads of checked lanes. -/
def State.touchLanes (s : State) (who : GroupRef) (n : Nat) (as : List LaneAcc) : State :=
  as.foldl (fun (s : State) a => s.touch (some who) false a.tgt.place n) s

/-- The path writes values by lane into DST and goes on. -/
def State.finishLoad (s : State) (p : Path) (c : Lc) (d : Dst) (vals : List (Fin 32 × LRes)) : Res State :=
  s.done fun g => (g.writeD p.mask c d (byLane vals ⟨0, flNone⟩)).advanceLane s.who.slot

/-! ## Plain loads and stores (R226, R227) -/

/-- `ld.g` and `ld.sp`. -/
def State.laneLoad (s : State) (windowOnly : Bool) (c : Lc) (t : Ty) (d : Dst) (a : Src) : Out :=
  s.laneCtx fun x p => do
    let n := t.width / 8
    let r ← s.laneTargets x .load windowOnly n (x.addresses p.mask c a) []
    s.laneReadable x n r.1
    let vals := r.1.map fun q => (q.lane, (⟨placeValue t (s.readNat q.tgt.place n), flNone⟩ : LRes))
    (s.touchLanes x.g.ref n r.1).finishLoad p c d vals

def execLdG (c : Lc) (_h : Hint) (t : Ty) (d : Dst) (a : Src) (s : State) : Out := s.laneLoad false c t d a

def execLdSp (c : Lc) (t : Ty) (d : Dst) (a : Src) (s : State) : Out := s.laneLoad true c t d a

/-- Stores of checked lanes wait for copies on write: those in progress, or new ones that start (R218). -/
def State.laneCopies (s : State) (x : Ctx) (as : List LaneAcc) (pages : List Nat) : Res (Option State) := do
  as.forM fun a => withLane a.lane.val (s.reachable x a.tgt)
  if !pages.isEmpty then .ok (some (s.beginCopies x (some s.who.slot) x.g.laneStep pages))
  else match as.find? fun a => s.mustCopy x.l.tenant a.tgt with
    | some a => .error (.wait (.copy a.tgt.pageKey))
    | none => .ok none

/-- `st.g` and `st.sp`: stores in ascending lane order (R224). -/
def State.laneStore (s : State) (windowOnly : Bool) (c : Lc) (t : Ty) (a b : Src) : Out :=
  s.laneCtx fun x p => do
    let n := t.width / 8
    let r ← s.laneTargets x .store windowOnly n (x.addresses p.mask c a) []
    match ← s.laneCopies x r.1 r.2 with
    | some s' => .ok s'
    | none =>
      let s := r.1.foldl (fun (s : State) q => s.writeNat (some x.g.ref) q.tgt.place n (x.g.src t c.imm q.lane b).toNat) s
      s.done fun g => g.advanceLane s.who.slot

def execStG (c : Lc) (_h : Hint) (t : Ty) (a b : Src) (s : State) : Out := s.laneStore false c t a b

def execStSp (c : Lc) (t : Ty) (a b : Src) (s : State) : Out := s.laneStore true c t a b

/-- `pf` has no architectural effect (R227). -/
def execPf (_c : Lc) (_h : Hint) (_a : Src) (s : State) : Out := s.lanePure fun g _ => g

/-! ## Full/empty accesses (R201, R202, R228) -/

/-- The granule of a scratchpad place. -/
def Place.granule (p : Place) : Nat × Nat :=
  match p with
  | .sp b o => (b, o / 16)
  | .phys k => (0, k / 16)

/-- Every granule is ready: full for a load, empty for a store. -/
def State.granulesReady (s : State) (full : Bool) (as : List LaneAcc) : Bool :=
  as.all fun a => s.isFull a.tgt.place.granule.1 a.tgt.place.granule.2 == full

/-- The granules' bits in one step. -/
def State.setGranules (s : State) (full : Bool) (as : List LaneAcc) : State :=
  as.foldl (fun (s : State) a => s.setFull a.tgt.place.granule.1 [a.tgt.place.granule.2] full) s

/-- The address that a waiting access names first. -/
def feAddr (as : List LaneAcc) : Word :=
  match as with
  | a :: _ => a.tgt.va
  | [] => 0

/-- A full/empty access that has taken effect ends a region (R154, R155); with no executing lane it has none. -/
def Group.closeIf (g : Group) (b : Bool) : Group := if b then g.close else g

/-- `ld.fe`: with `hold`, it stops even when its granules are ready, to be tested when the paths are examined (R130). -/
def State.feLoad (s : State) (hold : Bool) (c : Lc) (t : Ty) (clr : Bool) (d : Dst) (a : Src) (x : Ctx) (p : Path) :
    Res State := do
  let n := t.width / 8
  let r ← s.laneTargets x .load true n (x.addresses p.mask c a) []
  if clr && !r.1.isEmpty then s.settled x
  if !r.1.isEmpty && (hold || !s.granulesReady true r.1) then .error (.wait (.fe (feAddr r.1)))
  else do
    s.laneReadable x n r.1
    let vals := r.1.map fun q => (q.lane, (⟨placeValue t (s.readNat q.tgt.place n), flNone⟩ : LRes))
    let s1 := s.touchLanes x.g.ref n r.1
    let s2 := if clr then s1.setGranules false r.1 else s1
    let s3 ← s2.finishLoad p c d vals
    s3.done fun g => g.closeIf (clr && !r.1.isEmpty)

/-- `st.fe`. -/
def State.feStore (s : State) (hold : Bool) (c : Lc) (t : Ty) (a b : Src) (x : Ctx) (p : Path) : Res State := do
  let n := t.width / 8
  let r ← s.laneTargets x .store true n (x.addresses p.mask c a) []
  if !r.1.isEmpty then s.settled x
  if !r.1.isEmpty && (hold || !s.granulesReady false r.1) then .error (.wait (.fe (feAddr r.1)))
  else
    let s1 := r.1.foldl (fun (s : State) q => s.writeNat (some x.g.ref) q.tgt.place n (x.g.src t c.imm q.lane b).toNat) s
    (s1.setGranules true r.1).done fun g => (g.advanceLane s.who.slot).closeIf (!r.1.isEmpty)

def execLdFe (c : Lc) (t : Ty) (clr : Bool) (d : Dst) (a : Src) (s : State) : Out :=
  s.laneCtx fun x p => s.feLoad x.l.det c t clr d a x p

def execStFe (c : Lc) (t : Ty) (a b : Src) (s : State) : Out :=
  s.laneCtx fun x p => s.feStore x.l.det c t a b x p

/-! ## Versioned loads (R229) -/

/-- The places that versioned lanes read: each lane names its own step. -/
def State.stepTargets (s : State) (x : Ctx) (n : Nat) (c : Lc) (q : Src) : List (Fin 32 × Word) → Res (List LaneAcc)
  | [] => .ok []
  | (i, va) :: rest => do
    let t ← withLane i.val (s.resolve x .load va n)
    let step : Word32 := (x.g.src .n32 c.imm i q).extractLsb' 0 32
    match s.stepPlace x.l.tenant (some step) t with
    | none => .error (.trap .version va (32 + i.val))
    | some p => do
      s.updatesDone x p n
      let r ← s.stepTargets x n c q rest
      pure (⟨i, va, { t with place := p }⟩ :: r)

def execLdV (c : Lc) (_h : Hint) (t : Ty) (d : Dst) (a q : Src) (s : State) : Out :=
  s.laneCtx fun x p => do
    let n := t.width / 8
    let r ← s.stepTargets x n c q (x.addresses p.mask c a)
    s.laneReadable x n r
    let vals := r.map fun e => (e.lane, (⟨placeValue t (s.readNat e.tgt.place n), flNone⟩ : LRes))
    (s.touchLanes x.g.ref n r).finishLoad p c d vals

/-! ## Tensor loads (R230, R231) -/

/-- The checked reads of one element: its bytes, its scale code and its super-scale; none when padded. -/
structure ElemRead where
  elem : List Piece
  shift : Nat
  scale : List Piece
  super : List Piece
  deriving DecidableEq, Repr

def ElemRead.all (e : ElemRead) : List Piece := e.elem ++ e.scale ++ e.super

/-- The checks of one element read at step `q`: of the element's bytes, then of the scale code, then of the super-scale (log 68,
DESIGN CHOICE). -/
def State.elemRead (s : State) (x : Ctx) (q : Option Word32) (d : Desc) (c : Vector Int 5) : Res (Option ElemRead) :=
  match d.locate c with
  | .padded => .ok none
  | .out dim => .error (.trap .operand (BitVec.ofNat 64 dim) 0)
  | .elem addr n shift scale super => do
    let e ← s.readPieces x q addr n
    let sc ← match scale with
      | some a => s.readPieces x q a 1
      | none => pure []
    let su ← match super with
      | some a => s.readPieces x q a 4
      | none => pure []
    .ok (some ⟨e, shift, sc, su⟩)

/-- The code of an element read. -/
def State.elemCode (s : State) (fmt : Nat) (e : ElemRead) : Nat :=
  leNat (s.pieceBytes e.elem) / 2 ^ e.shift % 2 ^ fmtElemBits fmt

/-- The exact value of an element read. -/
def State.elemValue (s : State) (fmt : Nat) (e : ElemRead) : EVal :=
  fmtValue fmt (s.elemCode fmt e) (leNat (s.pieceBytes e.scale)) (leNat (s.pieceBytes e.super))

/-- What `ld.t` returns for an element (R231); a padded read gives +0. -/
def State.tensorResult (s : State) (fmt : Nat) (t : Ty) (e : Option ElemRead) : LRes :=
  match e with
  | none => ⟨0, flNone⟩
  | some e =>
    if fmt < 14 then ⟨placeValue t (s.elemCode fmt e), flNone⟩
    else
      let r := (fmtOf t).ofElem .rn 0 false (s.elemValue fmt e)
      ⟨BitVec.ofNat 64 r.bits, r.flags⟩

/-- Whether TYPE is accepted for a format (R231). -/
def tensorTypeOk (fmt : Nat) (t : Ty) : Bool := if fmt < 14 then t == Ty.ofCode (BitVec.ofNat 4 fmt) else t.isF

/-- Coordinates from the three registers of a group (R230). -/
def Lane.coords (l : Lane) (vc : BitVec 8) : Vector Int 5 :=
  let w (k : Nat) (hi : Bool) : Int := readInt true 32 ((l.v[vc.toNat + k]?.getD 0).toNat / (if hi then 2 ^ 32 else 1) % 2 ^ 32)
  #v[w 0 false, w 0 true, w 1 false, w 1 true, w 2 false]

/-- Coordinates of dimensions beyond the rank are 0. -/
def Desc.rankOk (d : Desc) (x : Vector Int 5) : Bool := (List.finRange 5).all fun i => decide (i.val < d.rank) || decide (x[i] = 0)

/-- The element reads of every executing lane, in ascending order. -/
def State.tensorReads (s : State) (x : Ctx) (d : Desc) (q : Option Word32) (vc : BitVec 8) :
    List (Fin 32) → Res (List (Fin 32 × Option ElemRead))
  | [] => .ok []
  | i :: rest => do
    let c := x.g.lanes[i].coords vc
    withLane i.val (ensure (d.rankOk c) .operand)
    let e ← withLane i.val (s.elemRead x q d c)
    let r ← s.tensorReads x d q vc rest
    pure ((i, e) :: r)

/-- The descriptor that a uniform operand names (R25, R230). -/
def Ctx.tidOf (x : Ctx) (imm : BitVec 13) (u : Uni) : Res Desc :=
  match x.b.tid? (x.g.uni imm u).toNat with
  | some d => .ok d
  | none => trapNow .operand

def execLdT (c : Lc) (_h : Hint) (t : Ty) (d : Dst) (tid : Uni) (vc : BitVec 8) (s : State) : Out :=
  s.laneCtx fun x p => do
    let desc ← x.tidOf c.imm tid
    ensure (tensorTypeOk desc.fmt t) .operand
    let rs ← s.tensorReads x desc (desc.step x.g.laneStep) vc (x.g.executing p.mask c)
    rs.forM fun r => match r.2 with
      | some e => s.readyPieces x r.1.val e.all
      | none => .ok ()
    let vals := rs.map fun r => (r.1, s.tensorResult desc.fmt t r.2)
    let s1 := rs.foldl (fun (s : State) r => match r.2 with
      | some e => s.touchPieces (some x.g.ref) e.all
      | none => s) s
    s1.finishLoad p c d vals

/-! ## MX blocks (R232 to R235) -/

/-- Lanes in a team. -/
def teamSize (k : Mxk) : Nat := if k = .e2m1 then 2 else 4

def mxkBlockBytes (k : Mxk) : Nat :=
  match k with
  | .e3m2 | .e2m3 => 24
  | .e2m1 => 16
  | _ => 32

def mxkAlign (k : Mxk) : Nat :=
  match k with
  | .e3m2 | .e2m3 => 8
  | .e2m1 => 16
  | _ => 32

/-- Bytes of a block that one part holds. -/
def partBytes (k : Mxk) : Nat := if k = .e3m2 ∨ k = .e2m3 then 6 else 8

/-- The register form of a part's bytes, and back (R232). -/
def partForm (k : Mxk) (bytes : List Byte) : Word :=
  if k = .e3m2 ∨ k = .e2m3 then
    packSubs 8 ((List.range 8).map fun e => leNat bytes / 2 ^ (6 * e) % 64)
  else BitVec.ofNat 64 (leNat bytes)

def partBack (k : Mxk) (v : Word) : List Byte :=
  if k = .e3m2 ∨ k = .e2m3 then
    leBytes 6 ((List.range 8).foldl (fun n e => n + subOf v 8 e % 64 * 2 ^ (6 * e)) 0)
  else leBytes 8 v.toNat

/-- A team with an executing lane: its first lane, its checked block and scale, and the place of every block byte. -/
structure Team where
  first : Nat
  block : List Piece
  scale : List Piece
  deriving DecidableEq, Repr

/-- Places of the block's bytes, in order. -/
def Team.places (t : Team) : List Place := t.block.flatMap fun p => (List.range p.n).map fun i => p.place.add i

/-- Places of the bytes that a lane's part holds. -/
def Team.part (t : Team) (k : Mxk) (lane : Nat) : List Place :=
  (t.places.drop (partBytes k * (lane - t.first))).take (partBytes k)

/-- Lane numbers of a team's executing lanes. -/
def Team.lanes (t : Team) (k : Mxk) (ex : List (Fin 32)) : List (Fin 32) :=
  ex.filter fun i => decide (t.first ≤ i.val) && decide (i.val < t.first + teamSize k)

/-- Checks 3 to 7 of R223 for a range of a team, page by page; the pages that the team writes are copied first (R235). -/
def State.teamPieces (s : State) (x : Ctx) (k : Access) (lane : Nat) (writes : Piece → Bool) :
    List (Word × Nat) → List Nat → Res (List Piece × List Nat)
  | [], pages => .ok ([], pages)
  | (a, m) :: rest, pages => do
    let t ← withLane lane (s.resolvePiece x k a m)
    let p : Piece := ⟨a, m, t, t.place⟩
    let pages' ← if k.writes then s.versionGate x x.g.laneStep pages t a lane else pure pages
    let r ← s.teamPieces x k lane writes rest (if writes p then pages' else pages)
    pure (p :: r.1, r.2)

/-- The bytes of the block that executing lanes' parts touch lie in this piece. -/
def touchesPiece (k : Mxk) (first : Nat) (e : Word) (ex : List (Fin 32)) (p : Piece) : Bool :=
  ex.any fun i =>
    let lo := partBytes k * (i.val - first)
    let off := (p.va - e).toNat
    decide (lo < off + p.n) && decide (off < lo + partBytes k)

/-- The checks of every team with an executing lane, in ascending order (R235). -/
def State.teams (s : State) (x : Ctx) (k : Access) (kind : Mxk) (a : Src) (ex : List (Fin 32)) :
    List Nat → List Nat → Res (List Team × List Nat)
  | [], pages => .ok ([], pages)
  | f :: rest, pages => do
    let mine := ex.filter fun i => decide (f ≤ i.val) && decide (i.val < f + teamSize kind)
    if mine.isEmpty then s.teams x k kind a ex rest pages
    else
      let e := x.g.src .n64 0 (Fin.ofNat 32 f) a
      let z := x.g.src .n64 0 (Fin.ofNat 32 (f + 1)) a
      withLane f (ensure (decide (e.toNat % mxkAlign kind = 0)) .align e)
      let b ← s.teamPieces x k f (touchesPiece kind f e mine) (pieces e (mxkBlockBytes kind)) pages
      let z' ← s.teamPieces x k (f + 1) (fun _ => true) (pieces z 1) b.2
      let r ← s.teams x k kind a ex rest z'.2
      pure (⟨f, b.1, z'.1⟩ :: r.1, r.2)

/-- First lanes of the teams. -/
def teamFirsts (k : Mxk) : List Nat := (List.range (32 / teamSize k)).map (teamSize k * ·)

/-- The team that a lane belongs to. -/
def teamOf (k : Mxk) (ts : List Team) (i : Fin 32) : Option Team :=
  ts.find? fun t => decide (t.first ≤ i.val) && decide (i.val < t.first + teamSize k)

/-- A team's pieces are reachable, and follow the group's posted operations; what a lane reads meets no poison. -/
def State.teamReady (s : State) (x : Ctx) (t : Team) : Res Unit := do
  t.block.forM fun q => withLane t.first (s.wayTo q.tgt)
  t.scale.forM fun q => withLane (t.first + 1) (s.wayTo q.tgt)
  (t.block ++ t.scale).forM fun q => s.lineFree x q.place q.n q.va
  (t.block ++ t.scale).forM fun q => s.updatesDone x q.place q.n

/-- A lane's part and the scale byte meet no poison; where both do, the park names the part's sector (log 68, DESIGN CHOICE). -/
def State.partReadable (s : State) (k : Mxk) (t : Team) (i : Fin 32) : Res Unit :=
  match (t.part k i.val).findSome? fun q => s.poisoned q 1, t.scale.find? fun q => (s.poisoned q.place 1).isSome with
  | some q, _ => .error (.park ((t.block.map fun p => p.tgt.report q).headD 0) i.val)
  | none, some q => .error (.park (q.tgt.report (q.place.alignDown 32)) i.val)
  | none, none => .ok ()

def execLdMx (c : Lc) (_h : Hint) (k : Mxk) (d : Dst) (a : Src) (sc : Dst) (s : State) : Out :=
  s.laneCtx fun x p => do
    let ex := x.g.executing p.mask c
    let r ← s.teams x .load k a ex (teamFirsts k) []
    r.1.forM fun t => do
      s.teamReady x t
      (t.lanes k ex).forM (s.partReadable k t)
    let s1 := r.1.foldl (fun (s : State) t => (t.lanes k ex).foldl (fun (s : State) i =>
      (t.part k i.val ++ t.scale.map (·.place)).foldl (fun (s : State) q => s.touch (some x.g.ref) false q 1) s) s) s
    let elems (i : Fin 32) : LRes := match teamOf k r.1 i with
      | some t => ⟨partForm k ((t.part k i.val).flatMap fun q => s.readBytes q 1), flNone⟩
      | none => ⟨0, flNone⟩
    let scale (i : Fin 32) : Word := match teamOf k r.1 i with
      | some t => BitVec.ofNat 64 (leNat (s.pieceBytes t.scale))
      | none => 0
    s1.done fun g => (g.writeDD p.mask c d sc elems scale).advanceLane s.who.slot

/-- The stores of one team in ascending lane order: each executing lane's part, and with the lowest the scale (R224, R234). The scale
is a write of its own, which R234 orders neither before nor behind that lane's part: it comes behind it, and so stays where Z lies in
that part (log 59, DESIGN CHOICE). -/
def State.storeTeam (s : State) (x : Ctx) (k : Mxk) (ex : List (Fin 32)) (b sc : Src) (t : Team) : State :=
  let part (s : State) (i : Fin 32) : State :=
    (List.zip (t.part k i.val) (partBack k (x.g.src .mx 0 i b))).foldl
      (fun (s : State) e => s.writeBytes (some x.g.ref) e.1 [e.2]) s
  match t.lanes k ex with
  | i :: rest =>
    rest.foldl part
      (t.scale.foldl (fun (s : State) p => s.writeNat (some x.g.ref) p.place 1 (x.g.src .n8 0 i sc).toNat) (part s i))
  | [] => s

def execStMx (c : Lc) (_h : Hint) (k : Mxk) (a b sc : Src) (s : State) : Out :=
  s.laneCtx fun x p => do
    let ex := x.g.executing p.mask c
    let r ← s.teams x .store k a ex (teamFirsts k) []
    r.1.forM (s.teamReady x)
    if !r.1.isEmpty then s.settled x
    let written := r.1.flatMap fun t => (t.block.filter (touchesPiece k t.first
      (x.g.src .n64 0 (Fin.ofNat 32 t.first) a) (t.lanes k ex))) ++ t.scale
    if !r.2.isEmpty then .ok (s.beginCopies x (some s.who.slot) x.g.laneStep r.2)
    else match written.find? fun q => s.mustCopy x.l.tenant q.tgt with
      | some q => .error (.wait (.copy q.tgt.pageKey))
      | none => (r.1.foldl (fun (s : State) t => s.storeTeam x k ex b sc t) s).done fun g => g.advanceLane s.who.slot

/-! ## Atomics (R236 to R239) -/

/-- The new value of a lane atomic. -/
def aopLane (op : Aop) (t : Ty) (old v c : Nat) : Nat :=
  if t.isInt then aopInt op t.isSigned t.width old v c else aopFloat op (fmtOf t) old v

/-- The updates of the executing lanes in ascending order, and the old values. -/
def State.atomics (s : State) (x : Ctx) (c : Lc) (op : Aop) (t : Ty) (b : Src) (cmp : Option Src) :
    List LaneAcc → State × List (Fin 32 × LRes)
  | [] => (s, [])
  | q :: rest =>
    let n := t.width / 8
    let old := s.readNat q.tgt.place n
    let v := subOf (x.g.src t c.imm q.lane b) t.width 0
    let e := match cmp with
      | some e => subOf (x.g.src t c.imm q.lane e) t.width 0
      | none => 0
    let new := aopLane op t old v e
    let r := State.atomics (s.putAtomic (some x.g.ref) q.tgt.place n op old new) x c op t b cmp rest
    (r.1, (q.lane, ⟨placeValue t old, flNone⟩) :: r.2)

/-- A lane atomic; with DST it returns the old values. -/
def State.laneAtomic (s : State) (c : Lc) (t : Ty) (op : Aop) (sc : Scope) (d : Option Dst) (a b : Src) (cmp : Option Src) :
    Out :=
  s.laneCtx fun x p => do
    let n := t.width / 8
    let as := x.addresses p.mask c a
    ensure (as.isEmpty || sc != .dm || s.dmaskOk x.l.tenant x.g.laneDmask) .operand
    let r ← s.laneTargets x .atomic false n as []
    s.laneReadable x n r.1
    match ← s.laneCopies x r.1 r.2 with
    | some s' => .ok s'
    | none =>
      let u := s.atomics x c op t b cmp r.1
      let s' ← match d with
        | some d => u.1.finishLoad p c d u.2
        | none => u.1.done fun g => g.advanceLane s.who.slot
      s'.done fun g => g.closeIf (!as.isEmpty)

def execAtom (c : Lc) (_h : Hint) (t : Ty) (op : Aop) (sc : Scope) (d : Dst) (a b : Src) (cmp : Option Src) (s : State) : Out :=
  s.laneAtomic c t op sc (some d) a b cmp

def execRedAt (c : Lc) (_h : Hint) (t : Ty) (op : Aop) (sc : Scope) (a b : Src) (s : State) : Out :=
  s.laneAtomic c t op sc none a b none

end Sys2Proof.Machine
end

