-- ==== Sys2Proof/Machine/Releases.lean ====
section
/-! DEFINITION. The ends of waits (R113, R228, R248, R252, R257, R292, R294, R297), and the choices of deterministic launches:
the current group of a coroutine set (R127 to R129) and the issuing path (R130). -/

namespace Sys2Proof.Machine

open Sys2Proof

/-! ## Whether a wait is satisfied -/

/-- A waiting `ld.fe` or `st.fe`, tried again: what it comes to now. -/
def State.feTry (s : State) (c : Ctx) (slot : Bool) (p : Path) : Res State :=
  let s := { s with who := ⟨c.g.ref, slot⟩ }
  match s.issueLane c p with
  | .ok (.ldFe lc t clr d a) => s.feLoad false lc t clr d a (c.onPath p) p
  | .ok (.stFe lc t a b) => s.feStore false lc t a b (c.onPath p) p
  | .ok _ => .error (.wait (.fe 0))
  | .error st => .error st

/-- The instruction would not wait again. -/
def resumes (r : Res State) : Bool :=
  match r with
  | .error (.wait _) => false
  | _ => true

/-- A waiter on an object is released: its block is abandoned, whatever has become of the object (R302), or the object can be read,
its page this device's (R214) and its line no engine's (R245), and its phase has passed or A is set (R292). -/
def State.phaserMet (s : State) (r : GroupRef) (obj : Place) (addr : Word) (attr : Nat) (bit : Bool) : Bool :=
  s.blockAbandoned r || (wayOpen && !s.lineHeld (some r) obj 16 && (s.poisoned obj 16).isNone && s.released r obj bit)
where
  wayOpen : Bool := match obj with
    | .phys k => (s.onWay ⟨k, k / pageSize * pageSize, attr, true, false⟩ addr).isOk
    | .sp _ _ => true

/-- A barrier object that can be read is open, behind the group's own operations on it (R248, R312). -/
def State.kwaitMet (s : State) (g : Group) (off : Nat) : Bool :=
  (s.poisoned (.sp g.ref.blk off) 16).isNone && s.kwaitOpen g off

def Group.monitored (g : Group) : Bool :=
  match g.monitor with
  | some m => m.written != 0
  | none => false

/-- A path's wait is satisfied. -/
def State.pathMet (s : State) (c : Ctx) (slot : Bool) (p : Path) : Bool :=
  match p.wait with
  | some (.fe _) => resumes (s.feTry c slot p)
  | some (.barWait obj addr attr bit _) => s.phaserMet c.g.ref obj addr attr bit
  | some _ => false
  | none => true

/-- The scalar stream's wait at a switch point is satisfied (R128, R129). -/
def State.scalarMet (s : State) (c : Ctx) : Bool :=
  match c.g.swait with
  | none | some .turn => true
  | some (.phaser obj addr attr bit) => s.phaserMet c.g.ref obj addr attr bit
  | some (.kwait off) => s.kwaitMet c.g off
  | some (.monitor ..) => c.g.monitored
  | some .planePair => decide (s.pairsOn c.g.core < 8)
  | some _ => false

/-- The waits of a group's streams and live paths. -/
def Group.waits (g : Group) : List Wait :=
  g.swait.toList ++ (g.path0.bind (·.wait)).toList ++ (g.path1.bind (·.wait)).toList

/-! ## Engine commands that can still change a condition (R128 step 2) -/

/-- The objects that accepted commands of a block's groups are still to count down or to arrive on. -/
def State.countDowns (s : State) (blk : Nat) : List (Place × Nat) :=
  (s.kicks.filter fun k => k.grp.blk == blk).map (fun k => (.sp blk k.bar, 16)) ++
  (s.groups.filter fun g => g.ref.blk == blk).flatMap (fun g => g.mcmds.flatMap fun m => match m with
    | .loop _ _ recs rec _ => ((recs.drop rec).filter (·.baren)).map fun r => (.sp blk r.baroff, 16)
    | .load .. | .swap _ => []) ++
  (s.colls.filter fun q => q.grp.blk == blk).flatMap fun q => (.sp blk q.bar, 16) :: (q.rph.toList.map fun p => (p.2.1, 16))

/-- An accepted command of a block's groups is still to write, to count down or to arrive in a range, or a posted operation of theirs
whose turn has come works on it. -/
def State.changing (s : State) (blk : Nat) (p : Place) (n : Nat) : Bool :=
  (s.dests.any fun d => d.grp.blk == blk && d.place.meets d.n p n) || (s.countDowns blk).any (fun q => q.1.meets q.2 p n) ||
  s.arrivals.any fun a => a.grp.blk == blk && s.arrivalDue a && a.obj.meets a.size p n

/-- An accepted command of a block's groups is still to make a granule of a range full (R201). -/
def State.filling (s : State) (blk : Nat) (p : Place) (n : Nat) : Bool :=
  s.dests.any fun d => d.grp.blk == blk && d.fills && d.place.meets d.n (p.alignDown 16) (max n 16)

/-- Matrix commands of a block's groups whose end unbinds a pair of the core (R259). -/
def State.unbinding (s : State) (blk core : Nat) : Bool :=
  s.groups.any fun g => g.ref.blk == blk && !g.mcmds.isEmpty && match g.planes with
    | some p => p.bound && p.core == core && (g.status != .resident || g.core != core)
    | none => false

/-- The ranges that a path's `ld.fe` or `st.fe` waits for. -/
def State.feRanges (s : State) (c : Ctx) (p : Path) : List (Place × Nat) :=
  match s.issueLane c p with
  | .ok (.ldFe lc t _ _ a) | .ok (.stFe lc t a _) => (((c.onPath p).addresses p.mask lc a).filterMap fun q =>
      match s.windowPlace c q.2 (t.width / 8) with
      | .ok o => some (o, t.width / 8)
      | .error _ => none)
  | _ => []

/-- No earlier command of the set's groups is left that can change the condition of the scalar stream's wait. -/
def State.quietScalar (s : State) (g : Group) : Bool :=
  match g.swait with
  | some (.kwait off) => !s.changing g.ref.blk (.sp g.ref.blk off) 16
  | some (.phaser obj ..) => !s.changing g.ref.blk obj 16
  | some (.monitor ..) => !g.monitor.any fun m => s.changing g.ref.blk m.granule 16
  | some .planePair => !s.unbinding g.ref.blk g.core
  | _ => true

/-- The same for a path's wait. -/
def State.quietPath (s : State) (g : Group) (p : Path) : Bool :=
  match p.wait with
  | some (.barWait obj ..) => !s.changing g.ref.blk obj 16
  | some (.fe _) => match s.ctxOf g with
    | some c => !(s.feRanges c p).any fun q => s.filling g.ref.blk q.1 q.2
    | none => true
  | _ => true

/-- What the test of a wait comes to: an earlier command can still change it, and the test is not made yet; or it is satisfied, or
not (R128, R130). -/
inductive Tested where
  | early | met | unmet
  deriving DecidableEq, Repr

def Tested.of (ready met : Bool) : Tested := if !ready then .early else if met then .met else .unmet

/-- The test of the scalar stream's wait. -/
def State.testScalar (s : State) (c : Ctx) : Tested := .of (s.quietScalar c.g) (s.scalarMet c)

/-! ## Paths of a deterministic launch (R130) -/

/-- The test whether a path may go on: it lives, has not parked at a join, and its wait, if any, is satisfied. Each wait is tested by
itself. -/
def State.testPath (s : State) (c : Ctx) (slot : Bool) : Tested :=
  match c.g.path slot with
  | some p => if p.parked then .unmet else .of (s.quietPath c.g p) (s.pathMet c slot p)
  | none => .unmet

/-- The examination of the paths: slot 0 first, and slot 1 when slot 0 cannot resume; with the slot that was tested last. -/
def State.testPaths (s : State) (c : Ctx) : Tested × Bool :=
  match s.testPath c false with
  | .unmet => (s.testPath c true, true)
  | t => (t, false)

/-- No trap of the group comes first, and it is not about to leave: neither stream issues (R155, R346, R347, R351). -/
def Group.undisturbed (g : Group) : Bool := g.detected.isEmpty && !g.deferredDue && !g.leaving

/-- A path's wait may be ended now: always in free mode, while no trap comes first and the group does not leave; in a deterministic
launch for the issuing path, when the examination comes to it (R130). -/
def State.mayRelease (s : State) (c : Ctx) (slot : Bool) : Bool :=
  c.runs && c.g.undisturbed && (!c.l.det || (c.g.issue1 == slot && s.testPaths c == (.met, slot)))

/-- The issuing path changes only when it parks, or stops at a `bar.wait`, `ld.fe` or `st.fe` (R130). -/
def Path.stops (p : Path) : Bool :=
  p.parked || match p.wait with
    | some (.fe _) | some (.barWait ..) => true
    | _ => false

/-- There are live paths that have not parked, each waits at a `bar.wait`, `ld.fe` or `st.fe`, and the test of each comes to what `f`
allows. -/
def State.laneTests (s : State) (c : Ctx) (f : Tested → Bool) : Bool :=
  let live := [false, true].filterMap fun slot => (c.g.path slot).bind fun p => if p.parked then none else some (slot, p)
  !live.isEmpty && live.all fun q => q.2.stops && f (s.testPath c q.1)

/-- The lane side has stopped: none of these waits is satisfied (R127). -/
def State.laneStopped (s : State) (c : Ctx) : Bool := s.laneTests c (· == .unmet)

/-- The lane side has stopped, or that is still to be tested. -/
def State.laneMayStop (s : State) (c : Ctx) : Bool := s.laneTests c (· != .met)

/-- PATH_SELECT: when the issuing path has parked or stopped, slot 0 is examined first, then slot 1, each when the commands that can
change its own wait have completed (R130). -/
def execPathSelect (r : GroupRef) (s : State) : Out :=
  match (s.group? r).bind s.ctxOf with
  | none => .next s
  | some c =>
    let holds := match c.g.path c.g.issue1 with
      | some p => p.stops
      | none => true
    if !c.l.det || !c.runs || !holds then .next s
    else match s.testPaths c with
      | (.met, slot) => .next (s.updGroup r fun g => { g with issue1 := slot })
      | _ => .next s

/-! ## Releases -/

/-- FE_WAIT_SATISFIED: all granules are ready, and the access is made with its changes of the bits (R228). -/
def execFeWaitSatisfied (r : GroupRef) (slot : Bool) (s : State) : Out :=
  match (s.group? r).bind s.ctxOf with
  | none => .next s
  | some c => match c.g.path slot with
    | none => .next s
    | some p =>
      if !(match p.wait with | some (.fe _) => true | _ => false) || p.parked || !s.mayRelease c slot then .next s
      else { s with who := ⟨r, slot⟩ }.settle c.g (some slot) (s.feTry c slot p)

/-- PHASER_RELEASE of a `pwait` (`path` none) or of a `bar.wait`; in a deterministic launch a `pwait` ends when its group
becomes current. -/
def execPhaserRelease (r : GroupRef) (path : Option Bool) (s : State) : Out :=
  match (s.group? r).bind s.ctxOf with
  | none => .next s
  | some c => match path with
    | none => match c.g.swait with
      | some (.phaser obj addr attr bit) =>
        if c.runs && c.g.undisturbed && !c.l.det && s.phaserMet r obj addr attr bit then .next (s.pwaitDone r obj) else .next s
      | _ => .next s
    | some slot => match c.g.path slot with
      | some p => match p.wait with
        | some (.barWait obj addr attr bit d) =>
          if !p.parked && s.mayRelease c slot && s.phaserMet r obj addr attr bit then .next (s.barWaitDone r slot obj d) else .next s
        | _ => .next s
      | none => .next s

/-- A `kwait` completes with an acquire. -/
def State.kwaitDone (s : State) (r : GroupRef) (off : Nat) : State :=
  (s.touch (some r) false (.sp r.blk off) 16).updGroup r Group.advance

/-- KWAIT_RELEASE (R248). -/
def execKwaitRelease (r : GroupRef) (s : State) : Out :=
  match (s.group? r).bind s.ctxOf with
  | none => .next s
  | some c => match c.g.swait with
    | some (.kwait off) => if c.runs && c.g.undisturbed && !c.l.det && s.kwaitMet c.g off then .next (s.kwaitDone r off) else .next s
    | _ => .next s

/-- MONITOR_WAKE: the causes of R297; a write must have come, and a timeout passed; a deterministic launch has none here. -/
def execMonitorWake (r : GroupRef) (cause : WakeCause) (s : State) : Out :=
  match (s.group? r).bind s.ctxOf with
  | none => .next s
  | some c => match c.g.swait with
    | some (.monitor _ deadline) =>
      let due := match cause with
        | .monitoredWrite => c.g.monitored
        | .timeout => match deadline with
          | some d => decide (d < s.aoc.toNat)
          | none => false
        | .eviction | .interrupt | .spurious => true
      if c.runs && c.g.undisturbed && !c.l.det && due then .next (s.updGroup r Group.wake) else .next s
    | _ => .next s

/-- The scalar stream's wait ends, and its instruction issues again. -/
def State.reissue (s : State) (r : GroupRef) (slot : Option Bool) : State :=
  s.updGroup r fun g => match slot with
    | none => { g with swait := none }
    | some b => g.setPath b ((g.path b).map fun p => { p with wait := none })

/-- The scalar stream waits for the segment queue to become empty (R113). -/
def Wait.forDrain : Wait → Bool
  | .drain | .lanesIdle | .sweepDrain _ => true
  | _ => false

/-- DRAIN: the segment queue is empty (R113). -/
def execDrain (r : GroupRef) (s : State) : Out :=
  match s.group? r with
  | none => .next s
  | some g =>
    if g.segs.isEmpty && g.swait.any Wait.forDrain then .next (s.reissue r none) else .next s

/-- QUEUE_ROOM: room for an `lrun` or a `push`, an entry for a `qpop` or no segment that could bring one (R113). -/
def execQueueRoom (r : GroupRef) (path : Option Bool) (s : State) : Out :=
  match s.group? r with
  | none => .next s
  | some g => match path with
    | none =>
      if (g.swait == some .segRoom && decide (g.segs.length < 8)) ||
        (g.swait == some .retEntry && (!g.retq.isEmpty || g.segs.isEmpty)) then .next (s.reissue r none) else .next s
    | some slot =>
      if (g.path slot).bind (·.wait) == some .retRoom && decide (g.retq.length < 16) then .next (s.reissue r (some slot))
      else .next s

/-- MWAIT_COMPLETE (R257), behind a trap that comes first (R346) and the group's posted reads (R308). -/
def execMwaitComplete (r : GroupRef) (s : State) : Out :=
  match s.group? r with
  | none => .next s
  | some g =>
    if g.swait == some .mwait && g.mcmds.isEmpty && !s.readsDue r && g.park.isNone && g.undisturbed then .next (s.updGroup r Group.collect)
    else .next s

/-- PLANE_PAIR_FREE: a pair of the core is unbound, and the command issues again and binds it (R252). At a switch point of a
deterministic launch the choice is the coroutine set's (R127, R129). -/
def execPlanePairFree (r : GroupRef) (s : State) : Out :=
  match (s.group? r).bind s.ctxOf with
  | none => .next s
  | some c =>
    let switch := c.l.det && (c.g.segs.isEmpty || s.laneMayStop c)
    if c.g.swait == some .planePair && c.runs && !switch && decide (s.pairsOn c.g.core < 8) then .next (s.reissue r none)
    else .next s

/-! ## The next current group (R127 to R129) -/

/-- The scalar stream still waits on its own lane side: for a drain, on a full segment queue, or on an empty return queue (R127). -/
def Group.waitsOnLanes (g : Group) : Bool :=
  match g.swait with
  | some .drain | some (.sweepDrain _) | some .lanesIdle => !g.segs.isEmpty
  | some .segRoom => decide (8 ≤ g.segs.length)
  | some .retEntry => g.retq.isEmpty && !g.segs.isEmpty
  | _ => false

/-- The current group is at the second or third switch point of R127. -/
def State.atSwitch (s : State) (c : Ctx) : Bool :=
  (c.g.waitsOnLanes && s.laneStopped c) || (c.g.swait == some .planePair && (c.g.segs.isEmpty || s.laneStopped c))

/-- The test of a group: a deferred trap of it is due, which it takes as it becomes current (R346); its scalar stream does not wait, as
before its first instruction, or its wait is satisfied; or one of its stopped paths can go on (R128, R129). What is not tested yet
holds the choice only while nothing else satisfies the group. -/
def State.testGroup (s : State) (c : Ctx) : Tested :=
  if c.g.deferredDue then .met
  else match s.testScalar c, (s.testPaths c).1 with
    | .met, _ | _, .met => .met
    | .early, _ | _, .early => .early
    | .unmet, .unmet => .unmet

/-- The groups of a set in the order of R128. -/
def State.setOrder (s : State) (blk : Nat) (after : Option Nat) : List Group :=
  let n := ((s.block? blk).map (·.ngrp)).getD 0
  let start := match after with
    | some a => a + 1
    | none => 0
  (List.range n).filterMap fun i => s.group? ⟨blk, (start + i) % max n 1⟩

/-- What the examination of a set comes to: a test must still wait for commands of the set, a group is chosen, or no group is
satisfied. -/
inductive Choice where
  | hold
  | chosen (c : Ctx)
  | nobody

/-- Kicks of the set, or posted operations whose turn has come, but for those that poison holds: a group that becomes current finds
them performed (R248, R295, R303, R319, R390). -/
def State.setBusy (s : State) (blk : Nat) : Bool :=
  s.kicks.any (fun k => k.grp.blk == blk) || s.arrivals.any fun a => a.grp.blk == blk && s.arrivalDue a

/-- The first group whose condition is satisfied, each tested when the commands that can change it have completed (R128). -/
def State.firstMet (s : State) : List Group → Choice
  | [] => .nobody
  | g :: rest =>
    if g.status ≠ .resident then s.firstMet rest
    else match s.ctxOf g with
      | none => .nobody
      | some c => match s.testGroup c with
        | .early => .hold
        | .met => .chosen c
        | .unmet => s.firstMet rest

/-- The examination of a set, behind the group `after` when one has yielded. -/
def State.nextCurrent (s : State) (blk : Nat) (after : Option Nat) : Choice :=
  if s.setBusy blk then .hold else s.firstMet (s.setOrder blk after)

/-- The scratchpad as a group that becomes current finds it, with what the group has posted and is still to be performed done: its
tests answer from it (R303, R312; log 31). -/
def State.viewOf (s : State) (g : Group) (m : Memory) : Option Memory :=
  ((s.arrivals.filter fun a => a.grp == g.ref).foldl (fun (g : Group) a => g.snapAt a.obj a.size a.op.apply) { g with snap := some m }).snap

/-- The chosen group becomes current: its tests answer as of now, and the wait that was satisfied ends (R128, R303); a deferred trap that
is due comes first (R346). -/
def State.makeCurrent (s : State) (c : Ctx) : State :=
  let r := c.g.ref
  let s1 := (s.updBlock r.blk fun b => { b with co := .current r.gid }).updGroup r fun g =>
    { g with snap := s.viewOf g c.b.scratch, issue1 := s.testPaths c == (.met, true) }
  if c.g.deferredDue || s.testScalar c != .met then s1
  else match c.g.swait with
    | some .turn => s1.updGroup r Group.advance
    | some (.phaser obj ..) => s1.pwaitDone r obj
    | some (.kwait off) => s1.kwaitDone r off
    | some (.monitor ..) => s1.updGroup r Group.wake
    | some .planePair => s1.reissue r none
    | _ => s1

/-- A choice is due: the position of the set is open, or its current group stands at a switch point; after a `yield`, the
group behind which the examination starts. -/
def State.switchStart (s : State) (b : Block) : Option (Option Nat) :=
  match b.co with
  | .opened after => some after
  | .current gid => match (s.group? ⟨b.id, gid⟩).bind s.ctxOf with
    | some c => if c.runs && s.atSwitch c then some none else none
    | none => none

/-- The set waits under R128 step 5: a choice is due, and no group is satisfied. -/
def State.setWaits (s : State) (b : Block) : Bool :=
  match s.switchStart b with
  | some after => match s.nextCurrent b.id after with
    | .nobody => true
    | _ => false
  | none => false

/-- COROUTINE_SWITCH: the position of a set is open, or its current group stands at a switch point. -/
def execCoroutineSwitch (blk : Nat) (s : State) : Out :=
  match s.block? blk with
  | none => .next s
  | some b => match s.launch? b.launch with
    | none => .next s
    | some l =>
      if !l.det then .next s
      else match s.switchStart b with
        | none => .next s
        | some after => match s.nextCurrent blk after with
          | .chosen c => .next (s.makeCurrent c)
          | _ => .next s

end Sys2Proof.Machine
end

