-- ==== Sys2Proof/Machine/Traversal.lean ====
section
/-! DEFINITION. The traversal units (R260 to R273). The instruction makes its checks and captures its request, and its path goes
on behind the result; `TRAVERSAL_RESULT` does the work of every lane and writes the results. -/

namespace Sys2Proof.Machine

open Sys2Proof

/-! ## Exact reals -/

def Exact.sub (a b : Exact) : Exact := a.add b.neg'

/-- The quotient by a number that is not 0. -/
def Exact.quot (a b : Exact) : Exact := ⟨xor a.neg b.neg, a.num * b.den, a.den * b.num⟩

def Exact.lt (a b : Exact) : Bool := !b.le a

def Exact.same (a b : Exact) : Bool := a.le b && b.le a

/-- Above 0. -/
def Exact.pos (a : Exact) : Bool := !a.neg && a.num != 0

/-- Below 0. -/
def Exact.below0 (a : Exact) : Bool := a.neg && a.num != 0

def Exact.floor (a : Exact) : Int := (if a.neg then -(a.num : Int) else a.num) / (a.den : Int)

def Exact.ofNat (n : Nat) : Exact := ⟨false, n, 1⟩

def Exact.one : Exact := ⟨false, 1, 1⟩

/-- Vectors of three exact reals. -/
abbrev Vec3 := Vector Exact 3

def Vec3.dot (a b : Vec3) : Exact := ((a[0].mul b[0]).add (a[1].mul b[1])).add (a[2].mul b[2])

def Vec3.cross (a b : Vec3) : Vec3 :=
  #v[(a[1].mul b[2]).sub (a[2].mul b[1]), (a[2].mul b[0]).sub (a[0].mul b[2]), (a[0].mul b[1]).sub (a[1].mul b[0])]

def Vec3.sub (a b : Vec3) : Vec3 := #v[a[0].sub b[0], a[1].sub b[1], a[2].sub b[2]]

/-- A datum is a real number. -/
def FVal.real : FVal → Bool
  | .fin .. => true
  | _ => false

/-- `RoundNE32` of an exact real; the real number 0 has no sign. -/
def round32 (x : Exact) : Nat := if x.isZero then 0 else (fp32.roundOr .rn 0 false x.neg x).bits

/-- An FP32 encoding in FP64. -/
def widen32 (b : Nat) : Nat := (fp64.ofFloat fp32 .rn 0 false b).bits

/-! ## Ray records (R261) -/

structure Ray where
  ob : Vector Nat 3                            -- origin, FP64
  db : Vector Nat 3                            -- direction, FP32
  tmin : Nat
  tmax : Nat
  limit : Nat
  out : Nat
  outen : Bool
  cull : Bool
  any : Bool
  mask : Nat
  reserved : Bool
  deriving DecidableEq, Repr

/-- A register of a lane by number. -/
def Lane.reg (l : Lane) (n : Nat) : Nat := (l.v[n]?.getD 0).toNat

/-- The eight registers from `r`. -/
def Lane.regs8 (l : Lane) (r : BitVec 8) : Vector Word 8 := Vector.ofFn fun i => BitVec.ofNat 64 (l.reg (r.toNat + i.val))

/-- The ray record in a group of eight registers. -/
def Ray.ofRegs (ws : Vector Word 8) : Ray :=
  let v (i : Nat) : Nat := (ws[i]?.getD 0).toNat
  { ob := #v[v 0, v 1, v 2], db := #v[nbits (v 3) 31 0, nbits (v 3) 63 32, nbits (v 4) 31 0], tmin := nbits (v 4) 63 32
    tmax := nbits (v 5) 31 0, limit := if nbits (v 5) 63 32 = 0 then 65536 else nbits (v 5) 63 32, out := nbits (v 6) 50 32
    outen := nbits (v 6) 10 10 == 1, cull := nbits (v 6) 9 9 == 1, any := nbits (v 6) 8 8 == 1, mask := nbits (v 6) 7 0
    reserved := nbits (v 6) 63 51 != 0 || nbits (v 6) 31 11 != 0 || v 7 != 0 }

def Ray.origin (r : Ray) : Vec3 := r.ob.map fun b => (fp64.decode b).exact

def Ray.dir (r : Ray) : Vec3 := r.db.map fun b => (fp32.decode b).exact

def Ray.t0 (r : Ray) : Exact := (fp32.decode r.tmin).exact

/-- TMAX, none for +∞. -/
def Ray.t1 (r : Ray) : Option Exact :=
  match fp32.decode r.tmax with
  | .inf _ => none
  | v => some v.exact

/-- An invalid ray. -/
def Ray.invalid (r : Ray) : Bool :=
  !(r.ob.all fun b => (fp64.decode b).real) || !(r.db.all fun b => (fp32.decode b).real) || !(fp32.decode r.tmin).real ||
  (r.dir.all fun d => d.isZero) || r.t0.below0 ||
  match fp32.decode r.tmax with
  | .nan .. => true
  | .inf neg => neg
  | v => v.exact.lt r.t0

/-- The position at a rounded parameter: fma(t, d, o) in FP64 (R267, R271). -/
def Ray.position (r : Ray) (t : Nat) : List Nat :=
  (List.finRange 3).map fun i => (fp64.fma .rn 0 (widen32 t) (widen32 r.db[i]) r.ob[i]).bits

/-- The record of an invalid ray: KIND 4 and t = TMIN at their places. -/
def Ray.invalidRecord (r : Ray) (kindReg : Nat) : List Nat :=
  (List.range 8).map fun i => if i = 3 then r.tmin else if i = kindReg then 4 else 0

/-! ## The unit at work: state is kept when it stops, for feedback entries stay (R262) -/

/-- The work of a unit. -/
abbrev Job := ExceptT Stop (StateM State)

/-- A result or a stop. -/
def Job.ofRes {α : Type} (r : Res α) : Job α :=
  match r with
  | .ok a => pure a
  | .error e => throw e

/-- A read of `n` bytes at `va` by a lane, at a step (R260). -/
def Job.read (x : Ctx) (lane : Nat) (q : Option Word32) (va : Word) (n : Nat) : Job (List Byte) := do
  let s ← get
  let ps ← Job.ofRes (withLane lane (s.readPieces x q va n))
  Job.ofRes (s.readyPieces x lane ps)
  set (s.touchPieces (some x.g.ref) ps)
  pure (s.pieceBytes ps)

/-- A record that breaks the rules of an image. -/
def Job.bad {α : Type} (lane : Nat) (va : Word) : Job α := throw (.trap .operand va lane)

/-- A record of an image: wholly below EXT0 and aligned; its alignment is judged on its offset from BASE (log 61, DESIGN CHOICE). -/
def Job.record (x : Ctx) (lane : Nat) (q : Option Word32) (d : Desc) (off n align : Nat) : Job (List Byte) :=
  let va := d.base + BitVec.ofNat 64 off
  if d.ext[0] < off + n ∨ off % align ≠ 0 then Job.bad lane va else Job.read x lane q va n

/-- The number in `n` bytes at an offset of a record. -/
def fieldOf (l : List Byte) (off n : Nat) : Nat := leNat ((l.drop off).take n)

def zerosIn (l : List Byte) (off n : Nat) : Bool := ((l.drop off).take n).all (· == 0)

/-- A free real number: the `k`-th for the operands and data of `key` (log 15). -/
def freeExact (key : List Nat) (k : Nat) : Exact :=
  let r := Config.freeReal key k
  ⟨decide (r.1 < 0), r.1.natAbs, r.2 + 1⟩

/-! ## Residency feedback (R272) -/

/-- One access of `n` bytes of the feedback buffer: none when it would fault and is dropped; an owner, a link, a copy in progress
or an earlier operation it waits for, as every access does. A plain store into a poisoned sector is no fault (R354); a read or an
atomic that meets one drops the feedback, and so does the atomic in a deterministic launch, as R238 has it for `atom` (log 61, DESIGN
CHOICE). -/
def Job.feedbackPlace (x : Ctx) (k : Access) (va : Word) (n : Nat) : Job (Option Place) := do
  let s ← get
  let way : Res Target := do
    let t ← s.resolve x k va n
    if k = .store then s.reachable x t else s.readable x t n
    pure t
  match way with
  | .error (.wait w) => throw (.wait w)
  | .error _ => pure none
  | .ok t =>
    if k.writes && s.mustCopy x.l.tenant t then
      if s.copying t.pageKey then throw (.wait (.copy t.pageKey))
      else if (s.cowFault (s.version x.l.tenant t.pageKey) x.l.tenant x.g.laneStep 1).isSome then pure none
      else do
        set (s.cowNow x.l.tenant t.pageKey x.g.laneStep)
        pure (some t.place)
    else pure (some t.place)

/-- `Feedback(kind, key)`: the atomic on PUT, the read of MSK and the entry's write, each dropped when it would fault; nothing
when the descriptor names no buffer. -/
def Job.feedback (x : Ctx) (d : Desc) (kind : Nat) (key : Word) : Job Unit := do
  if d.sbase = 0 then pure ()
  else match ← Job.feedbackPlace x .atomic d.sbase 8 with
    | none => pure ()
    | some p => do
      let i := (← get).readNat p 8
      modify fun s => s.writeNat (some x.g.ref) p 8 ((i + 1) % 2 ^ 64)
      match ← Job.feedbackPlace x .load (d.sbase + 8) 8 with
      | none => pure ()
      | some m => do
        let mask := (← get).readNat m 8
        modify fun s => s.touch (some x.g.ref) false m 8
        let slot := d.sbase + BitVec.ofNat 64 (0x40 + 16 * (i &&& mask))
        match ← Job.feedbackPlace x .store slot 8, ← Job.feedbackPlace x .store (slot + 8) 8 with
        | some q, some q' => modify fun s =>
          (s.writeNat (some x.g.ref) q 8 key.toNat).writeNat (some x.g.ref) q' 8 kind
        | _, _ => pure ()

/-! ## Slabs -/

/-- A bound of a box: an infinity or a real number. -/
inductive Bound where
  | inf (neg : Bool)
  | real (x : Exact)
  deriving DecidableEq, Repr

def FVal.bound : FVal → Bound
  | .inf n => .inf n
  | v => .real v.exact

/-- The parameters for which a ray lies within one axis of a closed box: none when there are none, with no bound where the
interval is unbounded. -/
def slabAxis (o d : Exact) (lo hi : Bound) : Option (Option Exact × Option Exact) :=
  let at' (b : Exact) : Exact := (b.sub o).quot d
  if d.isZero then
    let above := match lo with
      | .inf n => n
      | .real b => b.le o
    let below := match hi with
      | .inf n => !n
      | .real b => o.le b
    if above && below then some (none, none) else none
  else
    let first := if d.neg then hi else lo
    let last := if d.neg then lo else hi
    match first, last with
    | .inf n, .inf m => if n != m && n != d.neg then some (none, none) else none
    | .inf n, .real b => if n != d.neg then some (none, some (at' b)) else none
    | .real a, .inf m => if m == d.neg then some (some (at' a), none) else none
    | .real a, .real b => some (some (at' a), some (at' b))

def maxOpt (a : Exact) (b : Option Exact) : Exact :=
  match b with
  | some b => if a.le b then b else a
  | none => a

def minOpt (a b : Option Exact) : Option Exact :=
  match a, b with
  | some a, some b => some (if a.le b then a else b)
  | none, b => b
  | a, none => a

/-- The interval of a box met with [t0, t1]. -/
def slabMeet (o d : Vec3) (lo hi : Vector Bound 3) (t0 : Exact) (t1 : Option Exact) : Option (Exact × Option Exact) :=
  let r := (List.finRange 3).foldl (fun (a : Option (Exact × Option Exact)) i =>
    match a, slabAxis o[i] d[i] lo[i] hi[i] with
    | some (l, h), some (l', h') => some (maxOpt l l', minOpt h h')
    | _, _ => none) (some (t0, t1))
  match r with
  | some (l, some h) => if l.le h then some (l, some h) else none
  | r => r

/-- A box with min > max or a NaN bound is empty (R265). -/
def boxEmpty (lo hi : Vector FVal 3) : Bool :=
  (List.finRange 3).any fun i => match lo[i], hi[i] with
    | .nan .., _ => true
    | _, .nan .. => true
    | .inf m, .inf n => !m && n
    | .inf m, _ => !m
    | _, .inf n => n
    | a, b => b.exact.lt a.exact

/-! ## Triangles (R264 to R267) -/

/-- A ray in the space of the records it meets; `real`: every component is a real number; `key`: the numbers it comes from. -/
structure SpaceRay where
  o : Vec3
  d : Vec3
  real : Bool
  key : List Nat
  deriving DecidableEq, Repr

structure Hit where
  t : Exact
  u : Exact
  v : Exact
  front : Bool
  prim : Nat
  iid : Nat
  inst : Nat
  tri : Nat
  deriving DecidableEq, Repr

/-- What a lane's traversal has found; `over`: the lane has ended, with KIND 3 when `limit`. -/
structure Trav where
  best : Option Hit
  nr : Bool
  visits : Nat
  ended : Bool
  limit : Bool
  deriving DecidableEq, Repr

/-- The instance whose bottom records are visited. -/
structure InstRef where
  off : Nat
  iid : Nat
  deriving DecidableEq, Repr

/-- Types that a place permits (R264). -/
inductive RefPlace where
  | root | top | inst | bottom
  deriving DecidableEq, Repr

def RefPlace.permits (p : RefPlace) (t : Nat) : Bool :=
  match p with
  | .root => t == 1 || t == 2
  | .top => t == 0 || t == 1 || t == 2
  | .inst => t == 3 || t == 4 || t == 5
  | .bottom => t == 0 || t == 3 || t == 4 || t == 5

/-- A reference meets R264 where it stands. -/
def refOk (p : RefPlace) (w : Nat) : Bool :=
  let t := nbits w 3 0
  p.permits t && (t == 2 || t == 4 || nbits w 63 52 == 0)

/-- What a unit works with for one lane. -/
structure TraceEnv where
  x : Ctx
  lane : Nat
  q : Option Word32
  d : Desc
  ray : Ray
  deriving DecidableEq, Repr

def TraceEnv.record (e : TraceEnv) (off n align : Nat) : Job (List Byte) := Job.record e.x e.lane e.q e.d off n align

/-- A rule of the image that the record at `off` must meet; where it breaks, TADDR names the record's first byte (log 61, DESIGN
CHOICE). -/
def TraceEnv.need (e : TraceEnv) (off : Nat) (b : Bool) : Job Unit :=
  if b then pure () else Job.bad e.lane (e.d.base + BitVec.ofNat 64 off)

/-- tc: the exact t of the best hit, or TMAX. -/
def TraceEnv.tc (e : TraceEnv) (v : Trav) : Option Exact :=
  match v.best with
  | some h => some h.t
  | none => e.ray.t1

/-- A box of a node: its six bounds, and the numbers that hold them. -/
structure Box where
  lo : Vector FVal 3
  hi : Vector FVal 3
  key : List Nat
  deriving DecidableEq, Repr

/-- Whether the test of a box passes. -/
def TraceEnv.slab (e : TraceEnv) (r : SpaceRay) (v : Trav) (b : Box) : Bool :=
  if boxEmpty b.lo b.hi then false
  else if r.real then (slabMeet r.o r.d (b.lo.map FVal.bound) (b.hi.map FVal.bound) e.ray.t0 (e.tc v)).isSome
  else
    let p := freeExact (r.key ++ b.key) 0
    let q := freeExact (r.key ++ b.key) 1
    let l := maxOpt e.ray.t0 (some (if p.le q then p else q))
    match minOpt (e.tc v) (some (if p.le q then q else p)) with
    | some h => l.le h
    | none => true

/-- t, u, v and n·d′ of a ray and a triangle, as exact reals (R266). -/
def triangleReals (r : SpaceRay) (v0 v1 v2 : Vec3) : Exact × Exact × Exact × Exact :=
  let e1 := Vec3.sub v1 v0
  let e2 := Vec3.sub v2 v0
  let nd := Vec3.dot (Vec3.cross e1 e2) r.d
  let p := Vec3.cross r.d e2
  let det := Vec3.dot e1 p
  let tv := Vec3.sub r.o v0
  let q := Vec3.cross tv e1
  if nd.isZero then (Exact.zero, Exact.zero, Exact.zero, nd)
  else ((Vec3.dot e2 q).quot det, (Vec3.dot tv p).quot det, (Vec3.dot r.d q).quot det, nd)

/-- A hit replaces the best when its t is smaller, or equal with the lower pair of addresses. -/
def Hit.better (h : Hit) (best : Option Hit) : Bool :=
  match best with
  | none => true
  | some b => h.t.lt b.t || (h.t.same b.t && (decide (h.inst < b.inst) || (decide (h.inst = b.inst) && decide (h.tri < b.tri))))

/-- `Test` of R266 on a triangle record at `off`. -/
def TraceEnv.test (e : TraceEnv) (r : SpaceRay) (i : InstRef) (off : Nat) (rec : List Byte) (v : Trav) : Trav :=
  let f (k : Nat) : FVal := fp32.decode (fieldOf rec (4 * k) 4)
  let vert (k : Nat) : Vec3 := #v[(f (3 * k)).exact, (f (3 * k + 1)).exact, (f (3 * k + 2)).exact]
  let real := r.real && (List.range 9).all fun k => (f k).real
  let free (k : Nat) : Exact := freeExact (r.key ++ (List.range 9).map fun k => fieldOf rec (4 * k) 4) k
  let (t, u, w, nd) := if real then triangleReals r (vert 0) (vert 1) (vert 2) else (free 0, free 1, free 2, free 3)
  let inside := !u.below0 && !w.below0 && (u.add w).le Exact.one
  let within := e.ray.t0.le t && match e.tc v with
    | some h => t.le h
    | none => true
  let h : Hit := ⟨t, u, w, nd.below0, fieldOf rec 0x24 4, i.iid, i.off, off⟩
  if nd.isZero || !inside || !within || (e.ray.cull && nd.pos) then v
  else { v with best := if h.better v.best then some h else v.best, ended := e.ray.any }

/-- Triangle records in ascending address. -/
def TraceEnv.triangles (e : TraceEnv) (r : SpaceRay) (i : InstRef) : Nat → Nat → Trav → Job Trav
  | 0, _, v => pure v
  | n + 1, off, v =>
    if v.ended then pure v
    else do
      let rec ← e.record off 48 16
      e.need off (zerosIn rec 0x28 8)
      e.triangles r i n (off + 48) (e.test r i off rec { v with visits := v.visits + 1 })

/-- Six bounds from `off`, of `n` bytes each, as a box. -/
def boxOf (rec : List Byte) (off n : Nat) : Box :=
  let w (k : Nat) : Nat := fieldOf rec (off + n * k) n
  let f (k : Nat) : FVal := (if n = 8 then fp64 else fp32).decode (w k)
  ⟨#v[f 0, f 1, f 2], #v[f 3, f 4, f 5], (List.range 6).map w⟩

/-- The numbers that a ray comes from. -/
def Ray.key (r : Ray) : List Nat := r.ob.toList ++ r.db.toList

/-- The object ray of an instance (R266): the inner operations in FP64, then one rounding to FP32. -/
def objectRay (ray : Ray) (rec : List Byte) : SpaceRay :=
  let m (r c : Nat) : Nat := fieldOf rec (8 * (4 * r + c)) 8
  let o (r : Nat) : Nat :=
    let a := (fp64.fma .rn 0 (m r 0) ray.ob[0] (m r 3)).bits
    let b := (fp64.fma .rn 0 (m r 1) ray.ob[1] a).bits
    (fp32.ofFloat fp64 .rn 0 false (fp64.fma .rn 0 (m r 2) ray.ob[2] b).bits).bits
  let e (r c : Nat) : Exact := (fp64.decode (m r c)).exact
  let d (r : Nat) : Nat := round32 (Vec3.dot #v[e r 0, e r 1, e r 2] ray.dir)
  let real := ((List.range 12).all fun k => (fp64.decode (fieldOf rec (8 * k) 8)).real) &&
    (List.range 3).all fun r => (fp32.decode (o r)).real && (fp32.decode (d r)).real
  ⟨#v[(fp32.decode (o 0)).exact, (fp32.decode (o 1)).exact, (fp32.decode (o 2)).exact],
    #v[(fp32.decode (d 0)).exact, (fp32.decode (d 1)).exact, (fp32.decode (d 2)).exact], real,
    ray.key ++ (List.range 12).map fun k => fieldOf rec (8 * k) 8⟩

/-- A visit to a reference (R266): `at'` is the address of the reference. Up to LIMIT, the visits bound the depth; behind it, where
the test has been passed over, a visit that meets a record again on its own way with the same best hit would do so for ever, so
LIMIT with the records and hits of the image bounds the depth of every traversal that ends; one that never ends stays at work when
`fuel` is used up (log 33). -/
def TraceEnv.visit (e : TraceEnv) : Nat → SpaceRay → InstRef → Word → Nat → Trav → Job Trav
  | 0, _, _, _, _, _ => throw (.wait .engines)
  | fuel + 1, r, i, at', w, v =>
    let off := nbits w 51 4 * 16
    let n := nbits w 63 52 + 1
    if v.ended then pure v
    else if v.visits = e.ray.limit then pure { v with ended := true, limit := true }
    else match nbits w 3 0 with
      | 1 => do
        let rec ← e.record off 128 128
        let r0 := fieldOf rec 0x60 8
        let r1 := fieldOf rec 0x68 8
        e.need off (zerosIn rec 0x70 16 && refOk .top r0 && refOk .top r1)
        let v := { v with visits := v.visits + 1 }
        let b0 := boxOf rec 0 8
        let b1 := boxOf rec 0x30 8
        let va := e.d.base + BitVec.ofNat 64 off
        let v ← if e.slab r v b0 then e.visit fuel r i (va + 0x60) r0 v else pure v
        if !v.ended && e.slab r v b1 then e.visit fuel r i (va + 0x68) r1 v else pure v
      | 2 => (List.range n).foldlM (fun (v : Trav) k => do
        if v.ended then pure v
        else
          let o := off + 128 * k
          let rec ← e.record o 128 128
          let bref := fieldOf rec 0x60 8
          e.need o (zerosIn rec 0x6D 19 && refOk .inst bref)
          let v := { v with visits := v.visits + 1 }
          if fieldOf rec 0x6C 1 &&& e.ray.mask = 0 then pure v
          else e.visit fuel (objectRay e.ray rec) ⟨o, fieldOf rec 0x68 4⟩ (e.d.base + BitVec.ofNat 64 (o + 0x60)) bref v) v
      | 3 => do
        let rec ← e.record off 64 64
        let r0 := fieldOf rec 0x30 8
        let r1 := fieldOf rec 0x38 8
        e.need off (refOk .bottom r0 && refOk .bottom r1)
        let v := { v with visits := v.visits + 1 }
        let b0 := boxOf rec 0 4
        let b1 := boxOf rec 0x18 4
        let va := e.d.base + BitVec.ofNat 64 off
        let v ← if e.slab r v b0 then e.visit fuel r i (va + 0x30) r0 v else pure v
        if !v.ended && e.slab r v b1 then e.visit fuel r i (va + 0x38) r1 v else pure v
      | 4 => e.triangles r i n off v
      | 5 => do
        Job.feedback e.x e.d 2 at'
        pure { v with nr := true }
      | _ => pure v

/-- The record of R267. -/
def TraceEnv.hitRecord (e : TraceEnv) (v : Trav) : List Nat :=
  let tail (kind : Nat) : List Nat := [boolNat v.nr * 2 ^ 8 + kind, v.visits * 2 ^ 32]
  match v.limit, v.best with
  | true, b =>
    let t := match b with
      | some h => round32 h.t
      | none => e.ray.tmax
    [0, 0, 0, t, 0, 0] ++ tail 3
  | false, none => [0, 0, 0, e.ray.tmax, 0, 0] ++ tail 0
  | false, some h =>
    let t := round32 h.t
    e.ray.position t ++ [round32 h.u * 2 ^ 32 + t, h.prim * 2 ^ 32 + round32 h.v, nbits h.inst 35 4 * 2 ^ 32 + h.iid] ++
      tail (if h.front then 1 else 2)

/-- `trace.t` for one lane. -/
def TraceEnv.traceT (e : TraceEnv) : Job (List Nat) :=
  if e.ray.invalid then pure (e.ray.invalidRecord 6)
  else do
    let hdr ← e.record 0 64 64
    let root := fieldOf hdr 0 8
    e.need 0 (zerosIn hdr 8 56 && refOk .root root)
    let v ← e.visit (e.ray.limit + (e.d.ext[0] + 2) ^ 3) ⟨e.ray.origin, e.ray.dir, true, e.ray.key⟩ ⟨0, 0⟩ e.d.base root ⟨none, false, 0, false, false⟩
    pure (e.hitRecord v)

/-! ## Participating media (R268 to R271) -/

structure MarchEnv where
  x : Ctx
  lane : Nat
  q : Option Word32                            -- step of the medium
  qm : Option Word32                           -- step of the majorant
  d : Desc
  dm : Desc
  ray : Ray
  key : Word                                   -- K_L
  grid : Vec3
  h : Exact
  scale : Nat
  btoff : Nat
  deriving DecidableEq, Repr

structure March where
  t : Nat
  cell : Vector Int 3
  j : Nat
  steps : Nat
  deriving DecidableEq, Repr

/-- The cell that a march is in: its parameters at the next faces, the end of its interval, and its majorant. -/
structure CellInfo where
  taus : Vector (Option Nat) 3
  next : Nat
  tend : Nat
  mu : Nat
  deriving DecidableEq, Repr

/-- `a < b` of two FP32 numbers. -/
def lt32 (a b : Nat) : Bool := decide (fp32.valueKey a < fp32.valueKey b)

def MarchEnv.size (e : MarchEnv) : Vector Nat 3 := #v[e.dm.ext[0], e.dm.ext[1], e.dm.ext[2]]

/-- The event record of R271. -/
def MarchEnv.event (e : MarchEnv) (kind : Nat) (m : March) (missed : Bool) : List Nat :=
  let c (i : Fin 3) : Nat := if missed then 0xFFFFFFFF else m.cell[i].toNat % 2 ^ 32
  e.ray.position m.t ++ [m.j % 2 ^ 32 * 2 ^ 32 + m.t, c 1 * 2 ^ 32 + c 0, c 2 * 2 ^ 32 + kind, m.steps % 2 ^ 32, 0]

def MarchEnv.draw (e : MarchEnv) (j : Nat) : Nat := (mix e.key (BitVec.ofNat 64 j)).toNat / 2 ^ 40

/-- Entering a cell: its faces, its interval and its majorant. R270's Min and Max compare values, and of two zeros the earlier operand
stays (log 61, DESIGN CHOICE). -/
def MarchEnv.enter (e : MarchEnv) (m : March) : Job CellInfo := do
  let d := e.ray.dir
  let o := e.ray.origin
  let taus : Vector (Option Nat) 3 := Vector.ofFn fun i =>
    if d[i].isZero then none
    else
      let face := e.grid[i].add ((Exact.ofInt (m.cell[i] + (if d[i].neg then 0 else 1)) 0).mul e.h)
      some (round32 ((face.sub o[i]).quot d[i]))
  let next := taus.foldl (fun (a : Option Nat) t => match a, t with
    | some a, some t => some (if lt32 t a then t else a)
    | none, t => t
    | a, none => a) none
  let mt := next.getD m.t
  let t := if lt32 m.t mt then mt else m.t
  let tend := if lt32 e.ray.tmax t then e.ray.tmax else t
  let bytes ← Job.read e.x e.lane e.qm (e.dm.addrOf #v[m.cell[0], m.cell[1], m.cell[2], 0, 0]) 4
  pure ⟨taus, mt, tend, leNat bytes⟩

/-- σ at P(t) in a resident brick (R268), as FP32 bits. The medium's header, entries and voxels lie below EXT0, as a scene's records do
(log 61, DESIGN CHOICE). -/
def MarchEnv.sigma (e : MarchEnv) (m : March) (entry : Nat) : Job Nat := do
  let t := (fp32.decode m.t).exact
  let idx (i : Fin 3) : Nat :=
    let p := e.ray.origin[i].add (t.mul e.ray.dir[i])
    let q := ((Exact.ofNat 8).mul (p.sub e.grid[i])).quot e.h
    (max 0 (min 7 (q.floor - 8 * m.cell[i]))).toNat
  let bytes ← Job.record e.x e.lane e.q e.d (entry / 1024 * 1024 + 2 * (idx 0 + 8 * idx 1 + 64 * idx 2)) 2 1
  pure (fp32.mul .rn 0 (fp32.ofFloat fp16 .rn 0 false (leNat bytes)).bits e.scale).bits

/-- x2 · μ̄ < σ, exactly; a NaN σ never scatters (R270). -/
def scatters (x2 mu : Exact) (sigma : Nat) : Bool :=
  match fp32.decode sigma with
  | .nan .. => false
  | .inf n => !n
  | v => (x2.mul mu).lt v.exact

/-- The end of a cell: the record of an escape or of the limit, or the march in the next cell. -/
def MarchEnv.leave (e : MarchEnv) (i : CellInfo) (m : March) : Sum (List Nat) March :=
  let m := { m with t := i.tend }
  if fp32.valueKey m.t = fp32.valueKey e.ray.tmax then .inl (e.event 1 m false)
  else if m.steps = e.ray.limit then .inl (e.event 3 m false)
  else
    let next : Vector Int 3 := Vector.ofFn fun a => match i.taus[a] with
      | some t => if fp32.valueKey t = fp32.valueKey i.next then m.cell[a] + (if e.ray.dir[a].neg then -1 else 1) else m.cell[a]
      | none => m.cell[a]
    let m' := { m with steps := m.steps + 1 }
    if (List.finRange 3).all fun a => decide (0 ≤ next[a]) && decide (next[a] < (e.size[a] : Int)) then
      .inr { m' with cell := next }
    else .inl (e.event 1 m' false)

/-- One candidate of the inner loop of R270: a record, the march behind it in the same cell, or the end of the cell. -/
inductive Candidate where
  | event (r : List Nat)
  | stay (m : March)
  | leave (m : March)
  deriving DecidableEq, Repr

def MarchEnv.candidate (e : MarchEnv) (i : CellInfo) (m : March) : Job Candidate :=
  if m.steps = e.ray.limit then pure (.event (e.event 3 m false))
  else
    let x1 := round32 ⟨false, e.draw m.j + 1, 2 ^ 24⟩
    let lg := (fp32.lg2 .rn x1).bits
    let neg := if lg < 2 ^ 31 then lg + 2 ^ 31 else lg - 2 ^ 31
    let dt := (fp32.div .rn (fp32.mul .rn 0 neg 0x3F317218).bits i.mu).bits
    let tc := (fp32.add .rn 0 m.t dt).bits
    let m := { m with steps := m.steps + 1, j := m.j + 1 }
    if !lt32 tc i.tend then pure (.leave m)
    else do
      let m := { m with t := tc }
      let off := e.btoff + 8 * (m.cell[0].toNat + e.size[0] * (m.cell[1].toNat + e.size[1] * m.cell[2].toNat))
      let entry := leNat (← Job.record e.x e.lane e.q e.d off 8 8)
      match entry % 4 with
      | 2 => do
        Job.feedback e.x e.d 1 (e.d.base + BitVec.ofNat 64 off)
        pure (.event (e.event 2 m false))
      | 3 => Job.bad e.lane (e.d.base + BitVec.ofNat 64 off)
      | st => do
        let x2 : Exact := ⟨false, e.draw m.j, 2 ^ 24⟩
        let m := { m with j := m.j + 1 }
        let sg ← if st = 1 then e.sigma m entry else pure 0
        if scatters x2 (fp32.decode i.mu).exact sg then pure (.event (e.event 0 m false)) else pure (.stay m)

/-- The march of R270 from a state; each turn of a loop takes one of `fuel`. -/
def MarchEnv.march (e : MarchEnv) : Nat → Option CellInfo → March → Job (List Nat)
  | 0, _, m => pure (e.event 3 m false)
  | fuel + 1, none, m => do
    let i ← e.enter m
    let v := fp32.decode i.mu
    if v.real && v.exact.pos then e.march fuel (some i) m
    else match e.leave i m with
      | .inl r => pure r
      | .inr m' => e.march fuel none m'
  | fuel + 1, some i, m => do
    match ← e.candidate i m with
    | .event r => pure r
    | .stay m' => e.march fuel (some i) m'
    | .leave m' => match e.leave i m' with
      | .inl r => pure r
      | .inr m'' => e.march fuel none m''

/-- The cell of a point on one axis: on a face, the cell that the ray enters, and the upper one where the ray does not move along the axis
(log 61, DESIGN CHOICE); clamped to the grid. -/
def entryCell (p g h d : Exact) (n : Nat) : Int :=
  let q := (p.sub g).quot h
  let i := q.floor
  let i := if d.below0 && (Exact.ofInt i 0).same q then i - 1 else i
  max 0 (min ((n : Int) - 1) i)

/-- `trace.v` for one lane (R268 to R271). -/
def traceVLane (x : Ctx) (key base : Word) (lane : Nat) (ray : Ray) (dm d : Desc) : Job (List Nat) :=
  if ray.invalid then pure (ray.invalidRecord 5)
  else do
    let q := d.step x.g.laneStep
    let hdr ← Job.record x lane q d 0 64 1
    let g (i : Nat) : FVal := fp64.decode (fieldOf hdr (8 * i) 8)
    let btoff := fieldOf hdr 0x28 8
    if !((List.range 4).all fun i => (g i).real) || !(g 3).exact.pos || !zerosIn hdr 0x24 4 || !zerosIn hdr 0x30 16 ||
        btoff % 8 ≠ 0 then Job.bad lane d.base
    else
      let grid : Vec3 := #v[(g 0).exact, (g 1).exact, (g 2).exact]
      let h := (g 3).exact
      let e : MarchEnv :=
        { x := x, lane := lane, q := q, qm := dm.step x.g.laneStep, d := d, dm := dm, ray := ray
          key := mix key (base + BitVec.ofNat 64 lane), grid := grid, h := h, scale := fieldOf hdr 0x20 4
          btoff := btoff }
      let far : Vec3 := Vector.ofFn fun i => grid[i].add ((Exact.ofNat e.size[i]).mul h)
      match slabMeet ray.origin ray.dir (grid.map .real) (far.map .real) ray.t0 ray.t1 with
      | none => pure (e.event 1 ⟨ray.tmax, #v[0, 0, 0], 0, 0⟩ true)
      | some (lo, _) =>
        let t := if lo.same ray.t0 then ray.tmin else round32 lo
        let cell : Vector Int 3 := Vector.ofFn fun i =>
          entryCell (ray.origin[i].add (lo.mul ray.dir[i])) grid[i] h ray.dir[i] e.size[i]
        e.march (2 * ray.limit + 4) none ⟨t, cell, 0, 0⟩

/-! ## Texture reads (R273) -/

/-- A walk ends at an entry with V = 0: the page is not resident. -/
def Tables.absent (tb : Tables) (t : Tenant) (va : Word) (table level : Nat) : Bool :=
  match tb.entry t va table (nbits va.toNat (51 - 12 * level) (40 - 12 * level)) with
  | .ok e => nbits e 0 0 == 0
  | .error _ => false

def State.pageAbsent (s : State) (tenant : Nat) (va : Word) : Bool :=
  let t := s.tenant tenant
  let tb := s.tables tenant
  let root := nbits t.txRoot.toNat 51 16 * 65536
  tb.absent t va root 0 ||
  match tb.level t va root 0 with
  | .ok (t1, none) => tb.absent t va t1 1 ||
    match tb.level t va t1 1 with
    | .ok (t2, none) => tb.absent t va t2 2
    | _ => false
  | _ => false

/-- A texel: its value, or the address of a texel whose page is not resident. -/
inductive Texel where
  | value (v : EVal)
  | away (va : Word)
  deriving DecidableEq, Repr

/-- The texel at a coordinate: padded where a dimension outside its extent has its PADM bit set, else clamped; one that lies outside
a dimension with the bit set and outside another with it clear is padded (log 61, DESIGN CHOICE). -/
def Job.texel (x : Ctx) (lane : Nat) (q : Option Word32) (d : Desc) (pos : Vector Int 5) : Job Texel := do
  if (d.outside pos).any fun i => d.padm.getLsbD i.val then pure (.value (.num Exact.zero))
  else
    let pos' : Vector Int 5 := Vector.ofFn fun i => max 0 (min ((d.ext[i] : Int) - 1) pos[i])
    let va := d.addrOf pos'
    let s ← get
    match withLane lane (s.readPieces x q va (fmtBytes d.fmt)) with
    | .error (.trap .page addr detail) =>
      if s.pageAbsent x.l.tenant va then pure (.away va) else throw (.trap .page addr detail)
    | _ =>
      let bytes ← Job.read x lane q va (fmtBytes d.fmt)
      pure (.value (plainValue d.fmt (leNat bytes)))

/-- The texels that a read takes along one axis, with their weights: one at Floor(u), or the two around u − 0.5; a texel of
weight 0 is not read. -/
def axisTaps (linear : Bool) (u : Exact) : List (Int × Exact) :=
  if linear then
    let w := u.sub ⟨false, 1, 2⟩
    let i := w.floor
    let f := w.sub (Exact.ofInt i 0)
    if f.isZero then [(i, Exact.one)] else [(i, Exact.one.sub f), (i + 1, f)]
  else [(u.floor, Exact.one)]

/-- The exact weighted sum of texels (R273): NaN for a NaN or infinities of both signs. -/
def texelSum (vs : List (EVal × Exact)) : EVal := blockSum (vs.map fun p => p.1.times (.num p.2))

/-- The residency NaN of a type. -/
def residencyNan (t : Ty) : Nat :=
  match t with
  | .f32 => 0x7FC00001 | .f16 => 0x7E01 | .bf16 => 0x7FC1 | _ => 0x7FF8000000000001

/-- Texels in ascending order up to the first that is not resident. -/
def Job.texels (x : Ctx) (lane : Nat) (q : Option Word32) (d : Desc) :
    List (Vector Int 5 × Exact) → Job (Sum Word (List (EVal × Exact)))
  | [] => pure (.inr [])
  | (c, w) :: rest => do
    match ← Job.texel x lane q d c with
    | .away va => pure (.inl va)
    | .value v => match ← Job.texels x lane q d rest with
      | .inl va => pure (.inl va)
      | .inr vs => pure (.inr ((v, w) :: vs))

/-- `tex.t` for one lane with its coordinate group. -/
def texLane (x : Ctx) (lane : Fin 32) (d : Desc) (t : Ty) (ops : Vector Word 8) : Job LRes := do
  let a := ops[0].toNat
  let b := ops[1].toNat
  let cs := [nbits a 31 0, nbits a 63 32] ++ (if d.rank = 3 then [nbits b 31 0] else [])
  let f := fmtOf t
  if cs.any fun c => !(fp32.decode c).real then pure ⟨BitVec.ofNat 64 f.canonical, flNone⟩
  else
    let taps := cs.map fun c => axisTaps (nbits b 32 32 == 1) (fp32.decode c).exact
    let taps2 := (taps.getD 2 [(0, Exact.one)]).flatMap fun z => (taps.getD 1 []).flatMap fun y => (taps.getD 0 []).map fun u =>
      ((#v[u.1, y.1, z.1, 0, 0] : Vector Int 5), (u.2.mul y.2).mul z.2)
    match ← Job.texels x lane.val (d.step x.g.laneStep) d taps2 with
    | .inl va => do
      Job.feedback x d 3 (BitVec.ofNat 64 (va.toNat / pageSize * pageSize))
      pure ⟨BitVec.ofNat 64 (residencyNan t), flNone⟩
    | .inr vs =>
      let r := f.ofElem .rn 0 false (texelSum vs)
      pure ⟨BitVec.ofNat 64 r.bits, r.flags⟩

/-! ## The instructions at issue (R262) -/

/-- The checks of a lane's ray. -/
def Ctx.rayCheck (x : Ctx) (lane : Fin 32) (ray : Ray) : Res Unit := do
  ensure (!ray.reserved) .operand 0 lane.val
  if ray.outen then
    let va : Word := BitVec.ofNat 64 (windowBase + ray.out)
    ensure (decide (ray.out % 64 = 0)) .align va lane.val
    ensure (decide (ray.out + 64 ≤ 1024 * x.l.scratch)) .protection va lane.val

/-- The ray groups of the executing lanes, checked in ascending order. -/
def Ctx.rays (x : Ctx) (p : Path) (c : Lc) (r : BitVec 8) : Res (List (Fin 32 × Vector Word 8)) :=
  (x.g.executing p.mask c).mapM fun i => do
    let ws := x.g.lanes[i].regs8 r
    x.rayCheck i (Ray.ofRegs ws)
    .ok (i, ws)

/-- A byte image (R262). -/
def Desc.isImage (d : Desc) : Bool := d.fmt == 0 && d.rank == 1

/-- What a request captures when it issues (R25, R262): its descriptors and the registers of its executing lanes. -/
structure Captured where
  descs : List Desc
  ops : List (Fin 32 × Vector Word 8)
  deriving DecidableEq, Repr

def Ctx.traceTReq (x : Ctx) (p : Path) (c : Lc) (r : BitVec 8) (tid : Uni) : Res Captured := do
  let d ← x.tidOf c.imm tid
  ensure d.isImage .operand
  let rays ← x.rays p c r
  .ok ⟨[d], rays⟩

def Ctx.traceVReq (x : Ctx) (p : Path) (c : Lc) (r : BitVec 8) (tidM tidD : Uni) : Res Captured := do
  let dm ← x.tidOf c.imm tidM
  let d ← x.tidOf c.imm tidD
  ensure (dm.fmt == 9 && dm.rank == 3 && d.isImage) .operand
  let rays ← x.rays p c r
  .ok ⟨[dm, d], rays⟩

def Ctx.texReq (x : Ctx) (p : Path) (c : Lc) (tid : Uni) (vc : BitVec 8) : Res Captured := do
  let d ← x.tidOf c.imm tid
  ensure (decide (8 ≤ d.fmt) && decide (d.fmt ≤ 13) && (d.rank == 2 || d.rank == 3)) .operand
  let ex := x.g.executing p.mask c
  ex.forM fun i => ensure (nbits (x.g.lanes[i].reg (vc.toNat + 1)) 63 33 == 0) .operand 0 i.val
  .ok ⟨[d], ex.map fun i => (i, x.g.lanes[i].regs8 vc)⟩

/-- The request goes to the unit with K and B as they stand, B advances by `m` slots (R45), and the path stands behind the
instruction until its result (R116, R262). -/
def State.sendUnit (s : State) (x : Ctx) (p : Path) (work : UnitWork) (m : Nat) (q : Captured) : Res State :=
  ({ s with nextId := s.nextId + 1 } : State).done fun g =>
    let u : UnitReq := ⟨s.nextId, p.mask, x.g.laneTpc p.pc, work, q.descs, g.genK, g.genB, q.ops⟩
    (({ g with units := g.units ++ [u] }.advanceB m).advanceLane s.who.slot).await (some s.who.slot) (.unit s.nextId)

def execTraceT (c : Lc) (d r : BitVec 8) (tid : Uni) (s : State) : Out :=
  s.laneCtx fun x p => do
    let q ← x.traceTReq p c r tid
    s.settled x
    s.sendUnit x p (.triangles d) 0 q

def execTraceV (c : Lc) (d r : BitVec 8) (tidM tidD : Uni) (s : State) : Out :=
  s.laneCtx fun x p => do
    let q ← x.traceVReq p c r tidM tidD
    s.settled x
    s.sendUnit x p (.medium d) 1 q

def execTex (c : Lc) (t : Ty) (d : Dst) (tid : Uni) (vc : BitVec 8) (s : State) : Out :=
  s.laneCtx fun x p => do
    let q ← x.texReq p c tid vc
    s.settled x
    s.sendUnit x p (.texture t d) 0 q

/-! ## TRAVERSAL_RESULT (R263, R267, R271, R273) -/

/-- The work of every lane in ascending order. -/
def Job.lanes {α β : Type} (f : Fin 32 → α → Job β) : List (Fin 32 × α) → Job (List (Fin 32 × β))
  | [] => pure []
  | (i, a) :: rest => do
    let b ← f i a
    let bs ← Job.lanes f rest
    pure ((i, b) :: bs)

/-- Eight result registers from `d`. -/
def Lane.setGroup (l : Lane) (d : BitVec 8) (rec : List Nat) : Lane :=
  { l with v := (List.range 8).foldl (fun v i => v.setIfInBounds (d.toNat + i) (BitVec.ofNat 64 (rec.getD i 0))) l.v }

/-- A lane's record: its ray and the eight words. -/
abbrev RayRecord := Fin 32 × Ray × List Nat

/-- The registers that the records write. -/
def Group.setRecords (g : Group) (d : BitVec 8) (rs : List RayRecord) : Group :=
  g.mapLanes fun i l => match rs.find? fun r => r.1 == i with
    | some r => l.setGroup d r.2.2
    | none => l

/-- A record in the block window where its OUTEN asks for it; its granules become full (R201, R263). -/
def State.outRecord (s : State) (x : Ctx) (r : RayRecord) : State :=
  let p : Place := .sp x.b.id r.2.1.out
  if r.2.1.outen then (s.writeBytes (some x.g.ref) p (r.2.2.flatMap fun w => leBytes 8 w)).fillGranules p 64 else s

/-- Records into DST and the block window. -/
def State.writeRecords (s : State) (x : Ctx) (d : BitVec 8) (rs : List RayRecord) : State :=
  rs.foldl (fun (s : State) r => s.outRecord x r) (s.updGroup x.g.ref fun g => g.setRecords d rs)

/-- A kind-D result of the lanes listed (R117). -/
def Group.writeListed (g : Group) (mask : BitVec 32) (d : Dst) (rs : List (Fin 32 × LRes)) : Group :=
  g.mapLanes fun i l =>
    let l' := match rs.find? fun r => r.1 == i with
      | some r => (l.setD d r.2.val).raise r.2.flags
      | none => l
    if mask.getLsbD i.val then l'.history d else l'

/-- The records of a ray request. -/
def rayRecords (u : UnitReq) (work : Fin 32 → Ray → Job (List Nat)) : Job (List RayRecord) :=
  Job.lanes (fun i ws => do
    let rec ← work i (Ray.ofRegs ws)
    pure (Ray.ofRegs ws, rec)) u.ops

/-- The whole work of a request. -/
def unitJob (x : Ctx) (u : UnitReq) : Job Unit :=
  match u.work, u.descs with
  | .triangles d, [b] => do
    let rs ← rayRecords u fun i ray => TraceEnv.traceT ⟨x, i.val, b.step x.g.laneStep, b, ray⟩
    modify fun s => s.writeRecords x d rs
  | .medium d, [dm, b] => do
    let rs ← rayRecords u fun i ray => traceVLane x u.key u.base i.val ray dm b
    modify fun s => s.writeRecords x d rs
  | .texture t d, [b] => do
    let rs ← Job.lanes (fun i ws => texLane x i b t ws) u.ops
    modify fun s => s.updGroup x.g.ref fun g => g.writeListed u.mask d rs
  | _, _ => pure ()

/-- A path that waits for a request goes on. -/
def Path.unitDone (id : Nat) (p : Path) : Path := if p.wait = some (.unit id) then { p with wait := none } else p

/-- The request has its result: it leaves the unit, and its path goes on. -/
def Group.unitDone (g : Group) (id : Nat) : Group :=
  { g with
    units := g.units.filter fun u => u.id != id, path0 := g.path0.map (Path.unitDone id)
    path1 := g.path1.map (Path.unitDone id), blocked := 0 }

/-- The context of a request at work. -/
def State.unitCtx (s : State) (r : GroupRef) : Option Ctx := (s.engineCtx r).map fun x => { x with lane := true }

/-- What an access of a request at work must wait for now, if anything (R357). -/
def State.unitHeld (s : State) (r : GroupRef) (id : Nat) : Option Wait :=
  match s.unitCtx r with
  | none => none
  | some x => match x.g.units.find? fun u => u.id == id with
    | none => none
    | some u => match ((unitJob x u).run s).1 with
      | .error (.wait w) => some w
      | _ => none

/-- TRAVERSAL_RESULT: the unit works and writes its results, or stops with only its feedback entries written: a trap is precise
at the instruction, and a park works the captured request anew (R262). An access that must wait keeps the request at work, and so
does a trap that comes first (R346, R351). -/
def execTraversalResult (r : GroupRef) (id : Nat) (s : State) : Out :=
  match s.unitCtx r with
  | none => .next s
  | some x => match x.g.units.find? fun u => u.id == id with
    | none => .next s
    | some u =>
      if x.g.status ≠ .resident ∨ x.g.park.isSome ∨ x.g.detected ≠ [] ∨ x.g.deferredDue then .next s
      else
        let info (code : TrapCode) (addr : Word) (d : Nat) : TrapInfo := ⟨code, u.tpc, addr, BitVec.ofNat 32 d, s.aoc⟩
        match (unitJob x u).run s with
        | (.ok _, s') => .next (s'.updGroup r fun g => g.unitDone id)
        | (.error (.trap code addr d), s') => .next (s'.orRoom r (info code addr d) (s'.takeTrap r (info code addr d)))
        | (.error (.park addr d), s') => .next (s'.orRoom r (info .poison addr d) (s'.parkGroup r (info .poison addr d)))
        | (.error (.fault f), _) => .fault f
        | (.error _, _) => .next s

end Sys2Proof.Machine
end

