-- ==== Sys2Proof/Machine/Tick.lean ====
section
/-! DEFINITION. The passing of time: the always-on counter and the cycle counters (R339, R340), blocked time and the classes of
waits (R356 to R358), the room that a PRE launch waits for (R57), and the long timeout of collectives (R337). -/

namespace Sys2Proof.Machine

open Sys2Proof

/-! ## A tick: 10 ns (R339, R340, R356) -/

/-- A key outside the device: host or peer memory. -/
def Place.external : Place → Bool
  | .phys k => !isHbm k
  | .sp _ _ => false

/-- External waits of R357; a monitored wait is classed by the armed granule. -/
def Group.waitExternal (g : Group) (w : Wait) : Bool :=
  match w with
  | .phaser obj .. | .barWait obj .. => obj.external
  | .monitor .. => match g.monitor with
    | some m => m.granule.external
    | none => false
  | .owner .. | .recovery .. | .link _ => true
  | _ => false

/-- What holds the group's posted operations whose turn has come: an owner, a peer in recovery, or a link (R214, R332, R376). -/
def State.heldOutside (s : State) (g : Group) : List Wait :=
  s.arrivals.filterMap fun a =>
    if a.grp = g.ref ∧ s.arrivalTurn a then
      match s.arrivalWay a with
      | .error (.wait w) => some w
      | _ => none
    else none

/-- A wait behind the group's own posted operations is a wait for what holds them (R357). -/
def State.behindOwn (s : State) (g : Group) (w : Wait) : List Wait :=
  match w with
  | .engines | .interlock => if (s.heldOutside g).isEmpty then [w] else s.heldOutside g
  | w => [w]

/-- What a wait comes to: for a traversal request or the bytes of a `gbread`, what their accesses wait for (R357). -/
def State.waitNow (s : State) (g : Group) (w : Wait) : Wait :=
  match w with
  | .unit id => (s.unitHeld g.ref id).getD w
  | .stateWrite => (s.stateWriteWait g.ref).getD w
  | .mwait => if g.mcmds.isEmpty then .engines else w
  | w => w

/-- What the group waits for. -/
def State.waitsOf (s : State) (g : Group) : List Wait := g.waits.flatMap fun w => s.behindOwn g (s.waitNow g w)

def pathBlocked (p : Option Path) : Bool :=
  match p with
  | some p => p.parked || p.wait.isSome
  | none => true

/-- Every stream and live path of the group waits (R356). -/
def Group.allWait (g : Group) : Bool := g.swait.isSome && pathBlocked g.path0 && pathBlocked g.path1

/-- The peer that an external wait names. -/
def State.waitPeer (s : State) (g : Group) (w : Wait) : Option Nat :=
  match w with
  | .recovery d _ => some d
  | .owner page _ => some (s.owner page)
  | .phaser (.phys k) .. | .barWait (.phys k) .. => peerOf k
  | .monitor .. => match g.monitor with
    | some ⟨.phys k, _⟩ => peerOf k
    | _ => none
  | _ => none

/-- An external wait of the group names a peer in recovery (R358). -/
def State.recoveryHolds (s : State) (g : Group) : Bool :=
  (s.waitsOf g).any fun w => g.waitExternal w && match s.waitPeer g w with
    | some d => s.recovering.any fun r => r.1 == d
    | none => false

/-- Whether a tick adds to the group's blocked time; a trap that is due, which may wait for room, is no wait that a timer counts
(R351, R352, R356 to R358). -/
def State.countsBlocked (s : State) (g : Group) : Bool :=
  match s.ctxOf g with
  | none => false
  | some c =>
    let current := decide (c.b.co = .current g.ref.gid) || s.setWaits c.b
    g.status = .resident && g.park.isNone && g.allWait && g.detected.isEmpty && !g.deferredDue && (!c.l.det || current) &&
    (!s.recoveryHolds g || (s.waitsOf g).any fun w => !g.waitExternal w)

/-- A collective waits for a member in recovery, and its timeout pauses (R337). -/
def State.collPaused (s : State) (q : Coll) : Bool := q.members.any fun m => s.recovering.any fun r => r.1 == m

/-- A tick: `AOC` counts it, each die counts its cycles at its own arithmetic clock, blocked groups count it, and PRE launches note how long
they lack room. -/
def State.tick (s : State) : State :=
  { s with
    aoc := s.aoc + 1, dcyc := s.dcyc.zipWith (· + ·) s.mgmt.clocks
    colls := s.colls.map fun q => if s.collPaused q then { q with accepted := q.accepted + 1 } else q
    launches := s.launches.map s.watchRoom
    groups := s.groups.map fun g => if s.countsBlocked g then { g with blocked := g.blocked + 1 } else g }

end Sys2Proof.Machine
end

