-- ==== Sys2Proof/Machine/Interruption.lean ====
section
/-! DEFINITION. Interruption of groups: detected and deferred traps (R343, R346, R355), the responses to parks (R352, R362),
transaction aborts (R300), the watchdog and the closing window (R155, R356, R357), pre-emption and resumption (R359 to
R363). -/

namespace Sys2Proof.Machine

open Sys2Proof

/-! ## Detected and deferred traps -/

/-- A detected trap is taken; a poisoned read parks (R353). No result while its record finds no room (R351). -/
def State.takeDetected (s : State) (g : Group) (info : TrapInfo) (rest : List TrapInfo) : Option State :=
  let s1 := s.updGroup g.ref fun g => { g with detected := rest }
  if info.code = .poison then s1.parkGroup g.ref info else s1.takeTrap g.ref info

/-- The oldest held trap is taken. -/
def State.takeHeld (s : State) (g : Group) (info : TrapInfo) (rest : List TrapInfo) : Option State :=
  (s.updGroup g.ref fun g => { g with held := rest }).takeTrap g.ref info

/-- A kill that the response to a park has asked for, and whose record found no room, is made (R351, R352). -/
def State.takeKill (s : State) (g : Group) : Option State :=
  match g.park with
  | some p => if p.kill then s.kill g.ref p.info (g.trapMode && p.code != .brk) else none
  | none => none

/-- DEFERRED_TRAP_TAKEN: the oldest held trap, at a scalar boundary where R346 allows it. -/
def execDeferredTrapTaken (r : GroupRef) (s : State) : Out :=
  match (s.group? r).bind s.ctxOf with
  | none => .next s
  | some c => match c.g.held with
    | [] => .next s
    | info :: rest =>
      if !c.runs || !c.g.deferredDue then .next s
      else .next ((s.takeHeld c.g info rest).getD s)

/-- The machine check of a hardware error (R131, R355): `TPC` names the instruction of the stream or path that it meets. -/
def Group.errorTrap (g : Group) (e : HwError) (time : Word) : TrapInfo :=
  match e with
  | .mirrorMismatch stream => ⟨.mirror, g.tpcOf stream, 0, 1, time⟩
  | .registerFile => ⟨.mcheck, g.scalarTpc, 0, 2, time⟩

/-- The instruction comes to a trap that is raised once and never compared: those of R99 that the decoder does not see, and
TRAP_DIVERGENCE (R100, R131). -/
def Ctx.raisedOnce (c : Ctx) (stream : Option Bool) (i : Instr) : Bool :=
  match i, stream.bind c.g.path with
  | .lrun imm, _ => c.g.tx.isNone && !c.k.startOk imm
  | .jr r, _ => !c.g.targetOk r
  | .ret, _ => !c.g.targetOk 63
  | .bra tgt, some p => !(c.braCheck p tgt).isOk
  | .braDiv pr tgt join, some p => !(c.braDivCheck p tgt join).isOk || c.g.splitFull p pr
  | .lend, _ => !c.g.mayEnd
  | _, _ => false

/-- The next turn of the scalar stream or of a path issues an instruction, whose two issues are compared: a trap that is raised once is
no mismatch (R100, R131). -/
def State.mayIssueOn (s : State) (c : Ctx) (stream : Option Bool) : Bool :=
  match (match stream with | none => s.scalarTurn c.g.ref | some b => s.laneTurn c.g.ref b) with
  | .run i _ => !isEvent i && !c.raisedOnce stream i
  | _ => false

/-- Whether a hardware error can meet the group: mirror issue compares only in a checked launch, where the stream issues. -/
def State.errorMeets (s : State) (c : Ctx) (e : HwError) : Bool :=
  match e with
  | .mirrorMismatch stream => c.l.chk && s.mayIssueOn c stream
  | .registerFile => c.g.status = .resident

/-- TAKE_TRAP: what waits for room, a machine check that an engine detected, or a hardware error. An error in the saved state of a pre-empted group
is taken when it resumes (R355). -/
def execTakeTrap (r : GroupRef) (hw : Option HwError) (s : State) : Out :=
  match (s.group? r).bind s.ctxOf with
  | none => .next s
  | some c => match hw with
    | some e =>
      let info := c.g.errorTrap e s.aoc
      if s.errorMeets c e then .next (s.orRoom r info (s.takeTrap r info))
      else if e = .registerFile ∧ c.g.status = .preempted then
        .next (s.updGroup r fun g => { g with detected := g.detected ++ [⟨.mcheck, g.rstart, 0, 2, s.aoc⟩] })
      else .next s
    | none => match c.g.detected with
      | info :: rest =>
        if c.g.status = .resident then .next ((s.takeDetected c.g info rest).getD s) else .next s
      | [] => if c.g.status = .resident then .next ((s.takeKill c.g).getD s) else .next s

/-! ## Responses to parks (R352) -/

/-- The parked instruction goes on: a poisoned read replays from its checks, a `brk` is passed. -/
def Group.unpark (g : Group) (code : TrapCode) : Group :=
  let g := { g with park := none }
  if code = .brk then g.advance else g

/-- PARK_RESPONSE: the runtime writes RESP of a posted record over the CXL link (R376), behind an engine that owns its line (R316), and
the device acts on it; a kill whose record finds no room is not
forgotten (R351). -/
def execParkResponse (r : GroupRef) (resp : Word32) (s : State) : Out :=
  match s.group? r with
  | none => .next s
  | some g => match g.park with
    | none => .next s
    | some p => match p.slot with
      | none => .next s
      | some key =>
        let s1 := (s.finishCopies (key + 0x38) 4).writeNat none (.phys (key + 0x38)) 4 resp.toNat
        let asked := s1.updGroup r fun g => { g with park := some { p with kill := true } }
        if !s.cxlOn || s.lineHeld none (.phys (key + 0x38)) 4 then .next s
        else if p.kill ∨ resp.toNat % 4 = 0 then .next s1
        else if resp.toNat % 4 = 1 then .next (s1.updGroup r fun g => g.unpark p.code)
        else .next ((s1.kill r p.info (g.trapMode && p.code != .brk)).getD asked)

/-! ## Transactions (R300) -/

/-- TX_ABORT: an abort whose cause came from outside is taken at a scalar boundary. -/
def execTxAbort (r : GroupRef) (s : State) : Out :=
  match s.group? r with
  | none => .next s
  | some g => match g.tx with
    | none => .next s
    | some t => match t.abort with
      | none => .next s
      | some (reason, code, addr) =>
        if g.status = .resident ∧ g.park.isNone then .next (s.updGroup r fun g => g.abortTx reason code addr) else .next s

/-! ## The watchdog and the closing window (R155, R356, R357) -/

/-- The address that a wait names, where there is one. -/
def Wait.addr (w : Wait) : Option Word :=
  match w with
  | .fe a | .owner _ a | .recovery _ a | .link a | .line a | .monitor a _ => some a
  | .kwait off => some (BitVec.ofNat 64 (windowBase + off))
  | .phaser _ a _ _ | .barWait _ a _ _ _ => some a
  | _ => none

/-- The timer that applies: DETAIL and the limit in ticks. Waits on a peer in recovery do not count against XTL (R358). -/
def State.timer (s : State) (g : Group) : Nat × Nat :=
  let t := s.tenant (s.tenantOf g)
  if ((s.waitsOf g).any g.waitExternal) && !s.recoveryHolds g then (2, 1000 * t.xtl.toNat) else (1, 1000 * t.wdl.toNat)

/-- The group's blocked time has reached its limit. -/
def State.timedOut (s : State) (g : Group) : Bool :=
  s.countsBlocked g && decide ((s.timer g).2 ≠ 0) && decide ((s.timer g).2 ≤ g.blocked)

/-- A kill is due that only waits for a peer or a link: it prevails over a pre-emption (R347; log 46). -/
def State.killFirst (s : State) (g : Group) : Bool :=
  s.killHeld g && (g.park.any (·.kill) || match g.detected with
    | info :: _ => info.code != .poison && info.code != .brk
    | [] => g.deferredDue)

/-- A trap is due and can be taken now, or a timer has reached its limit: the trap or kill goes before a pre-emption (R346, R347). One
whose record finds no room does not: the group's wait for room is pre-emptible (R351). -/
def State.trapFirst (s : State) (g : Group) : Bool :=
  s.killFirst g || s.timedOut g || (s.takeKill g).isSome || match g.detected, g.held with
    | info :: rest, _ => (s.takeDetected g info rest).isSome
    | [], info :: rest => g.deferredDue && (s.takeHeld g info rest).isSome
    | [], [] => false

/-- WATCHDOG: in a deterministic launch the groups of a set are killed in ascending GID (R357). -/
def execWatchdog (r : GroupRef) (s : State) : Out :=
  match (s.group? r).bind s.ctxOf with
  | none => .next s
  | some c =>
    let before := c.l.det && s.groups.any fun h => h.ref.blk == r.blk && decide (h.ref.gid < r.gid) && s.timedOut h
    if !s.timedOut c.g || before then .next s
    else
      let addr := ((s.waitsOf c.g).findSome? Wait.addr).getD 0
      let info : TrapInfo := ⟨.watchdog, c.g.scalarTpc, addr, BitVec.ofNat 32 (s.timer c.g).1, s.aoc⟩
      .next (s.orRoom r info (s.kill r info false))

/-- CLOSING_WINDOW: the group has stayed closing for 2,000 ticks after a request (R155): once it is no longer closing, it issues
nothing before it leaves. A trap that it is already to take comes first. -/
def execClosingWindow (r : GroupRef) (s : State) : Out :=
  match s.group? r with
  | none => .next s
  | some g => match g.preemptAt with
    | none => .next s
    | some t =>
      if g.status = .resident && g.closing && g.detected.isEmpty && decide (t + 2000 ≤ s.aoc.toNat) then
        let info : TrapInfo := ⟨.watchdog, g.scalarTpc, 0, 3, s.aoc⟩
        .next (s.orRoom r info (s.kill r info false))
      else .next s

/-! ## Pre-emption (R360, R362) -/

/-- Where a group issues first after a pre-emption: its region start, or the trap segment in trap mode (R361, R362). -/
def Group.restartPc (g : Group) (k : Kernel) : Word := if g.trapMode then k.trapseg.zeroExtend 64 else g.rstart

/-- The anchor state is saved and the rest discarded; an open transaction aborts first; the plane pair stays bound while
commands of the group run (R259). Of what waits for room, a machine check stays, and a trap of the discarded region or a park
goes (R351, R360). -/
def Group.preempted (g : Group) (k : Kernel) : Group :=
  let g := (g.abortTx 5 0 0).discard
  { g with
    status := .preempted, preemptAt := none, park := none, pc := g.restartPc k
    detected := g.detected.filter fun i => i.code.machineCheck
    planes := if g.mcmds.isEmpty then g.planes.map fun p => { p with bound := false } else g.planes }

/-- A block whose last resident group has left is saved (R26, R200). -/
def State.saveBlock (s : State) (blk : Nat) : State :=
  if s.groups.any fun g => g.ref.blk == blk && decide (g.status = .resident) then s
  else s.updBlock blk fun b => { b with saved := true }

/-- A posted operation of the group can be performed now: its turn has come, and neither poison, nor an owner, a peer or a link that
it must wait for, holds it. -/
def State.arrivalNow (s : State) (r : GroupRef) (a : Arrival) : Bool :=
  a.grp == r && s.arrivalReady a && (s.arrivalPoison a).isNone && match s.arrivalWay a with
    | .error (.wait _) => false
    | _ => true

/-- PREEMPT: a named group that is not closing and has no trap to take first leaves its core, a release that its own operations
precede (R308, R309, R347). What an agent outside holds back does not hold the group, whose bound is 40 µs (R363): it stays in the
group's order before everything that the group does when it has resumed. -/
def execPreempt (r : GroupRef) (s : State) : Out :=
  match (s.group? r).bind s.ctxOf with
  | none => .next s
  | some c =>
    if c.g.status ≠ .resident ∨ c.g.preemptAt.isNone ∨ c.g.closing ∨ s.trapFirst c.g ∨ s.arrivals.any (s.arrivalNow r) then .next s
    else .next (((s.updGroup r fun g => g.preempted c.k).dropPosted r fun op => op.dst.isSome).saveBlock r.blk)

/-! ## Resumption (R361, R359) -/

/-- The cores of a tenant's partition that are present. -/
def State.partitionCores (s : State) (tenant : Nat) : List Nat :=
  ((partitionDies s.mgmt.division (s.tenant tenant).partition).flatMap fun d => (List.range 36).map (36 * d + ·)).filter
    s.corePresent

/-- What a resuming group needs of a core: with the first group of a saved block, its scratchpad too. -/
def State.resumeNeed (s : State) (c : Ctx) (core : Nat) : Need :=
  ⟨1, c.l.vregs, if c.b.saved ∧ !(c.b.home = core ∧ s.holdsHome c.b) then c.l.scratch + c.b.ngrp else 0⟩

/-- One group resumes on a core of its partition with room, when its accepted commands have completed, as if it had waited for them
(R361); a saved block, when all of its groups' commands have. A deterministic block keeps its groups on one core (R127). -/
def State.resumeOn (s : State) (r : GroupRef) (core : Nat) : Option State :=
  match (s.group? r).bind s.ctxOf with
  | none => none
  | some c =>
    let apart := c.l.det && s.groups.any fun h =>
      h.ref.blk == r.blk && decide (h.status = .resident) && h.core != core
    if c.g.status ≠ .preempted ∨ s.commandsOf r ∨ (c.b.saved ∧ s.blockCommands r.blk) ∨ apart ∨ !(s.partitionCores c.l.tenant).contains core ∨
        !((s.occupied core).add (s.resumeNeed c core)).ok then none
    else
      let s1 := s.updBlock r.blk fun b => if b.saved then { b with saved := false, home := core } else b
      some (s1.updGroup r fun g => { g with status := .resident, core := core, blocked := 0 })

/-- The other pre-empted groups of an instance, each on the lowest core with room (log 17). -/
def State.resumeRest (s : State) (cores : List Nat) : List GroupRef → Option State
  | [] => some s
  | r :: rest => match cores.findSome? (s.resumeOn r) with
    | some s1 => s1.resumeRest cores rest
    | none => none

/-- The groups of a group's cluster instance. -/
def State.instanceOf (s : State) (c : Ctx) : List Group :=
  s.groups.filter fun g => match s.block? g.ref.blk with
    | some b => c.l.sameInstance b c.b
    | none => false

/-- RESUME: with a CLUS kernel the whole instance at once, when no request for one of its groups is open. -/
def execResume (r : GroupRef) (core : Nat) (s : State) : Out :=
  match (s.group? r).bind s.ctxOf with
  | none => .next s
  | some c => match s.resumeOn r core with
    | none => .next s
    | some s1 =>
      if !c.l.clus then .next s1
      else
        let mates := s.instanceOf c
        if mates.any fun g => g.preemptAt.isSome then .next s
        else
          let rest := (mates.filter fun g => decide (g.status = .preempted) && g.ref != r).map (·.ref)
          .next ((s1.resumeRest (s.partitionCores c.l.tenant) rest).getD s)

end Sys2Proof.Machine
end

