-- ==== Sys2Proof/Machine/LaneInt.lean ====
section
/-! DEFINITION. Packed integer lane instructions (R162 to R168). -/

namespace Sys2Proof.Machine

open Sys2Proof

/-- A sub-element read as the type says (R27). -/
def readTy (t : Ty) (x : Nat) : Int := readInt t.isSigned t.width x

/-- `f` on the sub-elements of one source. -/
def laneOp1 (g : Group) (c : Lc) (t : Ty) (a : Src) (f : Nat → FRes) (i : Fin 32) : LRes :=
  let x := g.src t c.imm i a
  mapSubs t.width fun j => f (subOf x t.width j)

/-- `f` on the sub-elements of two sources. -/
def laneOp2 (g : Group) (c : Lc) (t : Ty) (a b : Src) (f : Nat → Nat → FRes) (i : Fin 32) : LRes :=
  let x := g.src t c.imm i a
  let y := g.src t c.imm i b
  mapSubs t.width fun j => f (subOf x t.width j) (subOf y t.width j)

/-- `f` on the sub-elements of three sources. -/
def laneOp3 (g : Group) (c : Lc) (t : Ty) (a b e : Src) (f : Nat → Nat → Nat → FRes) (i : Fin 32) : LRes :=
  let x := g.src t c.imm i a
  let y := g.src t c.imm i b
  let z := g.src t c.imm i e
  mapSubs t.width fun j => f (subOf x t.width j) (subOf y t.width j) (subOf z t.width j)

/-- A bit pattern without flags. -/
def plain (x : Nat) : FRes := ⟨x, flNone⟩

/-! ## Operations on sub-elements of width `w` -/

/-- The shift amount: the low log2 w bits (R164). -/
def shiftAmount (w b : Nat) : Nat := b % w

def shlBits (w a b : Nat) : Nat := a * 2 ^ shiftAmount w b % 2 ^ w

def shrBits (w a b : Nat) : Nat := a / 2 ^ shiftAmount w b

def sarBits (w a b : Nat) : Nat := wrapInt w (readInt true w a / (2 ^ shiftAmount w b : Nat))

def rotBits (w a b : Nat) : Nat := (a * 2 ^ shiftAmount w b + a / 2 ^ (w - shiftAmount w b)) % 2 ^ w

def clzBits (w a : Nat) : Nat := if a = 0 then w else w - 1 - Nat.log2 a

def popcBits (w a : Nat) : Nat := (List.range w).foldl (fun n i => n + a / 2 ^ i % 2) 0

/-- `bfe`: a field at a clipped position and length, sign-extended for signed types (R165). -/
def bfeBits (signed : Bool) (w a b c : Nat) : Nat :=
  let pos := min b w
  let len := min c (w - pos)
  if len = 0 then 0
  else
    let r := a / 2 ^ pos % 2 ^ len
    if signed then wrapInt w (readInt true len r) else r

/-- `bfi`: the low bits of `a` into `b` at a clipped position and length (R165). -/
def bfiBits (w a b c d : Nat) : Nat :=
  let pos := min c w
  let len := min d (w - pos)
  let m := (2 ^ len - 1) * 2 ^ pos
  (b &&& (2 ^ w - 1 - m)) ||| (a * 2 ^ pos &&& m)

/-- Byte `k` of a number. -/
def byteOf (x k : Nat) : Nat := x / 256 ^ k % 256

/-- `prmt.n32`: bytes from an eight-byte pool, or their sign (R166). -/
def prmt32 (a b sel : Nat) : Nat :=
  packNat 8 ((List.range 4).map fun k =>
    let n := sel / 16 ^ k % 16
    let v := byteOf (a + 2 ^ 32 * b) (n % 8)
    if n / 8 = 1 then (if v / 128 = 1 then 0xFF else 0) else v)

/-- `prmt.n64`: bytes from a sixteen-byte pool (R166). -/
def prmt64 (a b sel : Nat) : Nat :=
  packNat 8 ((List.range 8).map fun k => byteOf (a + 2 ^ 64 * b) (sel / 16 ^ k % 16))

/-- `rsh.rn`: the quotient by 2^s rounded to nearest, ties to even (R167). -/
def rshBits (t : Ty) (a b : Nat) : Nat :=
  let x := readTy t a
  wrapInt t.width (roundInt .rn 0 ⟨decide (x < 0), x.natAbs, 2 ^ shiftAmount t.width b⟩).1

/-- A sum of `q` products of narrow sub-elements onto an s32 sub-element, clamped once (R168). -/
def macSub (q : Nat) (a b e : Word) (j : Nat) : FRes :=
  let wn := 32 / q
  let prod (i : Nat) : Int := readInt true wn (subOf a wn (q * j + i)) * readInt true wn (subOf b wn (q * j + i))
  writeInt true true 32 ((List.range q).foldl (fun x i => x + prod i) (readInt true 32 (subOf e 32 j)))

/-- `mac2` and `mac4` on one lane. -/
def macLane (g : Group) (c : Lc) (narrow : Ty) (q : Nat) (a b e : Src) (i : Fin 32) : LRes :=
  let x := g.src narrow c.imm i a
  let y := g.src narrow c.imm i b
  let z := g.src .s32 c.imm i e
  mapSubs 32 fun j => macSub q x y z j

/-! ## The instructions -/

def execLaneAdd (c : Lc) (t : Ty) (sat : Bool) (d : Dst) (a b : Src) (s : State) : Out :=
  s.lanePure fun g p => g.writeD p.mask c d (laneOp2 g c t a b fun x y => writeInt sat t.isSigned t.width (readTy t x + readTy t y))

def execLaneSub (c : Lc) (t : Ty) (sat : Bool) (d : Dst) (a b : Src) (s : State) : Out :=
  s.lanePure fun g p => g.writeD p.mask c d (laneOp2 g c t a b fun x y => writeInt sat t.isSigned t.width (readTy t x - readTy t y))

def execLaneMul (c : Lc) (t : Ty) (sat : Bool) (d : Dst) (a b : Src) (s : State) : Out :=
  s.lanePure fun g p => g.writeD p.mask c d (laneOp2 g c t a b fun x y => writeInt sat t.isSigned t.width (readTy t x * readTy t y))

def execMad (c : Lc) (t : Ty) (sat : Bool) (d : Dst) (a b e : Src) (s : State) : Out :=
  s.lanePure fun g p => g.writeD p.mask c d
    (laneOp3 g c t a b e fun x y z => writeInt sat t.isSigned t.width (readTy t x * readTy t y + readTy t z))

def execLaneMulh (c : Lc) (t : Ty) (d : Dst) (a b : Src) (s : State) : Out :=
  s.lanePure fun g p => g.writeD p.mask c d
    (laneOp2 g c t a b fun x y => plain (wrapInt t.width (readTy t x * readTy t y / (2 ^ t.width : Nat))))

def execLaneAbs (c : Lc) (t : Ty) (sat : Bool) (d : Dst) (a : Src) (s : State) : Out :=
  s.lanePure fun g p => g.writeD p.mask c d (laneOp1 g c t a fun x => writeInt sat t.isSigned t.width (readTy t x).natAbs)

def execLaneNeg (c : Lc) (t : Ty) (sat : Bool) (d : Dst) (a : Src) (s : State) : Out :=
  s.lanePure fun g p => g.writeD p.mask c d (laneOp1 g c t a fun x => writeInt sat t.isSigned t.width (-readTy t x))

def execLaneMin (c : Lc) (t : Ty) (d : Dst) (a b : Src) (s : State) : Out :=
  s.lanePure fun g p => g.writeD p.mask c d (laneOp2 g c t a b fun x y => plain (if readTy t y < readTy t x then y else x))

def execLaneMax (c : Lc) (t : Ty) (d : Dst) (a b : Src) (s : State) : Out :=
  s.lanePure fun g p => g.writeD p.mask c d (laneOp2 g c t a b fun x y => plain (if readTy t x < readTy t y then y else x))

def execLaneAnd (c : Lc) (t : Ty) (d : Dst) (a b : Src) (s : State) : Out :=
  s.lanePure fun g p => g.writeD p.mask c d (laneOp2 g c t a b fun x y => plain (x &&& y))

def execLaneOr (c : Lc) (t : Ty) (d : Dst) (a b : Src) (s : State) : Out :=
  s.lanePure fun g p => g.writeD p.mask c d (laneOp2 g c t a b fun x y => plain (x ||| y))

def execLaneXor (c : Lc) (t : Ty) (d : Dst) (a b : Src) (s : State) : Out :=
  s.lanePure fun g p => g.writeD p.mask c d (laneOp2 g c t a b fun x y => plain (x ^^^ y))

def execNot (c : Lc) (t : Ty) (d : Dst) (a : Src) (s : State) : Out :=
  s.lanePure fun g p => g.writeD p.mask c d (laneOp1 g c t a fun x => plain (2 ^ t.width - 1 - x))

def execLaneShl (c : Lc) (t : Ty) (d : Dst) (a b : Src) (s : State) : Out :=
  s.lanePure fun g p => g.writeD p.mask c d (laneOp2 g c t a b fun x y => plain (shlBits t.width x y))

def execLaneShr (c : Lc) (t : Ty) (d : Dst) (a b : Src) (s : State) : Out :=
  s.lanePure fun g p => g.writeD p.mask c d (laneOp2 g c t a b fun x y => plain (shrBits t.width x y))

def execLaneSar (c : Lc) (t : Ty) (d : Dst) (a b : Src) (s : State) : Out :=
  s.lanePure fun g p => g.writeD p.mask c d (laneOp2 g c t a b fun x y => plain (sarBits t.width x y))

def execLaneRot (c : Lc) (t : Ty) (d : Dst) (a b : Src) (s : State) : Out :=
  s.lanePure fun g p => g.writeD p.mask c d (laneOp2 g c t a b fun x y => plain (rotBits t.width x y))

def execLaneClz (c : Lc) (t : Ty) (d : Dst) (a : Src) (s : State) : Out :=
  s.lanePure fun g p => g.writeD p.mask c d (laneOp1 g c t a fun x => plain (clzBits t.width x))

def execLanePopc (c : Lc) (t : Ty) (d : Dst) (a : Src) (s : State) : Out :=
  s.lanePure fun g p => g.writeD p.mask c d (laneOp1 g c t a fun x => plain (popcBits t.width x))

def execBfe (c : Lc) (t : Ty) (d : Dst) (a b e : Src) (s : State) : Out :=
  s.lanePure fun g p => g.writeD p.mask c d (laneOp3 g c t a b e fun x y z => plain (bfeBits t.isSigned t.width x y z))

def execBfi (c : Lc) (t : Ty) (d : Dst) (a b e f : Src) (s : State) : Out :=
  s.lanePure fun g p => g.writeD p.mask c d fun i =>
    let x := g.src t c.imm i a
    let y := g.src t c.imm i b
    let z := g.src t c.imm i e
    let v := g.src t c.imm i f
    mapSubs t.width fun j =>
      plain (bfiBits t.width (subOf x t.width j) (subOf y t.width j) (subOf z t.width j) (subOf v t.width j))

def execPrmt (c : Lc) (t : Ty) (d : Dst) (a b e : Src) (s : State) : Out :=
  s.lanePure fun g p => g.writeD p.mask c d
    (laneOp3 g c t a b e fun x y z => plain (if t = .n32 then prmt32 x y z else prmt64 x y z))

def execRshRn (c : Lc) (t : Ty) (d : Dst) (a b : Src) (s : State) : Out :=
  s.lanePure fun g p => g.writeD p.mask c d (laneOp2 g c t a b fun x y => plain (rshBits t x y))

def execMac2 (c : Lc) (d : Dst) (a b e : Src) (s : State) : Out :=
  s.lanePure fun g p => g.writeD p.mask c d (macLane g c .s16 2 a b e)

def execMac4 (c : Lc) (d : Dst) (a b e : Src) (s : State) : Out :=
  s.lanePure fun g p => g.writeD p.mask c d (macLane g c .s8 4 a b e)

end Sys2Proof.Machine
end

