-- ==== Sys2Proof/Machine/LaneFloat.lean ====
section
/-! DEFINITION. Floating-point, conversion, predicate and status lane instructions (R158, R159, R169 to R181). -/

namespace Sys2Proof.Machine

open Sys2Proof

/-! ## Arithmetic with a rounding mode (R169, R172) -/

/-- `f` on the sub-elements of two sources, with the draw of each sub-element's slot. -/
def fpOp2 (g : Group) (c : Lc) (t : Ty) (a b : Src) (f : Nat → Nat → Nat → FRes) (i : Fin 32) : LRes :=
  let x := g.src t c.imm i a
  let y := g.src t c.imm i b
  mapSubs t.width fun j => f (g.rsDraw j i.val) (subOf x t.width j) (subOf y t.width j)

def fpOp3 (g : Group) (c : Lc) (t : Ty) (a b e : Src) (f : Nat → Nat → Nat → Nat → FRes) (i : Fin 32) : LRes :=
  let x := g.src t c.imm i a
  let y := g.src t c.imm i b
  let z := g.src t c.imm i e
  mapSubs t.width fun j => f (g.rsDraw j i.val) (subOf x t.width j) (subOf y t.width j) (subOf z t.width j)

/-- The draw slots of an instruction of `n` elements: none without `.rs` (R45, R172). -/
def Group.useDraws (g : Group) (rm : Rm) (n : Nat) : Group := if rm = .rs then g.advanceB n else g

def execFpAdd (c : Lc) (t : Ty) (rm : Rm) (d : Dst) (a b : Src) (s : State) : Out :=
  s.lanePure fun g p => (g.writeD p.mask c d (fpOp2 g c t a b fun r x y => (fmtOf t).add rm r x y)).useDraws rm (lanesOf t.width)

def execFpSub (c : Lc) (t : Ty) (rm : Rm) (d : Dst) (a b : Src) (s : State) : Out :=
  s.lanePure fun g p => (g.writeD p.mask c d (fpOp2 g c t a b fun r x y => (fmtOf t).sub rm r x y)).useDraws rm (lanesOf t.width)

def execFpMul (c : Lc) (t : Ty) (rm : Rm) (d : Dst) (a b : Src) (s : State) : Out :=
  s.lanePure fun g p => (g.writeD p.mask c d (fpOp2 g c t a b fun r x y => (fmtOf t).mul rm r x y)).useDraws rm (lanesOf t.width)

def execFma (c : Lc) (t : Ty) (rm : Rm) (d : Dst) (a b e : Src) (s : State) : Out :=
  s.lanePure fun g p =>
    (g.writeD p.mask c d (fpOp3 g c t a b e fun r x y z => (fmtOf t).fma rm r x y z)).useDraws rm (lanesOf t.width)

def execFpMin (c : Lc) (t : Ty) (d : Dst) (a b : Src) (s : State) : Out :=
  s.lanePure fun g p => g.writeD p.mask c d (laneOp2 g c t a b fun x y => (fmtOf t).minMax false x y)

def execFpMax (c : Lc) (t : Ty) (d : Dst) (a b : Src) (s : State) : Out :=
  s.lanePure fun g p => g.writeD p.mask c d (laneOp2 g c t a b fun x y => (fmtOf t).minMax true x y)

/-- The sign bit cleared: no other bit changes (R170). -/
def execFpAbs (c : Lc) (t : Ty) (d : Dst) (a : Src) (s : State) : Out :=
  s.lanePure fun g p => g.writeD p.mask c d (laneOp1 g c t a fun x => plain (x % (fmtOf t).signBit))

/-- The sign bit inverted: no other bit changes (R170). -/
def execFpNeg (c : Lc) (t : Ty) (d : Dst) (a : Src) (s : State) : Out :=
  s.lanePure fun g p => g.writeD p.mask c d (laneOp1 g c t a fun x => plain (x ^^^ (fmtOf t).signBit))

/-! ## Elementary functions (R171) -/

def execDiv (c : Lc) (t : Ty) (rm : Rm) (d : Dst) (a b : Src) (s : State) : Out :=
  s.lanePure fun g p => g.writeD p.mask c d (laneOp2 g c t a b fun x y => (fmtOf t).div rm x y)

def execSqrt (c : Lc) (t : Ty) (rm : Rm) (d : Dst) (a : Src) (s : State) : Out :=
  s.lanePure fun g p => g.writeD p.mask c d (laneOp1 g c t a fun x => (fmtOf t).sqrt rm x)

def execRcp (c : Lc) (t : Ty) (rm : Rm) (d : Dst) (a : Src) (s : State) : Out :=
  s.lanePure fun g p => g.writeD p.mask c d (laneOp1 g c t a fun x => (fmtOf t).rcp rm x)

def execRsqrt (c : Lc) (t : Ty) (rm : Rm) (d : Dst) (a : Src) (s : State) : Out :=
  s.lanePure fun g p => g.writeD p.mask c d (laneOp1 g c t a fun x => (fmtOf t).rsqrt rm x)

def execExp2 (c : Lc) (t : Ty) (rm : Rm) (d : Dst) (a : Src) (s : State) : Out :=
  s.lanePure fun g p => g.writeD p.mask c d (laneOp1 g c t a fun x => (fmtOf t).exp2 rm x)

def execLg2 (c : Lc) (t : Ty) (rm : Rm) (d : Dst) (a : Src) (s : State) : Out :=
  s.lanePure fun g p => g.writeD p.mask c d (laneOp1 g c t a fun x => (fmtOf t).lg2 rm x)

def execSin (c : Lc) (t : Ty) (rm : Rm) (d : Dst) (a : Src) (s : State) : Out :=
  s.lanePure fun g p => g.writeD p.mask c d (laneOp1 g c t a fun x => (fmtOf t).trig rm false x)

def execCos (c : Lc) (t : Ty) (rm : Rm) (d : Dst) (a : Src) (s : State) : Out :=
  s.lanePure fun g p => g.writeD p.mask c d (laneOp1 g c t a fun x => (fmtOf t).trig rm true x)

/-! ## Conversions (R173 to R178) -/

/-- Elements that a conversion makes (R174, R176, R177). -/
def cvtCount (dt st : Ty) : Nat :=
  if st = .g4 ∨ st = .mx then lanesOf dt.width
  else if dt = .g4 ∨ dt = .mx then lanesOf st.width
  else min (lanesOf st.width) (lanesOf dt.width)

/-- Element `e` of a scaled form (R176). -/
def scaledElem (st : Ty) (k : Mxk) (x : Nat) (e : Nat) : EVal :=
  if st = .g4 then g4Elem (nbits x (43 + 4 * e) (40 + 4 * e)) (nbits x 39 32) (nbits x 31 0)
  else
    let code := match k with
      | .e2m1 => nbits x (11 + 4 * e) (8 + 4 * e)
      | .e3m2 | .e2m3 => nbits x (13 + 8 * e) (8 + 8 * e)
      | _ => nbits x (15 + 8 * e) (8 + 8 * e)
    mxElem k code (nbits x 7 0)

/-- Bits that an element takes in the code form (R177, R178). -/
def codeWidth (dt : Ty) (k : Mxk) : Nat := if dt = .g4 ∨ k = .e2m1 then 4 else 8

/-- One lane's conversion: elements from `n` upwards are zero (R174). -/
def cvtLane (g : Group) (dt st : Ty) (k : Mxk) (rm : Rm) (sat : Bool) (x : Word) (i : Fin 32) : LRes :=
  let n := cvtCount dt st
  let w := if dt = .g4 ∨ dt = .mx then codeWidth dt k else dt.width
  let elem (e : Nat) : FRes :=
    let draw := g.rsDraw e i.val
    if st = .g4 ∨ st = .mx then (fmtOf dt).ofElem rm draw sat (scaledElem st k x.toNat e)
    else if dt = .mx then mxOfFloat k (fmtOf st) rm draw (subOf x st.width e)
    else if dt = .g4 then g4OfFloat (fmtOf st) rm draw (subOf x st.width e)
    else cvtElem dt st rm draw sat (subOf x st.width e)
  let rs := (List.range n).map elem
  ⟨packSubs w (rs.map (·.bits)), rs.foldl (fun a r => a ||| r.flags) flNone⟩

def execCvt (c : Lc) (dt st : Ty) (k : Mxk) (rm : Rm) (sat : Bool) (d : Dst) (a : Src) (s : State) : Out :=
  s.lanePure fun g p =>
    (g.writeD p.mask c d fun i => cvtLane g dt st k rm sat (g.src st c.imm i a) i).useDraws rm (cvtCount dt st)

/-! ## Predicates, selection, status (R159, R179 to R181) -/

/-- One sub-element's comparison, and whether it sets INV (R179). -/
def compareSub (t : Ty) (cmp : Cmp) (x y : Nat) : Bool × Bool :=
  if t.isInt then
    let a := readTy t x
    let b := readTy t y
    (match cmp with
      | .eq => a == b | .ne => a != b | .lt => decide (a < b) | .le => decide (a ≤ b)
      | .gt => decide (a > b) | .ge => decide (a ≥ b) | .num => true | .nan => false, false)
  else (fmtOf t).compare cmp x y

/-- `setp` on one lane: true when the comparison holds for every sub-element. -/
def setpLane (g : Group) (c : Lc) (t : Ty) (cmp : Cmp) (a b : Src) (i : Fin 32) : Bool × BitVec 16 :=
  let x := g.src t c.imm i a
  let y := g.src t c.imm i b
  let rs := (List.range (lanesOf t.width)).map fun j => compareSub t cmp (subOf x t.width j) (subOf y t.width j)
  (rs.all (·.1), flIf (rs.any (·.2)) flInv)

def execSetp (c : Lc) (t : Ty) (cmp : Cmp) (d : Fin 12) (a b : Src) (s : State) : Out :=
  s.lanePure fun g p => g.writeP p.mask c d (setpLane g c t cmp a b)

def execPlop (c : Lc) (lut : BitVec 4) (d a b : Fin 12) (s : State) : Out :=
  s.lanePure fun g p => g.writeP p.mask c d fun i =>
    (lut.getLsbD (2 * boolNat (g.lanes[i].getP a) + boolNat (g.lanes[i].getP b)), flNone)

def execSel (c : Lc) (t : Ty) (d : Dst) (a b : Src) (q : Fin 12) (s : State) : Out :=
  s.lanePure fun g p => g.writeD p.mask c d fun i =>
    ⟨if g.lanes[i].getP q then g.src t c.imm i a else g.src t c.imm i b, flNone⟩

def execLst (c : Lc) (d : Dst) (s : State) : Out :=
  s.lanePure fun g p => g.writeD p.mask c d fun i => ⟨g.lanes[i].lst.zeroExtend 64, flNone⟩

/-- `lclr` reads its mask as an n16 value (R159). -/
def execLclr (c : Lc) (a : Src) (s : State) : Out :=
  s.lanePure fun g p => g.mapLanes fun i l =>
    if g.executes p.mask c i then l.clearFlags ((g.src .n16 c.imm i a).extractLsb' 0 16) else l

end Sys2Proof.Machine
end

