-- ==== Sys2Proof/Machine/LaneExchange.lean ====
section
/-! DEFINITION. Cross-lane exchange, reductions, votes, `push` and random draws (R182 to R194). -/

namespace Sys2Proof.Machine

open Sys2Proof

/-! ## Elements by flat index (R182) -/

/-- Elements of the group's registers for a type. -/
def elemCount (t : Ty) : Nat := 32 * lanesOf t.width

/-- Element `f` of a source of format `t`, read whether or not its lane executes. -/
def Group.elem (g : Group) (t : Ty) (imm : BitVec 13) (a : Src) (f : Nat) : Nat :=
  subOf (g.src t imm (Fin.ofNat 32 (f / lanesOf t.width)) a) t.width (f % lanesOf t.width)

/-- A destination register formed from its elements. -/
def elemsOf (t : Ty) (i : Fin 32) (f : Nat → Nat) : Word :=
  packSubs t.width ((List.range (lanesOf t.width)).map fun j => f (i.val * lanesOf t.width + j))

/-- One value in every sub-element. -/
def spread (t : Ty) (x : Nat) : Word := replicateSub t.width x

def execShfl (c : Lc) (t : Ty) (d : Dst) (a ix : Src) (s : State) : Out :=
  s.lanePure fun g p => g.writeD p.mask c d fun i =>
    ⟨elemsOf t i fun f => g.elem t c.imm a (g.elem t.unsigned c.imm ix f % elemCount t), flNone⟩

def execSlideUp (c : Lc) (t : Ty) (d : Dst) (a sh f : Src) (s : State) : Out :=
  s.lanePure fun g p => g.writeD p.mask c d fun i =>
    ⟨elemsOf t i fun n =>
      let dist := g.elem t.unsigned c.imm sh n
      if dist ≤ n then g.elem t c.imm a (n - dist) else g.elem t c.imm f n, flNone⟩

def execSlideDn (c : Lc) (t : Ty) (d : Dst) (a sh f : Src) (s : State) : Out :=
  s.lanePure fun g p => g.writeD p.mask c d fun i =>
    ⟨elemsOf t i fun n =>
      let dist := g.elem t.unsigned c.imm sh n
      if n + dist < elemCount t then g.elem t c.imm a (n + dist) else g.elem t c.imm f n, flNone⟩

/-- The lowest-numbered executing lane. -/
def Group.lowest (g : Group) (mask : BitVec 32) (c : Lc) : Option (Fin 32) := (g.executing mask c).head?

def execBcast (c : Lc) (t : Ty) (d : Dst) (a ix : Src) (s : State) : Out :=
  s.lanePure fun g p => g.writeD p.mask c d fun _ =>
    match g.lowest p.mask c with
    | some e => ⟨g.src t c.imm (Fin.ofNat 32 (subOf (g.src t.unsigned c.imm e ix) t.width 0)) a, flNone⟩
    | none => ⟨0, flNone⟩

/-! ## Reductions and scans (R187 to R189) -/

/-- `Comb` on two contributions (R187). -/
def combine (t : Ty) (op : Rop) (x y : Nat) : FRes :=
  match op with
  | .add => if t.isInt then plain ((x + y) % 2 ^ t.width) else (fmtOf t).add .rn 0 x y
  | .min => if t.isInt then plain (if readTy t y < readTy t x then y else x) else (fmtOf t).minMax false x y
  | .max => if t.isInt then plain (if readTy t x < readTy t y then y else x) else (fmtOf t).minMax true x y
  | .and => plain (x &&& y)
  | .or => plain (x ||| y)
  | .xor => plain (x ^^^ y)

/-- `Comb` with Empty positions, and the flags raised. -/
def comb (t : Ty) (op : Rop) (x y : Option Nat) : Option Nat × BitVec 16 :=
  match x, y with
  | none, y => (y, flNone)
  | x, none => (x, flNone)
  | some a, some b => let r := combine t op a b; (some r.bits, r.flags)

/-- The identity of an operation (R187). -/
def identityOf (t : Ty) (op : Rop) : Nat :=
  match op with
  | .add => if t.isInt then 0 else (fmtOf t).signed true 0
  | .min => if t.isInt then wrapInt t.width (maxInt t.isSigned t.width) else (fmtOf t).infMag
  | .max => if t.isInt then wrapInt t.width (minInt t.isSigned t.width) else (fmtOf t).signed true (fmtOf t).infMag
  | .and => 2 ^ t.width - 1
  | .or | .xor => 0

/-- The contributions: elements of executing lanes, Empty elsewhere. -/
def Group.contributions (g : Group) (mask : BitVec 32) (c : Lc) (t : Ty) (a : Src) : List (Option Nat) :=
  (List.range (elemCount t)).map fun f =>
    if g.executes mask c (Fin.ofNat 32 (f / lanesOf t.width)) then some (g.elem t c.imm a f) else none

/-- One level of the tree: neighbours combined pairwise. -/
def combPairs (t : Ty) (op : Rop) : List (Option Nat) → List (Option Nat) × BitVec 16
  | x :: y :: rest =>
    let r := comb t op x y
    let rs := combPairs t op rest
    (r.1 :: rs.1, r.2 ||| rs.2)
  | xs => (xs, flNone)

/-- The tree of R188, for 2^levels values. -/
def redTree (t : Ty) (op : Rop) : Nat → List (Option Nat) → Option Nat × BitVec 16
  | 0, xs => (xs.headD none, flNone)
  | n + 1, xs =>
    let l := combPairs t op xs
    let r := redTree t op n l.1
    (r.1, l.2 ||| r.2)

/-- The passes of R189 with distances 2^k. -/
def scanPasses (t : Ty) (op : Rop) : Nat → Nat → List (Option Nat) → List (Option Nat) × BitVec 16
  | 0, _, u => (u, flNone)
  | n + 1, d, u =>
    let rs := List.zipWith (comb t op) u (u.drop d)
    let r := scanPasses t op n (2 * d) (u.take d ++ rs.map (·.1))
    (r.1, rs.foldl (fun a x => a ||| x.2) flNone ||| r.2)

/-- log2 of the number of elements. -/
def elemLevels (t : Ty) : Nat := Nat.log2 (elemCount t)

def execRed (c : Lc) (t : Ty) (op : Rop) (d : Dst) (a : Src) (s : State) : Out :=
  s.lanePure fun g p =>
    let r := redTree t op (elemLevels t) (g.contributions p.mask c t a)
    g.writeD p.mask c d fun _ => ⟨spread t (r.1.getD (identityOf t op)), r.2⟩

def execScan (c : Lc) (t : Ty) (op : Rop) (ex : Bool) (d : Dst) (a : Src) (s : State) : Out :=
  s.lanePure fun g p =>
    let r := scanPasses t op (elemLevels t) 1 (g.contributions p.mask c t a)
    let at' (f : Nat) : Nat :=
      (if ex then (if f = 0 then none else r.1.getD (f - 1) none) else r.1.getD f none).getD (identityOf t op)
    g.writeD p.mask c d fun i => ⟨elemsOf t i at', r.2⟩

/-! ## Extremes with their index (R190) -/

/-- Whether a later contribution `y` replaces the best so far `x` (R31, R190). -/
def replaces (t : Ty) (max : Bool) (x y : Nat) : Bool :=
  if t.isInt then (if max then decide (readTy t x < readTy t y) else decide (readTy t y < readTy t x))
  else
    let f := fmtOf t
    if f.isNan y then false
    else if f.isNan x then true
    else if max then decide (f.key x < f.key y) else decide (f.key y < f.key x)

/-- The best contribution and its flat index. -/
def extreme (t : Ty) (max : Bool) : List (Option Nat) → Nat → Option (Nat × Nat) → Option (Nat × Nat)
  | [], _, best => best
  | none :: rest, f, best => extreme t max rest (f + 1) best
  | some x :: rest, f, none => extreme t max rest (f + 1) (some (x, f))
  | some x :: rest, f, some b => extreme t max rest (f + 1) (if replaces t max b.1 x then some (x, f) else some b)

def extremeOp (g : Group) (mask : BitVec 32) (c : Lc) (t : Ty) (max : Bool) (d ix : Dst) (a : Src) : Group :=
  let vs := g.contributions mask c t a
  let best := (extreme t max vs 0 none).getD (0, 0)
  let val := if !t.isInt && (fmtOf t).isNan best.1 then (fmtOf t).canonical else best.1
  let inv := !t.isInt && vs.any fun v => match v with | some x => (fmtOf t).isSignalling x | none => false
  g.writeDD mask c d ix (fun _ => ⟨spread t val, flIf inv flInv⟩) fun _ => spread t best.2

def execMaxi (c : Lc) (t : Ty) (d ix : Dst) (a : Src) (s : State) : Out :=
  s.lanePure fun g p => extremeOp g p.mask c t true d ix a

def execMini (c : Lc) (t : Ty) (d ix : Dst) (a : Src) (s : State) : Out :=
  s.lanePure fun g p => extremeOp g p.mask c t false d ix a

/-! ## Predicates across the group (R191) -/

def execBallot (c : Lc) (d : Dst) (a : Fin 12) (s : State) : Out :=
  s.lanePure fun g p =>
    let b := ((g.executing p.mask c).filter fun i => g.lanes[i].getP a).foldl (fun n i => n + 2 ^ i.val) 0
    g.writeD p.mask c d fun _ => ⟨BitVec.ofNat 64 b, flNone⟩

def voteResult (k : Vk) (vs : List Bool) : Bool :=
  match k with
  | .all => vs.all id
  | .any => vs.any id
  | .uni => vs.all id || !vs.any id

def execVote (c : Lc) (k : Vk) (d a : Fin 12) (s : State) : Out :=
  s.lanePure fun g p =>
    let r := voteResult k ((g.executing p.mask c).map fun i => g.lanes[i].getP a)
    g.writeP p.mask c d fun _ => (r, flNone)

def execElect (c : Lc) (d : Fin 12) (s : State) : Out :=
  s.lanePure fun g p => g.writeP p.mask c d fun i => (g.lowest p.mask c == some i, flNone)

/-! ## `push` and draws (R192, R193) -/

def execPush (c : Lc) (a : Src) (s : State) : Out :=
  s.laneRes fun g p =>
    if 16 ≤ g.retq.length then .error (.wait .retRoom)
    else
      let x := match g.lowest p.mask c with
        | some e => g.src .n64 c.imm e a
        | none => 0
      s.done fun g => { g with retq := g.retq ++ [x] }.advanceLane s.who.slot

/-- The destination of one draw (R193). -/
def rndValue (t : Ty) (x : Word) : Word :=
  let lo := x.toNat % 2 ^ 32
  let hi := x.toNat / 2 ^ 32
  match t with
  | .f64 => BitVec.ofNat 64 (fp64.roundOr .rn 0 false false (Exact.ofDyadic false (x.toNat / 2 ^ 11) (-53))).bits
  | .f32 =>
    let f (n : Nat) : Nat := (fp32.roundOr .rn 0 false false (Exact.ofDyadic false (n / 2 ^ 8) (-24))).bits
    packSubs 32 [f lo, f hi]
  | _ => x

def execRnd (c : Lc) (t : Ty) (d : Dst) (s : State) : Out :=
  s.lanePure fun g p => (g.writeD p.mask c d fun i => ⟨rndValue t (g.draw 0 i.val), flNone⟩).advanceB 1

end Sys2Proof.Machine
end

