-- ==== Sys2Proof/Machine/Link.lean ====
section
/-! DEFINITION. The memory system and its links: homes and the line directory (R209 to R212), ownership of pages (R214,
R215), peers (R330 to R332), writes of the host and of the management controllers (R213, R219, R373, R376), memory errors (R195)
and link failures. -/

namespace Sys2Proof.Machine

open Sys2Proof

/-! ## The line directory (R209 to R212) -/

/-- The home of a line: the stack that its address selects. -/
def homeOf (line : Nat) : Nat := (nbits (128 * line) 9 7) ^^^ (nbits (128 * line) 14 12)

def State.dirLine (s : State) (line : Nat) : DirLine :=
  (s.dir.find? fun d => d.line == line).getD ⟨line, Vector.replicate 6 .invalid, 0, none, []⟩

def State.setDirLine (s : State) (d : DirLine) : State :=
  if s.dir.any fun e => e.line == d.line then { s with dir := s.dir.map fun e => if e.line = d.line then d else e }
  else { s with dir := s.dir ++ [d] }

/-- The state of a line in one requester's caches after the request of port `p`: a shared copy leaves dirty data with its holder
as Owned, an exclusive copy takes the line from all others, and a line given up goes home (R209). -/
def lineMoves (q : LineReq) (own others : Bool) (x : Moesi) : Moesi :=
  match q, own with
  | .read, true => if x = .invalid then (if others then .shared else .exclusive) else x
  | .read, false => match x with
    | .modified => .owned
    | .exclusive => .shared
    | y => y
  | .exclusive, own => if own then .modified else .invalid
  | .giveUp, own => if own then .invalid else x

/-- A served request. The requests of loads, stores and engines all reach a home as these, through their die's L2; when an L2
asks, and when it gives a line up, is the choice of its caches, which hold no value of their own in this model (log 2). -/
def DirLine.grant (d : DirLine) (port : Nat) (q : LineReq) : DirLine :=
  let others := (List.range 6).any fun i => i != port && (d.states[i]?.getD .invalid) != .invalid
  { d with
    states := d.states.mapIdx fun i x => lineMoves q (i == port) others x
    waiting := d.waiting.filter fun r => r.port != port
    reserved := if d.reserved = some port then none else d.reserved }

/-- The waiting request that was first refused earliest. -/
def firstRefused : List Retry → Option Retry
  | [] => none
  | r :: rest => match firstRefused rest with
    | none => some r
    | some q => if q.first < r.first then some q else some r

/-- RETRY: the refusal counts on the line, and the sixteenth reserves the line (R210, R211). -/
def DirLine.refuse (d : DirLine) (now port : Nat) (req : LineReq) : DirLine :=
  let waiting := match d.waiting.find? fun r => r.port == port with
    | some _ => d.waiting.map fun r => if r.port = port then { r with count := r.count + 1, req := req } else r
    | none => d.waiting ++ [⟨port, req, now, 1⟩]
  if d.refusals + 1 = 16 then
    { d with waiting := waiting, refusals := 0, reserved := d.reserved.or ((firstRefused waiting).map (·.port)) }
  else { d with waiting := waiting, refusals := d.refusals + 1 }

/-- The request that a home serves among those of one cycle: the reserved one, or the lowest in rotation (R211, R212). -/
def DirLine.choose (d : DirLine) (rho : Nat) (reqs : List (Nat × LineReq)) : Option (Nat × LineReq) :=
  match d.reserved with
  | some p => reqs.find? fun q => q.1 == p
  | none => reqs.foldl (fun (best : Option (Nat × LineReq)) q => match best with
    | none => some q
    | some b => if (q.1 + 6 - rho % 6) % 6 < (b.1 + 6 - rho % 6) % 6 then some q else best) none

/-- HOME_RETRY: requests for a line reach its home in one cycle, first or again; `busy`: another transaction on the line is in
progress. -/
def execHomeRetry (line : Nat) (reqs : List (Nat × LineReq)) (busy : Bool) (s : State) : Out :=
  let d := s.dirLine line
  let h := homeOf line
  let now := s.aoc.toNat
  if reqs.isEmpty || reqs.any (fun q => decide (6 ≤ q.1)) then .next s
  else
    let served := if busy then none else d.choose (s.rho[h]?.getD 0) reqs
    let refused := reqs.filter fun q => some q != served
    let d1 := match served with
      | some q => d.grant q.1 q.2
      | none => d
    let d2 := refused.foldl (fun (d : DirLine) q => d.refuse now q.1 q.2) d1
    let s1 := s.setDirLine d2
    .next (if served.isSome ∧ d.reserved.isNone ∧ 2 ≤ reqs.length then
      { s1 with rho := s1.rho.setIfInBounds h (s1.rho[h]?.getD 0 + 1) } else s1)

/-! ## Ownership of coherent pages (R214, R215) -/

/-- A link to a device is up; the device itself needs none. -/
def State.linkUp (s : State) (dev : Nat) : Bool :=
  dev == s.mgmt.uaId || (!s.lost.contains dev && !s.recovering.any fun r => r.1 == dev)

/-- The device takes part in the UALink domain: a port is enabled, and the device is not in the safe state (R375, R376). -/
def State.uaOn (s : State) : Bool := !s.mgmt.safe && s.uaLinkOn

/-- Every line that a set of lines selects leaves the device's caches, written back (R215, R372). -/
def State.recallLines (s : State) (f : Nat → Bool) : State :=
  { s with dir := s.dir.map fun d => if f d.line then { d with states := Vector.replicate 6 .invalid } else d }

/-- The lines of a page leave this device: a transaction whose footprint has one of them aborts as in a conflict (R214, R298, R299;
log 47). -/
def State.loseLines (s : State) (pageKey : Nat) : State :=
  { s with groups := s.groups.map fun g => match g.tx with
      | some t =>
        if t.abort.isNone && t.lines.any (fun l => 128 * l / pageSize * pageSize == pageKey) then
          { g with tx := some { t with abort := some (2, 0, 0) } }
        else g
      | none => g }

/-- OWNERSHIP_REQUEST: the owner recalls every line of the page and grants it to the device that asks. -/
def execOwnershipRequest (page : PAddr) (dev : BitVec 10) (s : State) : Out :=
  let key := physKey page / pageSize * pageSize
  let old := s.owner key
  if page.space = .host ∨ old = dev.toNat ∨ !s.uaOn ∨ !s.linkUp old ∨ !s.linkUp dev.toNat ∨ !s.linkUp (s.holder key) then
    .next s
  else
    let s1 := if old = s.mgmt.uaId then (s.recallLines fun l => l * 128 / pageSize * pageSize == key).loseLines key else s
    let owners := (s.owners.filter fun o => o.1 != key) ++ (if s.holder key = dev.toNat then [] else [(key, dev.toNat)])
    .next { s1 with owners := owners }

/-! ## Peers (R330, R332) -/

/-- The pages of a local range. -/
def localPages (addr n : Nat) : List Nat := (unitsOf pageSize addr n).map (· * pageSize)

/-- A write of the host or a peer to published pages of a tenant copies them with its external step, or names the code of the
failure (R219). -/
def State.externalCow (s : State) (tenant addr n : Nat) : Except Nat State :=
  (localPages addr n).foldlM (fun (s : State) p => match s.versions.find? fun v => v.page == p with
    | some v =>
      if !v.pub then .ok s
      else
        let q := (s.tenant tenant).xstep
        match s.cowFault v tenant q 1 with
        | some code => .error code
        | none => .ok (s.cowNow tenant p q)
    | none => .ok s) s

/-- A copy-on-write of a page of the range is in progress: a write waits until it has ended (R218, R219). -/
def State.copyingRange (s : State) (addr n : Nat) : Bool := (localPages addr n).any s.copying

/-- Ocard holds a page of the range locked (R61). -/
def State.lockedRange (s : State) (addr n : Nat) : Bool := (localPages addr n).any s.locked

def peerSize : PeerOp → Nat
  | .read n => n
  | .write bytes => bytes.length
  | .atomic t .. => t.width / 8
  | .arrival _ => 16

/-- Whether the domain carries the access: reads and writes of 64 to 256 bytes, aligned atomics and arrivals (R330). -/
def peerFits (op : PeerOp) (addr : Nat) : Bool :=
  match op with
  | .read n => decide (64 ≤ n) && decide (n ≤ 256)
  | .write bytes => decide (64 ≤ bytes.length) && decide (bytes.length ≤ 256)
  | .atomic t op .. => op.okFor t && addr % (t.width / 8) == 0
  | .arrival _ => addr % 16 == 0

def peerWrites : PeerOp → Bool
  | .read _ => false
  | _ => true

/-- PEER_ACCESS: a read, a write, an atomic or a posted arrival reaches a tenant's memory, under its window and Ocard's locks (R61, R205),
and waits for an engine that owns a line of it (R316); the source device holds an arrival that meets poison, as R390 has it (R330). -/
def execPeerAccess (tenant addr : Nat) (op : PeerOp) (s : State) : Out :=
  let n := peerSize op
  let answer (s : State) (r : Reply) : Out := .next { s with reply := r }
  if !s.uaOn || !s.tenantUp tenant || !peerFits op addr then .next s
  else if !(s.tenant tenant).inWindow addr n || (peerWrites op && s.lockedRange addr n) then answer s (.refused .protection 0)
  else if noMemory (addr + n - 1) then .fault (.noSuchMemory addr)
  else if (peerWrites op && s.copyingRange addr n) || s.lineHeld none (.phys addr) n then .next s
  else
    let p : Place := .phys addr
    match op with
    | .read n =>
      if (s.poisoned p n).isSome then answer s (.refused .poison 0)
      else answer (s.touch none false p n) (.data (s.readBytes p n))
    | .write bytes => match s.externalCow tenant addr n with
      | .error code => answer s (.refused .version (32 * code))
      | .ok s1 => answer (s1.writeWhole none p bytes) .none
    | .atomic t op v c =>
      if (s.poisoned p n).isSome then answer s (.refused .poison 0)
      else match s.externalCow tenant addr n with
        | .error code => answer s (.refused .version (32 * code))
        | .ok s1 =>
          let old := s1.readNat p n
          let cut (x : Word) : Nat := x.toNat % 2 ^ (8 * n)
          let new := aopLane op t old (cut v) (cut c)
          answer (s1.putAtomic none p n op old new) (.data (leBytes n old))
    | .arrival units =>
      if (s.poisoned p n).isSome then answer s (.refused .poison 0)
      else match s.externalCow tenant addr n with
        | .error code => answer s (.refused .version (32 * code))
        | .ok s1 => answer (s1.putPhaser p ((s1.phaserAt p).arrive units.toNat)) .none

def execPeerRecoveryStart (dev : BitVec 10) (s : State) : Out :=
  let d := dev.toNat
  if s.lost.contains d || (s.recovering.any fun r => r.1 == d) || d == s.mgmt.uaId then .next s
  else .next ({ s with recovering := s.recovering ++ [(d, s.aoc.toNat)] }.logEvent (.link d))

def execPeerRecoveryEnd (dev : BitVec 10) (s : State) : Out :=
  .next { s with recovering := s.recovering.filter fun r => r.1 != dev.toNat }

/-- The machine checks of a group's `pwait` and `bar.wait` whose object a lost peer holds; one that abandonment releases has none
(R302, R332). -/
def State.lostWaits (s : State) (g : Group) : List TrapInfo :=
  if s.blockAbandoned g.ref then [] else [none, some false, some true].filterMap fun slot =>
    match (match slot with | none => g.swait | some b => (g.path b).bind (·.wait)) with
    | some (.phaser (.phys k) addr attr _) | some (.barWait (.phys k) addr attr _ _) =>
      match s.onWay ⟨k, k / pageSize * pageSize, attr, true, false⟩ addr with
      | .error (.trap code a d) => some ⟨code, g.tpcOf slot, a, BitVec.ofNat 32 d, s.aoc⟩
      | _ => none
    | _ => none

/-- Every group that waits at such an object has its machine check detected. -/
def State.failLostWaits (s : State) : State :=
  { s with groups := s.groups.map fun g => { g with detected := g.detected ++ s.lostWaits g } }

/-- PEER_LOST: recovery has lasted 10 ms. Requests that wait for the peer meet a machine check as they issue again, and waits at a
phaser that it holds at once. -/
def execPeerLost (dev : BitVec 10) (s : State) : Out :=
  match s.recovering.find? fun r => r.1 == dev.toNat with
  | none => .next s
  | some r =>
    if s.aoc.toNat < r.2 + 1000000 then .next s
    else .next ({ s with
      recovering := s.recovering.filter fun r => r.1 != dev.toNat, lost := s.lost ++ [dev.toNat] }.failLostWaits.logEvent
        (.link dev.toNat))

/-! ## The host and the management controllers (R213, R219, R373, R376) -/

/-- The tenant and the device address that the region map gives a range of host addresses. -/
def State.regionOf (s : State) (host n : Nat) : Option (Nat × Nat) :=
  (s.mgmt.regions.find? fun r => decide (r.host ≤ host) && decide (host + n ≤ r.host + r.size)).map fun r =>
    (r.tenant, r.device + (host - r.host))

/-- CXL.mem carries accesses: its link is enabled, and the device is not in the safe state (R375, R376). -/
def State.cxlMemOn (s : State) : Bool := !s.mgmt.safe && s.cxlOn

/-- This device owns every page of a range, as an access of the host that it serves needs (R214). -/
def State.ownsRange (s : State) (addr n : Nat) : Bool := (localPages addr n).all fun p => s.owner p == s.mgmt.uaId

/-- The record of a dropped host write (R219). -/
def State.dropBytes (s : State) (addr code : Nat) : List Byte :=
  faultBytes TrapCode.version.num 0 0 0 0 0 (BitVec.ofNat 64 addr) (BitVec.ofNat 64 (32 * code)) s.aoc 0 0 0 0xFF 0xFF

/-- A host write that R218 refuses: it completes on the link, is dropped and counted, and a record is posted. Where the record finds
the buffer of 64 full, which R351 settles for groups alone, the write is left undone and uncounted, and is tried again (log 43,
DESIGN CHOICE). -/
def State.dropHostWrite (s : State) (tenant addr code : Nat) : State :=
  match s.postRecord tenant true ⟨s.dropBytes addr code, none, none⟩ with
  | .noRoom => s
  | .dropped s1 => s1.updTenant tenant fun t => { t with drops := min (t.drops + 1) 0xFFFF }
  | .posted s1 _ => s1.updTenant tenant fun t => { t with drops := min (t.drops + 1) 0xFFFF }

/-- A write of the host to device memory, within one page of one range of the region map (R373): it waits for the page's owner,
for a copy in progress, for Ocard's lock (R61; log 49) and for an engine that owns a line of it (R316). -/
def State.hostStore (s : State) (host : Nat) (bytes : List Byte) : Out :=
  let n := bytes.length
  match s.regionOf host n with
  | none => .next s
  | some (tenant, addr) =>
    if !s.cxlMemOn || n == 0 || (localPages addr n).length != 1 then .next s
    else if noMemory (addr + n - 1) then .fault (.noSuchMemory addr)
    else if !s.ownsRange addr n || s.copyingRange addr n || s.lockedRange addr n || s.lineHeld none (.phys addr) n then .next s
    else match s.externalCow tenant addr n with
      | .error code => .next (s.dropHostWrite tenant addr code)
      | .ok s1 => .next (s1.writeWhole none (.phys addr) bytes)

/-- Whether an access of a management controller lies in its memory window (R376). -/
def State.controllerMay (s : State) (i : BitVec 2) (addr n : Nat) : Bool :=
  let w := s.mgmt.mcw[i.toNat]?.getD (0, 0)
  decide (w.1.toNat ≤ addr) && decide (addr + n ≤ w.1.toNat + w.2.toNat)

/-- HOST_WRITE: of the host through CXL.mem; of the host to its own memory, which the device's coherent host pages then show
(R213); of a management controller, dropped and logged outside its window (R376; log 55). Each waits for Ocard's lock and for an engine
that owns a line (R61, R316). -/
def execHostWrite (at_ : HostTarget) (bytes : List Byte) (s : State) : Out :=
  match at_ with
  | .cxlMem addr => s.hostStore addr bytes
  | .ownMemory addr =>
    let p : Place := .phys (2 ^ 52 + addr)
    if 2 ^ 52 < addr + bytes.length || s.lockedRange (2 ^ 52 + addr) bytes.length || s.lineHeld none p bytes.length then .next s
    else .next (s.writeWhole none p bytes)
  | .controller i addr =>
    if !s.controllerMay i addr bytes.length then .next (s.logEvent (.controllerDropped i.toNat addr))
    else if noMemory (addr + bytes.length - 1) then .fault (.noSuchMemory addr)
    else if s.lockedRange addr bytes.length || s.lineHeld none (.phys addr) bytes.length then .next s
    else .next ((s.finishCopies addr bytes.length).writeBytes none (.phys addr) bytes)

/-! ## Errors (R195) and the CXL link (R213, R373) -/

/-- The bytes that an uncorrectable error poisons, where the device has such a place. Of the full/empty bits these are the sector
of their granule, and of the version table the page of its entry (log 55). A register file has none. -/
def State.errorBytes (s : State) (at_ : ErrPlace) : Option (Place × Nat) :=
  match at_ with
  | .registers _ => none
  | .mem p => if noMemory (physKey p) then none else some (.phys (physKey p), 1)
  | .scratch blk off => if (s.block? blk).isNone || decide (0x80000 ≤ off) then none else some (.sp blk off, 1)
  | .fullBits blk granule =>
    if (s.block? blk).isNone || decide (0x80000 ≤ 16 * granule) then none else some (.sp blk (16 * granule), 1)
  | .versionEntry page => if noMemory page || !isHbm page then none else some (.phys (page / pageSize * pageSize), pageSize)

/-- The machine check of an uncorrectable error in a group's registers, or in the saved state of a pre-empted one (R355). -/
def Group.registerCheck (g : Group) (time : Word) : TrapInfo :=
  ⟨.mcheck, if g.status = .preempted then g.rstart else g.scalarTpc, 0, 2, time⟩

/-- An ECC error in a group's registers: an uncorrectable one is a machine check of the group (R195, R355). -/
def State.registerError (s : State) (g : Group) (corrected : Bool) : State :=
  if corrected then s else s.detectTrap g.ref (g.registerCheck s.aoc)

/-- MEMORY_ERROR: an uncorrectable error poisons, or in registers is a machine check of their group; a corrected one changes nothing
that a program can see; the management controllers learn of either. -/
def execMemoryError (e : EccError) (s : State) : Out :=
  match e.place, s.errorBytes e.place with
  | .registers r, _ => match s.group? r with
    | some g => if g.alive then .next ((s.registerError g e.corrected).logEvent (.ecc e.place e.corrected)) else .next s
    | none => .next s
  | _, none => .next s
  | _, some (p, n) => .next ((if e.corrected then s else s.poisonRange p n).logEvent (.ecc e.place e.corrected))

/-- CXL_CACHE_SNOOP: the device's caches give up or share a line of host memory; in this model every access is already
performed at its step, so no value changes (log 2). -/
def execCxlCacheSnoop (_line : Nat) (_invalidate : Bool) (s : State) : Out := .next s

/-- LANE_FAILURE: the CXL link retrains to eight lanes. -/
def execLaneFailure (s : State) : Out := .next ({ s with mgmt := { s.mgmt with cxlWidth := 8 } }.logEvent (.cxlWidth 8))

end Sys2Proof.Machine
end

