-- ==== Sys2Proof/Machine/Management.lean ====
section
/-! DEFINITION. The device around the work: mailbox commands (R203, R206, R274, R321, R372), rings and registers by name (R4, R330,
R339, R349, R356, R376, R377), reset and self-test (R375), the boot lock, power and temperature (R376, R378), the discipline of the
counter (R339), partitions and tenants (R46, R61). -/

namespace Sys2Proof.Machine

open Sys2Proof

/-! ## The mailbox (R372) -/

/-- What a mailbox command does: it must wait, or ends with a status. -/
inductive MbResult where
  | wait
  | ends (status : Nat) (s : State)

/-- A mailbox command, written to MB_CMD before or at this moment, with the arguments of that time; while it waits the mailbox is
busy and takes no other. The write itself comes over the CXL link (R376). -/
def State.mailbox (s : State) (t cmd : Nat) (f : State → Word → Word → MbResult) : Out :=
  let x := s.tenant t
  let mine := match x.mbBusy with
    | none => if s.cxlOn then some (x.mbArg0, x.mbArg1) else none
    | some (c, a, b) => if c = cmd then some (a, b) else none
  if !s.tenantUp t then .next s
  else match mine with
    | none => .next s
    | some (a, b) => match f s a b with
      | .wait => .next (s.updTenant t fun x => { x with mbBusy := some (cmd, a, b) })
      | .ends st s1 =>
        .next ((s1.updTenant t fun x => { x with mbBusy := none, mbStatus := BitVec.ofNat 8 st }).sendVector t 9)

/-- An accepted command or posted arrival of the tenant holds pages of its space (R206, R390). -/
def State.holdsPages (s : State) (t : Nat) : Bool :=
  (s.groups.any fun g => s.tenantOf g == t && !g.mcmds.isEmpty) || s.gbcmds.any (fun q => q.tenant == t) ||
  s.colls.any (fun q => q.tenant == t) ||
  s.arrivals.any fun a => match s.group? a.grp with
    | some g => s.tenantOf g == t
    | none => false

/-- A bump of GEN completes when no command holds a page; cached translations do not exist in this model (log 2). -/
def State.bump (s : State) (t : Nat) (f : Tenant → Tenant) : MbResult :=
  if s.holdsPages t then .wait else .ends 0 (s.updTenant t fun x => { f x with gen := x.gen + 1 })

/-- A register word that keeps only the bits of a mask. -/
def keep (v : Word) (hi lo : Nat) : Word := BitVec.ofNat 64 (nbits v.toNat hi lo * 2 ^ lo)

/-- MB_SET_ROOT: TX_ROOT, the ASID that the controllers assign, and a bump. -/
def execMbSetRoot (t : Nat) (asid : BitVec 16) (s : State) : Out :=
  s.mailbox t 1 fun s a _ => s.bump t fun x => { x with txRoot := keep a 51 16, asid := asid }

def execMbBumpGen (t : Nat) (s : State) : Out := s.mailbox t 2 fun s _ _ => s.bump t id

/-- A retained entry refers to a page of the tenant's pool (R321). -/
def State.poolUsed (s : State) (t : Nat) : Bool := s.copiesOf.any (s.tenant t).pool.contains

/-- MB_SET_POOL (R321): refused while a retained entry refers to a pool page, and for a pool with pages outside the window. Copies
in progress for the old pool are given up, and their stores issue again. -/
def execMbSetPool (t : Nat) (s : State) : Out :=
  s.mailbox t 3 fun s a b =>
    let base := keep a 51 16
    let npg := nbits b.toNat 23 0
    if s.poolUsed t || (npg != 0 && !(s.tenant t).inWindow base.toNat (npg * pageSize)) then .ends 2 s
    else
      let s1 : State := { s with cows := s.cows.filter fun w => !(s.tenant t).pool.contains w.dest }
      .ends 0 (s1.updTenant t fun x => { x with vpBase := base, npg := npg })

/-- The array cells of a lease word: die, first cell, number. -/
def leaseCells (v : Word) : Option (Nat × Nat × Nat) :=
  if v.getLsbD 31 then some (nbits v.toNat 29 28, 256 * nbits v.toNat 9 0, 256 * (nbits v.toNat 25 16 + 1)) else none

/-- The fields of a lease register (R274). -/
def leaseWord (v : Word) : Word := keep v 31 31 ||| keep v 29 28 ||| keep v 25 16 ||| keep v 9 0

def leasesOverlap (a b : Option (Nat × Nat × Nat)) : Bool :=
  match a, b with
  | some a, some b => a.1 == b.1 && overlap a.2 b.2
  | _, _ => false

/-- A die of the tenant's partition. -/
def State.dieOf (s : State) (t die : Nat) : Bool := (partitionDies s.mgmt.division (s.tenant t).partition).contains die

/-- A lease word: FT + NTM1 at most 1,023, and of a window that it leases a die of the tenant's partition, and no overlap with another
lease. A word with EN clear leases no window, and its DIE is not checked (log 69, DESIGN CHOICE). -/
def State.leaseOk (s : State) (t w : Nat) (v : Word) : Bool :=
  decide (nbits v.toNat 9 0 + nbits v.toNat 25 16 ≤ 1023) && match leaseCells v with
  | none => true
  | some c =>
    s.dieOf t c.1 && (List.range 16).all fun u => (List.range 4).all fun n =>
      (u == t && n == w) || !leasesOverlap (some c) (leaseCells ((s.tenant u).leases[n]?.getD 0))

/-- The cells of a lease become void (R274, R275). -/
def State.voidCells (s : State) (c : Option (Nat × Nat × Nat)) : State :=
  match c with
  | none => s
  | some (die, first, n) =>
    { s with cells := s.cells.filter fun x => !(x.die == die && decide (first ≤ x.cell) && decide (x.cell < first + n)) }

/-- The window number of a command on an array (R276, R282 to R286). -/
def Group.arrayCommand (g : Group) (i : Instr) : Option Nat :=
  match i with
  | .gbload _ x | .gbclamp _ x | .gbread _ x | .gbsweep x | .gbstat _ x => some (nbits (g.getX x).toNat 21 20)
  | _ => none

/-- The group's scalar stream waits at a command on the window, whatever it waits for; a `gbread` behind its acceptance is an accepted
command. -/
def State.waitsOnWindow (s : State) (g : Group) (w : Nat) : Bool :=
  g.swait.isSome && g.swait != some .stateWrite && match (s.ctxOf g).map s.issueScalar with
    | some (.ok i) => g.arrayCommand i == some w
    | _ => false

/-- A command of the tenant on an array window is waiting or accepted (R274). -/
def State.windowBusy (s : State) (t w : Nat) : Bool :=
  (s.gbcmds.any fun q => q.tenant == t && q.window == w) || s.groups.any fun g => s.tenantOf g == t && s.waitsOnWindow g w

/-- A lease word stored: the cells of the old window and of the new become void, and the window's counters start at 0 (R274, R286). -/
def State.setLease (s : State) (t w : Nat) (v : Word) : State :=
  let old := leaseCells ((s.tenant t).leases[w]?.getD 0)
  ((s.voidCells old).voidCells (leaseCells v)).updTenant t fun x =>
    { x with leases := x.leases.setIfInBounds w v, sweeps := x.sweeps.setIfInBounds w 0
             changes := x.changes.setIfInBounds w 0, noise := x.noise.setIfInBounds w 0 }

/-- MB_SET_LEASE: it waits until no command on the window is waiting or accepted. -/
def execMbSetLease (t : Nat) (s : State) : Out :=
  s.mailbox t 4 fun s a b =>
    let w := nbits b.toNat 1 0
    let v := leaseWord a
    if s.windowBusy t w then .wait
    else if !s.leaseOk t w v then .ends 2 s
    else .ends 0 (s.setLease t w v)

/-- What commands 5 and 6 ask of their range. -/
def State.rangeStatus (s : State) (t : Nat) (a b : Word) : Nat :=
  if a.toNat % pageSize ≠ 0 ∨ b = 0 ∨ b.toNat % pageSize ≠ 0 then 1
  else if !(s.tenant t).inWindow a.toNat b.toNat then 2
  else 0

/-- A list of ranges without one range. -/
def cutRange (base size : Nat) (rs : List (Nat × Nat)) : List (Nat × Nat) :=
  rs.flatMap fun r =>
    let low := min (r.1 + r.2) base - r.1
    let from' := max r.1 (base + size)
    (if r.1 < base ∧ 0 < low then [(r.1, low)] else []) ++ (if from' < r.1 + r.2 then [(from', r.1 + r.2 - from')] else [])

/-- Every line of the range leaves the device's caches (R372). -/
def State.recallRange (s : State) (a b : Word) : State :=
  s.recallLines fun l => decide (a.toNat ≤ 128 * l) && decide (128 * l < a.toNat + b.toNat)

def execMbHostCoherent (t : Nat) (s : State) : Out :=
  s.mailbox t 5 fun s a b => match s.rangeStatus t a b with
    | 0 => .ends 0 ((s.recallRange a b).updTenant t fun x =>
        { x with hdmDb := cutRange a.toNat b.toNat x.hdmDb ++ [(a.toNat, b.toNat)] })
    | st => .ends st s

def execMbHostPlain (t : Nat) (s : State) : Out :=
  s.mailbox t 6 fun s a b => match s.rangeStatus t a b with
    | 0 => .ends 0 ((s.recallRange a b).updTenant t fun x => { x with hdmDb := cutRange a.toNat b.toNat x.hdmDb })
    | st => .ends st s

/-! ## Registers -/

/-- FQ_CTL and CQ_CTL (R349, R367). -/
def execFqCtl (t : Nat) (completion : Bool) (v : Word) (s : State) : Out :=
  if !s.vfUp t then .next s
  else
    let r := (s.tenant t).ring (!completion)
    let en := v.getLsbD 31
    let n := nbits v.toNat 4 0
    let r := { r with logn := if !r.en ∧ 4 ≤ n ∧ n ≤ 12 then n else r.logn, irq := v.getLsbD 30
                      get := if en && !r.en then 0 else r.get, put := if en && !r.en then 0 else r.put, en := en }
    .next (s.updTenant t fun x => x.setRing (!completion) r)

/-- A base register of a ring, written while the ring is disabled. -/
def Ring.setBase (r : Ring) (v : Word) : Ring := if r.en then r else { r with base := keep v 51 0 }

/-- GET of a pointer register; PUT is read-only. -/
def Ring.setGet (r : Ring) (v : Word) : Ring := { r with get := v.extractLsb' 32 32 }

/-- A window register may change while the tenant has no enabled queue and no admitted launch (R377). -/
def State.windowOpen (s : State) (t : Nat) : Bool :=
  !(s.tenant t).queues.any (·.en) && !s.launches.any fun l => l.tenant == t && decide (l.state = .admitted)

/-- A write to a register of a tenant's pages, which are in use from its creation (R47, R371). -/
def State.writeTenant (s : State) (t : Nat) (f : Tenant → Tenant) : State := if s.vfUp t then s.updTenant t f else s

/-- A write to a register of the Ocard mailbox, ignored while the mailbox is busy (R60). -/
def State.writeOcard (s : State) (t : Nat) (f : Tenant → Tenant) : State :=
  if (s.tenant t).ocBusy then s else s.writeTenant t f

/-- A write to an RWL register of PF0 (R376). -/
def State.writeLocked (s : State) (f : Management → Management) : State :=
  if s.mgmt.bootLock then s else { s with mgmt := f s.mgmt }

/-- A write to MB_CMD, ignored while the mailbox is busy: a command of R372 is taken up with its arguments, and MB_SET_ROOT to
MB_HOST_PLAIN carry it out; any other ends with status 3 and the vector. -/
def State.mailboxCommand (s : State) (t cmd : Nat) : State :=
  let x := s.tenant t
  if !s.vfUp t || x.mbBusy.isSome then s
  else if 1 ≤ cmd ∧ cmd ≤ 6 then s.updTenant t fun x => { x with mbBusy := some (cmd, x.mbArg0, x.mbArg1) }
  else (s.updTenant t fun x => { x with mbStatus := 3 }).sendVector t 9

/-- The vector messages that have waited for the CXL link go out once it is enabled (R376). -/
def State.flushVectors (s : State) : State :=
  if s.cxlOn then { s with tenants := s.tenants.map fun x => { x with vectors := x.vectorsDue ++ x.vectors, vectorsDue := [] } } else s

/-- A write to a named register: it keeps the bits it has, its conditions and its maximum. A register named by its page and offset
is no matter of this operation. -/
def State.writeRegister (s : State) (r : RegName) (v : Word) : State :=
  match r with
  | .lqBase t q =>
    if s.vfUp t then s.updQueue t q fun x => if x.en then x else { x with base := keep v 51 0 } else s
  | .ocImg t => s.writeOcard t fun x => { x with ocImg := keep v 51 0 }
  | .ocDst t => s.writeOcard t fun x => { x with ocDst := keep v 51 0 }
  | .ocDsize t => s.writeOcard t fun x => { x with ocDsize := v }
  | .l2pBase t => s.writeTenant t fun x => { x with l2pBase := v }
  | .fqBase t => s.writeTenant t fun x => { x with fq := x.fq.setBase v }
  | .fqPtr t => s.writeTenant t fun x => { x with fq := x.fq.setGet v }
  | .cqBase t => s.writeTenant t fun x => { x with cq := x.cq.setBase v }
  | .cqPtr t => s.writeTenant t fun x => { x with cq := x.cq.setGet v }
  | .wdCtl t => s.writeTenant t fun x => { x with xtl := v.extractLsb' 32 32, wdl := v.extractLsb' 0 32 }
  | .vxStep t => s.writeTenant t fun x => { x with xstep := v.extractLsb' 0 32 }
  | .mbArg0 t => s.writeTenant t fun x => { x with mbArg0 := v }
  | .mbArg1 t => s.writeTenant t fun x => { x with mbArg1 := v }
  | .mbCmd t => s.mailboxCommand t (nbits v.toNat 7 0)
  | .twBase t => if s.windowOpen t then s.updTenant t fun x => { x with twBase := keep v 51 16 } else s
  | .twSize t => if s.windowOpen t then s.updTenant t fun x => { x with twSize := keep v 51 16 } else s
  | .pwrCeil => s.writeLocked fun m => { m with pwrCeil := min (nbits v.toNat 11 0) 2600 }
  | .clkCeil => s.writeLocked fun m =>
    let c := min (nbits v.toNat 10 0) 1250
    { m with clkCeil := c, clocks := m.clocks.map (min c) }
  | .linkEn => (s.writeLocked fun m => { m with linkEn := v.extractLsb' 0 17 }).flushVectors
  | .mcw i size => s.writeLocked fun m =>
    { m with mcw := m.mcw.setIfInBounds i.toNat (let w := m.mcw[i.toNat]?.getD (0, 0); if size then (w.1, v) else (v, w.2)) }
  | .uaId => s.writeLocked fun m => { m with uaId := nbits v.toNat 9 0 }
  | .aoc => if s.tenants.any (·.created) then s else { s with aoc := v, mgmt := { s.mgmt with lastSlew := 0 } }
  | .region t host size device =>
    let others := s.mgmt.regions.filter fun r => !overlap (r.host, r.size) (host, size)
    { s with mgmt := { s.mgmt with regions := others ++ [⟨host, size, device, t⟩] } }
  | .control _ _ | .view _ _ | .pf0 _ => s

/-! ## Reset, boot, partitions and tenants -/

/-- Cells of memory outside the device. -/
def Memory.external (m : Memory) : Memory := ⟨m.cells.filter fun c => !isHbm c.1⟩

/-- RESET: the state of `State.reset`, with self-test's result; what lies outside the device, its fuses and the schedule stay;
a failure means the safe state (R375). -/
def execReset (failures : BitVec 16) (s : State) : Out :=
  let m := State.reset.mgmt
  .next { State.reset with
    mem := s.mem.external, poison := s.poison.filter fun p => !isHbm (32 * p), present := s.present, schedule := s.schedule
    freeIx := s.freeIx, mgmt := { m with stStat := 0x80000000 + failures.zeroExtend 32, safe := failures != 0 } }

/-- BOOT_LOCK: Ocard has extended the firmware's measurement (R376). -/
def execBootLock (s : State) : Out := .next { s with mgmt := { s.mgmt with bootLock := true } }

/-- Launches that have been read are checked again against a new division: one whose core table no longer lies in its tenant's
partition is refused (R46, R65; log 54). -/
def State.recheckTables (s : State) : State :=
  (s.launches.filter fun l => l.state.waiting && !s.tableOk l).foldl (fun (s : State) l => s.refuse l 0x06) s

/-- The windows, by tenant and number, whose die lies outside their tenant's partition (R274). -/
def State.strayLeases (s : State) : List (Nat × Nat) :=
  (List.range 16).flatMap fun t => ((List.range 4).filter fun w =>
    match leaseCells ((s.tenant t).leases[w]?.getD 0) with
    | some c => !s.dieOf t c.1
    | none => false).map fun w => (t, w)

/-- Leases released: EN cleared. -/
def State.releaseLeases (s : State) (ws : List (Nat × Nat)) : State :=
  ws.foldl (fun (s : State) (p : Nat × Nat) => s.setLease p.1 p.2 ((s.tenant p.1).leases[p.2]?.getD 0 &&& ~~~(1#64 <<< 31))) s

/-- PARTITION_CONFIGURE: a division of the dies and a partition for each tenant, while no launch is admitted (R46). The leases whose die
then lies outside their tenant's partition are released; while a command is on such a window, the division waits (R274; log 69, DESIGN
CHOICE). -/
def execPartitionConfigure (division : Nat) (bind : List Nat) (s : State) : Out :=
  let ok := (division == 1 || division == 2 || division == 4) && bind.length == 16 &&
    (bind.all fun p => decide (p < division)) && !s.launches.any fun l => decide (l.state = .admitted)
  if !ok then .next s
  else
    let s1 : State := { s with
      mgmt := { s.mgmt with division := division }
      tenants := s.tenants.mapIdx fun i x => { x with partition := bind.getD i 0 } }
    if s1.strayLeases.any fun p => s.windowBusy p.1 p.2 then .next s else .next (s1.releaseLeases s1.strayLeases).recheckTables

/-- TENANT_CREATE: the tenant's pages come into use, with OC_TMEAS zero; none in the safe state (R61, R375). -/
def execTenantCreate (t : Nat) (s : State) : Out :=
  if s.mgmt.safe ∨ (s.tenant t).created then .next s
  else .next (s.updTenant t fun x => { x with created := true, ocTmeas := List.replicate 32 0 })

/-! ## Power, temperature and the counter (R339, R378) -/

/-- The next arithmetic clock of a die: a step of 25 MHz down to 400 while the average power `sum / n` lies above its ceiling, and up
to CLK_CEIL while it lies below 95 % of it (R376, R378). -/
def Management.nextClock (m : Management) (sum n clock : Nat) : Nat :=
  if m.pwrCeil * n < sum then min clock (max 400 (clock - 25))
  else if 100 * sum < 95 * m.pwrCeil * n then max clock (min m.clkCeil (clock + 25))
  else clock

/-- POWER_SAMPLE: the average of the last millisecond moves the clocks of the compute dies that heat does not hold. -/
def execPowerSample (watts : Nat) (s : State) : Out :=
  let m := s.mgmt
  let samples := (watts :: m.samples).take 100
  let step (hot : Bool) (clock : Nat) : Nat := if hot then clock else m.nextClock (samples.foldl (· + ·) 0) samples.length clock
  .next { s with mgmt := { m with samples := samples, clocks := m.hot.zipWith step m.clocks } }

/-- OVER_TEMPERATURE: a die's clock is held at 400 MHz, or at CLK_CEIL where that is lower, until it clears. -/
def execOverTemperature (h : DieHeat) (s : State) : Out :=
  let m := s.mgmt
  .next { s with mgmt := { m with
    hot := m.hot.set h.die.toNat h.hot h.die.isLt
    clocks := if h.hot then m.clocks.set h.die.toNat (min m.clkCeil 400) h.die.isLt else m.clocks } }

/-- AOC_SLEW: one tick added, or one withheld while time passes; at most one in every 2,000, counted from the value that the last one
left. -/
def execAocSlew (add : Bool) (s : State) : Out :=
  if s.aoc.toNat < s.mgmt.lastSlew + 2000 then .next s
  else
    let slewed (aoc : Word) (s : State) : State := { s with aoc := aoc, mgmt := { s.mgmt with lastSlew := aoc.toNat } }
    .next (if add then slewed (s.aoc + 1) s else slewed s.aoc s.tick)

end Sys2Proof.Machine
end

