-- ==== Sys2Proof/Machine/Registers.lean ====
section
/-! DEFINITION. Registers by page and offset: the tenant control page (R47), the management view (R371) and PF0's memory windows
(R377), what a read of them gives (R48, R49, R60, R64, R203, R219, R274, R321, R349, R356, R372), and the reads of the host, of the
management controllers and of PF0's diagnostics (R373, R375, R376). -/

namespace Sys2Proof.Machine

open Sys2Proof

/-! ## Writes by offset -/

/-- OC_CMD, ignored while the mailbox is busy (R60). -/
def State.writeOcCmd (s : State) (t : Nat) (v : Word) : Out :=
  if !s.vfUp t || (s.tenant t).ocBusy then .next s
  else match nbits v.toNat 1 0 with
    | 1 => execOcLoad t s
    | 2 => execOcUnload t (v.extractLsb' 16 16) s
    | _ => .next s

/-- A write to the tenant control page: LQ_HEAD, OC_STAT and OC_TMEAS are read-only, and offsets not listed ignore it (R47). -/
def State.writeControl (s : State) (t off : Nat) (v : Word) : Out :=
  if off < 0x200 then
    match off % 0x40 with
    | 0x00 => .next (s.writeRegister (.lqBase t (off / 0x40)) v)
    | 0x08 => execLqCtl t (off / 0x40) v s
    | 0x18 => execLqDb t (off / 0x40) v s
    | _ => .next s
  else match off with
    | 0x400 => .next (s.writeRegister (.ocImg t) v)
    | 0x408 => .next (s.writeRegister (.ocDst t) v)
    | 0x410 => .next (s.writeRegister (.ocDsize t) v)
    | 0x418 => s.writeOcCmd t v
    | 0x800 => .next (s.writeRegister (.l2pBase t) v)
    | _ => .next s

/-- A write to the management view: read-only registers and offsets not listed ignore it (R371). -/
def State.writeView (s : State) (t off : Nat) (v : Word) : Out :=
  let named (r : RegName) : Out := .next (s.writeRegister r v)
  match off with
  | 0x000 => named (.fqBase t)
  | 0x008 => execFqCtl t false v s
  | 0x010 => named (.fqPtr t)
  | 0x020 => named (.cqBase t)
  | 0x028 => execFqCtl t true v s
  | 0x030 => named (.cqPtr t)
  | 0x040 => named (.wdCtl t)
  | 0x048 => named (.vxStep t)
  | 0x100 => named (.mbCmd t)
  | 0x108 => named (.mbArg0 t)
  | 0x110 => named (.mbArg1 t)
  | _ => .next s

/-- A write to PF0: the registers whose offsets the spec gives are the tenants' memory windows (R377). -/
def State.writePf0 (s : State) (off : Nat) (v : Word) : State :=
  let t := (off - 0x1000) / 0x20
  if off < 0x1000 ∨ 0x1200 ≤ off then s
  else match off % 0x20 with
    | 0x00 => s.writeRegister (.twBase t) v
    | 0x08 => s.writeRegister (.twSize t) v
    | _ => s

/-- REGISTER_WRITE. -/
def execRegisterWrite (r : RegName) (v : Word) (s : State) : Out :=
  match r with
  | .control t off => s.writeControl t off v
  | .view t off => s.writeView t off v
  | .pf0 off => .next (s.writePf0 off v)
  | r => .next (s.writeRegister r v)

/-! ## Reads -/

/-- A register word from its fields: value and lowest bit. -/
def fields (l : List (Nat × Nat)) : Word := BitVec.ofNat 64 (l.foldl (fun x f => x + f.1 * 2 ^ f.2) 0)

/-- LQ_CTL (R48). -/
def LaunchQueue.ctl (q : LaunchQueue) : Word := fields [(boolNat q.en, 31), (boolNat q.err, 30), (boolNat q.devq, 29), (q.logn, 0)]

/-- LQ_HEAD (R49). -/
def LaunchQueue.headWord (q : LaunchQueue) : Word := q.ret ++ q.head

/-- FQ_CTL and CQ_CTL (R349). -/
def Ring.ctl (r : Ring) : Word := fields [(boolNat r.en, 31), (boolNat r.irq, 30), (r.drop, 8), (r.logn, 0)]

/-- FQ_PTR and CQ_PTR (R349). -/
def Ring.ptr (r : Ring) : Word := r.get ++ r.put

/-- What a read of the tenant control page gives: write-only registers and offsets not listed read as zero (R4, R47, R60). -/
def Tenant.controlWord (t : Tenant) (off : Nat) : Word :=
  if off < 0x200 then
    let q := t.queue (off / 0x40)
    match off % 0x40 with
    | 0x00 => q.base
    | 0x08 => q.ctl
    | 0x10 => q.headWord
    | _ => 0
  else if 0x440 ≤ off ∧ off < 0x460 ∧ off % 8 = 0 then BitVec.ofNat 64 (leNat ((t.ocTmeas.drop (off - 0x440)).take 8))
  else match off with
    | 0x400 => t.ocImg
    | 0x408 => t.ocDst
    | 0x410 => t.ocDsize
    | 0x420 => fields [(boolNat t.ocBusy, 31), (t.ocStatus.toNat, 16), (t.ocHandle, 0)]
    | 0x800 => t.l2pBase
    | _ => 0

/-- VP_CTL.FREE: pool pages that no retained entry refers to (R321). -/
def State.freePages (s : State) (t : Nat) : Nat := ((s.tenant t).pool.filter fun p => !s.copiesOf.contains p).length

/-- A word of the harvest map (R64). -/
def presentWord (p : BitVec 36) : Word :=
  fields [(((List.range 36).filter fun i => p.getLsbD i).length, 36), (p.toNat, 0)]

/-- What a read of a tenant's management view gives: write-only registers and offsets not listed read as zero (R4, R371). -/
def State.viewWord (s : State) (t off : Nat) : Word :=
  let x := s.tenant t
  if 0x0A0 ≤ off ∧ off < 0x0C0 ∧ off % 8 = 0 then x.leases[(off - 0x0A0) / 8]?.getD 0
  else if 0x0C0 ≤ off ∧ off < 0x0E0 ∧ off % 8 = 0 then presentWord (s.present[(off - 0x0C0) / 8]?.getD 0)
  else match off with
    | 0x000 => x.fq.base
    | 0x008 => x.fq.ctl
    | 0x010 => x.fq.ptr
    | 0x020 => x.cq.base
    | 0x028 => x.cq.ctl
    | 0x030 => x.cq.ptr
    | 0x040 => x.xtl ++ x.wdl
    | 0x048 => fields [(x.drops, 32), (x.xstep.toNat, 0)]
    | 0x080 => x.txRoot
    | 0x088 => fields [(x.asid.toNat, 32), (x.gen.toNat, 0)]
    | 0x090 => x.vpBase
    | 0x098 => fields [(s.freePages t, 24), (x.npg, 0)]
    | 0x108 => x.mbArg0
    | 0x110 => x.mbArg1
    | 0x118 => fields [(boolNat x.mbBusy.isSome, 31), (x.mbStatus.toNat, 0)]
    | _ => 0

/-- What a read of PF0 by offset gives: the registers whose offsets the spec gives are the tenants' memory windows (R377). -/
def State.pf0Word (s : State) (off : Nat) : Word :=
  let x := s.tenant ((off - 0x1000) / 0x20)
  if off < 0x1000 ∨ 0x1200 ≤ off then 0
  else match off % 0x20 with
    | 0x00 => x.twBase
    | 0x08 => x.twSize
    | _ => 0

/-- What a read of a register of PF0 by its name gives: RW and RWL registers are readable (R4, R330, R376, R377); no result for a
register that a page and an offset name. -/
def State.registerWord (s : State) (r : RegName) : Option Word :=
  match r with
  | .twBase t => some (s.tenant t).twBase
  | .twSize t => some (s.tenant t).twSize
  | .pwrCeil => some (BitVec.ofNat 64 s.mgmt.pwrCeil)
  | .clkCeil => some (BitVec.ofNat 64 s.mgmt.clkCeil)
  | .linkEn => some (s.mgmt.linkEn.zeroExtend 64)
  | .mcw i size => let w := s.mgmt.mcw[i.toNat]?.getD (0, 0); some (if size then w.2 else w.1)
  | .uaId => some (BitVec.ofNat 64 s.mgmt.uaId)
  | .pf0 off => some (s.pf0Word off)
  | _ => none

/-- The events of the ECC and link error logs (R195, R355, R375). -/
def LogEvent.ofErrors : LogEvent → Bool
  | .ecc .. | .link _ | .machineCheck .. | .cxlWidth _ => true
  | .controllerDropped .. | .recordDropped _ => false

def State.replyWith (s : State) (r : Reply) : Out := .next { s with reply := r }

/-- A read of device memory by an agent outside, live content (R219, R373). -/
def State.readOutside (s : State) (addr n : Nat) : Out :=
  if noMemory (addr + n - 1) then .fault (.noSuchMemory addr)
  else if (s.poisoned (.phys addr) n).isSome then s.replyWith (.refused .poison 0)
  else (s.touch none false (.phys addr) n).replyWith (.data (s.readBytes (.phys addr) n))

/-- HOST_READ: memory through CXL.mem by the region map, waiting for the pages' owner and for an engine that owns a line (R214, R316, R373), or within a controller's window
(R376), `n` bytes of it; registers of a tenant's pages, each a whole word, while the CXL link is enabled (R376); and the diagnostics
and registers of PF0, which answer in the safe state too (R375). -/
def execHostRead (item : HostItem) (n : Nat) (s : State) : Out :=
  match item with
  | .mem host => match s.regionOf host n with
    | none => .next s
    | some (_, addr) =>
      if !s.cxlMemOn || n == 0 || !s.ownsRange addr n || s.lineHeld none (.phys addr) n then .next s else s.readOutside addr n
  | .controller i addr =>
    if n = 0 then .next s
    else if !s.controllerMay i addr n then .next (s.logEvent (.controllerDropped i.toNat addr))
    else if s.lineHeld none (.phys addr) n then .next s
    else s.readOutside addr n
  | .control t off => if s.vfUp t then s.replyWith (.data (leBytes 8 ((s.tenant t).controlWord off).toNat)) else .next s
  | .view t off => if s.vfUp t then s.replyWith (.data (leBytes 8 (s.viewWord t off).toNat)) else .next s
  | .stStat => s.replyWith (.data (leBytes 4 s.mgmt.stStat.toNat))
  | .errorLog => s.replyWith (.log (s.mgmt.log.filter LogEvent.ofErrors))
  | .harvestMap => s.replyWith (.data (s.present.toList.flatMap fun p => leBytes 8 (presentWord p).toNat))
  | .pf0 off => s.replyWith (.data (leBytes 8 (s.pf0Word off).toNat))
  | .register r => match s.registerWord r with
    | some v => s.replyWith (.data (leBytes 8 v.toNat))
    | none => .next s

end Sys2Proof.Machine
end

