-- ==== Sys2Proof/Machine/Dispatch.lean ====
section
/-! DEFINITION. One arm for each constructor of `Instr`: a direct call of its meaning. -/

namespace Sys2Proof.Machine

open Sys2Proof

/-- What an instruction or an event does. -/
def exec (i : Instr) (s : State) : Host.Outcome State Fault Refusal :=
  match i with
  | .add d a b => Sys2Proof.Machine.execAdd d a b s
  | .sub d a b => Sys2Proof.Machine.execSub d a b s
  | .mul d a b => Sys2Proof.Machine.execMul d a b s
  | .mulh d a b => Sys2Proof.Machine.execMulh d a b s
  | .mulhn d a b => Sys2Proof.Machine.execMulhn d a b s
  | .and d a b => Sys2Proof.Machine.execAnd d a b s
  | .or d a b => Sys2Proof.Machine.execOr d a b s
  | .xor d a b => Sys2Proof.Machine.execXor d a b s
  | .shl d a b => Sys2Proof.Machine.execShl d a b s
  | .shr d a b => Sys2Proof.Machine.execShr d a b s
  | .sar d a b => Sys2Proof.Machine.execSar d a b s
  | .rot d a b => Sys2Proof.Machine.execRot d a b s
  | .min d a b => Sys2Proof.Machine.execMin d a b s
  | .max d a b => Sys2Proof.Machine.execMax d a b s
  | .minn d a b => Sys2Proof.Machine.execMinn d a b s
  | .maxn d a b => Sys2Proof.Machine.execMaxn d a b s
  | .clz d a => Sys2Proof.Machine.execClz d a s
  | .popc d a => Sys2Proof.Machine.execPopc d a s
  | .seq d a b => Sys2Proof.Machine.execSeq d a b s
  | .sne d a b => Sys2Proof.Machine.execSne d a b s
  | .slt d a b => Sys2Proof.Machine.execSlt d a b s
  | .sltn d a b => Sys2Proof.Machine.execSltn d a b s
  | .addi d a imm => Sys2Proof.Machine.execAddi d a imm s
  | .andi d a imm => Sys2Proof.Machine.execAndi d a imm s
  | .ori d a imm => Sys2Proof.Machine.execOri d a imm s
  | .xori d a imm => Sys2Proof.Machine.execXori d a imm s
  | .shli d a sh => Sys2Proof.Machine.execShli d a sh s
  | .shri d a sh => Sys2Proof.Machine.execShri d a sh s
  | .sari d a sh => Sys2Proof.Machine.execSari d a sh s
  | .slti d a imm => Sys2Proof.Machine.execSlti d a imm s
  | .sltni d a imm => Sys2Proof.Machine.execSltni d a imm s
  | .li d imm => Sys2Proof.Machine.execLi d imm s
  | .lih d imm => Sys2Proof.Machine.execLih d imm s
  | .br off => Sys2Proof.Machine.execBr off s
  | .call off => Sys2Proof.Machine.execCall off s
  | .jr a => Sys2Proof.Machine.execJr a s
  | .ret => Sys2Proof.Machine.execRet s
  | .bz a off => Sys2Proof.Machine.execBz a off s
  | .bnz a off => Sys2Proof.Machine.execBnz a off s
  | .blt a b off => Sys2Proof.Machine.execBlt a b off s
  | .bge a b off => Sys2Proof.Machine.execBge a b off s
  | .bltn a b off => Sys2Proof.Machine.execBltn a b off s
  | .bgen a b off => Sys2Proof.Machine.execBgen a b off s
  | .loop a off => Sys2Proof.Machine.execLoop a off s
  | .lrun imm => Sys2Proof.Machine.execLrun imm s
  | .lframe n a => Sys2Proof.Machine.execLframe n a s
  | .qpop d => Sys2Proof.Machine.execQpop d s
  | .qcount d => Sys2Proof.Machine.execQcount d s
  | .ld8 d a imm => Sys2Proof.Machine.execLd8 d a imm s
  | .ld16 d a imm => Sys2Proof.Machine.execLd16 d a imm s
  | .ld32 d a imm => Sys2Proof.Machine.execLd32 d a imm s
  | .ld64 d a imm => Sys2Proof.Machine.execLd64 d a imm s
  | .lds8 d a imm => Sys2Proof.Machine.execLds8 d a imm s
  | .lds16 d a imm => Sys2Proof.Machine.execLds16 d a imm s
  | .lds32 d a imm => Sys2Proof.Machine.execLds32 d a imm s
  | .st8 b a off => Sys2Proof.Machine.execSt8 b a off s
  | .st16 b a off => Sys2Proof.Machine.execSt16 b a off s
  | .st32 b a off => Sys2Proof.Machine.execSt32 b a off s
  | .st64 b a off => Sys2Proof.Machine.execSt64 b a off s
  | .aadd w sx d a b => Sys2Proof.Machine.execAadd w sx d a b s
  | .acas w sx d a b => Sys2Proof.Machine.execAcas w sx d a b s
  | .aswp w sx d a b => Sys2Proof.Machine.execAswp w sx d a b s
  | .amin w sx d a b => Sys2Proof.Machine.execAmin w sx d a b s
  | .amax w sx d a b => Sys2Proof.Machine.execAmax w sx d a b s
  | .aand w sx d a b => Sys2Proof.Machine.execAand w sx d a b s
  | .aor w sx d a b => Sys2Proof.Machine.execAor w sx d a b s
  | .axor w sx d a b => Sys2Proof.Machine.execAxor w sx d a b s
  | .fence sx => Sys2Proof.Machine.execFence sx s
  | .setdm a => Sys2Proof.Machine.execSetdm a s
  | .preg a b => Sys2Proof.Machine.execPreg a b s
  | .pdrop a => Sys2Proof.Machine.execPdrop a s
  | .parr a => Sys2Proof.Machine.execParr a s
  | .pwait a b => Sys2Proof.Machine.execPwait a b s
  | .ptest d a b => Sys2Proof.Machine.execPtest d a b s
  | .yield => Sys2Proof.Machine.execYield s
  | .rgn => Sys2Proof.Machine.execRgn s
  | .mon a => Sys2Proof.Machine.execMon a s
  | .wmon a b => Sys2Proof.Machine.execWmon a b s
  | .xclose => Sys2Proof.Machine.execXclose s
  | .xabort a => Sys2Proof.Machine.execXabort a s
  | .xopen off => Sys2Proof.Machine.execXopen off s
  | .tdesc t a => Sys2Proof.Machine.execTdesc t a s
  | .tinv t => Sys2Proof.Machine.execTinv t s
  | .kick a b => Sys2Proof.Machine.execKick a b s
  | .kwait a => Sys2Proof.Machine.execKwait a s
  | .kwaitNb d a => Sys2Proof.Machine.execKwaitNb d a s
  | .mload a b => Sys2Proof.Machine.execMload a b s
  | .mloadSh a b => Sys2Proof.Machine.execMloadSh a b s
  | .mswap => Sys2Proof.Machine.execMswap s
  | .mloop a b => Sys2Proof.Machine.execMloop a b s
  | .mwait => Sys2Proof.Machine.execMwait s
  | .gbload a b => Sys2Proof.Machine.execGbload a b s
  | .gbclamp a b => Sys2Proof.Machine.execGbclamp a b s
  | .gbsweep a => Sys2Proof.Machine.execGbsweep a s
  | .gbread a b => Sys2Proof.Machine.execGbread a b s
  | .gbstat d a => Sys2Proof.Machine.execGbstat d a s
  | .vpub a b => Sys2Proof.Machine.execVpub a b s
  | .vret a => Sys2Proof.Machine.execVret a s
  | .vstep a => Sys2Proof.Machine.execVstep a s
  | .coll a => Sys2Proof.Machine.execColl a s
  | .launch d a => Sys2Proof.Machine.execLaunch d a s
  | .srd d r => Sys2Proof.Machine.execSrd d r s
  | .swr r a => Sys2Proof.Machine.execSwr r a s
  | .rseed a b => Sys2Proof.Machine.execRseed a b s
  | .trap code => Sys2Proof.Machine.execTrap code s
  | .brk code => Sys2Proof.Machine.execBrk code s
  | .nop => Sys2Proof.Machine.execNop s
  | .done => Sys2Proof.Machine.execDone s
  | .laneAdd c t sat d a b => Sys2Proof.Machine.execLaneAdd c t sat d a b s
  | .laneSub c t sat d a b => Sys2Proof.Machine.execLaneSub c t sat d a b s
  | .laneMul c t sat d a b => Sys2Proof.Machine.execLaneMul c t sat d a b s
  | .mad c t sat d a b e => Sys2Proof.Machine.execMad c t sat d a b e s
  | .laneMulh c t d a b => Sys2Proof.Machine.execLaneMulh c t d a b s
  | .laneAbs c t sat d a => Sys2Proof.Machine.execLaneAbs c t sat d a s
  | .laneNeg c t sat d a => Sys2Proof.Machine.execLaneNeg c t sat d a s
  | .laneMin c t d a b => Sys2Proof.Machine.execLaneMin c t d a b s
  | .laneMax c t d a b => Sys2Proof.Machine.execLaneMax c t d a b s
  | .laneAnd c t d a b => Sys2Proof.Machine.execLaneAnd c t d a b s
  | .laneOr c t d a b => Sys2Proof.Machine.execLaneOr c t d a b s
  | .laneXor c t d a b => Sys2Proof.Machine.execLaneXor c t d a b s
  | .not c t d a => Sys2Proof.Machine.execNot c t d a s
  | .laneShl c t d a b => Sys2Proof.Machine.execLaneShl c t d a b s
  | .laneShr c t d a b => Sys2Proof.Machine.execLaneShr c t d a b s
  | .laneSar c t d a b => Sys2Proof.Machine.execLaneSar c t d a b s
  | .laneRot c t d a b => Sys2Proof.Machine.execLaneRot c t d a b s
  | .laneClz c t d a => Sys2Proof.Machine.execLaneClz c t d a s
  | .lanePopc c t d a => Sys2Proof.Machine.execLanePopc c t d a s
  | .bfe c t d a b e => Sys2Proof.Machine.execBfe c t d a b e s
  | .bfi c t d a b e f => Sys2Proof.Machine.execBfi c t d a b e f s
  | .prmt c t d a b e => Sys2Proof.Machine.execPrmt c t d a b e s
  | .rshRn c t d a b => Sys2Proof.Machine.execRshRn c t d a b s
  | .mac2 c d a b e => Sys2Proof.Machine.execMac2 c d a b e s
  | .mac4 c d a b e => Sys2Proof.Machine.execMac4 c d a b e s
  | .fpAdd c t rm d a b => Sys2Proof.Machine.execFpAdd c t rm d a b s
  | .fpSub c t rm d a b => Sys2Proof.Machine.execFpSub c t rm d a b s
  | .fpMul c t rm d a b => Sys2Proof.Machine.execFpMul c t rm d a b s
  | .fma c t rm d a b e => Sys2Proof.Machine.execFma c t rm d a b e s
  | .fpMin c t d a b => Sys2Proof.Machine.execFpMin c t d a b s
  | .fpMax c t d a b => Sys2Proof.Machine.execFpMax c t d a b s
  | .fpAbs c t d a => Sys2Proof.Machine.execFpAbs c t d a s
  | .fpNeg c t d a => Sys2Proof.Machine.execFpNeg c t d a s
  | .div c t rm d a b => Sys2Proof.Machine.execDiv c t rm d a b s
  | .sqrt c t rm d a => Sys2Proof.Machine.execSqrt c t rm d a s
  | .rcp c t rm d a => Sys2Proof.Machine.execRcp c t rm d a s
  | .rsqrt c t rm d a => Sys2Proof.Machine.execRsqrt c t rm d a s
  | .exp2 c t rm d a => Sys2Proof.Machine.execExp2 c t rm d a s
  | .lg2 c t rm d a => Sys2Proof.Machine.execLg2 c t rm d a s
  | .sin c t rm d a => Sys2Proof.Machine.execSin c t rm d a s
  | .cos c t rm d a => Sys2Proof.Machine.execCos c t rm d a s
  | .cvt c dt st k rm sat d a => Sys2Proof.Machine.execCvt c dt st k rm sat d a s
  | .setp c t cmp d a b => Sys2Proof.Machine.execSetp c t cmp d a b s
  | .plop c lut d a b => Sys2Proof.Machine.execPlop c lut d a b s
  | .sel c t d a b p => Sys2Proof.Machine.execSel c t d a b p s
  | .lst c d => Sys2Proof.Machine.execLst c d s
  | .lclr c a => Sys2Proof.Machine.execLclr c a s
  | .shfl c t d a ix => Sys2Proof.Machine.execShfl c t d a ix s
  | .slideUp c t d a sx f => Sys2Proof.Machine.execSlideUp c t d a sx f s
  | .slideDn c t d a sx f => Sys2Proof.Machine.execSlideDn c t d a sx f s
  | .bcast c t d a ix => Sys2Proof.Machine.execBcast c t d a ix s
  | .red c t op d a => Sys2Proof.Machine.execRed c t op d a s
  | .scan c t op ex d a => Sys2Proof.Machine.execScan c t op ex d a s
  | .maxi c t d ix a => Sys2Proof.Machine.execMaxi c t d ix a s
  | .mini c t d ix a => Sys2Proof.Machine.execMini c t d ix a s
  | .ballot c d a => Sys2Proof.Machine.execBallot c d a s
  | .vote c k d a => Sys2Proof.Machine.execVote c k d a s
  | .elect c d => Sys2Proof.Machine.execElect c d s
  | .push c a => Sys2Proof.Machine.execPush c a s
  | .rnd c t d => Sys2Proof.Machine.execRnd c t d s
  | .ldG c h t d a => Sys2Proof.Machine.execLdG c h t d a s
  | .stG c h t a b => Sys2Proof.Machine.execStG c h t a b s
  | .ldSp c t d a => Sys2Proof.Machine.execLdSp c t d a s
  | .stSp c t a b => Sys2Proof.Machine.execStSp c t a b s
  | .ldFe c t clr d a => Sys2Proof.Machine.execLdFe c t clr d a s
  | .stFe c t a b => Sys2Proof.Machine.execStFe c t a b s
  | .ldV c h t d a q => Sys2Proof.Machine.execLdV c h t d a q s
  | .ldT c h t d tid vc => Sys2Proof.Machine.execLdT c h t d tid vc s
  | .ldMx c h k d a sc => Sys2Proof.Machine.execLdMx c h k d a sc s
  | .stMx c h k a b sc => Sys2Proof.Machine.execStMx c h k a b sc s
  | .pf c h a => Sys2Proof.Machine.execPf c h a s
  | .atom c h t op sx d a b cmp => Sys2Proof.Machine.execAtom c h t op sx d a b cmp s
  | .redAt c h t op sx a b => Sys2Proof.Machine.execRedAt c h t op sx a b s
  | .traceT c d r tid => Sys2Proof.Machine.execTraceT c d r tid s
  | .traceV c d r tidM tidD => Sys2Proof.Machine.execTraceV c d r tidM tidD s
  | .tex c t d tid vc => Sys2Proof.Machine.execTex c t d tid vc s
  | .bra tgt => Sys2Proof.Machine.execBra tgt s
  | .braDiv p tgt join => Sys2Proof.Machine.execBraDiv p tgt join s
  | .join => Sys2Proof.Machine.execJoin s
  | .lend => Sys2Proof.Machine.execLend s
  | .barArr c a b => Sys2Proof.Machine.execBarArr c a b s
  | .barWait imm d a => Sys2Proof.Machine.execBarWait imm d a s
  | .feWaitSatisfied g slot => Sys2Proof.Machine.execFeWaitSatisfied g slot s
  | .phaserRelease g path => Sys2Proof.Machine.execPhaserRelease g path s
  | .kwaitRelease g => Sys2Proof.Machine.execKwaitRelease g s
  | .monitorWake g cause => Sys2Proof.Machine.execMonitorWake g cause s
  | .drain g => Sys2Proof.Machine.execDrain g s
  | .queueRoom g path => Sys2Proof.Machine.execQueueRoom g path s
  | .mwaitComplete g => Sys2Proof.Machine.execMwaitComplete g s
  | .planePairFree g => Sys2Proof.Machine.execPlanePairFree g s
  | .coroutineSwitch blk => Sys2Proof.Machine.execCoroutineSwitch blk s
  | .pathSelect g => Sys2Proof.Machine.execPathSelect g s
  | .deferredTrapTaken g => Sys2Proof.Machine.execDeferredTrapTaken g s
  | .takeTrap g hw => Sys2Proof.Machine.execTakeTrap g hw s
  | .parkResponse g resp => Sys2Proof.Machine.execParkResponse g resp s
  | .txAbort g => Sys2Proof.Machine.execTxAbort g s
  | .watchdog g => Sys2Proof.Machine.execWatchdog g s
  | .closingWindow g => Sys2Proof.Machine.execClosingWindow g s
  | .preemptRequest by_ => Sys2Proof.Machine.execPreemptRequest by_ s
  | .preempt g => Sys2Proof.Machine.execPreempt g s
  | .resume g core => Sys2Proof.Machine.execResume g core s
  | .lqDb tenant queue v => Sys2Proof.Machine.execLqDb tenant queue v s
  | .lqCtl tenant queue v => Sys2Proof.Machine.execLqCtl tenant queue v s
  | .ocLoad tenant => Sys2Proof.Machine.execOcLoad tenant s
  | .ocUnload tenant handle => Sys2Proof.Machine.execOcUnload tenant handle s
  | .recordRead tenant queue => Sys2Proof.Machine.execRecordRead tenant queue s
  | .launchAdmit uid => Sys2Proof.Machine.execLaunchAdmit uid s
  | .blockDispatch part => Sys2Proof.Machine.execBlockDispatch part s
  | .blockRetire blk => Sys2Proof.Machine.execBlockRetire blk s
  | .launchRetire uid => Sys2Proof.Machine.execLaunchRetire uid s
  | .completionPost tenant => Sys2Proof.Machine.execCompletionPost tenant s
  | .faultRecordPost tenant => Sys2Proof.Machine.execFaultRecordPost tenant s
  | .copyRecord kick => Sys2Proof.Machine.execCopyRecord kick s
  | .planeLoad g => Sys2Proof.Machine.execPlaneLoad g s
  | .planeSwap g => Sys2Proof.Machine.execPlaneSwap g s
  | .loopStep g residue => Sys2Proof.Machine.execLoopStep g residue s
  | .traversalResult g id => Sys2Proof.Machine.execTraversalResult g id s
  | .sweepRun cmd => Sys2Proof.Machine.execSweepRun cmd s
  | .stateWrite cmd => Sys2Proof.Machine.execStateWrite cmd s
  | .arrivalUpdate id => Sys2Proof.Machine.execArrivalUpdate id s
  | .poisonedArrivalRetry id => Sys2Proof.Machine.execPoisonedArrivalRetry id s
  | .copyOnWrite page => Sys2Proof.Machine.execCopyOnWrite page s
  | .poolPageReturn tenant page => Sys2Proof.Machine.execPoolPageReturn tenant page s
  | .haloExchange cmd => Sys2Proof.Machine.execHaloExchange cmd s
  | .allReduce cmd members => Sys2Proof.Machine.execAllReduce cmd members s
  | .collectiveFailure cmd status => Sys2Proof.Machine.execCollectiveFailure cmd status s
  | .homeRetry line reqs busy => Sys2Proof.Machine.execHomeRetry line reqs busy s
  | .ownershipRequest page dev => Sys2Proof.Machine.execOwnershipRequest page dev s
  | .peerAccess tenant addr op => Sys2Proof.Machine.execPeerAccess tenant addr op s
  | .hostWrite addr bytes => Sys2Proof.Machine.execHostWrite addr bytes s
  | .hostRead item n => Sys2Proof.Machine.execHostRead item n s
  | .peerRecoveryStart dev => Sys2Proof.Machine.execPeerRecoveryStart dev s
  | .peerRecoveryEnd dev => Sys2Proof.Machine.execPeerRecoveryEnd dev s
  | .peerLost dev => Sys2Proof.Machine.execPeerLost dev s
  | .memoryError at_ => Sys2Proof.Machine.execMemoryError at_ s
  | .mbSetRoot tenant asid => Sys2Proof.Machine.execMbSetRoot tenant asid s
  | .mbBumpGen tenant => Sys2Proof.Machine.execMbBumpGen tenant s
  | .mbSetPool tenant => Sys2Proof.Machine.execMbSetPool tenant s
  | .mbSetLease tenant => Sys2Proof.Machine.execMbSetLease tenant s
  | .mbHostCoherent tenant => Sys2Proof.Machine.execMbHostCoherent tenant s
  | .mbHostPlain tenant => Sys2Proof.Machine.execMbHostPlain tenant s
  | .fqCtl tenant completion v => Sys2Proof.Machine.execFqCtl tenant completion v s
  | .registerWrite r v => Sys2Proof.Machine.execRegisterWrite r v s
  | .reset failures => Sys2Proof.Machine.execReset failures s
  | .bootLock => Sys2Proof.Machine.execBootLock s
  | .powerSample watts => Sys2Proof.Machine.execPowerSample watts s
  | .overTemperature on => Sys2Proof.Machine.execOverTemperature on s
  | .aocSlew add => Sys2Proof.Machine.execAocSlew add s
  | .cxlCacheSnoop line invalidate => Sys2Proof.Machine.execCxlCacheSnoop line invalidate s
  | .laneFailure => Sys2Proof.Machine.execLaneFailure s
  | .partitionConfigure division bind => Sys2Proof.Machine.execPartitionConfigure division bind s
  | .tenantCreate tenant => Sys2Proof.Machine.execTenantCreate tenant s

end Sys2Proof.Machine
end

