-- ==== Sys2Proof/Machine/Step.lean ====
section
/-! DEFINITION. One step of the device: the next turn of the schedule (log 1). -/

namespace Sys2Proof.Machine

open Sys2Proof

/-- What a turn's issue does. -/
def State.perform (s : State) (i : Issue) : Host.Outcome State Fault Refusal :=
  match i with
  | .tick => .next s.tick
  | .idle => .next s
  | .run i who => exec i { s with who := who }
  | .stop g slot st => s.stopped g slot st

/-- One step: the head of the schedule takes its turn; with no turn left, time passes. -/
def step (s : State) : Host.Outcome State Fault Refusal :=
  match s.schedule with
  | [] => .next s.tick
  | t :: rest => { s with schedule := rest }.perform ({ s with schedule := rest }.issue t)

/-- The state in which the next step fetches and runs the word `w` (log 12). -/
def State.withFetchWord (s : State) (nbits w : Nat) : State := s.placed nbits w

end Sys2Proof.Machine
end

