-- ==== Sys2Proof/Safety.lean ====
section
/-! DEFINITION. The terms in which claims speak: what a completed instruction leaves as it was (frames), what it writes, and the
invariant of every memory. -/

namespace Sys2Proof.Safety

open Sys2Proof Sys2Proof.Machine

/-! ## The invariant -/

/-- Every memory of the state is in canonical form: the device's, each block's scratchpad, and those that groups hold (log 4). -/
def MemoryCanonical (s : State) : Prop :=
  s.mem.wf = true ∧ (∀ b ∈ s.blocks, b.scratch.wf = true) ∧ ∀ g ∈ s.groups, ∀ m ∈ g.memories, m.wf = true

/-! ## Frames -/

/-- From `s` to `t` nothing changes outside one group: no byte, no other group, no other part of the device. -/
structure OnlyGroup (s t : State) (r : GroupRef) : Prop where
  rest : { t with groups := s.groups } = s
  others : ∀ q, q ≠ r → t.group? q = s.group? q
  bytes : ∀ p, t.readBytes p 1 = s.readBytes p 1

/-- The group whose turn it is runs `i`, ends as `g'`, and nothing else of the device changes. -/
def Completes (s : State) (i : Instr) (g' : Group) : Prop :=
  ∃ t, exec i s = .next t ∧ t.group? s.who.grp = some g' ∧ OnlyGroup s t s.who.grp

/-- A group that differs from `g` at most in its monitor and in its transaction: what the accesses of others can do to it
(R296, R299). -/
def SeenOnly (g h : Group) : Prop := h = { g with monitor := h.monitor, tx := h.tx }

/-- Every other group is as before, but for what an access does to its monitor and its transaction. -/
def OthersSee (s t : State) (r : GroupRef) : Prop :=
  ∀ q, q ≠ r → ∀ g, s.group? q = some g → ∃ h, t.group? q = some h ∧ SeenOnly g h

/-- A read by a group: no byte and no poison changes, nothing but groups changes. -/
structure OnlyReads (s t : State) (r : GroupRef) : Prop where
  rest : { t with groups := s.groups } = s
  others : OthersSee s t r
  bytes : ∀ p, t.readBytes p 1 = s.readBytes p 1

/-- A write by a group of `n` bytes at `p`: every byte outside is as before, and of the device only memory, scratchpads and groups
change; a scratchpad keeps everything but its bytes. -/
structure OnlyWrites (s t : State) (r : GroupRef) (p : Place) (n : Nat) : Prop where
  rest : { t with groups := s.groups, mem := s.mem, blocks := s.blocks } = s
  blocks : t.blocks.map (fun b => { b with scratch := Memory.empty }) = s.blocks.map fun b => { b with scratch := Memory.empty }
  others : OthersSee s t r
  bytes : ∀ q, q.meets 1 p n = false → t.readBytes q 1 = s.readBytes q 1

/-- The event `i` makes group `r` be `g'` and changes nothing else of the device. -/
def Becomes (s : State) (i : Instr) (r : GroupRef) (g' : Group) : Prop :=
  ∃ t, exec i s = .next t ∧ t.group? r = some g' ∧ OnlyGroup s t r

/-- Nothing changes but the registers of tenant `n`. -/
structure OnlyTenant (s t : State) (n : Nat) : Prop where
  rest : { t with tenants := s.tenants } = s
  others : ∀ k, k ≠ n → t.tenant k = s.tenant k

/-- No byte changes outside the listed ranges. -/
def BytesKeptBut (s t : State) (rs : List (Place × Nat)) : Prop :=
  ∀ q : Place, (∀ r ∈ rs, q.meets 1 r.1 r.2 = false) → t.readBytes q 1 = s.readBytes q 1

/-- The pages that copies on write under way fill. -/
def copiesUnderWay (s : State) : List (Place × Nat) := s.cows.map fun w => (.phys w.dest, pageSize)

/-! ## Digests (R369) -/

/-- The byte string of a launch's digest: for every output in ascending order its TID, FMT and RANK, its extents, and the bytes of its
units in canonical order. -/
def DigestOf (s : State) (l : Launch) (bytes : List Byte) : Prop :=
  ∃ part : Nat → List Byte, bytes = (List.range 64).flatMap part ∧ ∀ t < 64,
    if (s.omaskFor l).getLsbD t then ∃ (d : Desc) (reads : List (List Byte)), l.tids[t]? = some (some d) ∧
      part t = [BitVec.ofNat 8 t, BitVec.ofNat 8 d.fmt, BitVec.ofNat 8 d.rank] ++ d.ext.toList.flatMap (leBytes 4) ++ reads.flatten ∧
      let units := (d.coords (max (fmtBlockLen d.fmt) 1)).flatMap d.digestUnits
      reads.length = units.length ∧
      ∀ (k : Nat) (u : Option Word × Nat) (b : List Byte), units[k]? = some u → reads[k]? = some b → ∃ a, u.1 = some a ∧ s.readFor l.tenant a u.2 = .ok b
    else part t = []

/-! ## Scalar results -/

/-- The scalar stream of `g` has completed an instruction and stands at `pc` as `g'`; only scalar registers may differ
otherwise. -/
structure ScalarStep (g g' : Group) (pc : Word) : Prop where
  pc : g'.pc = pc
  frame : g' = { g with x := g'.x, pc := g'.pc, swait := none, swalk := none, blocked := 0 }

/-- `i` writes `v` to xd (nothing when d is x0), leaves every other register, and goes on at `pc`. -/
def WritesX (s : State) (g : Group) (i : Instr) (d : BitVec 6) (v pc : Word) : Prop :=
  ∃ g', Completes s i g' ∧ (∀ r, g'.getX r = if r = d ∧ d ≠ 0 then v else g.getX r) ∧ ScalarStep g g' pc

/-- `i` changes no register and goes on at `pc`. -/
def GoesTo (s : State) (g : Group) (i : Instr) (pc : Word) : Prop :=
  ∃ g', Completes s i g' ∧ g'.x = g.x ∧ ScalarStep g g' pc

/-- `i` completes at the next instruction and changes of its group only what `f` changes. -/
def CompletesAs (s : State) (g : Group) (i : Instr) (f : Group → Group) : Prop :=
  Completes s i { f g with pc := g.pc + 4, swait := none, swalk := none, blocked := 0 }

/-- A group after an instruction that reads or writes memory and goes on at the next scalar instruction: besides registers only its
monitor, its own view of its scratchpad (R303) and, with `closes`, its closing mark may differ (R155, R296). -/
structure MemoryStep (g g' : Group) (closes : Bool) : Prop where
  pc : g'.pc = g.pc + 4
  closing : g'.closing = (closes || g.closing)
  frame : g' = { g with
    x := g'.x, monitor := g'.monitor, snap := g'.snap, closing := g'.closing, pc := g'.pc, swait := none, swalk := none
    blocked := 0 }

/-- `i` reads memory, writes `v` to xd and goes on. -/
def LoadsX (s : State) (g : Group) (i : Instr) (d : BitVec 6) (v : Word) : Prop :=
  ∃ t g', exec i s = .next t ∧ t.group? s.who.grp = some g' ∧ OnlyReads s t s.who.grp ∧ MemoryStep g g' false ∧
    ∀ r, g'.getX r = if r = d ∧ d ≠ 0 then v else g.getX r

/-- `i` stores the little-endian number `x` in the `n` bytes at `p` and goes on; every other byte and register stays. -/
def StoresX (s : State) (g : Group) (i : Instr) (p : Place) (n x : Nat) : Prop :=
  ∃ t g', exec i s = .next t ∧ t.group? s.who.grp = some g' ∧ OnlyWrites s t s.who.grp p n ∧ MemoryStep g g' false ∧
    t.readBytes p n = leBytes n x ∧ g'.x = g.x

/-- `i` makes the `n` bytes at `p` hold `x`, returns the old number in xd, and ends a region (R143, R155). -/
def UpdatesX (s : State) (g : Group) (i : Instr) (d : BitVec 6) (p : Place) (n x : Nat) : Prop :=
  ∃ t g', exec i s = .next t ∧ t.group? s.who.grp = some g' ∧ OnlyWrites s t s.who.grp p n ∧ MemoryStep g g' true ∧
    t.readBytes p n = leBytes n x ∧
    ∀ r, g'.getX r = if r = d ∧ d ≠ 0 then BitVec.ofNat 64 (s.readNat p n) else g.getX r

/-- `i` changes no byte and no register; it leaves the operation `op` at `tg` for the device to perform in group order, and goes on.
-/
def Posts (s : State) (g : Group) (i : Instr) (tg : Target) (op : PostOp) : Prop :=
  ∃ t g', exec i s = .next t ∧ { t with groups := s.groups, arrivals := s.arrivals, nextId := s.nextId } = s ∧
    t.group? s.who.grp = some g' ∧ (∀ q, q ≠ s.who.grp → t.group? q = s.group? q) ∧
    g' = { g with snap := g'.snap, pc := g.pc + 4, swait := none, swalk := none, blocked := 0 } ∧
    t.arrivals = s.arrivals ++
      [⟨s.nextId, g.ref, (g.pc.extractLsb' 0 32).zeroExtend 64, tg.place, tg.va, tg.attr, op, false, g.segIssued, false⟩]

/-- The group has issued a command or an operation of an engine and goes on at the next scalar instruction, its region ended
(R155): its registers and lanes, every byte of memory, and the launches, containers and tenants are as before. -/
structure Accepted (s t : State) (g g' : Group) : Prop where
  group : t.group? s.who.grp = some g'
  pc : g'.pc = g.pc + 4
  closing : g'.closing = true
  ready : g'.swait = none
  regs : g'.x = g.x ∧ g'.lanes = g.lanes
  others : OthersSee s t s.who.grp
  mem : ∀ k, t.mem.read k = s.mem.read k
  rest : t.launches = s.launches ∧ t.containers = s.containers ∧ t.tenants = s.tenants ∧ t.aoc = s.aoc

/-- No byte changes but those of `n` bytes at `p`. -/
def BytesKeptOutside (s t : State) (p : Place) (n : Nat) : Prop := ∀ q, q.meets 1 p n = false → t.readBytes q 1 = s.readBytes q 1

/-- No byte changes at all. -/
def BytesKept (s t : State) : Prop := ∀ q, t.readBytes q 1 = s.readBytes q 1

/-! ## Lane results -/

/-- One thread before (`l`) and after (`l'`) an instruction with destination `d`: an executing thread holds `v` in `d` and has
the flags raised; a thread of the path keeps its destination history; every other register stays (R84, R117, R157). -/
structure LaneWrites (exec inPath : Bool) (d : Dst) (v : Word) (flags : BitVec 16) (l l' : Lane) : Prop where
  dst : l'.getD d = if exec then v else l.getD d
  others : ∀ e, e ≠ d → l'.getD e = l.getD e
  hist : (l'.l0, l'.l1) = if inPath then (l'.getD d, l.l0) else (l.l0, l.l1)
  preds : l'.p = l.p
  status : l'.lst = if exec then l.lst ||| flags else l.lst

/-- One thread before and after an instruction that writes predicate `d` (R84, R117). -/
structure LanePred (exec : Bool) (d : Fin 12) (v : Bool) (flags : BitVec 16) (l l' : Lane) : Prop where
  pred : ∀ q, l'.getP q = if q = d ∧ exec then v else l.getP q
  regs : ∀ e, l'.getD e = l.getD e
  hist : (l'.l0, l'.l1) = (l.l0, l.l1)
  status : l'.lst = if exec then l.lst ||| flags else l.lst

/-- A path has completed a lane instruction and stands at the next one as `g'`; only lane registers, and B when `slots` draw
slots are used, may differ otherwise. -/
structure LaneStep (g g' : Group) (slot : Bool) (p : Path) (slots : Nat) : Prop where
  path : g'.path slot = some { p with pc := p.pc + 12, wait := none, walk := none }
  other : g'.path (!slot) = g.path (!slot)
  frame : g' = { g with
    lanes := g'.lanes, path0 := g'.path0, path1 := g'.path1, blocked := 0, genB := (g.advanceB slots).genB }

/-- `i` writes, in every executing lane, a value to destination `d` and raises flags. -/
def WritesLanes (s : State) (g : Group) (p : Path) (i : Instr) (c : Lc) (d : Dst) (slots : Nat) (val : Fin 32 → Word)
    (flags : Fin 32 → BitVec 16) : Prop :=
  ∃ g', Completes s i g' ∧ LaneStep g g' s.who.slot p slots ∧
    ∀ j : Fin 32, LaneWrites (g.executes p.mask c j) (p.mask.getLsbD j.val) d (val j) (flags j) g.lanes[j] g'.lanes[j]

/-- `i` writes a predicate in every executing lane. -/
def WritesPred (s : State) (g : Group) (p : Path) (i : Instr) (c : Lc) (d : Fin 12) (val : Fin 32 → Bool)
    (flags : Fin 32 → BitVec 16) : Prop :=
  ∃ g', Completes s i g' ∧ LaneStep g g' s.who.slot p 0 ∧
    ∀ j : Fin 32, LanePred (g.executes p.mask c j) d (val j) (flags j) g.lanes[j] g'.lanes[j]

/-- `i` writes to `d`, sub-element by sub-element of width `w`, what `f` gives in each lane: bits, and flags to raise. -/
def WritesSubs (s : State) (g : Group) (p : Path) (i : Instr) (c : Lc) (d : Dst) (w slots : Nat)
    (f : Fin 32 → Nat → Nat × BitVec 16) : Prop :=
  ∃ (v : Fin 32 → Word) (fl : Fin 32 → BitVec 16), WritesLanes s g p i c d slots v fl ∧
    (∀ i j, j < 64 / w → subOf (v i) w j = (f i j).1) ∧
    ∀ i k, (fl i).getLsbD k = (List.range (64 / w)).any fun j => (f i j).2.getLsbD k

/-- A result of an integer instruction: clamped to its type with SAT set when it does not fit, or wrapped (R163). -/
def narrow (sat : Bool) (t : Ty) (x : Int) : Nat × BitVec 16 :=
  if sat then
    if minInt t.isSigned t.width ≤ x ∧ x ≤ maxInt t.isSigned t.width then ((x % 2 ^ t.width).toNat, 0)
    else (((if x < 0 then minInt t.isSigned t.width else maxInt t.isSigned t.width) % 2 ^ t.width).toNat, 0x01)
  else ((x % 2 ^ t.width).toNat, 0)

/-- The sub-element `j` of a source in lane `i`. -/
def sub (g : Group) (c : Lc) (t : Ty) (a : Src) (i : Fin 32) (j : Nat) : Nat := subOf (g.src t c.imm i a) t.width j

/-- The sub-element as an integer of its type. -/
def int (g : Group) (c : Lc) (t : Ty) (a : Src) (i : Fin 32) (j : Nat) : Int := readTy t (sub g c t a i j)

/-! ## Numbers and rounding (R28 to R33) -/

/-- The sign and the magnitude field of an encoding. -/
def fneg (f : FFmt) (v : Nat) : Bool := v / 2 ^ (f.eb + f.mb) % 2 == 1
def fmag (f : FFmt) (v : Nat) : Nat := v % 2 ^ (f.eb + f.mb)

/-- The NaN encodings of a format; in E4M3 only the last magnitude. -/
def fnan (f : FFmt) (v : Nat) : Bool :=
  match f.kind with
  | .ieee => decide ((2 ^ f.eb - 1) * 2 ^ f.mb < fmag f v)
  | .e4m3 => fmag f v == 2 ^ (f.eb + f.mb) - 1
  | .finite => false

/-- A NaN of a format with payloads whose quiet bit is clear. -/
def fsig (f : FFmt) (v : Nat) : Bool := f.kind == .ieee && fnan f v && !v.testBit (f.mb - 1)

def finf (f : FFmt) (v : Nat) : Bool := f.kind == .ieee && fmag f v == (2 ^ f.eb - 1) * 2 ^ f.mb

/-- Number `1 / fden f` is the format's smallest subnormal, and magnitude code `c` has the value of `funits f c` of them. -/
def fden (f : FFmt) : Nat := 2 ^ (f.bias + f.mb - 1)
def funits (f : FFmt) (c : Nat) : Nat := if c < 2 ^ f.mb then c else (c % 2 ^ f.mb + 2 ^ f.mb) * 2 ^ (c / 2 ^ f.mb - 1)

/-- An encoding's value in units of the smallest subnormal; an infinity lies beyond every number. -/
def fval (f : FFmt) (v : Nat) : Int := if fneg f v then -(funits f (fmag f v) : Int) else funits f (fmag f v)

/-- The real number `N / D`, between the neighbours `lo / q` and `hi / q`, is rounded to the outer one (R32, R33); `odd`: the inner
one is odd. -/
def outward (rm : Rm) (draw : Nat) (neg odd : Bool) (lo hi q N D : Nat) : Bool :=
  match rm with
  | .rn => decide ((lo + hi) * D < 2 * q * N) || (decide ((lo + hi) * D = 2 * q * N) && odd)
  | .rz => false
  | .rd => neg && decide (lo * D < q * N)
  | .ru => !neg && decide (lo * D < q * N)
  | .rs => decide ((2 ^ 32 * lo + (draw + 1) * (hi - lo)) * D ≤ 2 ^ 32 * (q * N))

/-- The number of magnitude `N / D`, not 0, rounded once into a format, with its flags (R32, R33, R175): `c` is the magnitude code
below it, and `m` the code it rounds to, both in an exponent range without end. -/
def Rounds (f : FFmt) (rm : Rm) (draw : Nat) (sat neg : Bool) (N D : Nat) (r : FRes) : Prop :=
  ∃ c, funits f c * D ≤ fden f * N ∧ fden f * N < funits f (c + 1) * D ∧
    let m := if outward rm draw neg (c % 2 == 1) (funits f c) (funits f (c + 1)) (fden f) N D then c + 1 else c
    let tiny : Prop := if rm = .rs then m < 2 ^ f.mb else fden f * N < 2 ^ f.mb * D ∧
      ¬ ((2 ^ (f.mb + 1) - 1) * D ≤ 2 * fden f * N ∧
        outward rm draw neg true (2 ^ (f.mb + 1) - 1) (2 ^ (f.mb + 1)) (2 * fden f) N D = true)
    let greatest : Prop := sat = true ∨ rm = .rz ∨ (rm = .rd ∧ neg = false) ∨ (rm = .ru ∧ neg = true)
    (m ≤ f.maxMag → r.bits = f.signed neg m ∧
      (funits f c * D = fden f * N → r.flags = 0) ∧
      (funits f c * D ≠ fden f * N → (tiny → r.flags = 0x30) ∧ (¬ tiny → r.flags = 0x20))) ∧
    (f.maxMag < m → r.flags = 0x28 ∧ (greatest → r.bits = f.signed neg f.maxMag) ∧
      (¬ greatest → r.bits = f.signed neg f.infCode))

/-- As `Rounds`, for a number that may be 0: its zero keeps the sign `neg`. -/
def RoundsOr (f : FFmt) (rm : Rm) (draw : Nat) (sat neg : Bool) (N D : Nat) (r : FRes) : Prop :=
  (N = 0 → r = ⟨f.signed neg 0, 0⟩) ∧ (N ≠ 0 → Rounds f rm draw sat neg N D r)

/-- The exact sum or difference `P / D` rounded once; an exact zero has the sign `zneg` (R169). -/
def RoundsSum (f : FFmt) (rm : Rm) (draw : Nat) (zneg : Bool) (P : Int) (D : Nat) (r : FRes) : Prop :=
  (P = 0 → r = ⟨f.signed zneg 0, 0⟩) ∧ (P ≠ 0 → Rounds f rm draw false (decide (P < 0)) P.natAbs D r)

/-- The integer that `N / D` rounds to in a mode. -/
def roundedTo (rm : Rm) (draw : Nat) (neg : Bool) (N D : Nat) : Int :=
  let n := N / D
  let m := if outward rm draw neg (n % 2 == 1) n (n + 1) 1 N D then n + 1 else n
  if neg then -(m : Int) else m

/-- An exact sum of numbers or infinities (R169): equal infinities, else an invalid operation; `a` and `b` are encodings. -/
def Sums (f : FFmt) (rm : Rm) (draw a b : Nat) (r : FRes) : Prop :=
  (finf f a = true → finf f b = true → r = if fneg f a = fneg f b then ⟨a, 0⟩ else ⟨f.canonical, 0x02⟩) ∧
  (finf f a = true → finf f b = false → r = ⟨a, 0⟩) ∧ (finf f a = false → finf f b = true → r = ⟨b, 0⟩) ∧
  (finf f a = false → finf f b = false → RoundsSum f rm draw
    (if fmag f a = 0 ∧ fmag f b = 0 ∧ fneg f a = fneg f b then fneg f a else rm == .rd) (fval f a + fval f b) (fden f) r)

/-! ## Conversions (R175 to R178) -/

/-- One element converted among ordinary types (R175). -/
structure Converts (dt st : Ty) (rm : Rm) (sat : Bool) (draw x : Nat) (r : FRes) : Prop where
  ints : dt.isInt = true → st.isInt = true → (r.bits, r.flags) = narrow sat dt (readTy st x)
  toFloat : dt.isFloat = true → st.isInt = true →
    RoundsOr (fmtOf dt) rm draw sat (decide (readTy st x < 0)) (readTy st x).natAbs 1 r
  nanInt : dt.isInt = true → st.isFloat = true → fnan (fmtOf st) x = true → r = ⟨0, 0x02⟩
  infInt : dt.isInt = true → st.isFloat = true → finf (fmtOf st) x = true →
    r = ⟨((if fneg (fmtOf st) x then minInt dt.isSigned dt.width else maxInt dt.isSigned dt.width) % 2 ^ dt.width).toNat, 0x02⟩
  toInt : dt.isInt = true → st.isFloat = true → fnan (fmtOf st) x = false → finf (fmtOf st) x = false →
    let N := funits (fmtOf st) (fmag (fmtOf st) x)
    let D := fden (fmtOf st)
    let m := roundedTo rm draw (fneg (fmtOf st) x) N D
    r = if minInt dt.isSigned dt.width ≤ m ∧ m ≤ maxInt dt.isSigned dt.width
      then ⟨(m % 2 ^ dt.width).toNat, if N % D = 0 then 0 else 0x20⟩
      else ⟨((if m < 0 then minInt dt.isSigned dt.width else maxInt dt.isSigned dt.width) % 2 ^ dt.width).toNat, 0x02⟩
  nan : dt.isFloat = true → st.isFloat = true → fnan (fmtOf st) x = true →
    let f := fmtOf dt
    let s := fmtOf st
    let payload := if s.kind = .ieee then (if s.mb ≤ f.mb then x % 2 ^ s.mb * 2 ^ (f.mb - s.mb) else x % 2 ^ s.mb / 2 ^ (s.mb - f.mb))
      else 0
    r.bits = f.signed (fneg s x) (if f.kind = .ieee then (2 ^ f.eb - 1) * 2 ^ f.mb + (payload ||| 2 ^ (f.mb - 1)) else f.canonical) ∧
    r.flags = if fsig s x then 0x02 else 0
  inf : dt.isFloat = true → st.isFloat = true → finf (fmtOf st) x = true →
    let f := fmtOf dt
    r = if f.kind = .ieee then ⟨f.signed (fneg (fmtOf st) x) ((2 ^ f.eb - 1) * 2 ^ f.mb), 0⟩
      else ⟨f.signed (fneg (fmtOf st) x) (if sat then f.maxMag else f.canonical), 0x28⟩
  num : dt.isFloat = true → st.isFloat = true → fnan (fmtOf st) x = false → finf (fmtOf st) x = false →
    RoundsOr (fmtOf dt) rm draw sat (fneg (fmtOf st) x) (funits (fmtOf st) (fmag (fmtOf st) x)) (fden (fmtOf st)) r

/-- One MX element `code` under its scale code, read into a format (R36, R176). -/
structure ReadsMx (f : FFmt) (k : Mxk) (rm : Rm) (sat : Bool) (draw code scale : Nat) (r : FRes) : Prop where
  ints : k = .int8 → scale ≠ 255 → RoundsOr f rm draw sat (decide (readInt true 8 code < 0))
    ((readInt true 8 code).natAbs * 2 ^ scale) (2 ^ 6 * 2 ^ 127) r
  noInt : k = .int8 → scale = 255 → r = ⟨f.canonical, 0⟩
  nan : k ≠ .int8 → fnan (mxkFmt k) code = true → r = ⟨f.canonical, 0⟩
  inf : k ≠ .int8 → finf (mxkFmt k) code = true → r = ⟨f.signed (fneg (mxkFmt k) code) f.infMag, 0⟩
  noNum : k ≠ .int8 → fnan (mxkFmt k) code = false → finf (mxkFmt k) code = false → scale = 255 → r = ⟨f.canonical, 0⟩
  num : k ≠ .int8 → fnan (mxkFmt k) code = false → finf (mxkFmt k) code = false → scale ≠ 255 →
    RoundsOr f rm draw sat (fneg (mxkFmt k) code) (funits (mxkFmt k) (fmag (mxkFmt k) code) * 2 ^ scale)
      (fden (mxkFmt k) * 2 ^ 127) r

/-- The codebook of R38 as FP16 patterns, by code. -/
def g4Pattern : List Nat :=
  [0xBC00, 0xB9A9, 0xB856, 0xB6AB, 0xB4F9, 0xB2E9, 0xB013, 0xA963, 0x2963, 0x3013, 0x32E9, 0x34F9, 0x36AB, 0x3856, 0x39A9, 0x3C00]

/-- One G4 element under its scale code and super-scale, read into a format (R39, R176). -/
structure ReadsG4 (f : FFmt) (rm : Rm) (sat : Bool) (draw code scale super : Nat) (r : FRes) : Prop where
  nan : fnan fp32 super = true ∨ (finf fp32 super = true ∧ scale = 0) → r = ⟨f.canonical, 0⟩
  inf : finf fp32 super = true → scale ≠ 0 →
    r = ⟨f.signed (fneg fp16 (g4Pattern.getD code 0) != fneg fp32 super) f.infMag, 0⟩
  void : fnan fp32 super = false → finf fp32 super = false → scale = 0 → r = ⟨0, 0⟩
  num : fnan fp32 super = false → finf fp32 super = false → scale ≠ 0 →
    RoundsOr f rm draw sat (fneg fp16 (g4Pattern.getD code 0) != fneg fp32 super)
      (funits fp16 (fmag fp16 (g4Pattern.getD code 0)) * funits fp32 (fmag fp32 super) * scale) (fden fp16 * fden fp32 * 255) r

/-- One element of format `s` written as an MX element (R177). -/
structure WritesMx (k : Mxk) (s : FFmt) (rm : Rm) (draw x : Nat) (r : FRes) : Prop where
  nan : fnan s x = true → r = if k = .e4m3 ∨ k = .e5m2
    then ⟨(mxkFmt k).signed (fneg s x) (if k = .e4m3 then 0x7F else 0x7E), if fsig s x then 0x02 else 0⟩ else ⟨0, 0x02⟩
  inf : finf s x = true → r = if k = .int8 then ⟨if fneg s x then 0x80 else 0x7F, 0x28⟩
    else ⟨(mxkFmt k).signed (fneg s x) (mxkFmt k).maxMag, 0x28⟩
  ints : fnan s x = false → finf s x = false → k = .int8 →
    let N := 64 * funits s (fmag s x)
    let m := roundedTo rm draw (fneg s x) N (fden s)
    r = if -128 ≤ m ∧ m ≤ 127 then ⟨(m % 256).toNat, if N % fden s = 0 then 0 else 0x20⟩ else ⟨if m < 0 then 0x80 else 0x7F, 0x28⟩
  num : fnan s x = false → finf s x = false → k ≠ .int8 →
    RoundsOr (mxkFmt k) rm draw true (fneg s x) (funits s (fmag s x)) (fden s) r

/-- One element of format `s` written as a G4 code (R178). -/
structure WritesG4 (s : FFmt) (rm : Rm) (draw x : Nat) (r : FRes) : Prop where
  nan : fnan s x = true → r = ⟨8, 0x02⟩
  large : fnan s x = false → fden s < funits s (fmag s x) → r = ⟨if fneg s x then 0 else 15, 0x28⟩
  zero : fmag s x = 0 → r = ⟨if rm = .rs then (if draw < 2 ^ 31 then 8 else 7) else if fneg s x then 7 else 8, 0x20⟩
  equal : ∀ e < 16, fval fp16 (g4Pattern.getD e 0) * fden s = fval s x * fden fp16 → r = ⟨e, 0⟩
  between : ∀ lo < 15, fmag s x ≠ 0 →
    let a := fval fp16 (g4Pattern.getD lo 0) * fden s
    let b := fval fp16 (g4Pattern.getD (lo + 1) 0) * fden s
    let v := fval s x * fden fp16
    a < v → v < b →
    (rm ≠ .rs → r = ⟨if v - a < b - v ∨ (v - a = b - v ∧ lo % 2 = 0) then lo else lo + 1, 0x20⟩) ∧
    (rm = .rs → r = ⟨if (draw + 1) * (b - a) ≤ 2 ^ 32 * (v - a) then lo + 1 else lo, 0x20⟩)

/-- Checked lane reads have been made: each lane `q` of `as` holds `val q` in `d` with `flags q` raised, the others keep theirs; no
byte changes, and the path goes on. -/
structure LaneLoads (s t : State) (g g' : Group) (slot : Bool) (p : Path) (c : Lc) (d : Dst) {α : Type} (as : List α)
    (lane : α → Fin 32) (val : α → Word) (flags : α → BitVec 16) : Prop where
  group : t.group? s.who.grp = some g'
  others : OthersSee s t s.who.grp
  bytes : BytesKept s t
  path : g'.path slot = some { p with pc := p.pc + 12, wait := none, walk := none }
  frame : g' = { g with
    lanes := g'.lanes, path0 := g'.path0, path1 := g'.path1, monitor := g'.monitor, closing := g'.closing, blocked := 0 }
  loaded : ∀ q ∈ as, LaneWrites true (p.mask.getLsbD (lane q).val) d (val q) (flags q) g.lanes[lane q] g'.lanes[lane q]
  idle : ∀ i : Fin 32, g.executes p.mask c i = false →
    LaneWrites false (p.mask.getLsbD i.val) d 0 0 g.lanes[i] g'.lanes[i]

/-- Lane writes have been made and the path goes on: no register changes, and bytes outside the `n` bytes at the listed places
stay. -/
structure LaneStores (s t : State) (g g' : Group) (slot : Bool) (p : Path) (ps : List Place) (n : Nat) : Prop where
  group : t.group? s.who.grp = some g'
  others : OthersSee s t s.who.grp
  bytes : ∀ q : Place, (∀ r ∈ ps, q.meets 1 r n = false) → t.readBytes q 1 = s.readBytes q 1
  path : g'.path slot = some { p with pc := p.pc + 12, wait := none, walk := none }
  frame : g' = { g with
    path0 := g'.path0, path1 := g'.path1, monitor := g'.monitor, snap := g'.snap, closing := g'.closing, blocked := 0 }

/-- Path `p` of group `g` has the turn: `x` is what surrounds its instruction. -/
structure AtPath (s : State) (g : Group) (p : Path) (x : Ctx) : Prop where
  group : s.group? s.who.grp = some g
  path : g.path s.who.slot = some p
  ctx : (s.ctxOf g).map (·.onPath p) = some x

/-! ## Phasers -/

/-- `Arrive(P, u)` of R290, from `p` to `q`; R289 keeps the units of a next phase below 65,536. -/
structure Arrived (p q : Phaser) (u : Nat) : Prop where
  idle : p.sig = 0 → q = { p with flags := p.flags ||| 2 }
  awaits : p.sig ≠ 0 → u < p.pend → q = { p with pend := p.pend - u }
  advances : p.sig ≠ 0 → p.pend ≤ u → (p.sig : Int) + p.dsig < 65536 → q = {
    phase := (p.phase + 1) % 2 ^ 32
    sig := ((p.sig : Int) + p.dsig).toNat
    pend := ((p.sig : Int) + p.dsig).toNat
    dsig := 0
    flags := if p.pend < u ∨ (p.sig : Int) + p.dsig < 0 then p.flags ||| 2 else p.flags }

/-- What R289 asks of a change `d` of an object's registered units. -/
def RegFits (p : Phaser) (d : Int) : Prop :=
  if p.pend = p.sig then 0 ≤ p.sig + d ∧ p.sig + d ≤ 65535 ∧ p.sig + d + p.dsig ≤ 65535
  else -(2 ^ 31) ≤ p.dsig + d ∧ p.dsig + d < 2 ^ 31 ∧ p.sig + (p.dsig + d) ≤ 65535

/-- `Reg(P, d)` of R290, from `p` to `q`: at once in an open phase, else for the next phase, withdrawn units arriving for this
one. -/
structure Registered (p q : Phaser) (d : Int) : Prop where
  atOnce : p.pend = p.sig → q = { p with sig := (p.sig + d).toNat, pend := (p.sig + d).toNat }
  deferred : p.pend ≠ p.sig → 0 ≤ d → q = { p with dsig := p.dsig + d }
  withdrawn : p.pend ≠ p.sig → d < 0 → Arrived { p with dsig := p.dsig + d } q d.natAbs

/-! ## Reductions (R187 to R189) -/

/-- `Comb`: what two positions come to, `none` being Empty, and the flags it raises. -/
def combOf (t : Ty) (op : Rop) : Option Nat → Option Nat → Option Nat × BitVec 16
  | none, y => (y, 0)
  | some x, none => (some x, 0)
  | some x, some y =>
    let F := fmtOf t
    let of (r : FRes) : Option Nat × BitVec 16 := (some r.bits, r.flags)
    match op with
    | .add => if t.isInt then (some ((x + y) % 2 ^ t.width), 0) else of (F.add .rn 0 x y)
    | .min => if t.isInt then (some (if readTy t y < readTy t x then y else x), 0) else of (F.minMax false x y)
    | .max => if t.isInt then (some (if readTy t x < readTy t y then y else x), 0) else of (F.minMax true x y)
    | .and => (some (x &&& y), 0)
    | .or => (some (x ||| y), 0)
    | .xor => (some (x ^^^ y), 0)

/-- The tree of R188 over `2 ^ n` positions: neighbours are combined, level by level. -/
def treeOf (t : Ty) (op : Rop) : Nat → (Nat → Option Nat) → Option Nat × BitVec 16
  | 0, v => (v 0, 0)
  | n + 1, v =>
    let c (i : Nat) : Option Nat × BitVec 16 := combOf t op (v (2 * i)) (v (2 * i + 1))
    let r := treeOf t op n fun i => (c i).1
    (r.1, (List.range (2 ^ n)).foldl (fun f i => f ||| (c i).2) r.2)

/-- The passes of R189 over `N` positions, `n` more of them, at distances `s`, `2 * s` and so on. -/
def passesOf (t : Ty) (op : Rop) (N : Nat) : Nat → Nat → (Nat → Option Nat) → (Nat → Option Nat) × BitVec 16
  | 0, _, u => (u, 0)
  | n + 1, s, u =>
    let c (f : Nat) : Option Nat × BitVec 16 := combOf t op (u (f - s)) (u f)
    let r := passesOf t op N n (2 * s) fun f => if f < s then u f else (c f).1
    (r.1, (List.range (N - s)).foldl (fun a i => a ||| (c (i + s)).2) r.2)

/-- The identity of an operation (R187). -/
def identityIs (t : Ty) (op : Rop) : Nat :=
  let F := fmtOf t
  match op with
  | .add => if t.isInt then 0 else 2 ^ (t.width - 1)
  | .min => if t.isInt then (if t.isSigned then 2 ^ (t.width - 1) - 1 else 2 ^ t.width - 1) else F.infMag
  | .max => if t.isInt then (if t.isSigned then 2 ^ (t.width - 1) else 0) else 2 ^ (t.width - 1) + F.infMag
  | .and => 2 ^ t.width - 1
  | .or | .xor => 0

/-! ## Exact sums (R41 to R43) -/

/-- The exact sum `P / D` of the numbers of a list. -/
def sumOf (ps : List EVal) : Int × Nat :=
  ps.foldl (fun a p => match p with
    | .num x => (a.1 * x.den + (if x.neg then -(x.num : Int) else x.num) * a.2, a.2 * x.den)
    | _ => a) (0, 1)

/-- A list summed exactly and rounded once to nearest even; NaN, infinities and zeros as R41 and R42 have them. -/
def SumRounds (f : FFmt) (ps : List EVal) (r : FRes) : Prop :=
  let nan : Prop := .nan ∈ ps ∨ (.inf true ∈ ps ∧ .inf false ∈ ps)
  (nan → r.bits = f.canonical) ∧ (∀ n, ¬ nan → .inf n ∈ ps → r.bits = f.signed n f.infCode) ∧
  (¬ nan → .inf true ∉ ps → .inf false ∉ ps → RoundsSum f .rn 0
    (ps.all fun p => match p with | .num x => x.num == 0 && x.neg | _ => false) (sumOf ps).1 (sumOf ps).2 r)

/-- `Ftz` of R35 in an FP32 accumulator. -/
def flushed (f : FFmt) (x : Nat) : Nat := if f.mb = 23 ∧ fmag f x < 2 ^ 23 then x - fmag f x else x

/-- One block of products added to a floating-point accumulator (R41). -/
def BlockAdded (f : FFmt) (acc : Nat) (ps : List EVal) (acc' : Nat) : Prop :=
  ∃ t r : FRes, SumRounds f ps t ∧ (acc < 2 ^ (f.eb + f.mb + 1) →
    let u := flushed f t.bits
    (fnan f acc = true ∨ fnan f u = true → acc' = f.canonical) ∧
    (fnan f acc = false → fnan f u = false → Sums f .rn 0 acc u r ∧
      acc' = flushed f (if fnan f r.bits then f.canonical else r.bits)))

/-- One block of products of integers added to an `s32` accumulator and clamped (R41). -/
def intAdded (acc : Nat) (ps : List EVal) : Nat :=
  ((max (-(2 ^ 31)) (min (2 ^ 31 - 1) (readInt true 32 acc + (sumOf ps).1 / (sumOf ps).2))) % 2 ^ 32).toNat

/-- R41 for one output element: `nb` blocks of `blk` products, in K order, added to `acc0`. -/
def Accumulated (cfmt blk nb acc0 : Nat) (ps : List EVal) (v : Nat) : Prop :=
  ∃ acc : Nat → Nat, acc 0 = acc0 ∧ acc nb = v ∧ ∀ b < nb,
    let block := (ps.drop (blk * b)).take blk
    if cfmt = 6 then (∀ p ∈ block, ∃ x, p = .num x ∧ x.den = 1) → acc (b + 1) = intAdded (acc b) block
    else BlockAdded (if cfmt = 8 then fp64 else fp32) (acc b) block (acc (b + 1))

/-- The canonical tree of R43 over `n` contributions; `fuel` bounds its levels. -/
def rankTree : Nat → Nat → (Nat → Nat) → Nat
  | 0, _, v => v 0
  | fuel + 1, n, v =>
    if n ≤ 1 then v 0
    else rankTree fuel ((n + 1) / 2) fun i => if i < n / 2 then (fp64.add .rn 0 (v (2 * i)) (v (2 * i + 1))).bits else v (n - 1)

/-- The all-reduce of one element's contributions, by rank, into format `dfmt` (R42, R43). -/
def Reduced (fmt dfmt : Nat) (vs : List Nat) (v : Nat) : Prop :=
  (fmt = 8 → v = rankTree vs.length vs.length fun i => vs.getD i 0) ∧
  (fmt ≠ 8 → ∃ r, r.bits = v ∧
    SumRounds (fmtOf (Ty.ofCode (BitVec.ofNat 4 dfmt))) (vs.map fun x => EVal.ofFVal ((contribFmt fmt).decode x)) r)

/-! ## The probabilistic array (R278 to R284) -/

/-- The state of an array cell among loaded cells; a void cell reads −1. -/
def cellUp (cs : List Cell) (n : Nat) : Bool :=
  match cs.find? fun c => c.cell == n with
  | some c => c.up
  | none => false

/-- The table index of R278 for an FP16 inverse temperature. -/
def cellIndex (beta : Nat) (c : Cell) (cs : List Cell) : Nat :=
  let h := c.bias + 256 * (c.cpl.map fun p => p.1 * (if cellUp cs p.2 then 1 else -1)).sum
  let x := fval fp16 beta * h
  let e := c.tsc - 26
  (max 0 (min 1023 ((if e < 0 then x / 2 ^ (-e).toNat else x * 2 ^ e.toNat) + 512))).toNat

/-- The phase of one colour with architected draws (R280, R284): every unclamped cell of the colour is drawn anew from the states
before it. -/
def afterColour (first beta : Nat) (key : Word) (cs : List Cell) (col : Nat) : List Cell :=
  cs.map fun c =>
    if c.col = col ∧ c.clamp = false then
      { c with up := decide ((mix key (BitVec.ofNat 64 (c.cell - first))).toNat / 2 ^ 48 < sigmoid (cellIndex beta c cs)) }
    else c

/-- `n` architected sweeps, from number `i` upwards, of a command with the generator values `k` and `b` (R280, R284). -/
def afterSweeps (first beta : Nat) (k b : Word) : Nat → Nat → List Cell → List Cell
  | 0, _, cs => cs
  | n + 1, i, cs =>
    afterSweeps first beta k b n (i + 1) ((List.range 8).foldl (afterColour first beta (mix k (b + BitVec.ofNat 64 (32 * i)))) cs)

/-! ## Traps -/

/-- A group after a trap has been delivered to its kernel's trap segment (R342, R343): the trap registers hold the trap, trap
mode is on, and the scalar stream stands at the trap segment with its lane side discarded. -/
structure Delivered (g g' : Group) (k : Kernel) (code : TrapCode) (tpc taddr : Word) (detail : Word32) : Prop where
  code : g'.tcode = BitVec.ofNat 64 code.num
  pc : g'.tpc = tpc
  addr : g'.taddr = taddr
  aux : g'.taux = g.rstart.extractLsb' 0 32 ++ detail
  mode : g'.trapMode = true
  target : g'.pc = k.trapseg.zeroExtend 64
  regs : g'.x = g.x
  queues : g'.segs = [] ∧ g'.retq = [] ∧ g'.path0 = none ∧ g'.path1 = none ∧ g'.monitor = none
  gen : g'.genK = g.genK ∧ g'.genB = g.rB
  lanes : ∀ j : Fin 32, g'.lanes[j].v = g.lanes[j].v ∧ g'.lanes[j].p = g.lanes[j].p ∧ g'.lanes[j].lst = g.lanes[j].lst

/-- A group has been killed by a trap of `code` (R302, R348): its launch `l` counts it, its block is abandoned, and no other group is
gone. -/
structure Killed (s t : State) (r : GroupRef) (l : Launch) (code : TrapCode) : Prop where
  gone : ∃ g', t.group? r = some g' ∧ g'.status = .killed ∧ g'.regs = [] ∧ g'.tx = none ∧ g'.monitor = none ∧ g'.retq = []
  block : ∀ b, t.block? r.blk = some b → b.abandoned = true
  counted : t.launch? l.uid = some { l with kcode := l.kcode.or (some code), nkill := min (l.nkill + 1) 0xFFFFFFFF }
  others : ∀ q, q ≠ r → (t.group? q).isSome = (s.group? q).isSome

/-- A state in which posted operations of the group that write registers, its loads in flight, have been discarded (R343). -/
def withoutReads (s : State) (r : GroupRef) : State :=
  { s with arrivals := s.arrivals.filter fun a => !(a.grp == r && a.op.reads) }

/-- The barrier object of a block as its bytes stand. -/
def barrierAt (s : State) (blk off : Nat) : Barrier := Barrier.ofBytes (s.readBytes (.sp blk off) 16)

end Sys2Proof.Safety
end

