-- ==== Sys2Proof/Certificates/Slice0/Obligations.lean ====
section
/-! DEFINITION. The statements for the provers: what the machine and its operations do, in the terms of Sys2Proof/Safety.lean. -/

open Sys2Proof Sys2Proof.Machine Sys2Proof.Safety

/-! ## The machine -/

/-- R3, R47 to R49, R60, R102, R203, R216, R219, R274, R321, R330, R339, R349, R356, R375 to R377: what the spec says a reset
leaves: no tenant, launch, container or group, counters zero, rings and queues disabled with empty pointers and their default sizes,
the timers' defaults, self-test passed, links disabled and the boot lock open. That self-test has failed nothing, and that links
start disabled, is the model's choice (log 5). -/
def Obligations.ResetLeavesTheStatedValues : Prop :=
  State.reset.groups = [] ∧ State.reset.blocks = [] ∧ State.reset.launches = [] ∧ State.reset.containers = [] ∧
  State.reset.versions = [] ∧ State.reset.aoc = 0 ∧ State.reset.mgmt.linkEn = 0 ∧ State.reset.mgmt.bootLock = false ∧
  State.reset.mgmt.stStat = 0x80000000 ∧
  ∀ t : Fin 16,
    let x := State.reset.tenant t.val
    x.created = false ∧ x.wdl = 100000 ∧ x.xtl = 1000000 ∧ x.fq.en = false ∧ x.cq.en = false ∧ x.fq.logn = 6 ∧ x.cq.logn = 6 ∧
    x.fq.get = 0 ∧ x.fq.put = 0 ∧ x.fq.drop = 0 ∧ x.cq.get = 0 ∧ x.cq.put = 0 ∧ x.cq.drop = 0 ∧ x.xstep = 0 ∧ x.drops = 0 ∧
    x.gen = 0 ∧ x.npg = 0 ∧ (∀ w : Fin 4, x.leases[w] = 0) ∧
    ∀ q : Fin 8, x.queues[q].en = false ∧ x.queues[q].err = false ∧ x.queues[q].logn = 4 ∧ x.queues[q].head = 0 ∧
      x.queues[q].tail = 0 ∧ x.queues[q].ret = 0

/-- The memories of the reset state are in canonical form (log 4). -/
def Obligations.ResetMemoryIsCanonical : Prop := MemoryCanonical State.reset

/-- Every step keeps every memory in canonical form, from every state whose memories are (log 4: the form is the model's own). -/
def Obligations.EveryStepKeepsMemoryCanonical : Prop :=
  ∀ s t : State, MemoryCanonical s → step s = .next t → MemoryCanonical t

/-- R74 to R76, R99, R100: a scalar turn runs exactly the instruction whose four bytes, little-endian, stand at the group's PC in
its container's stream, in the state without that turn; a rejected word raises the trap of R99 with its kind, and a PC at or beyond
FSIZE `TRAP_PROTECTION`, first of all. The turn is the model's schedule (log 1), the PC has 64 bits (log 19), `TADDR` 0 is R342's
(log 18), and the interlock of a register that a posted operation still writes is the model's reading of R116 (log 42). -/
def Obligations.AStepRunsTheDecodedScalarInstruction : Prop :=
  ∀ (s : State) (r : GroupRef) (rest : List Turn) (g : Group) (c : Ctx) (i : Instr),
    s.schedule = .scalar r :: rest → s.group? r = some g → s.ctxOf g = some c → c.runs = true →
    (∀ t, g.tx = some t → t.abort = none) → g.detected = [] → g.deferredDue = false →
    (g.preemptAt = none ∨ g.closing = true) → mayIssue g.swait = true →
    let stops (st : Stop) : Prop := step s = { s with schedule := rest }.stopped g none st
    (c.c.stream.fsize ≤ g.pc.toNat → stops (.trap .protection 0 0)) ∧
    (g.pc.toNat < c.c.stream.fsize → (∀ k < 4, c.c.stream.keyOf (g.pc.toNat + k) / 32 ∉ s.poison) →
      let word := BitVec.ofNat 32 (leNat ((List.range 4).map fun k => s.mem.read (c.c.stream.keyOf (g.pc.toNat + k))))
      (decodeScalar word = .reject .illegal → stops (.trap .illegal 0 0)) ∧
      (decodeScalar word = .reject .operand → stops (.trap .operand 0 0)) ∧
      (decodeScalar word = .instr i → (∃ x ∈ scalarRegs i, x ∈ s.pendingRegs r) → stops (.wait .interlock)) ∧
      (decodeScalar word = .instr i → (∀ x ∈ scalarRegs i, x ∉ s.pendingRegs r) →
        step s = exec i { s with schedule := rest, who := ⟨r, false⟩ }))

/-- R75, R76, R87, R99, R100: a lane turn runs exactly the instruction whose twelve bytes, little-endian, stand at the path's PC in
its container's lane code, when its v registers lie within the launch's; else it raises `TRAP_OPERAND`. A rejected word raises the
trap of R99 with its kind, and a PC outside the kernel's lane range `TRAP_PROTECTION`, first of all. The turn is the model's
schedule (log 1), and `TADDR` 0 is R342's (log 18). -/
def Obligations.AStepRunsTheDecodedLaneInstruction : Prop :=
  ∀ (s : State) (r : GroupRef) (slot : Bool) (rest : List Turn) (g : Group) (c : Ctx) (p : Path) (i : Instr),
    s.schedule = .lane r slot :: rest → s.group? r = some g → s.ctxOf g = some c → c.runs = true →
    g.detected = [] → g.deferredDue = false → (g.preemptAt = none ∨ g.closing = true) →
    g.path slot = some p → p.parked = false → mayIssue p.wait = true → (c.l.det = true → g.issue1 = slot) →
    let inside : Prop := c.k.lbase.toNat ≤ p.pc.toNat ∧ p.pc.toNat < c.k.lbase.toNat + c.k.lsize.toNat
    let stops (code : TrapCode) : Prop := step s = { s with schedule := rest }.stopped g (some slot) (.trap code 0 0)
    (¬ inside → stops .protection) ∧
    (inside → (∀ k < 12, c.c.lanes.keyOf (p.pc.toNat + k) / 32 ∉ s.poison) →
      let word := BitVec.ofNat 96 (leNat ((List.range 12).map fun k => s.mem.read (c.c.lanes.keyOf (p.pc.toNat + k))))
      (decodeLane word = .reject .illegal → stops .illegal) ∧ (decodeLane word = .reject .operand → stops .operand) ∧
      (decodeLane word = .instr i → 8 * c.l.vregs < vTop i → stops .operand) ∧
      (decodeLane word = .instr i → vTop i ≤ 8 * c.l.vregs → step s = exec i { s with schedule := rest, who := ⟨r, slot⟩ }))

/-- Words written out from R77 to R82 (scalar) and R83 to R98 (lane) decode to the instructions they stand for. -/
def Obligations.SampleWordsDecode : Prop :=
  decodeScalar (0b0000000_000011_000010_000001_0000001#32) = .instr (.add 1 2 3) ∧
  decodeScalar (0b1111111_111111_000010_000001_0000100#32) = .instr (.addi 1 2 0x1FFF) ∧
  decodeScalar (0x0000004E#32) = .instr .nop ∧ decodeScalar (0x0000004F#32) = .instr .done ∧
  decodeScalar (0x0000003F#32) = .instr .yield ∧ decodeScalar (0x0200003F#32) = .instr .rgn ∧
  decodeScalar (0x1000003D#32 + 5 * 2 ^ 13) = .instr (.setdm 5) ∧
  decodeScalar 0 = .reject .illegal ∧
  decodeLane (0x000000000000000000000000#96) = .reject .illegal ∧
  decodeLane (0x003008010118C80084#96) = .instr (.fma ⟨.always, .always, 0⟩ .f64 .rn (.v 4) (.v 1) (.v 2) (.v 3)) ∧
  decodeLane (0x051C0B02AA360401#96) = .instr (.laneAdd ⟨.on false 3, .on true 5, 0⟩ .s32 true (.v 10) (.v 11) (.ic 7)) ∧
  decodeLane (0x051C0B02BA360401#96) = .reject .illegal

/-! ## Encodings -/

/-- R77 to R82: every scalar instruction decodes from the word that encodes it, whatever its fields hold. -/
def Obligations.ScalarWordsRoundTrip : Prop :=
  ∀ (i : Instr) (f : ScalarFields), encode i = .scalar f → decodeScalar f.toWord = .instr i

/-- R83 to R98: every well-formed lane instruction decodes from the word that encodes it, whatever its operands hold. -/
def Obligations.LaneWordsRoundTrip : Prop :=
  ∀ (i : Instr) (f : LaneFields), i.wf = true → encode i = .lane f → decodeLane f.toWord = .instr i

/-- R99: the decoder answers a well-formed instruction or a rejection by name, on any word of either code section. -/
def Obligations.DecodedInstructionsAreWellFormed : Prop :=
  (∀ (w : BitVec 96) (i : Instr), decodeLane w = .instr i → i.wf = true ∧ isEvent i = false) ∧
  ∀ (w : Word32) (i : Instr), decodeScalar w = .instr i → i.wf = true ∧ isEvent i = false

/-! ## Scalar instructions -/

/-- R133 to R135: results of the integer register operations, for every register, x0 as destination too, of the immediate
operations, whose immediates are sign-extended, and of the constants; the PC goes on by 4 and nothing else changes. -/
def Obligations.IntegerInstructionResults : Prop :=
  (∀ (s : State) (g : Group), s.group? s.who.grp = some g → ∀ d x y : BitVec 6,
     let a := g.getX x
     let b := g.getX y
     let n := b.toNat % 64
     let is (i : Instr) (v : Word) : Prop := WritesX s g i d v (g.pc + 4)
     is (.add d x y) (BitVec.ofNat 64 (a.toNat + b.toNat)) ∧
     is (.sub d x y) (BitVec.ofInt 64 (a.toInt - b.toInt)) ∧
     is (.mul d x y) (BitVec.ofNat 64 (a.toNat * b.toNat)) ∧
     is (.mulh d x y) (BitVec.ofInt 64 (a.toInt * b.toInt / 2 ^ 64)) ∧
     is (.mulhn d x y) (BitVec.ofNat 64 (a.toNat * b.toNat / 2 ^ 64)) ∧
     is (.and d x y) (a &&& b) ∧ is (.or d x y) (a ||| b) ∧ is (.xor d x y) (a ^^^ b) ∧
     is (.shl d x y) (BitVec.ofNat 64 (a.toNat * 2 ^ n)) ∧
     is (.shr d x y) (BitVec.ofNat 64 (a.toNat / 2 ^ n)) ∧
     is (.sar d x y) (BitVec.ofInt 64 (a.toInt / 2 ^ n)) ∧
     is (.rot d x y) ((a <<< n) ||| (a >>> (64 - n))) ∧
     is (.min d x y) (BitVec.ofInt 64 (min a.toInt b.toInt)) ∧
     is (.max d x y) (BitVec.ofInt 64 (max a.toInt b.toInt)) ∧
     is (.minn d x y) (BitVec.ofNat 64 (min a.toNat b.toNat)) ∧
     is (.maxn d x y) (BitVec.ofNat 64 (max a.toNat b.toNat)) ∧
     is (.popc d x) (BitVec.ofNat 64 ((List.range 64).countP a.getLsbD)) ∧
     is (.seq d x y) (if a = b then 1 else 0) ∧ is (.sne d x y) (if a = b then 0 else 1) ∧
     is (.slt d x y) (if a.toInt < b.toInt then 1 else 0) ∧
     is (.sltn d x y) (if a.toNat < b.toNat then 1 else 0) ∧
     ∀ z ≤ 64, (∀ k < z, a.getLsbD (63 - k) = false) → (z = 64 ∨ a.getLsbD (63 - z) = true) →
       is (.clz d x) (BitVec.ofNat 64 z)) ∧
  ∀ (s : State) (g : Group), s.group? s.who.grp = some g →
    ∀ (d x sh : BitVec 6) (imm : BitVec 13) (c : BitVec 19),
    let a := g.getX x
    let i : Word := BitVec.ofInt 64 imm.toInt
    let is (i : Instr) (v : Word) : Prop := WritesX s g i d v (g.pc + 4)
    is (.addi d x imm) (a + i) ∧ is (.andi d x imm) (a &&& i) ∧ is (.ori d x imm) (a ||| i) ∧ is (.xori d x imm) (a ^^^ i) ∧
    is (.shli d x sh) (BitVec.ofNat 64 (a.toNat * 2 ^ sh.toNat)) ∧
    is (.shri d x sh) (BitVec.ofNat 64 (a.toNat / 2 ^ sh.toNat)) ∧
    is (.sari d x sh) (BitVec.ofInt 64 (a.toInt / 2 ^ sh.toNat)) ∧
    is (.slti d x imm) (if a.toInt < imm.toInt then 1 else 0) ∧
    is (.sltni d x imm) (if a.toNat < i.toNat then 1 else 0) ∧
    is (.li d c) (BitVec.ofInt 64 c.toInt) ∧
    is (.lih d c) (BitVec.ofNat 64 ((g.getX d).toNat * 2 ^ 19) ||| BitVec.ofNat 64 c.toNat)

/-- R136 to R138, R149: branches and calls go to PC + 4·OFF when taken, else to PC + 4; `call` links in x63; `jr` and `ret` go to
the register's value when it is a multiple of 4; `loop` counts its register down, modulo 2^64, and branches while it is not zero,
and with x0 raises `TRAP_OPERAND`; `nop` has no effect. The PC has 64 bits (log 19), and the trap of `loop` has `TADDR` 0, as R342
has it where no address is given (log 18). -/
def Obligations.ControlTransfersGoToTheirTargets : Prop :=
  (∀ (s : State) (g : Group), s.group? s.who.grp = some g →
     ∀ (x y : BitVec 6) (o : BitVec 13) (f : BitVec 25),
     let a := g.getX x
     let b := g.getX y
     let next : Word := g.pc + 4
     let to13 : Word := BitVec.ofInt 64 (g.pc.toNat + 4 * o.toInt)
     let to25 : Word := BitVec.ofInt 64 (g.pc.toNat + 4 * f.toInt)
     GoesTo s g (.br f) to25 ∧ WritesX s g (.call f) 63 next to25 ∧ GoesTo s g .nop next ∧
     GoesTo s g (.bz x o) (if a = 0 then to13 else next) ∧
     GoesTo s g (.bnz x o) (if a = 0 then next else to13) ∧
     GoesTo s g (.blt x y o) (if a.toInt < b.toInt then to13 else next) ∧
     GoesTo s g (.bge x y o) (if a.toInt < b.toInt then next else to13) ∧
     GoesTo s g (.bltn x y o) (if a.toNat < b.toNat then to13 else next) ∧
     GoesTo s g (.bgen x y o) (if a.toNat < b.toNat then next else to13)) ∧
  (∀ (s : State) (g : Group), s.group? s.who.grp = some g →
     (∀ x : BitVec 6, (g.getX x).toNat % 4 = 0 → GoesTo s g (.jr x) (g.getX x)) ∧
     ((g.getX 63).toNat % 4 = 0 → GoesTo s g .ret (g.getX 63))) ∧
  ∀ (s : State) (g : Group), s.group? s.who.grp = some g → ∀ (x : BitVec 6) (o : BitVec 13),
    (x ≠ 0 → WritesX s g (.loop x o) x (BitVec.ofInt 64 ((g.getX x).toNat - 1))
      (if (g.getX x).toNat = 1 then g.pc + 4 else BitVec.ofInt 64 (g.pc.toNat + 4 * o.toInt))) ∧
    (x = 0 → exec (.loop x o) s = s.stopped g none (.trap .operand 0 0))

/-- R137, R142: a jump to a register that is no multiple of 4, and a scalar access whose address is no multiple of its size, raise
`TRAP_ALIGN`, the access with its address in `TADDR`, before anything else is checked. The jump's trap has `TADDR` 0, as R342 has it
where no address is given (log 18). -/
def Obligations.MisalignedTargetsAndAddressesTrap : Prop :=
  ∀ (s : State) (g : Group) (c : Ctx), s.group? s.who.grp = some g → s.ctxOf g = some c → g.tx = none →
    ∀ (x d : BitVec 6) (imm : BitVec 13),
    let va := g.getX x + imm.signExtend 64
    let align (i : Instr) (n : Nat) : Prop := va.toNat % n ≠ 0 → exec i s = s.stopped g none (.trap .align va 0)
    ((g.getX x).toNat % 4 ≠ 0 → exec (.jr x) s = s.stopped g none (.trap .align 0 0)) ∧
    align (.ld16 d x imm) 2 ∧ align (.ld32 d x imm) 4 ∧ align (.ld64 d x imm) 8 ∧ align (.lds16 d x imm) 2 ∧
    align (.lds32 d x imm) 4 ∧ align (.st16 d x imm) 2 ∧ align (.st32 d x imm) 4 ∧ align (.st64 d x imm) 8

/-- R112, R113, R139, R140: `lframe` stages a value; `lrun` queues a segment with the staging values, VSTEP and DMASK of now, in a
queue that has room; `qpop` takes the oldest return entry; `qcount` counts them. -/
def Obligations.LaneInterfaceResults : Prop :=
  ∀ (s : State) (g : Group) (c : Ctx), s.group? s.who.grp = some g → s.ctxOf g = some c → g.tx = none →
    (∀ (n : BitVec 4) (x : BitVec 6),
      CompletesAs s g (.lframe n x) fun g => { g with stage := g.stage.set n.toNat (g.getX x) n.isLt }) ∧
    (∀ imm : BitVec 19, 12 * imm.toNat < c.k.lsize.toNat → g.segs.length < 8 →
      ∃ g', Completes s (.lrun imm) g' ∧ g'.x = g.x ∧ g'.pc = g.pc + 4 ∧ g'.lanes = g.lanes ∧ g'.retq = g.retq ∧
        g'.segs = g.segs ++ [⟨c.k.lbase + BitVec.ofNat 32 (12 * imm.toNat), g.stage, g.vstep, g.dmask, g.pc.extractLsb' 0 32⟩] ∧
        g'.segIssued = g.segIssued + 1 ∧
        (g.segs = [] → g'.path0 = some ⟨c.k.lbase + BitVec.ofNat 32 (12 * imm.toNat), allLanes, false, none, none⟩ ∧ g'.path1 = none ∧
          g'.frame.depth = 0) ∧
        (g.segs ≠ [] → g'.path0 = g.path0 ∧ g'.path1 = g.path1 ∧ g'.frame = g.frame)) ∧
    (∀ (d : BitVec 6) (v : Word) (rest : List Word), g.retq = v :: rest →
      ∃ g', Completes s (.qpop d) g' ∧ (∀ r, g'.getX r = if r = d ∧ d ≠ 0 then v else g.getX r) ∧
        g' = { g with x := g'.x, retq := rest, pc := g.pc + 4, swait := none, swalk := none, blocked := 0 }) ∧
    ∀ d : BitVec 6, c.l.det = false ∨ g.segs = [] → WritesX s g (.qcount d) d (BitVec.ofNat 64 g.retq.length) (g.pc + 4)

/-- R102, R140, R146, R152: system registers read as the device holds them; VSTEP and DMASK are written, and a read-only register
ignores a write; `setdm` sets the low 16 bits of DMASK; `rseed` sets the generator. `DCYC` is held in hundredths of a cycle (log
11). -/
def Obligations.SystemRegisterResults : Prop :=
  ∀ (s : State) (g : Group) (c : Ctx), s.group? s.who.grp = some g → s.ctxOf g = some c → g.tx = none →
    ∀ d x y : BitVec 6,
    let rd (r : SysReg) (v : Word) : Prop := WritesX s g (.srd d r) d v (g.pc + 4)
    let low16 (v : Word) : Word := BitVec.ofNat 64 (v.toNat % 65536)
    rd .gid (BitVec.ofNat 64 g.ref.gid) ∧ rd .ngrp (BitVec.ofNat 64 c.b.ngrp) ∧ rd .blk (BitVec.ofNat 64 c.b.b) ∧
    rd .vcx (BitVec.ofNat 64 c.b.vx) ∧ rd .vcy (BitVec.ofNat 64 c.b.vy) ∧ rd .tenant (BitVec.ofNat 64 c.l.tenant) ∧
    rd .mode (BitVec.ofNat 64 ((if c.l.det then 1 else 0) + if c.l.chk then 2 else 0)) ∧ rd .pcore (BitVec.ofNat 64 g.core) ∧
    rd .vstep g.vstep ∧ rd .dmask g.dmask ∧ rd .argb c.l.argp ∧ rd .aoc s.aoc ∧ rd .gkey g.genK ∧
    (g.segs = [] → rd .gctr g.genB) ∧
    rd .l2pBase (s.tenant c.l.tenant).l2pBase ∧
    rd .rodataBase (match c.c.rodata with | some z => BitVec.ofNat 64 z.va | none => 0) ∧
    rd .dataBase (match c.c.data with | some z => BitVec.ofNat 64 z.va | none => 0) ∧
    rd .dcyc (BitVec.ofNat 64 (s.dcyc[g.core / 36]?.getD 0 / 100)) ∧
    (∀ die : BitVec 2, let m := s.present[die.toNat]'die.isLt
      rd (.corePresent die) (BitVec.ofNat 64 (m.toNat + 2 ^ 36 * (List.range 36).countP m.getLsbD))) ∧
    rd .tcode (if g.trapMode then g.tcode else 0) ∧ rd .tpc (if g.trapMode then g.tpc else 0) ∧
    rd .taddr (if g.trapMode then g.taddr else 0) ∧ rd .taux (if g.trapMode then g.taux else 0) ∧
    CompletesAs s g (.swr .vstep x) (fun g => { g with vstep := g.getX x }) ∧
    CompletesAs s g (.swr .dmask x) (fun g => { g with dmask := low16 (g.getX x) }) ∧
    CompletesAs s g (.setdm x) (fun g => { g with dmask := low16 (g.getX x) }) ∧
    (∀ r : SysReg, r ≠ .vstep → r ≠ .dmask → GoesTo s g (.swr r x) (g.pc + 4)) ∧
    (g.segs = [] → CompletesAs s g (.rseed x y) fun g => { g with genK := g.getX x, genB := g.getX y })

/-- R115, R127, R145, R147, R148, R149, R155: `fence` has no other effect in this order of accesses (log 2); `yield` has none in
free mode; `rgn` starts a region; `done` ends the group. That `rgn` waits for the registers of posted operations, and that `done`
gives up posted reads, is the model's reading (log 42). -/
def Obligations.GroupControlResults : Prop :=
  ∀ (s : State) (g : Group) (c : Ctx), s.group? s.who.grp = some g → s.ctxOf g = some c → g.segs = [] → g.tx = none →
    (∀ sc : Scope, (sc = .dm → s.dmaskOk c.l.tenant g.dmask = true) → s.settled c = .ok () → GoesTo s g (.fence sc) (g.pc + 4)) ∧
    (c.l.det = false → GoesTo s g .yield (g.pc + 4)) ∧
    (s.pendingRegs s.who.grp ≠ [] → exec .rgn s = s.stopped g none (.wait .engines)) ∧
    (s.pendingRegs s.who.grp = [] → ∃ g', Completes s .rgn g' ∧ g'.pc = g.pc + 4 ∧ g'.x = g.x ∧ g'.retq = [] ∧ g'.rstart = g.pc ∧ g'.rB = g.genB ∧
      g'.closing = false ∧ g'.trapMode = false ∧ (g'.tcode, g'.tpc, g'.taddr, g'.taux) = (0, 0, 0, 0) ∧
      (∀ j : Fin 32, g'.lanes[j] = { g.lanes[j] with o := Vector.replicate 8 0, l0 := 0, l1 := 0 }) ∧
      g' = { g with pc := g'.pc, retq := g'.retq, rstart := g'.rstart, rB := g'.rB, closing := g'.closing,
                    trapMode := g'.trapMode, tcode := g'.tcode, tpc := g'.tpc, taddr := g'.taddr, taux := g'.taux,
                    lanes := g'.lanes, swait := none, swalk := none, blocked := 0 }) ∧
    ∃ t g', exec .done s = .next t ∧ t.group? s.who.grp = some g' ∧ g'.status = .ended ∧ g'.regs = [] ∧ g'.monitor = none ∧
      g'.retq = [] ∧ (∀ q, q ≠ s.who.grp → t.group? q = s.group? q) ∧ (∀ p, t.readBytes p 1 = s.readBytes p 1) ∧
      t.launches = s.launches ∧ t.kicks = s.kicks ∧
      t.arrivals = s.arrivals.filter fun a => !(a.grp == s.who.grp && a.op.reads)

/-! ## Scalar memory -/

/-- R3, R141, R142: a load of 1, 2, 4 or 8 bytes at XA + IMM, whose checks pass and whose bytes can be read, returns the
little-endian number there, zero- or sign-extended, and changes no byte; a store of the low 1, 2, 4 or 8 bytes of XB at XA + OFF,
whose checks pass, changes exactly those bytes. Accesses are performed at their step (log 2). What happens while operations of the
group are outstanding is the model's reading of the order (log 26, log 42): a load returns the bytes of the group's own posted
stores, and is itself posted behind an update of its bytes and behind any posted test; a store is posted behind any of them. No
engine holds the line of an access here (log 22). -/
def Obligations.ScalarLoadsAndStoresMoveTheirBytes : Prop :=
  (∀ (s : State) (g : Group) (c : Ctx), s.group? s.who.grp = some g → s.ctxOf g = some c → g.tx = none →
     ∀ (d x : BitVec 6) (imm : BitVec 13),
     let va := g.getX x + imm.signExtend 64
     let load (i : Instr) (n : Nat) (sgn : Bool) (ext : Nat → Word) : Prop := ∀ t : Target,
       s.resolveChecks c .load va n = .ok t → s.readable c t n = .ok () →
       let own := (s.outstanding g false).filter fun a => a.op.acquires || a.obj.meets a.size t.place n
       (own = [] → LoadsX s g i d (ext (s.readNat t.place n))) ∧
       ((∀ a ∈ own, ∃ bytes, a.op = .store bytes) → LoadsX s g i d (ext (leNat (s.ownBytes g t.place n)))) ∧
       ((∃ a ∈ own, ∀ bytes, a.op ≠ .store bytes) → Posts s g i t (.load n sgn d))
     let signed (n x : Nat) : Word := BitVec.ofInt 64 (if x < 2 ^ (8 * n - 1) then x else x - 2 ^ (8 * n))
     load (.ld8 d x imm) 1 false (BitVec.ofNat 64) ∧ load (.ld16 d x imm) 2 false (BitVec.ofNat 64) ∧
     load (.ld32 d x imm) 4 false (BitVec.ofNat 64) ∧ load (.ld64 d x imm) 8 false (BitVec.ofNat 64) ∧
     load (.lds8 d x imm) 1 true (signed 1) ∧ load (.lds16 d x imm) 2 true (signed 2) ∧
     load (.lds32 d x imm) 4 true (signed 4)) ∧
  ∀ (s : State) (g : Group) (c : Ctx), MemoryCanonical s → s.group? s.who.grp = some g → s.ctxOf g = some c → g.tx = none →
    ∀ (b x : BitVec 6) (off : BitVec 13),
    let va := g.getX x + off.signExtend 64
    let store (i : Instr) (n : Nat) : Prop := ∀ t : Target,
      s.resolveChecks c .store va n = .ok t → s.mustCopy c.l.tenant t = false → s.reachable c t = .ok () →
      (s.outstanding g false = [] → StoresX s g i t.place n (g.getX b).toNat) ∧
      (s.outstanding g false ≠ [] → Posts s g i t (.store (leBytes n (g.getX b).toNat)))
    store (.st8 b x off) 1 ∧ store (.st16 b x off) 2 ∧ store (.st32 b x off) 4 ∧ store (.st64 b x off) 8

/-- R143, R144, R155: a scalar atomic of 32 or 64 bits returns the old value, zero-extended, and leaves the new one; it ends a
region. Accesses are performed at their step (log 2); behind an operation of the group that is still outstanding the atomic is
posted, which is the model's reading of the order (log 42). -/
def Obligations.ScalarAtomicsUpdateOnce : Prop :=
  ∀ (s : State) (g : Group) (c : Ctx), MemoryCanonical s → s.group? s.who.grp = some g → s.ctxOf g = some c → g.tx = none →
    ∀ (w : Bool) (sc : Scope) (d x y : BitVec 6) (t : Target),
    let n := if w then 8 else 4
    let m := 2 ^ (8 * n)
    (sc = .dm → s.dmaskOk c.l.tenant g.dmask = true) → s.resolveChecks c .atomic (g.getX x) n = .ok t →
    s.mustCopy c.l.tenant t = false → s.readable c t n = .ok () →
    let old := s.readNat t.place n
    let b := (g.getX y).toNat % m
    let e := (g.getX d).toNat % m
    let signed (v : Nat) : Int := if 2 * v < m then v else v - m
    let upd (i : Instr) (op : Aop) (v : Nat) : Prop :=
      (s.outstanding g false = [] → UpdatesX s g i d t.place n v) ∧
      (s.outstanding g false ≠ [] → Posts s g i t (.atomic op n b e d))
    upd (.aadd w sc d x y) .add ((old + b) % m) ∧
    upd (.acas w sc d x y) .cas (if old = e then b else old) ∧
    upd (.aswp w sc d x y) .swp b ∧
    upd (.amin w sc d x y) .min (if signed old ≤ signed b then old else b) ∧
    upd (.amax w sc d x y) .max (if signed b ≤ signed old then old else b) ∧
    upd (.aand w sc d x y) .and (old &&& b) ∧ upd (.aor w sc d x y) .or (old ||| b) ∧ upd (.axor w sc d x y) .xor (old ^^^ b)

/-- R298 to R301: `xopen` records a checkpoint; inside, a load sees the group's own stores before memory, a store changes no byte of
memory, and `xclose` performs the buffered bytes; `xabort` restores the checkpoint. Accesses are performed at their step (log 2);
that a page published meanwhile ends the commit (log 47), and that a line of it which an engine owns holds the commit (log 22), are
the model's readings; the traps outside a transaction have `TADDR` 0, as R342 has it where no address is given (log 18). -/
def Obligations.TransactionsBufferTheirStores : Prop :=
  ∀ (s : State) (g : Group) (c : Ctx), MemoryCanonical s → s.group? s.who.grp = some g → s.ctxOf g = some c →
    (∀ off : BitVec 25, g.tx = none → g.segs = [] → s.settled c = .ok () → (c.l.det = true → s.commandsOf g.ref = false) →
      CompletesAs s g (.xopen off) fun g => { g with
        tx := some ⟨g.x, g.target25 off, [], Memory.empty, [], [], 0, none⟩, closing := true }) ∧
    (∀ (tx : Tx) (b x : BitVec 6) (off : BitVec 13) (key : Nat), g.tx = some tx →
      s.txResolve c tx .store (g.getX x + off.signExtend 64) 8 = .ok key → tx.stores < 16 →
      ∃ g', Completes s (.st64 b x off) g' ∧ g'.pc = g.pc + 4 ∧ g'.x = g.x ∧
        ∃ tx', g'.tx = some tx' ∧ tx'.saved = tx.saved ∧ tx'.stores = tx.stores + 1 ∧
          (tx.bytes.wf = true → ∀ k, tx'.byte s k = if key ≤ k ∧ k < key + 8
            then BitVec.ofNat 8 ((g.getX b).toNat / 256 ^ (k - key)) else tx.byte s k)) ∧
    (∀ (tx : Tx) (d x : BitVec 6) (imm : BitVec 13) (key : Nat), g.tx = some tx →
      s.txResolve c tx .load (g.getX x + imm.signExtend 64) 8 = .ok key → s.poisoned (.phys key) 8 = none →
      ∃ t g', exec (.ld64 d x imm) s = .next t ∧ t.group? s.who.grp = some g' ∧ OnlyReads s t s.who.grp ∧ g'.pc = g.pc + 4 ∧
        ∀ r, g'.getX r = if r = d ∧ d ≠ 0
          then BitVec.ofNat 64 (leNat ((List.range 8).map fun k => tx.byte s (key + k))) else g.getX r) ∧
    (∀ tx : Tx, g.tx = some tx → tx.abort = none →
      (∃ k ∈ tx.written, ∃ v ∈ s.versions, v.page = k / 65536 * 65536 ∧ v.pub = true) →
      exec .xclose s = s.stopped g none (.abort 3 0 0)) ∧
    (∀ tx : Tx, g.tx = some tx → tx.abort = none →
      (∀ k ∈ tx.written, ∀ v ∈ s.versions, v.page = k / 65536 * 65536 → v.pub = false) →
      ((∃ k ∈ tx.written, s.lineHeld (some g.ref) (.phys k) 1 = true) → exec .xclose s = s.stopped g none (.wait .engines)) ∧
      ((∀ k ∈ tx.written, s.lineHeld (some g.ref) (.phys k) 1 = false) → ∃ t g', exec .xclose s = .next t ∧ t.group? s.who.grp = some g' ∧ g'.tx = none ∧ g'.x = g.x ∧ g'.pc = g.pc + 4 ∧
        g'.closing = true ∧ (∀ k, t.mem.read k = if k ∈ tx.written then tx.bytes.read k else s.mem.read k) ∧
        ∀ b o, t.readBytes (.sp b o) 1 = s.readBytes (.sp b o) 1)) ∧
    (∀ (tx : Tx) (x : BitVec 6), g.tx = some tx →
      ∃ g', Completes s (.xabort x) g' ∧ g'.tx = none ∧ g'.pc = tx.fallback ∧ g'.getX 61 = 0 ∧
        g'.getX 62 = BitVec.ofNat 64 (1 + 256 * ((g.getX x).toNat % 256)) ∧
        ∀ r : BitVec 6, r ≠ 61 → r ≠ 62 → r ≠ 0 → g'.getX r = tx.saved[r.toNat]'r.isLt) ∧
    (g.tx = none → ∀ x, exec .xclose s = s.stopped g none (.trap .operand 0 0) ∧
      exec (.xabort x) s = s.stopped g none (.trap .operand 0 0))

/-- R298, R300: an abort restores the checkpoint and reports REASON and CODE in x62, and the address in x61 for REASON 4 only; it
goes on at the fallback and writes no byte. Inside a transaction an instruction that R298 does not allow aborts it with REASON 6,
the nested `xopen` too; that an `lrun` whose segment would start at or beyond LSIZE does so too, instead of the trap of R99, is the
model's choice (log 53). -/
def Obligations.AbortsRestoreTheCheckpoint : Prop :=
  (∀ (s : State) (g : Group) (tx : Tx) (reason code : Nat) (addr : Word), s.group? g.ref = some g → g.tx = some tx →
     ∃ t g', s.stopped g none (.abort reason code addr) = .next t ∧ t.group? g.ref = some g' ∧ OnlyGroup s t g.ref ∧
       g'.tx = none ∧ g'.pc = tx.fallback ∧ g'.getX 62 = BitVec.ofNat 64 (reason + 256 * code) ∧
       g'.getX 61 = (if reason = 4 then addr else 0) ∧
       (∀ r : BitVec 6, r ≠ 61 → r ≠ 62 → r ≠ 0 → g'.getX r = tx.saved[r.toNat]'r.isLt) ∧ g'.lanes = g.lanes ∧ g'.regs = g.regs) ∧
  ∀ (s : State) (g : Group), s.group? s.who.grp = some g → g.tx.isSome = true →
    ∀ (x y z : BitVec 6) (w : Bool) (sc : Scope) (r : SysReg) (n : BitVec 4) (c : BitVec 13) (seg : BitVec 19) (off : BitVec 25),
    ∀ i ∈ ([.yield, .xopen off, .mswap, .mwait, .brk c, .trap c, .fence sc, .lrun seg, .lframe n x, .qpop x, .qcount x,
        .setdm x, .swr r x, .rseed x y, .preg x y, .pdrop x, .parr x, .pwait x y, .ptest x y z, .mon x, .wmon x y, .tdesc x y,
        .tinv x, .kick x y, .kwait x, .kwaitNb x y, .mload x y, .mloadSh x y, .mloop x y, .gbload x y, .gbclamp x y, .gbsweep x,
        .gbread x y, .gbstat x y, .vpub x y, .vret x, .vstep x, .coll x, .launch x y, .aadd w sc x y z, .acas w sc x y z,
        .aswp w sc x y z, .amin w sc x y z, .amax w sc x y z, .aand w sc x y z, .aor w sc x y z, .axor w sc x y z] : List Instr),
      exec i s = s.stopped g none (.abort 6 0 0)

/-! ## Traps -/

/-- R150, R342 to R344, R349, R351: `trap` takes the user trap with its code in DETAIL. A trap of a "segment" code is delivered to
the trap segment when the kernel has one and the group is neither in trap mode nor closing; any other code but `brk`'s, or one
raised in trap mode or in a closing group, kills: with the fault queue disabled the record is dropped and counted. The group's
posted loads and tests are discarded as loads in flight, which is the model's reading of R343 (log 42); a kill waits while an object
that it must abandon lies behind a link or a peer in recovery, or in a line that an engine owns, also the model's reading (log 46).
-/
def Obligations.TrapsAreDeliveredOrKill : Prop :=
  (∀ (s : State) (g : Group) (c : Ctx), s.group? s.who.grp = some g → s.ctxOf g = some c → g.tx = none →
     c.k.trapseg ≠ 0xFFFFFFFF → g.trapMode = false → g.closing = false → ∀ code : BitVec 13,
     ∃ t g', exec (.trap code) s = .next t ∧ t.group? s.who.grp = some g' ∧ OnlyGroup (withoutReads s g.ref) t s.who.grp ∧
       Delivered g g' c.k .user ((g.pc.extractLsb' 0 32).zeroExtend 64) 0 (code.zeroExtend 32) ∧
       g'.closing = false ∧ g'.status = g.status ∧ g'.held = g.held ∧ g'.regs = g.regs ∧ g'.planes = g.planes ∧ g'.vstep = g.vstep ∧
       g'.dmask = g.dmask ∧ g'.stage = g.stage) ∧
  ∀ (s : State) (g : Group) (c : Ctx) (info : TrapInfo), s.group? g.ref = some g → s.ctxOf g = some c → info.code ≠ .brk →
    ((info.code ∈ [TrapCode.page, .version, .copy, .user] ∧ c.k.trapseg ≠ 0xFFFFFFFF ∧ g.trapMode = false ∧ g.closing = false) →
      ∃ t g', s.takeTrap g.ref info = some t ∧ t.group? g.ref = some g' ∧ OnlyGroup (withoutReads s g.ref) t g.ref ∧
        Delivered g g' c.k info.code info.tpc info.taddr info.detail) ∧
    (¬ (info.code ∈ [TrapCode.page, .version, .copy, .user] ∧ c.k.trapseg ≠ 0xFFFFFFFF ∧ g.trapMode = false ∧ g.closing = false) →
      (s.killHeld g = true → s.takeTrap g.ref info = none) ∧
      ((s.tenant c.l.tenant).fq.en = false → c.l.tenant < 16 → s.killHeld g = false →
      ∃ t g', s.takeTrap g.ref info = some t ∧ t.group? g.ref = some g' ∧ g'.status = .killed ∧ g'.regs = [] ∧ g'.tx = none ∧
        (t.tenant c.l.tenant).fq.drop = min ((s.tenant c.l.tenant).fq.drop + 1) 0xFFFF ∧
        (∀ q, q ≠ g.ref → (t.group? q).isSome = (s.group? q).isSome) ∧
        ∀ b, t.block? g.ref.blk = some b → b.abandoned = true))

/-- R150, R352: `brk` parks: its record goes to the fault queue, here into the buffer of a full ring, and the group stands still
with its registers; nothing is delivered. Its posted loads and tests are discarded as loads in flight, which is the model's reading
of R343 (log 42). -/
def Obligations.BreakInstructionParks : Prop :=
  ∀ (s : State) (g : Group) (c : Ctx), s.group? s.who.grp = some g → s.ctxOf g = some c → g.tx = none → c.l.tenant < 16 →
    ∀ code : BitVec 13,
    let r := (s.tenant c.l.tenant).fq
    r.en = true → r.buffer.length < 64 → (r.buffer ≠ [] ∨ (r.put - r.get).toNat = 2 ^ r.logn) →
    ∃ t g' p, exec (.brk code) s = .next t ∧ t.group? s.who.grp = some g' ∧ g'.park = some p ∧ p.code = .brk ∧
      p.info = ⟨.brk, (g.pc.extractLsb' 0 32).zeroExtend 64, 0, code.zeroExtend 32, s.aoc⟩ ∧ p.slot = none ∧
      g'.pc = g.pc ∧ g'.x = g.x ∧ g'.trapMode = g.trapMode ∧ g'.status = g.status ∧
      (t.tenant c.l.tenant).fq.buffer.length = r.buffer.length + 1 ∧ t.arrivals = (withoutReads s s.who.grp).arrivals ∧
      (∀ q, q ≠ s.who.grp → t.group? q = s.group? q) ∧ ∀ p, t.readBytes p 1 = s.readBytes p 1

/-! ## Phasers and monitors -/

/-- R288 to R292: `preg` and `pdrop` change the object by `Reg` of the change in their units, once, or trap where R289 forbids it,
and record the entry; `parr` posts one arrival and writes nothing yet; `pwait` goes on at a phase that has passed, and waits else;
`ptest` reports PHASE, abandonment and whether the phase has passed, of the object as a test of the group sees it (R303). Which of
them check the object as a store is the model's reading (log 24), and so are the order of posted operations, behind which a `ptest`
of the same bytes is posted, as it is behind any posted test (log 26, log 42), the group's own view in a deterministic launch (log
31) and `TADDR` 0 of their traps without an address (R342, log 18). -/
def Obligations.PhaserInstructionsUpdateTheObject : Prop :=
  ∀ (s : State) (g : Group) (c : Ctx), MemoryCanonical s → s.group? s.who.grp = some g → s.ctxOf g = some c → g.tx = none →
    ∀ (x y d : BitVec 6) (tg : Target),
    let va := g.getX x
    let posts (t : State) (op : PostOp) : Prop := t.arrivals = s.arrivals ++
      [⟨s.nextId, g.ref, (g.pc.extractLsb' 0 32).zeroExtend 64, tg.place, va, tg.attr, op, false, g.segIssued, false⟩]
    (s.objectTarget c .store va = .ok tg → s.mustCopy c.l.tenant tg = false →
      let old : Nat := match g.entry? va with
        | some e => if e.sig then e.units else 0
        | none => 0
      let p := s.ownPhaser g tg.place
      let changes (i : Instr) (k : Int) (rs : List Registration) : Prop :=
        (RegFits p k → ∃ t g', exec i s = .next t ∧ Accepted s { t with mem := s.mem } g g' ∧ g'.regs = rs ∧
          (s.outstanding g false = [] → p = s.phaserAt tg.place ∧ Registered p (t.phaserAt tg.place) k ∧
            BytesKeptOutside s t tg.place 16 ∧ t.arrivals = s.arrivals) ∧
          (s.outstanding g false ≠ [] → BytesKept s t ∧ posts t (.register k))) ∧
        (¬ RegFits p k → exec i s = s.stopped g none (.trap .operand 0 0))
      (s.readable c tg 16 = .ok () →
        (∀ (u : Nat) (sig wait : Bool), u < 65536 →
          g.getX y = BitVec.ofNat 64 (u + (if sig then 2 ^ 16 else 0) + if wait then 2 ^ 17 else 0) →
          let e : Registration := ⟨va, tg.place, u, sig, wait⟩
          let rs := if (g.entry? va).isSome then g.regs.map fun r => if r.addr = va then e else r else g.regs ++ [e]
          let valid := (sig = true ∨ wait = true) ∧ (u = 0 ↔ sig = false) ∧ ((g.entry? va).isSome = true ∨ g.regs.length < 4)
          (¬ valid → exec (.preg x y) s = s.stopped g none (.trap .operand 0 0)) ∧
          (valid → sig = true ∨ 0 < old → changes (.preg x y) ((u : Int) - old) rs) ∧
          (valid → sig = false → old = 0 → ∃ t g', exec (.preg x y) s = .next t ∧ Accepted s t g g' ∧ BytesKept s t ∧
            g'.regs = rs ∧ t.arrivals = s.arrivals)) ∧
        (g.entry? va = none → exec (.pdrop x) s = s.stopped g none (.trap .operand 0 0)) ∧
        ∀ e, g.entry? va = some e → e.sig = true →
          changes (.pdrop x) (-(e.units : Int)) (g.regs.filter fun r => r.addr != va)) ∧
      (s.reachable c tg = .ok () → ∀ e, g.entry? va = some e → e.sig = true → 0 < e.units →
        ∃ t g', exec (.parr x) s = .next t ∧ Accepted s t g g' ∧ BytesKept s t ∧ g'.regs = g.regs ∧ posts t (.arrive e.units))) ∧
    (s.objectTarget c .load va = .ok tg → s.readable c tg 16 = .ok () →
      let p := s.phaserAt tg.place
      let view : Option Memory := match tg.place with
        | .sp _ _ => if c.l.det then g.snap else none
        | .phys _ => none
      let own := (s.outstanding g false).filter fun a => a.op.acquires || a.obj.meets a.size tg.place 16
      let tests (seen : Phaser) : Prop := LoadsX s g (.ptest d x y) d (BitVec.ofNat 64 (seen.phase * 2 ^ 32 +
        (if seen.flags % 2 = 1 ∨ c.b.abandoned = true then 2 else 0) + if seen.phase % 2 ≠ (g.getX y).toNat % 2 then 1 else 0))
      let bit := (g.getX y).toNat % 2
      (c.l.det = false → g.segs = [] → s.settled c = .ok () → (∃ e, g.entry? va = some e ∧ e.wait = true) →
        ((p.phase % 2 ≠ bit ∨ p.flags % 2 = 1 ∨ c.b.abandoned = true) →
          ∃ t g', exec (.pwait x y) s = .next t ∧ t.group? s.who.grp = some g' ∧ OnlyReads s t s.who.grp ∧ g'.pc = g.pc + 4 ∧
            g'.x = g.x ∧ g'.swait = none ∧ ∀ j : Fin 32, g'.lanes[j] = { g.lanes[j] with
              lst := if p.flags % 2 = 1 ∨ c.b.abandoned = true then g.lanes[j].lst ||| 0x80 else g.lanes[j].lst }) ∧
        (¬ (p.phase % 2 ≠ bit ∨ p.flags % 2 = 1 ∨ c.b.abandoned = true) →
          Completes s (.pwait x y) { g with swait := some (.phaser tg.place va tg.attr ((g.getX y).getLsbD 0)) })) ∧
      (view = none → own = [] → tests p) ∧
      (view = none → (∃ a ∈ own, ∀ bytes, a.op ≠ .store bytes) → Posts s g (.ptest d x y) tg (.test ((g.getX y).getLsbD 0) d)) ∧
      ∀ m b o, view = some m → tg.place = .sp b o → tests (Phaser.ofBytes (m.readBytes o 16)))

/-- R296, R297: `mon` arms the monitor on the 16-byte granule of its address; `wmon` goes on, and disarms it, when a byte of the
granule has been written since. -/
def Obligations.MonitorsArmAndWake : Prop :=
  ∀ (s : State) (g : Group) (c : Ctx), s.group? s.who.grp = some g → s.ctxOf g = some c → g.tx = none →
    ∀ (x y : BitVec 6) (tg : Target), s.resolveChecks c .load (g.getX x) 1 = .ok tg →
    (tg.attr ≠ 3 → s.wayTo tg = .ok () →
      CompletesAs s g (.mon x) fun g => { g with monitor := some ⟨tg.place.alignDown 16, 0⟩ }) ∧
    (∀ m : Monitor, g.monitor = some m → m.granule = tg.place.alignDown 16 → m.written ≠ 0 → g.segs = [] → c.l.det = false →
      CompletesAs s g (.wmon x y) fun g => { g with monitor := none }) ∧
    (∀ m : Monitor, g.monitor = some m → m.granule = tg.place.alignDown 16 → m.written = 0 → g.segs = [] → c.l.det = false →
      Completes s (.wmon x y) { g with swait := some (.monitor (g.getX x)
        (if g.getX y = 0 then none else some (s.aoc.toNat + (g.getX y).toNat))) })

/-- R127, R128: in a deterministic launch `yield`, `pwait`, `kwait` and `wmon` are switch points: the group waits there and the
position of its set opens. -/
def Obligations.DeterministicWaitsOpenThePosition : Prop :=
  ∀ (s : State) (g : Group) (c : Ctx), s.group? s.who.grp = some g → s.ctxOf g = some c → g.tx = none → c.l.det = true →
    g.segs = [] → s.settled c = .ok () → ∀ x y : BitVec 6,
    let opens (i : Instr) (after : Option Nat) : Prop := ∃ t g' b, exec i s = .next t ∧ t.group? s.who.grp = some g' ∧
      g'.swait.isSome = true ∧ g' = { g with swait := g'.swait } ∧ t.block? g.ref.blk = some b ∧ b = { c.b with co := .opened after } ∧
      BytesKept s t
    opens .yield (some g.ref.gid) ∧
    (∀ tg e, s.objectTarget c .load (g.getX x) = .ok tg → g.entry? (g.getX x) = some e → e.wait = true →
      s.readable c tg 16 = .ok () → opens (.pwait x y) none) ∧
    (∀ off, c.blockOffset (g.getX x) 16 = some off → (g.getX x).toNat % 16 = 0 → s.poisoned (.sp c.b.id off) 16 = none →
      opens (.kwait x) none) ∧
    ∀ m tg, g.monitor = some m → s.resolveChecks c .load (g.getX x) 1 = .ok tg → tg.place.alignDown 16 = m.granule → opens (.wmon x y) none

/-! ## Descriptors, copies, planes, array -/

/-- R240, R26: `tdesc` writes the record's descriptor into its block's table, `tinv` removes an entry; no other entry changes. -/
def Obligations.DescriptorTableWrites : Prop :=
  ∀ (s : State) (g : Group) (c : Ctx), s.group? s.who.grp = some g → s.ctxOf g = some c → g.tx = none → g.segs = [] →
    ∀ n x : BitVec 6,
    let writes (i : Instr) (e : Option Desc) : Prop := ∃ t g' b, exec i s = .next t ∧ t.group? s.who.grp = some g' ∧
      g'.pc = g.pc + 4 ∧ g'.x = g.x ∧ g'.lanes = g.lanes ∧ t.block? c.b.id = some b ∧
      (∀ k : Fin 64, b.tids[k] = if k.val = n.toNat then e else c.b.tids[k]) ∧ b = { c.b with tids := b.tids } ∧
      (∀ k, t.mem.read k = s.mem.read k) ∧ BytesKept s t ∧ OthersSee s t s.who.grp
    writes (.tinv n) none ∧
    ∀ tg d, s.resolve c .load (g.getX x) 128 = .ok tg → s.readable c tg 128 = .ok () →
      Desc.ofBytes (s.readBytes tg.place 128) = some d → writes (.tdesc n x) (some d)

/-- R243, R248, R303: an accepted `kick` captures its records, announces their bytes on its barrier object at its scope, and writes
nothing else; `kwait` goes on when COUNT is 0 and F is clear; `kwait.nb` returns COUNT, or FIDX with bit 63 when F is set, of the
object as a test of the group sees it. The group's own view in a deterministic launch is the model's reading (log 31), and so are
the posted announcement behind the group's outstanding operations, the `kwait` that stays behind those on its object, and the
`kwait.nb` posted behind an update of it, and both behind a posted test (log 42). -/
def Obligations.KickAndKwaitUseTheBarrier : Prop :=
  (∀ (s : State) (g : Group) (c : Ctx), MemoryCanonical s → s.group? s.who.grp = some g → s.ctxOf g = some c → g.tx = none →
     ∀ (x y : BitVec 6) (sc : Scope) (n bar off : Nat) (recs : List CopyRec),
     1 ≤ n → n ≤ 256 → bar % 16 = 0 → bar + 16 ≤ 1024 * c.l.scratch → bar < 2 ^ 19 →
     g.getX y = BitVec.ofNat 64 (sc.code.toNat * 2 ^ 28 + (n - 1) * 2 ^ 19 + bar) →
     (g.getX x).toNat % 16 = 0 → c.blockOffset (g.getX x) (16 * n) = some off → s.poisoned (.sp c.b.id off) (16 * n) = none →
     (∀ a ∈ s.outstanding g false, a.op.acquires = false ∧ a.obj.meets a.size (.sp c.b.id off) (16 * n) = false) →
     s.kicksOn g.core < 64 →
     (List.range n).mapM (fun r => s.captureRecord c r (s.readNat (.sp c.b.id (off + 16 * r)) 16)) = .ok recs →
     (s.outstanding g false ≠ [] → ∃ t g', exec (.kick x y) s = .next t ∧ Accepted s t g g' ∧ BytesKept s t ∧
       t.kicks = s.kicks ++ [⟨s.nextId + 1, g.ref, g.core, c.l.tenant, g.pc.extractLsb' 0 32, bar, g.step32, recs, 0⟩] ∧
       t.arrivals = s.arrivals ++ [⟨s.nextId, g.ref, (g.pc.extractLsb' 0 32).zeroExtend 64, .sp c.b.id bar,
         BitVec.ofNat 64 (windowBase + bar), 2, .announce sc (recs.foldl (fun t r => t + r.bytes) 0), false, g.segIssued, false⟩]) ∧
     (s.outstanding g false = [] →
     ∃ t g', exec (.kick x y) s = .next t ∧ Accepted s t g g' ∧ BytesKeptOutside s t (.sp c.b.id bar) 16 ∧
       t.kicks = s.kicks ++ [⟨s.nextId, g.ref, g.core, c.l.tenant, g.pc.extractLsb' 0 32, bar, g.step32, recs, 0⟩] ∧
       let old := Barrier.ofBytes (s.readBytes (.sp c.b.id bar) 16)
       let new := Barrier.ofBytes (t.readBytes (.sp c.b.id bar) 16)
       new.count = (old.count + recs.foldl (fun t r => t + r.bytes) 0) % 2 ^ 64 ∧ new.fidx = old.fidx ∧ new.flags = old.flags ∧
       new.scope = if old.count = 0 then sc.code.toNat else max (old.scope % 8) sc.code.toNat)) ∧
  ∀ (s : State) (g : Group) (c : Ctx), s.group? s.who.grp = some g → s.ctxOf g = some c → g.tx = none →
    ∀ (d x : BitVec 6) (off : Nat), (g.getX x).toNat % 16 = 0 → c.blockOffset (g.getX x) 16 = some off →
    s.poisoned (.sp c.b.id off) 16 = none →
    let b := Barrier.ofBytes (s.readBytes (.sp c.b.id off) 16)
    let own := (s.outstanding g false).filter fun a => a.op.acquires || a.obj.meets a.size (.sp c.b.id off) 16
    let counts (seen : Barrier) : Prop := LoadsX s g (.kwaitNb d x) d
      (BitVec.ofNat 64 (if seen.flags % 2 = 1 then 2 ^ 63 + seen.fidx else seen.count))
    let view := if c.l.det then g.snap else none
    (c.l.det = false → own = [] → b.count = 0 → b.flags % 2 = 0 →
      ∃ t g', exec (.kwait x) s = .next t ∧ t.group? s.who.grp = some g' ∧ OnlyReads s t s.who.grp ∧ MemoryStep g g' false ∧
        g'.x = g.x) ∧
    (c.l.det = false → (own ≠ [] ∨ b.count ≠ 0 ∨ b.flags % 2 = 1) →
      Completes s (.kwait x) { g with swait := some (.kwait off) }) ∧
    (view = none → own = [] → counts b) ∧
    (view = none → (∃ a ∈ own, ∀ bytes, a.op ≠ .store bytes) →
      Posts s g (.kwaitNb d x) ⟨.sp c.b.id off, g.getX x, 2, 0, false, true, false⟩ (.count d)) ∧
    ∀ m, view = some m → counts (Barrier.ofBytes (m.readBytes off 16))

/-- R251 to R255, R257: a matrix command is accepted behind the earlier ones, while fewer than four are held, with the plane pair as
it will stand; `mswap` of a group without a pair traps; an `mloop` first makes the copies on write of its pages; `mwait` with none
left raises ACU and SAT in every thread's `LST` as the engine holds them, and clears the engine's. That announcements are posted
behind the group's outstanding operations, and that `mwait` awaits its posted reads, is the model's reading (log 42), the `TADDR` 0
of the trap of `mswap` is R342's (log 18). -/
def Obligations.MatrixCommandsAreAccepted : Prop :=
  (∀ (s : State) (g : Group) (c : Ctx), MemoryCanonical s → s.group? s.who.grp = some g → s.ctxOf g = some c → g.tx = none →
     ∀ (x y : BitVec 6) (pair : PlanePair), g.mcmds.length < 4 → s.pairFor g = .ok pair →
     let accepts (i : Instr) (p : PlanePair) (m : MCmd) (bars : List Nat) : Prop :=
       ∃ t g', exec i s = .next t ∧ Accepted s t g g' ∧ BytesKeptBut s t (bars.map fun o => (.sp c.b.id o, 16)) ∧
         g'.planes = some p ∧ g'.mcmds = g.mcmds ++ [m] ∧ t.nextId = s.nextId + 1
     (∀ (d : Desc) (sh : PlaneShape) (k0 n0 : Int) (ps : List Piece), (g.getX x).toNat < 64 →
       c.b.tid? (g.getX x).toNat = some d → planeShape d.fmt = some sh →
       (((g.getX y).extractLsb' 0 32).toInt, ((g.getX y).extractLsb' 32 32).toInt) = (k0, n0) →
       (fmtBlockLen d.fmt = 0 ∨ k0 % fmtBlockLen d.fmt = 0) → d.rangeOut 0 k0 sh.k = false → d.rangeOut 1 n0 sh.n = false →
       s.checkReads c (d.step c.g.step32) (d.rectUnits k0 sh.k n0 sh.n) = .ok ps →
       let held := heldOf (d.step c.g.step32) ps
       accepts (.mload x y) { pair with nextStat := some d.fmt } (.load s.nextId false d k0 n0 held) [] ∧
       accepts (.mloadSh x y) { pair with nextShadow := some d.fmt } (.load s.nextId true d k0 n0 held) []) ∧
     (g.planes = none → exec .mswap s = s.stopped g none (.trap .operand 0 0)) ∧
     (g.planes.isSome = true →
       accepts .mswap { pair with nextStat := pair.nextShadow, nextShadow := pair.nextStat } (.swap s.nextId) []) ∧
     (∀ (fmt n off : Nat) (sh : PlaneShape) (rs : List (LoopRec × List (Nat × Word))),
       (g.getX x).toNat % 64 = 0 → (g.getX y).toNat = n → 1 ≤ n → n ≤ 16 → c.blockOffset (g.getX x) (64 * n) = some off →
       g.planes.bind (·.nextStat) = some fmt → planeShape fmt = some sh →
       s.loopRecords c fmt sh off (List.range n) [] = .ok rs →
       let own := s.outstanding g false
       let counted := (rs.map (·.1)).filter (·.baren)
       let bytes (r : LoopRec) : Nat := r.m * r.steps * r.ncol * fmtBytes r.c.fmt
       let bars := counted.map (·.baroff)
       let loop (id : Nat) : MCmd := .loop id (g.pc.extractLsb' 0 32) (rs.map (·.1)) 0 0
       let copies := (List.zip (List.range n) rs).flatMap fun r => r.2.2.map fun p => (r.1, p)
       (copies = [] → own = [] ∨ counted = [] → accepts (.mloop x y) pair (loop s.nextId) bars) ∧
       (copies = [] → own = [] → ∀ r, counted = [r] → ∃ t, exec (.mloop x y) s = .next t ∧
         (barrierAt t c.b.id r.baroff).count = ((barrierAt s c.b.id r.baroff).count + bytes r) % 2 ^ 64) ∧
       (copies = [] → own ≠ [] → ∀ r, counted = [r] → ∃ t g', exec (.mloop x y) s = .next t ∧ Accepted s t g g' ∧ BytesKept s t ∧
         g'.planes = some pair ∧ g'.mcmds = g.mcmds ++ [loop (s.nextId + 1)] ∧
         t.arrivals = s.arrivals ++ [⟨s.nextId, g.ref, (g.pc.extractLsb' 0 32).zeroExtend 64, .sp c.b.id r.baroff,
           BitVec.ofNat 64 (windowBase + r.baroff), 2, .announce r.scope (bytes r), false, g.segIssued, false⟩]) ∧
       ((s.loopCopies c.l.tenant g.step32 copies).2 = none → ∃ t g', exec (.mloop x y) s = .next t ∧
         t.group? s.who.grp = some g' ∧ g'.pc = g.pc + 4 ∧ g'.closing = true ∧ g'.x = g.x ∧ g'.lanes = g.lanes ∧
         g'.planes = some pair ∧ g'.mcmds.length = g.mcmds.length + 1 ∧
         BytesKeptBut s t (bars.map (fun o => (.sp c.b.id o, 16)) ++ (s.tenant c.l.tenant).pool.map fun f => (.phys f, pageSize)) ∧
         ∀ p ∈ copies, (t.version c.l.tenant p.2.1).pub = false))) ∧
  ∀ (s : State) (g : Group) (c : Ctx), s.group? s.who.grp = some g → s.ctxOf g = some c → g.tx = none → g.segs = [] →
    g.mcmds = [] →
    ((∃ a ∈ s.arrivals, a.grp = g.ref ∧ a.op.dst.isSome = true) → exec .mwait s = s.stopped g none (.wait .engines)) ∧
    ((∀ a ∈ s.arrivals, a.grp = g.ref → a.op.dst = none) →
      ∃ g', Completes s .mwait g' ∧ g'.pc = g.pc + 4 ∧ g'.x = g.x ∧ g'.acu = false ∧ g'.sat = false ∧ ∀ j : Fin 32, g'.lanes[j] = { g.lanes[j] with
        lst := g.lanes[j].lst ||| (if g.acu then 0x40 else 0) ||| (if g.sat then 0x01 else 0) })

/-- R276, R277, R281 to R283: `gbload` makes each cell of its range hold its record, in its initial state and released, and keeps
every other cell; `gbclamp` applies its entries in order to loaded cells: OP 0 releases a clamp, 1 clamps to −1, 2 to +1, 3 at the
current state. Both write no byte, and a deterministic block comes to own the window. -/
def Obligations.ArrayLoadsAndClampsReplaceCells : Prop :=
  ∀ (s : State) (g : Group) (c : Ctx), s.group? s.who.grp = some g → s.ctxOf g = some c → g.tx = none →
    ∀ (x y : BitVec 6) (w : Window) (d : Desc) (num fc : Nat),
    num < 4 → fc < 2 ^ 18 → (g.getX x).toNat < 64 → g.getX y = BitVec.ofNat 64 (num * 2 ^ 20 + fc) →
    s.windowFree c.l.tenant num = .ok () → (s.tenant c.l.tenant).window? num = some w → s.ownedWindow c w.num = .ok () →
    c.b.tid? (g.getX x).toNat = some d → d.fmt = 2 →
    let owns (t : State) : Prop := ∀ b, t.block? c.b.id = some b → c.l.det = true → w.num ∈ b.windows
    (d.rank = 2 → d.ext[0] = 33 → fc + d.ext[1] ≤ w.size → ∀ (ws : List Nat) (ps : List Piece) (new : List Cell),
      s.readWords c d ((stepsBelow d.ext[1] 1).flatMap fun j => (stepsBelow 33 1).map fun i => coord2 i j) = .ok (ws, ps) →
      let kept := (s.windowCells w).filter fun z => decide (z.cell < w.first + fc) || decide (w.first + fc + d.ext[1] ≤ z.cell)
      let recs := blocksOf 33 d.ext[1] ws
      recordChecks w ((kept.map fun z => (z.cell - w.first, z.tsc)) ++ (List.zip (List.range recs.length) recs).map fun q =>
        (fc + q.1, ((BitVec.ofNat 32 (q.2.getD 0 0)).extractLsb' 26 6).toInt)) fc recs = .ok new →
      (∀ z ∈ new, ∀ p ∈ z.cpl, ∀ n, (kept ++ new).find? (fun m => m.cell == p.2) = some n → n.col ≠ z.col) →
      (∀ z ∈ kept, ∀ p ∈ z.cpl, ∀ n, (kept ++ new).find? (fun m => m.cell == p.2) = some n → n.col = z.col →
        ∀ m ∈ new, m.cell ≠ n.cell ∧ m.cell ≠ z.cell) →
      ∃ t g', exec (.gbload x y) s = .next t ∧ Accepted s t g g' ∧ BytesKept s t ∧ owns t ∧ t.gbcmds = s.gbcmds ∧
        t.cells = (s.cells.filter fun z => !new.any fun n => n.die == z.die && n.cell == z.cell) ++ new ∧
        new.length = d.ext[1] ∧ ∀ i, ∀ h : i < new.length,
          let w0 : BitVec 32 := BitVec.ofNat 32 (ws.getD (33 * i) 0)
          new[i].die = w.die ∧ new[i].cell = w.first + fc + i ∧ new[i].clamp = false ∧ new[i].up = w0.getLsbD 25 ∧
          new[i].tsc = (w0.extractLsb' 26 6).toInt ∧ new[i].col = (w0.extractLsb' 16 3).toNat ∧
          new[i].bias = (w0.extractLsb' 0 16).toInt ∧
          new[i].cpl = ((ws.drop (33 * i + 1)).take (w0.extractLsb' 19 6).toNat).map fun e =>
            (((BitVec.ofNat 32 e).extractLsb' 18 8).toInt, w.first + e % 2 ^ 18)) ∧
    (d.rank = 1 → fc = 0 → ∀ (ws : List Nat) (ps : List Piece),
      s.readWords c d ((stepsBelow d.ext[0] 1).map fun i => coord2 i 0) = .ok (ws, ps) → s.clampChecks w ws = .ok () →
      ∃ t g', exec (.gbclamp x y) s = .next t ∧ Accepted s t g g' ∧ BytesKept s t ∧ owns t ∧ t.gbcmds = s.gbcmds ∧
        t.cells = ws.foldl (fun cs e => cs.map fun z =>
          if z.die = w.die ∧ z.cell = w.first + e % 2 ^ 18 then
            if e / 2 ^ 28 % 4 = 0 then { z with clamp := false }
            else if e / 2 ^ 28 % 4 = 1 then { z with clamp := true, up := false }
            else if e / 2 ^ 28 % 4 = 2 then { z with clamp := true, up := true }
            else { z with clamp := true }
          else z) s.cells)

/-- R45, R280, R281, R284 to R286: `gbsweep` is accepted with the generator of now and advances B by 32 for each sweep; `gbread` is
accepted and waits for its bytes; `gbstat` reads the window's registers and counts. -/
def Obligations.ArrayCommandsAreAccepted : Prop :=
  ∀ (s : State) (g : Group) (c : Ctx), s.group? s.who.grp = some g → s.ctxOf g = some c → g.tx = none →
    ∀ (x y r : BitVec 6) (w : Window) (num : Nat), num < 4 → s.windowFree c.l.tenant num = .ok () →
    (s.tenant c.l.tenant).window? num = some w →
    (∀ (beta : BitVec 16) (n : BitVec 16) (arch : Bool), g.segs = [] → s.settled c = .ok () → s.ownedWindow c w.num = .ok () →
      g.getX x = BitVec.ofNat 64 ((if arch then 2 ^ 63 else 0) + n.toNat * 2 ^ 32 + num * 2 ^ 20 + beta.toNat) →
      beta.toNat / 2 ^ 10 % 32 ≠ 31 → s.dangling w = none →
      ∃ t g', exec (.gbsweep x) s = .next t ∧ Accepted s t g g' ∧ BytesKept s t ∧ t.cells = s.cells ∧
        g'.genK = g.genK ∧ g'.genB = g.genB + BitVec.ofNat 64 (32 * (n.toNat + 1)) ∧
        t.gbcmds = s.gbcmds ++ [⟨s.nextId, g.ref, c.l.tenant, w.num, .sweep beta (n.toNat + 1) (c.l.det || arch) g.genK g.genB⟩]) ∧
    (∀ (d : Desc) (fc : Nat) (ps : List (List Piece)), s.ownedWindow c w.num = .ok () → fc < 2 ^ 18 → fc % 8 = 0 →
      (g.getX x).toNat < 64 → g.getX y = BitVec.ofNat 64 (num * 2 ^ 20 + fc) → c.b.tid? (g.getX x).toNat = some d →
      d.fmt = 0 → d.rank = 1 → d.vsel = 0 → fc + 8 * d.ext[0] ≤ w.size →
      (stepsBelow d.ext[0] 1).mapM (fun j => s.movePieces c false .store (some (d.addrOf (coord2 j 0))) 1) = .ok ps →
      s.gateMoves c.l.tenant c.g.step32 ps.flatten = .ok [] → (∀ p ∈ ps.flatten, s.wayTo p.tgt = .ok ()) →
      ∃ t g', exec (.gbread x y) s = .next t ∧ t.group? s.who.grp = some g' ∧ g'.swait = some .stateWrite ∧ g'.pc = g.pc + 4 ∧
        g'.x = g.x ∧ g'.closing = true ∧ BytesKept s t ∧ t.cells = s.cells ∧
        t.gbcmds = s.gbcmds ++ [⟨s.nextId, g.ref, c.l.tenant, w.num, .read d fc (heldOf none ps.flatten)⟩]) ∧
    ∀ sel : Nat, sel ≤ 5 → g.getX x = BitVec.ofNat 64 (num * 2 ^ 20 + sel) →
      let t := s.tenant c.l.tenant
      let cs := s.windowCells w
      WritesX s g (.gbstat r x) r (match sel with
        | 0 => t.leases[num]?.getD 0
        | 1 => BitVec.ofNat 64 (t.sweeps[num]?.getD 0)
        | 2 => BitVec.ofNat 64 (t.changes[num]?.getD 0)
        | 3 => BitVec.ofNat 64 ((cs.flatMap fun z => z.cpl.filter fun p => !cs.any fun n => n.cell == p.2).length)
        | 4 => BitVec.ofNat 64 cs.length
        | _ => BitVec.ofNat 64 (t.noise[num]?.getD 0)) (g.pc + 4)

/-- R324 to R326, R328: `vpub` publishes the pages of its field as its step and writes no byte; `vret` drops the step's retained
entries from every page of the tenant and marks the pages whose current step it is, once, and then waits for the reads of the step
that commands accepted before it have resolved; `vstep` sets the step register. The field is the model's reading of R325 (log 30).
-/
def Obligations.VersionInstructionsChangeTheTable : Prop :=
  ∀ (s : State) (g : Group) (c : Ctx), s.group? s.who.grp = some g → s.ctxOf g = some c → g.tx = none → g.segs = [] →
    ∀ (x y : BitVec 6) (q : Word32),
    (g.getX x = q.zeroExtend 64 → (∀ k ∈ s.kicks, k.grp ≠ g.ref) →
      CompletesAs s g (.vstep x) fun g => { g with vstep := q.zeroExtend 64 }) ∧
    (g.getX x = q.zeroExtend 64 → (∀ n b, g.swait ≠ some (.reads n b)) →
      ∃ t g', exec (.vret x) s = .next t ∧ t.group? s.who.grp = some g' ∧ g'.x = g.x ∧ g'.closing = true ∧
        (s.readsUnderWay c.l.tenant q s.nextId = false → g'.pc = g.pc + 4 ∧ g'.swait = none) ∧
        (s.readsUnderWay c.l.tenant q s.nextId = true → g'.pc = g.pc ∧ g'.swait = some (.reads q s.nextId)) ∧
        BytesKept s t ∧ t.versions = s.versions.map fun v => if s.ownsPage c.l.tenant v.page = true
          then { v with rset := v.rset.filter (fun r => r.step != q), retired := v.retired || v.cur == q } else v) ∧
    (∀ n b, g.swait = some (.reads n b) →
      (s.readsUnderWay c.l.tenant n b = true → Completes s (.vret x) g) ∧
      (s.readsUnderWay c.l.tenant n b = false → CompletesAs s g (.vret x) id)) ∧
    ∀ (d : Desc) (leaves : List (Nat × Leaf)), s.settled c = .ok () → s.commandsOf g.ref = false → (g.getX x).toNat < 64 →
      g.getX y = q.zeroExtend 64 → c.b.tid? (g.getX x).toNat = some d → d.vsel = 0 →
      (∀ r ∈ d.spans, windowEnd ≤ r.1 ∨ r.2 ≤ windowBase) → d.spanPages.length ≤ 65536 →
      s.spanLeaves c.l.tenant d.spanPages = .ok leaves →
      s.fieldBusy c.l.tenant ((d.field leaves).map (·.1)) = false → s.publishChecks c.l.tenant q (d.field leaves) = .ok () →
      ∃ t g', exec (.vpub x y) s = .next t ∧ Accepted s t g g' ∧ BytesKept s t ∧
        (∀ p ∈ d.field leaves, (t.version c.l.tenant p.1).pub = true ∧ (t.version c.l.tenant p.1).cur = q) ∧
        ∀ k, k ∉ (d.field leaves).map (·.1) → t.version c.l.tenant k = s.version c.l.tenant k

/-- R333, R334: an accepted `coll` (here a halo exchange or a reduction whose destination has no published page) is listed with what
it captured, and writes no byte of memory; in its scratchpad only its barrier object changes. What a halo exchange counts is the
model's reading (log 34). -/
def Obligations.CollectiveIsAccepted : Prop :=
  ∀ (s : State) (g : Group) (c : Ctx), MemoryCanonical s → s.group? s.who.grp = some g → s.ctxOf g = some c → g.tx = none →
    g.segs = [] →
    ∀ (x : BitVec 6) (off : Nat) (src dst : Desc) (ms : List Nat) (mp sp dp : List Piece) (rph : Option (Word × Place × Nat)),
    s.settled c = .ok () → s.commandsOf g.ref = false → s.collsOn g.core < 8 → (g.getX x).toNat % 64 = 0 →
    c.blockOffset (g.getX x) 64 = some off → s.poisoned (.sp c.b.id off) 64 = none →
    let r := CollFields.ofBytes (s.readBytes (.sp c.b.id off) 64)
    r.ok c.l.scratch = true → c.b.tid? r.stid = some src → c.b.tid? r.dtid = some dst → dst.vsel = 0 →
    (r.kind = 2 ∨ r.kind = 1 ∧ reduceFormatsOk src dst r.dfmt = true) →
    (r.kind = 1 → s.readMembers c r = .ok (ms, mp) ∧ membersOk s.mgmt.uaId ms = true) → (r.kind = 2 → ms = [] ∧ mp = []) →
    (r.kind = 2 → boxOut src dst zero5 = false) → s.collPages c r src dst = .ok (sp, dp, [], rph) →
    let entry : Coll :=
      { id := s.nextId, grp := g.ref, core := g.core, tenant := c.l.tenant, pc := g.pc.extractLsb' 0 32
        reduce := r.kind == 1, src := src, dst := dst, sheld := heldOf (src.step c.g.step32) sp, dheld := heldOf none dp, dfmt := r.dfmt
        members := ms, seq := r.seq, bar := r.baroff, runits := r.runits, rph := rph, accepted := s.aoc.toNat }
    ∃ t g', exec (.coll x) s = .next t ∧ Accepted s t g g' ∧ BytesKeptOutside s t (.sp c.b.id r.baroff) 16 ∧
      t.colls = s.colls ++ [entry] ∧
      (Barrier.ofBytes (t.readBytes (.sp c.b.id r.baroff) 16)).count =
        ((Barrier.ofBytes (s.readBytes (.sp c.b.id r.baroff) 16)).count + collBytes dst) % 2 ^ 64

/-- R151, R389: a device-side `launch` answers why it could not append its record, or appends the 128 bytes at the tail of the
tenant's lowest enabled device queue, answers with the tail and advances it; a poisoned table sector in the walk to its slot parks.
The record's own checks come before its release; behind the group's posted operations it waits (log 42). The write is not subject to
the version table, and ends a copy of its page that is under way (log 40). -/
def Obligations.DeviceLaunchAppendsItsRecord : Prop :=
  ∀ (s : State) (g : Group) (c : Ctx), MemoryCanonical s → s.group? s.who.grp = some g → s.ctxOf g = some c → g.tx = none →
    g.segs = [] → c.l.tenant < 16 → ∀ (d x : BitVec 6) (tg : Target), s.resolveChecks c .load (g.getX x) 128 = .ok tg →
    (s.settled c = .error (.wait .engines) → exec (.launch d x) s = s.stopped g none (.wait .engines)) ∧
    (s.settled c = .ok () → s.readable c tg 128 = .ok () →
    let answers (v : Word) (t : State) : Prop := ∃ g', exec (.launch d x) s = .next t ∧ t.group? s.who.grp = some g' ∧
      g'.pc = g.pc + 4 ∧ g'.closing = true ∧ (∀ r, g'.getX r = if r = d ∧ d ≠ 0 then v else g.getX r) ∧ g'.lanes = g.lanes
    ((∀ q < 8, (s.queue c.l.tenant q).en = false ∨ (s.queue c.l.tenant q).devq = false) →
      ∃ t, answers 0x8000000000000001 t ∧ BytesKept s t ∧ t.tenants = s.tenants) ∧
    ∀ q < 8, (s.queue c.l.tenant q).en = true → (s.queue c.l.tenant q).devq = true →
      (∀ k < q, (s.queue c.l.tenant k).en = false ∨ (s.queue c.l.tenant k).devq = false) →
      let z := s.queue c.l.tenant q
      ((z.tail - z.head).toNat = 2 ^ z.logn → ∃ t, answers 0x8000000000000002 t ∧ BytesKept s t ∧ t.tenants = s.tenants) ∧
      ((z.tail - z.head).toNat ≠ 2 ^ z.logn →
        (∀ code addr n, code ≠ .mcheck → s.launchSlot c (z.slot z.tail) = .error (.trap code addr n) →
          ∃ t, answers 0x8000000000000003 t ∧ BytesKept s t ∧ t.tenants = s.tenants) ∧
        (∀ addr n, s.launchSlot c (z.slot z.tail) = .error (.park addr n) →
          exec (.launch d x) s = s.stopped g none (.park addr n)) ∧
        ∀ l, s.launchSlot c (z.slot z.tail) = .ok l →
          ∃ t, answers (z.tail.zeroExtend 64) t ∧ BytesKeptBut s t ((.phys l.key, 128) :: copiesUnderWay s) ∧
            t.readBytes (.phys l.key) 128 = s.readBytes tg.place 128 ∧ (t.queue c.l.tenant q).tail = z.tail + 1 ∧
            (t.queue c.l.tenant q).head = z.head))

/-! ## Lane arithmetic -/

/-- R157, R162 to R164: packed integer arithmetic, sub-element by sub-element, wrapped or clamped with SAT; minima, maxima, logic,
shifts modulo the width, and counts. Every lane that executes writes, every lane of the path keeps its history, nothing else
changes. -/
def Obligations.PackedIntegerResults : Prop :=
  ∀ (s : State) (g : Group) (p : Path), s.group? s.who.grp = some g → g.path s.who.slot = some p →
    ∀ (c : Lc) (t : Ty) (sat : Bool) (d : Dst) (a b e : Src),
    let w := t.width
    let x := sub g c t a
    let y := sub g c t b
    let X := int g c t a
    let Y := int g c t b
    let Z := int g c t e
    let is (i : Instr) (f : Fin 32 → Nat → Nat × BitVec 16) : Prop := WritesSubs s g p i c d w 0 f
    is (.laneAdd c t sat d a b) (fun i j => narrow sat t (X i j + Y i j)) ∧
    is (.laneSub c t sat d a b) (fun i j => narrow sat t (X i j - Y i j)) ∧
    is (.laneMul c t sat d a b) (fun i j => narrow sat t (X i j * Y i j)) ∧
    is (.mad c t sat d a b e) (fun i j => narrow sat t (X i j * Y i j + Z i j)) ∧
    is (.laneMulh c t d a b) (fun i j => narrow false t (X i j * Y i j / 2 ^ w)) ∧
    is (.laneAbs c t sat d a) (fun i j => narrow sat t (if X i j < 0 then -X i j else X i j)) ∧
    is (.laneNeg c t sat d a) (fun i j => narrow sat t (-X i j)) ∧
    is (.laneMin c t d a b) (fun i j => (if Y i j < X i j then y i j else x i j, 0)) ∧
    is (.laneMax c t d a b) (fun i j => (if X i j < Y i j then y i j else x i j, 0)) ∧
    is (.laneAnd c t d a b) (fun i j => (x i j &&& y i j, 0)) ∧
    is (.laneOr c t d a b) (fun i j => (x i j ||| y i j, 0)) ∧
    is (.laneXor c t d a b) (fun i j => (x i j ^^^ y i j, 0)) ∧
    is (.not c t d a) (fun i j => (2 ^ w - 1 - x i j, 0)) ∧
    is (.laneShl c t d a b) (fun i j => (x i j * 2 ^ (y i j % w) % 2 ^ w, 0)) ∧
    is (.laneShr c t d a b) (fun i j => (x i j / 2 ^ (y i j % w), 0)) ∧
    is (.laneSar c t d a b) (fun i j => narrow false t (readInt true w (x i j) / 2 ^ (y i j % w))) ∧
    is (.laneRot c t d a b) (fun i j => ((x i j * 2 ^ (y i j % w) + x i j / 2 ^ (w - y i j % w)) % 2 ^ w, 0)) ∧
    is (.laneClz c t d a) (fun i j => (if x i j = 0 then w else w - 1 - Nat.log2 (x i j), 0)) ∧
    is (.lanePopc c t d a) (fun i j => ((List.range w).countP (x i j).testBit, 0))

/-- R165 to R168: fields, byte permutations, rounding shifts and dot products, sub-element by sub-element. -/
def Obligations.PackedFieldResults : Prop :=
  ∀ (s : State) (g : Group) (p : Path), s.group? s.who.grp = some g → g.path s.who.slot = some p →
    ∀ (c : Lc) (t : Ty) (d : Dst) (a b e f : Src),
    let w := t.width
    let x := sub g c t a
    let y := sub g c t b
    let z := sub g c t e
    let v := sub g c t f
    let is (i : Instr) (w : Nat) (f : Fin 32 → Nat → Nat × BitVec 16) : Prop := WritesSubs s g p i c d w 0 f
    let pos (q : Nat) := min q w
    let len (q l : Nat) := min l (w - min q w)
    is (.bfe c t d a b e) w (fun i j =>
      let r := x i j / 2 ^ pos (y i j) % 2 ^ len (y i j) (z i j)
      (if t.isSigned ∧ r.testBit (len (y i j) (z i j) - 1) ∧ 0 < len (y i j) (z i j)
        then r + (2 ^ w - 2 ^ len (y i j) (z i j)) else r, 0)) ∧
    is (.bfi c t d a b e f) w (fun i j =>
      let lo := pos (z i j)
      let hi := lo + len (z i j) (v i j)
      (y i j / 2 ^ hi * 2 ^ hi + x i j % 2 ^ (hi - lo) * 2 ^ lo + y i j % 2 ^ lo, 0)) ∧
    (t = .n32 → is (.prmt c t d a b e) w (fun i j =>
      (((List.range 4).map fun k =>
        let n := z i j / 16 ^ k % 16
        let byte := (x i j + 2 ^ 32 * y i j) / 256 ^ (n % 8) % 256
        (if n < 8 then byte else if byte < 128 then 0 else 255) * 256 ^ k).foldl (· + ·) 0, 0))) ∧
    (t = .n64 → is (.prmt c t d a b e) w (fun i j =>
      (((List.range 8).map fun k =>
        (x i j + 2 ^ 64 * y i j) / 256 ^ (z i j / 16 ^ k % 16) % 256 * 256 ^ k).foldl (· + ·) 0, 0))) ∧
    is (.rshRn c t d a b) w (fun i j =>
      let n := int g c t a i j
      let q := n / 2 ^ (y i j % w)
      let r := n % 2 ^ (y i j % w)
      narrow false t (if 2 * r > 2 ^ (y i j % w) ∨ 2 * r = 2 ^ (y i j % w) ∧ q % 2 = 1 then q + 1 else q)) ∧
    is (.mac2 c d a b e) 32 (fun i j => narrow true .s32 (int g c .s32 e i j +
      int g c .s16 a i (2 * j) * int g c .s16 b i (2 * j) + int g c .s16 a i (2 * j + 1) * int g c .s16 b i (2 * j + 1))) ∧
    is (.mac4 c d a b e) 32 (fun i j => narrow true .s32 (int g c .s32 e i j +
      int g c .s8 a i (4 * j) * int g c .s8 b i (4 * j) + int g c .s8 a i (4 * j + 1) * int g c .s8 b i (4 * j + 1) +
      int g c .s8 a i (4 * j + 2) * int g c .s8 b i (4 * j + 2) + int g c .s8 a i (4 * j + 3) * int g c .s8 b i (4 * j + 3)))

/-- R29 to R33, R157, R169 to R172: floating-point instructions apply their format's operation to each sub-element, with the draw of
its slot for `.rs`, raise its flags, and advance B by one slot for each sub-element only for `.rs`; `abs` and `neg` touch the sign
bit alone. The NaN of the lowest-numbered NaN operand comes back quiet, with INV only when it was signalling; an invalid operation
gives the canonical NaN with INV; sums, products, fused sums, quotients and reciprocals of numbers are the exact result rounded
once; `min` and `max` order −0 below +0 and any number before a NaN; the elementary functions give the special results of R171. An
elementary function's value past the last precision is free (log 9); that a fused sum of zeros of one sign keeps it is the model's
choice (log 63). -/
def Obligations.PackedFloatResults : Prop :=
  (∀ (s : State) (g : Group) (p : Path), s.group? s.who.grp = some g → g.path s.who.slot = some p →
     ∀ (c : Lc) (t : Ty) (rm : Rm) (d : Dst) (a b e : Src), t ∈ [Ty.f64, .f32, .f16, .bf16] →
     let w := t.width
     let F := fmtOf t
     let x := sub g c t a
     let y := sub g c t b
     let z := sub g c t e
     let draw (i : Fin 32) (j : Nat) : Nat := (g.draw j i.val).toNat % 2 ^ 32
     let is (i : Instr) (slots : Nat) (f : Fin 32 → Nat → FRes) : Prop :=
       WritesSubs s g p i c d w slots fun i j => ((f i j).bits % 2 ^ w, (f i j).flags)
     let n := if rm = .rs then 64 / w else 0
     is (.fpAdd c t rm d a b) n (fun i j => F.add rm (draw i j) (x i j) (y i j)) ∧
     is (.fpSub c t rm d a b) n (fun i j => F.sub rm (draw i j) (x i j) (y i j)) ∧
     is (.fpMul c t rm d a b) n (fun i j => F.mul rm (draw i j) (x i j) (y i j)) ∧
     is (.fma c t rm d a b e) n (fun i j => F.fma rm (draw i j) (x i j) (y i j) (z i j)) ∧
     is (.fpMin c t d a b) 0 (fun i j => F.minMax false (x i j) (y i j)) ∧
     is (.fpMax c t d a b) 0 (fun i j => F.minMax true (x i j) (y i j)) ∧
     is (.fpAbs c t d a) 0 (fun i j => ⟨x i j % 2 ^ (w - 1), 0⟩) ∧
     is (.fpNeg c t d a) 0 (fun i j => ⟨if x i j < 2 ^ (w - 1) then x i j + 2 ^ (w - 1) else x i j - 2 ^ (w - 1), 0⟩) ∧
     is (.div c t rm d a b) 0 (fun i j => F.div rm (x i j) (y i j)) ∧
     is (.sqrt c t rm d a) 0 (fun i j => F.sqrt rm (x i j)) ∧
     is (.rcp c t rm d a) 0 (fun i j => F.rcp rm (x i j)) ∧
     is (.rsqrt c t rm d a) 0 (fun i j => F.rsqrt rm (x i j)) ∧
     is (.exp2 c t rm d a) 0 (fun i j => F.exp2 rm (x i j)) ∧
     is (.lg2 c t rm d a) 0 (fun i j => F.lg2 rm (x i j)) ∧
     is (.sin c t rm d a) 0 (fun i j => F.trig rm false (x i j)) ∧
     is (.cos c t rm d a) 0 (fun i j => F.trig rm true (x i j))) ∧
  (∀ t ∈ [Ty.f64, .f32, .f16, .bf16], ∀ (rm : Rm) (draw x y z : Nat), x < 2 ^ t.width → y < 2 ^ t.width → z < 2 ^ t.width →
     let F := fmtOf t
     let gives (vs : List Nat) (r : FRes) : Prop := ∀ v, vs.find? (fnan F) = some v →
       r = ⟨v ||| 2 ^ (F.mb - 1), if fsig F v then 0x02 else 0⟩
     gives [x, y] (F.add rm draw x y) ∧ gives [x, y] (F.sub rm draw x y) ∧ gives [x, y] (F.mul rm draw x y) ∧
     gives [x, y] (F.div rm x y) ∧ gives [x, y, z] (F.fma rm draw x y z) ∧
     gives [x] (F.sqrt rm x) ∧ gives [x] (F.rcp rm x) ∧ gives [x] (F.rsqrt rm x) ∧ gives [x] (F.exp2 rm x) ∧
     gives [x] (F.lg2 rm x) ∧ gives [x] (F.trig rm false x) ∧ gives [x] (F.trig rm true x)) ∧
  (∀ t ∈ [Ty.f64, .f32, .f16, .bf16], ∀ (rm : Rm) (draw x y z : Nat), x < 2 ^ t.width → y < 2 ^ t.width → z < 2 ^ t.width →
     let F := fmtOf t
     let inf (neg : Bool) : FRes := ⟨F.signed neg F.infMag, 0⟩
     let invalid : FRes := ⟨F.canonical, 0x02⟩
     let sg : Bool := fneg F x != fneg F y
     let zero (v : Nat) : Prop := fmag F v = 0
     let isInf (v : Nat) : Prop := finf F v = true
     fnan F x = false → fnan F y = false → fnan F z = false →
     Sums F rm draw x y (F.add rm draw x y) ∧
     Sums F rm draw x (if y < 2 ^ (t.width - 1) then y + 2 ^ (t.width - 1) else y - 2 ^ (t.width - 1)) (F.sub rm draw x y) ∧
     (isInf x ∨ isInf y → F.mul rm draw x y = if zero x ∨ zero y then invalid else inf sg) ∧
     (¬ isInf x → ¬ isInf y →
       RoundsOr F rm draw false sg (fval F x * fval F y).natAbs (fden F * fden F) (F.mul rm draw x y)) ∧
     (isInf x ∨ isInf y → F.fma rm draw x y z =
       if zero x ∨ zero y ∨ (isInf z ∧ fneg F z ≠ sg) then invalid else inf sg) ∧
     (¬ isInf x → ¬ isInf y → isInf z → F.fma rm draw x y z = ⟨z, 0⟩) ∧
     (¬ isInf x → ¬ isInf y → ¬ isInf z → RoundsSum F rm draw
       (if (zero x ∨ zero y) ∧ zero z ∧ fneg F z = sg then sg else rm == .rd)
       (fval F x * fval F y + fval F z * fden F) (fden F * fden F) (F.fma rm draw x y z)) ∧
     (isInf x → isInf y → F.div rm x y = invalid) ∧ (isInf x → ¬ isInf y → F.div rm x y = inf sg) ∧
     (¬ isInf x → isInf y → F.div rm x y = ⟨F.signed sg 0, 0⟩) ∧ (zero x → zero y → F.div rm x y = invalid) ∧
     (¬ isInf x → ¬ zero x → zero y → F.div rm x y = ⟨F.signed sg F.infMag, 0x04⟩) ∧
     (rm ≠ .rs → ¬ isInf x → ¬ isInf y → ¬ zero y →
       RoundsOr F rm 0 false sg (fval F x).natAbs (fval F y).natAbs (F.div rm x y)) ∧
     (zero x → F.rcp rm x = ⟨F.signed (fneg F x) F.infMag, 0x04⟩) ∧ (isInf x → F.rcp rm x = ⟨F.signed (fneg F x) 0, 0⟩) ∧
     (rm ≠ .rs → ¬ isInf x → ¬ zero x → Rounds F rm 0 false (fneg F x) (fden F) (fval F x).natAbs (F.rcp rm x))) ∧
  (∀ t ∈ [Ty.f64, .f32, .f16, .bf16], ∀ (rm : Rm) (x : Nat), x < 2 ^ t.width → rm ≠ .rs →
     let F := fmtOf t
     let inf (neg : Bool) : FRes := ⟨F.signed neg F.infMag, 0⟩
     let invalid : FRes := ⟨F.canonical, 0x02⟩
     (fnan F x = false → fneg F x = true → fmag F x ≠ 0 → F.sqrt rm x = invalid ∧ F.rsqrt rm x = invalid ∧ F.lg2 rm x = invalid) ∧
     F.sqrt rm F.infMag = inf false ∧ F.rsqrt rm F.infMag = ⟨0, 0⟩ ∧ F.lg2 rm F.infMag = inf false ∧
     F.exp2 rm F.infMag = inf false ∧ F.exp2 rm (F.signed true F.infMag) = ⟨0, 0⟩ ∧
     (fmag F x = 0 → F.sqrt rm x = ⟨x, 0⟩ ∧ F.rsqrt rm x = ⟨F.signed (fneg F x) F.infMag, 0x04⟩ ∧
       F.lg2 rm x = ⟨F.signed true F.infMag, 0x04⟩ ∧ F.exp2 rm x = ⟨F.bias * 2 ^ F.mb, 0⟩ ∧ F.trig rm false x = ⟨x, 0⟩ ∧
       F.trig rm true x = ⟨F.bias * 2 ^ F.mb, 0⟩) ∧
     (finf F x = true → F.trig rm false x = invalid ∧ F.trig rm true x = invalid) ∧
     (∀ (n : Int) (k : Nat), k ≤ F.maxMag → fval F x = n * fden F →
       (funits F k : Int) * 2 ^ (-n).toNat = fden F * 2 ^ n.toNat → F.exp2 rm x = ⟨k, 0⟩) ∧
     ∀ (n : Int) (k : Nat), k ≤ F.maxMag → fneg F x = false → finf F x = false → funits F (fmag F x) * 2 ^ (-n).toNat = fden F * 2 ^ n.toNat →
       funits F k = n.natAbs * fden F → F.lg2 rm x = ⟨F.signed (decide (n < 0)) k, 0⟩) ∧
  (fp64.canonical = 0x7FF8000000000000 ∧ fp32.canonical = 0x7FC00000 ∧ fp16.canonical = 0x7E00 ∧ fpBf16.canonical = 0x7FC0 ∧
     fpE5m2.canonical = 0x7E ∧ fpE4m3.canonical = 0x7F) ∧
  ∀ t ∈ [Ty.f64, .f32, .f16, .bf16], ∀ x y : Nat, x < 2 ^ t.width → y < 2 ^ t.width →
    let F := fmtOf t
    let inv : BitVec 16 := if fsig F x || fsig F y then 0x02 else 0
    let both (r : Nat) : Prop := F.minMax false x y = ⟨r, inv⟩ ∧ F.minMax true x y = ⟨r, inv⟩
    let less : Prop := fval F x < fval F y ∨ (fval F x = fval F y ∧ fneg F x = true ∧ fneg F y = false)
    (fnan F x = true → fnan F y = true → both F.canonical) ∧ (fnan F x = true → fnan F y = false → both y) ∧
    (fnan F x = false → fnan F y = true → both x) ∧
    (fnan F x = false → fnan F y = false → (less → F.minMax false x y = ⟨x, 0⟩ ∧ F.minMax true x y = ⟨y, 0⟩) ∧
      (¬ less → F.minMax false x y = ⟨y, 0⟩ ∧ F.minMax true x y = ⟨x, 0⟩))

/-- R159, R173 to R181: conversions, comparisons, predicate logic, selection and status. `cvt` converts the first elements of its
source, clears the rest of its destination, and advances B by one slot for each of them only for `.rs`; what each becomes, with its
flags, is `Converts` among ordinary types and `ReadsG4`, `ReadsMx`, `WritesMx` and `WritesG4` for the block formats. `setp` compares
integers as their type says and raises no flag; among floating-point values −0 equals +0, and a NaN makes every comparison but `.ne`
false. Corner values of conversions (log 27), and that MXINT8 elements raise no UNF (log 63), are the model's reading. -/
def Obligations.ConversionAndPredicateResults : Prop :=
  (∀ (s : State) (g : Group) (p : Path), s.group? s.who.grp = some g → g.path s.who.slot = some p →
     ∀ (c : Lc) (dt st : Ty) (k : Mxk) (rm : Rm) (sat : Bool) (d : Dst) (a : Src),
     let x (i : Fin 32) : Nat := (g.src st c.imm i a).toNat
     let draw (i : Fin 32) (e : Nat) : Nat := (g.draw e i.val).toNat % 2 ^ 32
     let bits (i : Fin 32) (hi lo : Nat) : Nat := x i / 2 ^ lo % 2 ^ (hi + 1 - lo)
     let is (w n : Nat) (spec : Fin 32 → Nat → FRes → Prop) : Prop := ∃ r : Fin 32 → Nat → FRes,
       WritesSubs s g p (.cvt c dt st k rm sat d a) c d w (if rm = .rs then n else 0)
         (fun i e => if e < n then ((r i e).bits % 2 ^ w, (r i e).flags) else (0, 0)) ∧
       ∀ i e, e < n → spec i e (r i e)
     (dt.isN = true → st.isN = true → is dt.width (min (64 / st.width) (64 / dt.width)) fun i e =>
       Converts dt st rm sat (draw i e) (sub g c st a i e)) ∧
     (dt.isF = true → st = .g4 → is dt.width (64 / dt.width) fun i e =>
       ReadsG4 (fmtOf dt) rm sat (draw i e) (bits i (43 + 4 * e) (40 + 4 * e)) (bits i 39 32) (bits i 31 0)) ∧
     (dt.isF = true → st = .mx → is dt.width (64 / dt.width) fun i e =>
       ReadsMx (fmtOf dt) k rm sat (draw i e)
         (if k = .e2m1 then bits i (11 + 4 * e) (8 + 4 * e)
          else if k = .e3m2 ∨ k = .e2m3 then bits i (13 + 8 * e) (8 + 8 * e) else bits i (15 + 8 * e) (8 + 8 * e)) (bits i 7 0)) ∧
     (dt = .mx → st.isF = true → is (if k = .e2m1 then 4 else 8) (64 / st.width) fun i e =>
       WritesMx k (fmtOf st) rm (draw i e) (sub g c st a i e)) ∧
     (dt = .g4 → st.isF = true → is 4 (64 / st.width) fun i e => WritesG4 (fmtOf st) rm (draw i e) (sub g c st a i e))) ∧
  (∀ (s : State) (g : Group) (p : Path), s.group? s.who.grp = some g → g.path s.who.slot = some p →
     ∀ (c : Lc) (t : Ty) (cmp : Cmp) (lut : BitVec 4) (d : Dst) (a b : Src) (q u v : Fin 12),
     WritesPred s g p (.setp c t cmp q a b) c q
       (fun i => (List.range (64 / t.width)).all fun j => (compareSub t cmp (sub g c t a i j) (sub g c t b i j)).1)
       (fun i => if (List.range (64 / t.width)).any fun j => (compareSub t cmp (sub g c t a i j) (sub g c t b i j)).2 then 0x02 else 0) ∧
     WritesPred s g p (.plop c lut q u v) c q
       (fun i => lut.getLsbD ((if g.lanes[i].getP u then 2 else 0) + if g.lanes[i].getP v then 1 else 0)) (fun _ => 0) ∧
     WritesLanes s g p (.sel c t d a b q) c d 0 (fun i => if g.lanes[i].getP q then g.src t c.imm i a else g.src t c.imm i b)
       (fun _ => 0) ∧
     WritesLanes s g p (.lst c d) c d 0 (fun i => g.lanes[i].lst.zeroExtend 64) (fun _ => 0) ∧
     ∃ g', Completes s (.lclr c a) g' ∧ LaneStep g g' s.who.slot p 0 ∧ ∀ j : Fin 32, g'.lanes[j] = { g.lanes[j] with
       lst := if g.executes p.mask c j then g.lanes[j].lst &&& ~~~((g.src .n16 c.imm j a).extractLsb' 0 16) else g.lanes[j].lst }) ∧
  (∀ (t : Ty) (x y : Nat), t.isInt = true →
    let X := readInt t.isSigned t.width x
    let Y := readInt t.isSigned t.width y
    compareSub t .eq x y = (decide (X = Y), false) ∧ compareSub t .ne x y = (decide (X ≠ Y), false) ∧
    compareSub t .lt x y = (decide (X < Y), false) ∧ compareSub t .le x y = (decide (X ≤ Y), false) ∧
    compareSub t .gt x y = (decide (Y < X), false) ∧ compareSub t .ge x y = (decide (Y ≤ X), false) ∧
    compareSub t .num x y = (true, false) ∧ compareSub t .nan x y = (false, false)) ∧
  ∀ (t : Ty) (x y : Nat), t.isFloat = true →
    let F := fmtOf t
    let some' : Bool := fnan F x || fnan F y
    let sig : Bool := fsig F x || fsig F y
    let X := fval F x
    let Y := fval F y
    compareSub t .eq x y = (!some' && decide (X = Y), sig) ∧ compareSub t .ne x y = (some' || decide (X ≠ Y), sig) ∧
    compareSub t .lt x y = (!some' && decide (X < Y), some') ∧ compareSub t .le x y = (!some' && decide (X ≤ Y), some') ∧
    compareSub t .gt x y = (!some' && decide (Y < X), some') ∧ compareSub t .ge x y = (!some' && decide (Y ≤ X), some') ∧
    compareSub t .num x y = (!some', sig) ∧ compareSub t .nan x y = (some', sig)

/-! ## Cross-lane exchange -/

/-- R184, R186: in each executing lane `shfl` gives destination element f the source element whose index is Elem(S1, f) mod N, its
bits unchanged, and sets no flag. `bcast` copies, into every executing lane, the sub-elements of the lane that the lowest-numbered
executing lane names; with no executing lane it writes nothing, and its path's lanes keep their history (R84, R117). -/
def Obligations.ShuffleAndBroadcastMoveElements : Prop :=
  (∀ (s : State) (g : Group) (p : Path), s.group? s.who.grp = some g → g.path s.who.slot = some p →
     ∀ (c : Lc) (t : Ty) (d : Dst) (a ix : Src), t.isN = true →
     let w := t.width
     let N := 32 * (64 / w)
     WritesSubs s g p (.shfl c t d a ix) c d w 0 fun i j =>
       let f := i.val * (64 / w) + j
       let from' := g.elem t.unsigned c.imm ix f % N
       (subOf (g.src t c.imm (Fin.ofNat 32 (from' / (64 / w))) a) w (from' % (64 / w)), 0)) ∧
  (∀ (s : State) (g : Group) (p : Path), s.group? s.who.grp = some g → g.path s.who.slot = some p →
     ∀ (c : Lc) (t : Ty) (d : Dst) (a ix : Src) (e : Fin 32), t.isN = true → g.executes p.mask c e = true →
     (∀ k < e, g.executes p.mask c k = false) →
     WritesSubs s g p (.bcast c t d a ix) c d t.width 0 fun _ j =>
       (subOf (g.src t c.imm (Fin.ofNat 32 (subOf (g.src t.unsigned c.imm e ix) t.width 0 % 32)) a) t.width j, 0)) ∧
  ∀ (s : State) (g : Group) (p : Path), s.group? s.who.grp = some g → g.path s.who.slot = some p →
    ∀ (c : Lc) (t : Ty) (d : Dst) (a ix : Src), (∀ k, g.executes p.mask c k = false) →
    WritesLanes s g p (.bcast c t d a ix) c d 0 (fun _ => 0) (fun _ => 0)

/-- R182, R185, R191 to R193: slides, ballots, votes, election, `push` and draws: `rnd` gives an integer draw as it is, and a
floating-point one as the number of its upper bits below 1. -/
def Obligations.ExchangeResults : Prop :=
  ∀ (s : State) (g : Group) (p : Path), s.group? s.who.grp = some g → g.path s.who.slot = some p →
    ∀ (c : Lc) (t : Ty) (k : Vk) (d : Dst) (a sh f : Src) (q u : Fin 12), t.isN = true →
    let w := t.width
    let N := 32 * (64 / w)
    let at' (v : Src) (n : Nat) : Nat := subOf (g.src t c.imm (Fin.ofNat 32 (n / (64 / w))) v) w (n % (64 / w))
    let dist (n : Nat) : Nat := subOf (g.src t.unsigned c.imm (Fin.ofNat 32 (n / (64 / w))) sh) w (n % (64 / w))
    let on (i : Fin 32) : Bool := g.executes p.mask c i
    WritesSubs s g p (.slideUp c t d a sh f) c d w 0 (fun i j =>
      let n := i.val * (64 / w) + j
      (if dist n ≤ n then at' a (n - dist n) else at' f n, 0)) ∧
    WritesSubs s g p (.slideDn c t d a sh f) c d w 0 (fun i j =>
      let n := i.val * (64 / w) + j
      (if n + dist n < N then at' a (n + dist n) else at' f n, 0)) ∧
    (∃ v : Word, WritesLanes s g p (.ballot c d u) c d 0 (fun _ => v) (fun _ => 0) ∧
      ∀ i : Nat, v.getLsbD i = if h : i < 32 then on ⟨i, h⟩ && g.lanes[(⟨i, h⟩ : Fin 32)].getP u else false) ∧
    (∃ r : Bool, WritesPred s g p (.vote c k q u) c q (fun _ => r) (fun _ => 0) ∧
      (k = .all → (r = true ↔ ∀ i, on i = true → g.lanes[i].getP u = true)) ∧
      (k = .any → (r = true ↔ ∃ i, on i = true ∧ g.lanes[i].getP u = true)) ∧
      (k = .uni → (r = true ↔ ∀ i j, on i = true → on j = true → g.lanes[i].getP u = g.lanes[j].getP u))) ∧
    WritesPred s g p (.elect c q) c q (fun i => decide (∀ k < i, on k = false)) (fun _ => 0) ∧
    (g.retq.length < 16 → ∃ g', Completes s (.push c a) g' ∧
      g'.path s.who.slot = some { p with pc := p.pc + 12, wait := none, walk := none } ∧
      g'.lanes = g.lanes ∧ g'.x = g.x ∧ ∃ v, g'.retq = g.retq ++ [v] ∧
        (∀ e, on e = true → (∀ k < e, on k = false) → v = g.src .n64 c.imm e a) ∧ ((∀ e, on e = false) → v = 0)) ∧
    (t ∈ [Ty.n32, .n64, .f32, .f64] → ∃ v : Fin 32 → Word, WritesLanes s g p (.rnd c t d) c d 1 v (fun _ => 0) ∧
      (t = .n32 ∨ t = .n64 → ∀ i, v i = g.draw 0 i.val) ∧
      (t = .f64 → ∀ i, fneg fp64 (v i).toNat = false ∧
        funits fp64 (v i).toNat * 2 ^ 53 = (g.draw 0 i.val).toNat / 2 ^ 11 * fden fp64) ∧
      (t = .f32 → ∀ i, ∀ j < 2, let x := subOf (v i) 32 j
        fneg fp32 x = false ∧ funits fp32 x * 2 ^ 24 = subOf (g.draw 0 i.val) 32 j / 2 ^ 8 * fden fp32))

/-- R187 to R190: `red` combines the elements of the executing lanes in the tree of R188, `scan` in the passes of R189, with the
operation's identity where nothing contributes, and every flag raised goes to every executing lane; for integers `add` is a wrapped
sum. `maxi` and `mini` give the extreme and its lowest index; among floating-point elements a NaN loses, −0 lies below +0, all-NaN
contributions give the canonical NaN and their lowest index, and only a signalling NaN raises INV. -/
def Obligations.ReductionResults : Prop :=
  ∀ (s : State) (g : Group) (p : Path), s.group? s.who.grp = some g → g.path s.who.slot = some p →
    ∀ (c : Lc) (t : Ty) (ex : Bool) (d ix : Dst) (a : Src), (t.isInt || t.isF) = true → d ≠ ix →
    let w := t.width
    let N := 32 * (64 / w)
    let el (i : Fin 32) (j : Nat) : Nat := sub g c t a i j
    let on (i : Fin 32) : Bool := g.executes p.mask c i
    let lane (f : Nat) : Fin 32 := Fin.ofNat 32 (f / (64 / w))
    let v (f : Nat) : Option Nat := if on (lane f) then some (el (lane f) (f % (64 / w))) else none
    let sum : Nat := lane32.foldl (fun n i => if on i then (List.range (64 / w)).foldl (fun n j => n + el i j) n else n) 0
    let before (incl : Bool) (m : Nat) : Nat := lane32.foldl (fun n i => if on i then (List.range (64 / w)).foldl
      (fun n j => if i.val * (64 / w) + j < m ∨ (incl ∧ i.val * (64 / w) + j = m) then n + el i j else n) n else n) 0
    (t.isInt = true →
      WritesSubs s g p (.red c t .add d a) c d w 0 (fun _ _ => (sum % 2 ^ w, 0)) ∧
      WritesSubs s g p (.scan c t .add ex d a) c d w 0 (fun i j => (before (!ex) (i.val * (64 / w) + j) % 2 ^ w, 0))) ∧
    (∀ op, op.okFor t = true →
      let r := treeOf t op (Nat.log2 N) v
      let u := passesOf t op N (Nat.log2 N) 1 v
      let at' (f : Nat) : Option Nat := if ex then (if f = 0 then none else u.1 (f - 1)) else u.1 f
      WritesSubs s g p (.red c t op d a) c d w 0 (fun _ _ => ((r.1.getD (identityIs t op)) % 2 ^ w, r.2)) ∧
      WritesSubs s g p (.scan c t op ex d a) c d w 0 (fun i j =>
        ((at' (i.val * (64 / w) + j)).getD (identityIs t op) % 2 ^ w, u.2))) ∧
    ∀ i ∈ [Instr.maxi c t d ix a, .mini c t d ix a], ∃ (g' : Group) (best : Nat) (n : Nat), Completes s i g' ∧
      LaneStep g g' s.who.slot p 0 ∧
      (∀ k : Fin 32, on k = true → ∀ j < 64 / w,
        subOf (g'.lanes[k].getD d) w j = best % 2 ^ w ∧ subOf (g'.lanes[k].getD ix) w j = n % 2 ^ w) ∧
      (∀ k : Fin 32, on k = false → g'.lanes[k].getD d = g.lanes[k].getD d ∧ g'.lanes[k].getD ix = g.lanes[k].getD ix) ∧
      (∀ (k : Fin 32) e, e ≠ d → e ≠ ix → g'.lanes[k].getD e = g.lanes[k].getD e) ∧
      (∀ k : Fin 32, p.mask.getLsbD k.val = true → (g'.lanes[k].l0, g'.lanes[k].l1) = (g'.lanes[k].getD d, g.lanes[k].l0)) ∧
      (∀ k : Fin 32, g'.lanes[k].p = g.lanes[k].p ∧ g'.lanes[k].lst = g.lanes[k].lst |||
        if on k ∧ t.isF = true ∧ ∃ m, on m = true ∧ ∃ j < 64 / w, fsig (fmtOf t) (el m j) = true then 0x02 else 0) ∧
      (t.isInt = true → (∃ k, on k = true) → (on (lane n) = true ∧ n < N ∧ best = el (lane n) (n % (64 / w))) ∧
        ∀ k, on k = true → ∀ j < 64 / w,
          (if i = .maxi c t d ix a then readTy t (el k j) ≤ readTy t best else readTy t best ≤ readTy t (el k j)) ∧
          (k.val * (64 / w) + j < n → readTy t (el k j) ≠ readTy t best)) ∧
      (t.isF = true →
        let F := fmtOf t
        let below (x y : Nat) : Prop := fval F x < fval F y ∨ (fval F x = fval F y ∧ fneg F x = true ∧ fneg F y = false)
        ((∃ k, on k = true ∧ ∃ j < 64 / w, fnan F (el k j) = false) →
          on (lane n) = true ∧ n < N ∧ best = el (lane n) (n % (64 / w)) ∧ fnan F best = false ∧
          ∀ k, on k = true → ∀ j < 64 / w, fnan F (el k j) = false →
            (if i = .maxi c t d ix a then ¬ below best (el k j) else ¬ below (el k j) best) ∧
            (k.val * (64 / w) + j < n → el k j ≠ best)) ∧
        ((∃ k, on k = true) → (∀ k, on k = true → ∀ j < 64 / w, fnan F (el k j) = true) →
          best = F.canonical ∧ on (lane n) = true ∧ n % (64 / w) = 0 ∧ n < N ∧ ∀ k < lane n, on k = false))

/-! ## Lane memory -/

/-- R157, R221 to R224, R226, R227, R229: plain, scratchpad and versioned loads whose lanes' checks pass give each executing lane
the little-endian number at its address, extended as its type says; `pf` has no effect. R224, R226, R227: plain and scratchpad
stores whose lanes' checks pass write the low bytes of each executing lane's value at its address, in ascending lane order, and no
other byte. Accesses are performed at their step (log 2). -/
def Obligations.LaneLoadsAndStoresMoveTheirBytes : Prop :=
  (∀ (s : State) (g : Group) (p : Path) (x : Ctx), AtPath s g p x →
     ∀ (c : Lc) (h : Hint) (t : Ty) (d : Dst) (a v : Src) (as : List LaneAcc),
     let n := t.width / 8
     let value (b : Nat) : Word := if t.isSigned = true ∧ 2 ^ (t.width - 1) ≤ b then BitVec.ofInt 64 ((b : Int) - 2 ^ t.width) else BitVec.ofNat 64 b
     let loads (i : Instr) : Prop := s.laneReadable x n as = .ok () →
       ∃ s' g', exec i s = .next s' ∧ g'.closing = g.closing ∧
         LaneLoads s s' g g' s.who.slot p c d as (·.lane) (fun q => value (s.readNat q.tgt.place n)) fun _ => 0
     (s.laneTargets x .load false n (x.addresses p.mask c a) [] = .ok (as, []) → loads (.ldG c h t d a)) ∧
     (s.laneTargets x .load true n (x.addresses p.mask c a) [] = .ok (as, []) → loads (.ldSp c t d a)) ∧
     (s.stepTargets x n c v (x.addresses p.mask c a) = .ok as → loads (.ldV c h t d a v)) ∧
     ∃ g', Completes s (.pf c h a) g' ∧ LaneStep g g' s.who.slot p 0 ∧ g'.lanes = g.lanes) ∧
  ∀ (s : State) (g : Group) (p : Path) (x : Ctx), MemoryCanonical s → AtPath s g p x →
    ∀ (c : Lc) (h : Hint) (t : Ty) (a b : Src) (as : List LaneAcc),
    let n := t.width / 8
    let stores (i : Instr) : Prop := (∀ q ∈ as, s.mustCopy x.l.tenant q.tgt = false ∧ s.reachable x q.tgt = .ok ()) →
      ∃ s' g', exec i s = .next s' ∧ g'.closing = g.closing ∧ LaneStores s s' g g' s.who.slot p (as.map (·.tgt.place)) n ∧
        ∀ as₁ q as₂, as = as₁ ++ q :: as₂ → (∀ r ∈ as₂, r.tgt.place.meets n q.tgt.place n = false) →
          s'.readBytes q.tgt.place n = leBytes n (g.src t c.imm q.lane b).toNat
    (s.laneTargets x .store false n (x.addresses p.mask c a) [] = .ok (as, []) → stores (.stG c h t a b)) ∧
    (s.laneTargets x .store true n (x.addresses p.mask c a) [] = .ok (as, []) → stores (.stSp c t a b))

/-- R201, R228: in free mode a full/empty load goes on when the granules of all its lanes are full, and with `.clr` empties them; a
full/empty store goes on when they are empty and fills them; otherwise, and in a deterministic launch, the path waits. -/
def Obligations.FullEmptyAccessesFollowTheirGranules : Prop :=
  ∀ (s : State) (g : Group) (p : Path) (x : Ctx), MemoryCanonical s → AtPath s g p x →
    ∀ (c : Lc) (t : Ty) (clr : Bool) (d : Dst) (a b : Src) (as : List LaneAcc), as ≠ [] →
    let n := t.width / 8
    let value (b : Nat) : Word := if t.isSigned = true ∧ 2 ^ (t.width - 1) ≤ b then BitVec.ofInt 64 ((b : Int) - 2 ^ t.width) else BitVec.ofNat 64 b
    let bit (u : State) (q : LaneAcc) : Bool := u.isFull q.tgt.place.granule.1 q.tgt.place.granule.2
    let waits (i : Instr) : Prop := ∃ g' va tb, Completes s i g' ∧
      g'.path s.who.slot = some { p with wait := some (.fe va), walk := some tb } ∧ g'.lanes = g.lanes
    (s.laneTargets x .load true n (x.addresses p.mask c a) [] = .ok (as, []) → (clr = true → s.settled x = .ok ()) →
      (x.l.det = false → (∀ q ∈ as, bit s q = true) → s.laneReadable x n as = .ok () →
        ∃ s' g', exec (.ldFe c t clr d a) s = .next s' ∧ g'.closing = (clr || g.closing) ∧
          LaneLoads s s' g g' s.who.slot p c d as (·.lane) (fun q => value (s.readNat q.tgt.place n)) (fun _ => 0) ∧
          (∀ q ∈ as, bit s' q = !clr) ∧
          ∀ blk gr, (∀ q ∈ as, q.tgt.place.granule ≠ (blk, gr)) → s'.isFull blk gr = s.isFull blk gr) ∧
      ((x.l.det = true ∨ ∃ q ∈ as, bit s q = false) → waits (.ldFe c t clr d a))) ∧
    (s.laneTargets x .store true n (x.addresses p.mask c a) [] = .ok (as, []) → s.settled x = .ok () →
      (x.l.det = false → (∀ q ∈ as, bit s q = false) →
        ∃ s' g', exec (.stFe c t a b) s = .next s' ∧ g'.closing = true ∧
          LaneStores s s' g g' s.who.slot p (as.map (·.tgt.place)) n ∧ (∀ q ∈ as, bit s' q = true) ∧
          (∀ as₁ q as₂, as = as₁ ++ q :: as₂ → (∀ r ∈ as₂, r.tgt.place.meets n q.tgt.place n = false) →
            s'.readBytes q.tgt.place n = leBytes n (g.src t c.imm q.lane b).toNat) ∧
          ∀ blk gr, (∀ q ∈ as, q.tgt.place.granule ≠ (blk, gr)) → s'.isFull blk gr = s.isFull blk gr) ∧
      ((x.l.det = true ∨ ∃ q ∈ as, bit s q = true) → waits (.stFe c t a b)))

/-- R224, R230 to R235: a tensor load gives each executing lane the element at its coordinates, converted as its format and type
say, or +0 where it is padded. A team's block load gives each executing lane its part of the block, in the part's register form, and
the block's scale. A block store writes, in ascending lane order, each executing lane's part and with its team's lowest executing
lane the scale byte, a later byte prevailing, and nothing else. Which bytes a tensor load checks is the model's reading (log 23),
and that the scale byte comes behind its lane's own part is the model's choice (log 59). -/
def Obligations.TensorAndBlockAccessesMoveTheirParts : Prop :=
  (∀ (s : State) (g : Group) (p : Path) (x : Ctx), AtPath s g p x →
     ∀ (c : Lc) (h : Hint) (t : Ty) (d : Dst) (tid : Uni) (vc : BitVec 8) (desc : Desc) (rs : List (Fin 32 × Option ElemRead)),
     x.tidOf c.imm tid = .ok desc → tensorTypeOk desc.fmt t = true →
     s.tensorReads x desc (desc.step x.g.laneStep) vc (g.executing p.mask c) = .ok rs →
     (∀ r ∈ rs, ∀ e, r.2 = some e → s.readyPieces x r.1.val e.all = .ok ()) →
     ∃ s' g', exec (.ldT c h t d tid vc) s = .next s' ∧ g'.closing = g.closing ∧
       LaneLoads s s' g g' s.who.slot p c d rs (·.1) (fun r => (s.tensorResult desc.fmt t r.2).val)
         fun r => (s.tensorResult desc.fmt t r.2).flags) ∧
  ∀ (s : State) (g : Group) (p : Path) (x : Ctx), MemoryCanonical s → AtPath s g p x →
    ∀ (c : Lc) (h : Hint) (k : Mxk) (d e : Dst) (a b sc : Src) (ts : List Team), d ≠ e →
    let ex := g.executing p.mask c
    let six : Bool := k == .e3m2 || k == .e2m3
    let sum (n : Nat) (f : Nat → Nat) : Nat := (List.range n).foldl (fun m i => m + f i) 0
    (s.teams x .load k a ex (teamFirsts k) [] = .ok (ts, []) →
      (∀ t ∈ ts, s.teamReady x t = .ok () ∧ ∀ i ∈ t.lanes k ex, s.partReadable k t i = .ok ()) →
      ∃ s' g', exec (.ldMx c h k d a e) s = .next s' ∧ s'.group? s.who.grp = some g' ∧ OthersSee s s' s.who.grp ∧ BytesKept s s' ∧
        g'.path s.who.slot = some { p with pc := p.pc + 12, wait := none, walk := none } ∧ g'.x = g.x ∧
        (∀ i ∈ ex, ∃ t ∈ ts, t.first ≤ i.val ∧ i.val < t.first + teamSize k ∧
          (let bytes := leNat ((t.part k i.val).flatMap fun q => s.readBytes q 1)
           g'.lanes[i].getD d = BitVec.ofNat 64 (if six then sum 8 fun m => bytes / 2 ^ (6 * m) % 64 * 2 ^ (8 * m) else bytes)) ∧
          g'.lanes[i].getD e = BitVec.ofNat 64 (leNat (s.pieceBytes t.scale))) ∧
        (∀ (i : Fin 32) r, r ≠ d → r ≠ e → g'.lanes[i].getD r = g.lanes[i].getD r) ∧
        ∀ i : Fin 32, i ∉ ex → g'.lanes[i].getD d = g.lanes[i].getD d ∧ g'.lanes[i].getD e = g.lanes[i].getD e) ∧
    (s.teams x .store k a ex (teamFirsts k) [] = .ok (ts, []) → (ts ≠ [] → s.settled x = .ok ()) →
      (∀ t ∈ ts, s.teamReady x t = .ok () ∧ ∀ q ∈ t.block ++ t.scale, s.mustCopy x.l.tenant q.tgt = false) →
      let value (i : Fin 32) : Nat := (g.src .mx 0 i b).toNat
      let part (t : Team) (i : Fin 32) : List (Place × Byte) := List.zip (t.part k i.val)
        (if six then leBytes 6 (sum 8 fun m => value i / 2 ^ (8 * m) % 64 * 2 ^ (6 * m)) else leBytes 8 (value i))
      let scale (t : Team) (i : Fin 32) : List (Place × Byte) :=
        t.scale.map fun q => (q.place, BitVec.ofNat 8 (g.src .n8 0 i sc).toNat)
      let writes (t : Team) : List (Place × Byte) := match t.lanes k ex with
        | i :: rest => part t i ++ scale t i ++ rest.flatMap (part t)
        | [] => []
      ∃ s' g', exec (.stMx c h k a b sc) s = .next s' ∧ s'.group? s.who.grp = some g' ∧ OthersSee s s' s.who.grp ∧
        g'.path s.who.slot = some { p with pc := p.pc + 12, wait := none, walk := none } ∧ g'.lanes = g.lanes ∧ g'.x = g.x ∧
        ∀ q : Place, s'.readBytes q 1 = match (ts.flatMap writes).reverse.find? fun e => e.1 == q with
          | some e => [e.2]
          | none => s.readBytes q 1)

/-- R236 to R239, R155: a lane atomic returns to each executing lane the old value at its address and leaves the new one, where no
other lane's bytes meet it; `red.at` updates the same without a result; a region ends when a lane executes. The new value of an
integer atomic is as R236 says; minima and maxima compare as the type says, of two NaNs giving what the model chooses (log 57).
Accesses are performed at their step (log 2). -/
def Obligations.LaneAtomicsUpdateTheirBytes : Prop :=
  (∀ (s : State) (g : Group) (p : Path) (x : Ctx), MemoryCanonical s → AtPath s g p x →
     ∀ (c : Lc) (h : Hint) (t : Ty) (op : Aop) (sc : Scope) (d : Dst) (a b e : Src) (as : List LaneAcc),
     let n := t.width / 8
     let cmp := if op = .cas then some e else none
     op.okFor t = true →
     (as ≠ [] → sc = .dm → s.dmaskOk x.l.tenant g.laneDmask = true) →
     s.laneTargets x .atomic false n (x.addresses p.mask c a) [] = .ok (as, []) → s.laneReadable x n as = .ok () →
     (∀ q ∈ as, s.mustCopy x.l.tenant q.tgt = false) →
     let alone (q : LaneAcc) : Prop := ∀ r ∈ as, r.lane ≠ q.lane → r.tgt.place.meets n q.tgt.place n = false
     let new (q : LaneAcc) : Nat := aopLane op t (s.readNat q.tgt.place n) (sub g c t b q.lane 0) (sub g c t e q.lane 0)
     let updates (i : Instr) (old : Bool) : Prop := ∃ s' g', exec i s = .next s' ∧ s'.group? s.who.grp = some g' ∧
       OthersSee s s' s.who.grp ∧ g'.path s.who.slot = some { p with pc := p.pc + 12, wait := none, walk := none } ∧ g'.x = g.x ∧
       g'.closing = (g.closing || !as.isEmpty) ∧
       (∀ q : Place, (∀ r ∈ as, q.meets 1 r.tgt.place n = false) → s'.readBytes q 1 = s.readBytes q 1) ∧
       (∀ q ∈ as, alone q → s'.readNat q.tgt.place n = new q % 2 ^ t.width) ∧
       (old = true → ∀ q ∈ as, alone q → g'.lanes[q.lane].getD d = placeValue t (s.readNat q.tgt.place n)) ∧
       ∀ (i : Fin 32) r, (r ≠ d ∨ old = false ∨ g.executes p.mask c i = false) → g'.lanes[i].getD r = g.lanes[i].getD r
     updates (.atom c h t op sc d a b cmp) true ∧ (op ≠ .cas → updates (.redAt c h t op sc a b) false)) ∧
  ∀ (t : Ty) (old v e : Nat), t ∈ [Ty.n32, .n64, .s32, .s64] → old < 2 ^ t.width → v < 2 ^ t.width → e < 2 ^ t.width →
    let int (x : Nat) : Int := if t.isSigned = true ∧ 2 ^ (t.width - 1) ≤ x then x - 2 ^ t.width else x
    aopLane .add t old v e = (old + v) % 2 ^ t.width ∧ aopLane .swp t old v e = v ∧
    aopLane .cas t old v e = (if old = e then v else old) ∧
    int (aopLane .min t old v e) = min (int old) (int v) ∧ int (aopLane .max t old v e) = max (int old) (int v) ∧
    aopLane .and t old v e = old &&& v ∧ aopLane .or t old v e = old ||| v ∧ aopLane .xor t old v e = old ^^^ v

/-! ## Lane control, traversal, barriers -/

/-- R120: `bra` sets the issuing path's PC to PC + 12·TGT, inside the kernel's lane range; the mask, the frame and Depth stay. What
a target outside the range does is stated with `bra.div`. -/
def Obligations.BraSetsThePathsPc : Prop :=
  ∀ (s : State) (g : Group) (p : Path) (x : Ctx), AtPath s g p x →
    ∀ tgt : BitVec 20,
    let a : Int := p.pc.toNat + 12 * tgt.toInt
    x.k.lbase.toNat ≤ a ∧ a < (x.k.lbase.toNat + x.k.lsize.toNat : Nat) →
      ∃ g', Completes s (.bra tgt) g' ∧
        g'.path s.who.slot = some { p with pc := BitVec.ofInt 32 a, wait := none, walk := none } ∧
        g'.path (!s.who.slot) = g.path (!s.who.slot) ∧ g'.frame = g.frame ∧ g'.lanes = g.lanes ∧
        g' = { g with path0 := g'.path0, path1 := g'.path1, blocked := 0 }

/-- R121, R122, R124: `bra.div` goes on or branches when its lanes agree, and otherwise splits them: slot 0 takes the lanes that
fall through, slot 1 the taken ones; from Depth 1 it first spills the innermost frame with the sibling path, and at Depth 65 it
raises `TRAP_DIVERGENCE`. `join` away from its frame's join goes on; the first path at it parks; the second takes the frame away and
goes on behind the join with all its lanes, at Depth 2 or more beside the sibling that the stack holds, in the slot it had, and
parks when the enclosing frame joins here too; a poisoned entry is a machine check. A sibling that waits is spilled without its
wait, and issues again when it is brought back, which is the model's choice (log 60). A target or a join offset outside the lane
range raises `TRAP_PROTECTION` (R90, R119) for `bra` and `bra.div`, a JOIN of 0 or less `TRAP_OPERAND` before that (log 48), each
with `TADDR` 0, as R342 has it where no address is given (log 18). -/
def Obligations.DivergenceSplitsAndJoins : Prop :=
  ∀ (s : State) (g : Group) (p : Path) (x : Ctx), AtPath s g p x →
    (∀ (q : Fin 12) (tgt : BitVec 20) (j : BitVec 13) (T : BitVec 32),
      (∀ i : Fin 32, T.getLsbD i.val = (p.mask.getLsbD i.val && g.lanes[i].getP q)) → 0 < j.toInt →
      x.k.inRange (laneTarget p.pc tgt.toInt) = true → x.k.inRange (laneTarget p.pc j.toInt) = true →
      let to' (n : Int) : Word32 := BitVec.ofInt 32 (p.pc.toNat + 12 * n)
      let split : Group := { g with
        frame := ⟨to' j.toInt, p.mask, g.frame.depth + 1⟩, path0 := some ⟨p.pc + 12, p.mask &&& ~~~T, false, none, none⟩
        path1 := some ⟨to' tgt.toInt, T, false, none, none⟩, issue1 := false, blocked := 0 }
      (T = 0 → ∃ g', Completes s (.braDiv q tgt j) g' ∧ LaneStep g g' s.who.slot p 0 ∧ g'.lanes = g.lanes) ∧
      (T ≠ 0 → p.mask &&& ~~~T = 0 → ∃ g', Completes s (.braDiv q tgt j) g' ∧
        g'.path s.who.slot = some { p with pc := to' tgt.toInt, wait := none, walk := none } ∧ g'.frame = g.frame ∧
        g'.lanes = g.lanes) ∧
      (T ≠ 0 → p.mask &&& ~~~T ≠ 0 → g.frame.depth = 0 → Completes s (.braDiv q tgt j) split) ∧
      (T ≠ 0 → p.mask &&& ~~~T ≠ 0 → 1 ≤ g.frame.depth → g.frame.depth < 65 → MemoryCanonical s →
        ∀ o, g.path (!s.who.slot) = some o → o.inAccess = false →
        let e : Place := .sp x.b.id (1024 * (x.l.scratch + g.ref.gid) + 16 * (g.frame.depth - 1))
        ∃ t, exec (.braDiv q tgt j) s = .next t ∧ t.group? s.who.grp = some split ∧ BytesKeptOutside s t e 16 ∧
          t.readBytes e 16 = leBytes 4 g.frame.join.toNat ++ leBytes 4 g.frame.fmask.toNat ++
            leBytes 4 (o.pc.toNat / 4 * 4 + (if s.who.slot then 0 else 2) + if o.parked then 1 else 0) ++ leBytes 4 o.mask.toNat) ∧
      (T ≠ 0 → p.mask &&& ~~~T ≠ 0 → g.frame.depth = 65 →
        exec (.braDiv q tgt j) s = s.stopped g (some s.who.slot) (.trap .divergence 0 0))) ∧
    (∀ tgt : BitVec 20, x.k.inRange (laneTarget p.pc tgt.toInt) = false →
      exec (.bra tgt) s = s.stopped g (some s.who.slot) (.trap .protection 0 0)) ∧
    (∀ (q : Fin 12) (tgt : BitVec 20) (j : BitVec 13),
      (j.toInt ≤ 0 → exec (.braDiv q tgt j) s = s.stopped g (some s.who.slot) (.trap .operand 0 0)) ∧
      (0 < j.toInt → (x.k.inRange (laneTarget p.pc tgt.toInt) && x.k.inRange (laneTarget p.pc j.toInt)) = false →
        exec (.braDiv q tgt j) s = s.stopped g (some s.who.slot) (.trap .protection 0 0))) ∧
    ((g.frame.depth = 0 ∨ g.frame.join ≠ p.pc) →
      ∃ g', Completes s .join g' ∧ LaneStep g g' s.who.slot p 0 ∧ g'.lanes = g.lanes ∧ g'.frame = g.frame) ∧
    (g.frame.depth ≠ 0 → g.frame.join = p.pc → (∀ o, g.path (!s.who.slot) = some o → o.parked = false) →
      ∃ g', Completes s .join g' ∧ g'.path s.who.slot = some { p with parked := true, wait := none } ∧
        g'.path (!s.who.slot) = g.path (!s.who.slot) ∧ g'.frame = g.frame ∧ g'.lanes = g.lanes) ∧
    (∀ o, g.frame.depth = 1 → g.frame.join = p.pc → g.path (!s.who.slot) = some o → o.parked = true →
      ∃ g', Completes s .join g' ∧ g'.path0 = some ⟨p.pc + 12, g.frame.fmask, false, none, none⟩ ∧ g'.path1 = none ∧
        g'.frame.depth = 0 ∧ g'.lanes = g.lanes) ∧
    ∀ o, 2 ≤ g.frame.depth → g.frame.join = p.pc → g.path (!s.who.slot) = some o → o.parked = true →
      let e : Place := .sp x.b.id (1024 * (x.l.scratch + g.ref.gid) + 16 * (g.frame.depth - 2))
      let word (k : Nat) : Nat := leNat (((s.readBytes e 16).drop (4 * k)).take 4)
      let join : Word32 := BitVec.ofNat 32 (word 0)
      let side := (word 2).testBit 1
      let sib : Path := ⟨BitVec.ofNat 32 (word 2 / 4 * 4), BitVec.ofNat 32 (word 3), (word 2).testBit 0, none, none⟩
      let merged (pc : Word32) (parked : Bool) : Path := ⟨pc, g.frame.fmask, parked, none, none⟩
      let reunites (pc : Word32) (parked : Bool) : Prop := ∃ g', Completes s .join g' ∧ g'.path side = some sib ∧
        g'.path (!side) = some (merged pc parked) ∧ g'.frame = ⟨join, BitVec.ofNat 32 (word 1), g.frame.depth - 1⟩ ∧
        g'.lanes = g.lanes
      ((s.poisoned e 16).isSome = true → exec .join s = s.stopped g (some s.who.slot) (.trap .mcheck 0 1)) ∧
      (s.poisoned e 16 = none → (∀ u ∈ g.units, u.mask ≠ sib.mask) → join ≠ p.pc → reunites (p.pc + 12) false) ∧
      (s.poisoned e 16 = none → (∀ u ∈ g.units, u.mask ≠ sib.mask) → join = p.pc → sib.parked = false → reunites p.pc true)

/-- R123: `lend` with Depth 0 ends the segment, and the lane side starts the next queued segment or becomes idle; with Depth of 1 or
more it raises `TRAP_DIVERGENCE`, with `TADDR` 0, as R342 has it where no address is given (log 18). -/
def Obligations.LendEndsTheSegment : Prop :=
  ∀ (s : State) (g : Group) (p : Path) (x : Ctx), AtPath s g p x →
    (g.frame.depth = 0 → ∃ g', Completes s .lend g' ∧ g'.segs = g.segs.drop 1 ∧ g'.segDone = g.segDone + 1 ∧ g'.path1 = none ∧
      g'.lanes = g.lanes ∧ g'.x = g.x ∧ g'.retq = g.retq ∧
      g'.path0 = match g.segs.drop 1 with
        | sg :: _ => some ⟨sg.start, allLanes, false, none, none⟩
        | [] => none) ∧
    (1 ≤ g.frame.depth → exec .lend s = s.stopped g (some s.who.slot) (.trap .divergence 0 0))

/-- R25, R45, R116, R262: a traversal request whose operands pass its checks captures its descriptors, its lanes' registers, K and
B, its path's mask and its `TPC`; its path stands behind it and waits for its result, B advances by one slot for `trace.v`, and
nothing else changes before the result. -/
def Obligations.TraversalRequestsWaitForTheirResult : Prop :=
  ∀ (s : State) (g : Group) (p : Path) (x : Ctx), AtPath s g p x → s.settled x = .ok () →
    ∀ (c : Lc) (t : Ty) (d : Dst) (v r : BitVec 8) (tid tidD : Uni) (q : Captured),
    let issued (i : Instr) (work : UnitWork) (slots : Nat) : Prop := ∃ u g', exec i s = .next u ∧
      { u with groups := s.groups, nextId := s.nextId } = s ∧ u.group? s.who.grp = some g' ∧
      (∀ k, k ≠ s.who.grp → u.group? k = s.group? k) ∧
      g'.path s.who.slot = some { p with pc := p.pc + 12, wait := some (.unit s.nextId), walk := none } ∧
      g'.path (!s.who.slot) = g.path (!s.who.slot) ∧
      g'.units = g.units ++ [⟨s.nextId, p.mask, g.laneTpc p.pc, work, q.descs, g.genK, g.genB, q.ops⟩] ∧
      g' = { g with path0 := g'.path0, path1 := g'.path1, units := g'.units, blocked := 0
                    genB := g.genB + BitVec.ofNat 64 (32 * slots) }
    (x.traceTReq p c r tid = .ok q → issued (.traceT c v r tid) (.triangles v) 0) ∧
    (x.traceVReq p c r tid tidD = .ok q → issued (.traceV c v r tid tidD) (.medium v) 1) ∧
    (x.texReq p c tid r = .ok q → issued (.tex c t d tid r) (.texture t d) 0)

/-- R293, R294: `bar.arr` posts one arrival of its lowest executing lane, and none without one; `bar.wait` goes on when the phase
has passed or the object is abandoned, and writes abandonment into its predicate in every lane of its path. Which checks they make
on the object (log 24), the order of posted operations (log 26) and the format of `bar.wait`'s operand (log 41) are the model's
readings. -/
def Obligations.LaneBarriersArriveAndWait : Prop :=
  ∀ (s : State) (g : Group) (p : Path) (x : Ctx), AtPath s g p x →
    ∀ (c : Lc) (a b : Src) (imm : BitVec 13) (q : Fin 12) (e : Fin 32) (tg : Target),
    ((∀ i, g.executes p.mask c i = false) →
      ∃ g', Completes s (.barArr c a b) g' ∧ LaneStep g g' s.who.slot p 0 ∧ g'.lanes = g.lanes) ∧
    (g.executes p.mask c e = true → (∀ i < e, g.executes p.mask c i = false) →
      let va := g.src .n64 c.imm e a &&& ~~~1#64
      s.objectTarget x .store va = .ok tg → s.mustCopy x.l.tenant tg = false → s.reachable x tg = .ok () →
      ∃ t g', exec (.barArr c a b) s = .next t ∧ t.group? s.who.grp = some g' ∧ BytesKept s t ∧ g'.closing = true ∧
        g'.path s.who.slot = some { p with pc := p.pc + 12, wait := none, walk := none } ∧ g'.lanes = g.lanes ∧
        t.arrivals = s.arrivals ++ [⟨s.nextId, g.ref, g.laneTpc p.pc, tg.place, va, tg.attr,
          .arrive ((g.src .n16 c.imm e b).toNat % 65536), true, g.segDone, false⟩]) ∧
    (p.mask.getLsbD e.val = true → (∀ i < e, p.mask.getLsbD i.val = false) → x.l.det = false →
      let va := g.src .n64 imm e a
      s.objectTarget x .load (va &&& ~~~1#64) = .ok tg → s.readable x tg 16 = .ok () → s.updatesDone x tg.place 16 = .ok () →
      let ph := s.phaserAt tg.place
      let abn := decide (ph.flags % 2 = 1) || x.b.abandoned
      (ph.phase % 2 ≠ va.toNat % 2 ∨ abn = true →
        ∃ t g', exec (.barWait imm q a) s = .next t ∧ t.group? s.who.grp = some g' ∧ OnlyReads s t s.who.grp ∧
          g'.path s.who.slot = some { p with pc := p.pc + 12, wait := none, walk := none } ∧ g'.x = g.x ∧
          ∀ i : Fin 32, p.mask.getLsbD i.val = true → g'.lanes[i].getP q = abn ∧
            g'.lanes[i].lst = if abn then g.lanes[i].lst ||| 0x80 else g.lanes[i].lst) ∧
      (ph.phase % 2 = va.toNat % 2 → abn = false →
        ∃ g', Completes s (.barWait imm q a) g' ∧ g'.lanes = g.lanes ∧
          g'.path s.who.slot = some { p with wait := some (.barWait tg.place (va &&& ~~~1#64) tg.attr (va.getLsbD 0) q) }))

/-! ## Ends of waits and choices of deterministic launches -/

/-- R113, R228, R248, R252, R257, R292, R294, R297: each wait ends when its condition is met: the stream goes on at the next
instruction, with what the wait brings, or issues its instruction again. A waiter of an abandoned block goes on whatever has become
of its object (R302). That an engine's destination lines hold a waiter of the memory back (log 22), and that the posted operations
of the group on a barrier object, and its posted tests, come before its `kwait` goes on, and its posted reads before its `mwait`
does (log 42), is the model's reading. -/
def Obligations.ReleasesEndTheirWaits : Prop :=
  ∀ (s : State) (r : GroupRef) (g : Group) (c : Ctx), s.group? r = some g → s.ctxOf g = some c → c.runs = true → c.l.det = false →
    let free : Prop := g.detected = [] ∧ g.deferredDue = false ∧ (g.preemptAt = none ∨ g.closing = true)
    let reissues (i : Instr) : Prop := Becomes s i r { g with swait := none }
    let goesOn (i : Instr) : Prop := ∃ t g', exec i s = .next t ∧ t.group? r = some g' ∧ OnlyReads s t r ∧ g'.pc = g.pc + 4 ∧
      g'.swait = none ∧ g'.x = g.x
    (∀ (slot : Bool) (p : Path) (va : Word) (e : Lc) (ty : Ty) (clr : Bool) (d : Dst) (a b : Src) (as : List LaneAcc),
      free → g.path slot = some p → p.wait = some (.fe va) → p.parked = false →
      let n := ty.width / 8
      let x := c.onPath p
      let bit (q : LaneAcc) : Bool := s.isFull q.tgt.place.granule.1 q.tgt.place.granule.2
      let performs (i : Instr) : Prop := ∃ t q, exec (.feWaitSatisfied r slot) s = .next t ∧
        exec i { s with who := ⟨r, slot⟩ } = .next t ∧ (t.group? r).bind (·.path slot) = some q ∧ q.wait = none ∧ q.pc = p.pc + 12
      (s.issueLane c p = .ok (.ldFe e ty clr d a) → s.laneTargets x .load true n (x.addresses p.mask e a) [] = .ok (as, []) →
        (clr = true → s.settled x = .ok ()) → (∀ q ∈ as, bit q = true) → s.laneReadable x n as = .ok () → performs (.ldFe e ty clr d a)) ∧
      (s.issueLane c p = .ok (.stFe e ty a b) → s.laneTargets x .store true n (x.addresses p.mask e a) [] = .ok (as, []) →
        s.settled x = .ok () → (∀ q ∈ as, bit q = false) → performs (.stFe e ty a b))) ∧
    (∀ (obj : Place) (va : Word) (attr : Nat) (bit : Bool), free →
      let ph := s.phaserAt obj
      let abn := decide (ph.flags % 2 = 1) || c.b.abandoned
      let readable : Prop := s.poisoned obj 16 = none ∧ s.lineHeld (some r) obj 16 = false ∧
        ∀ k, obj = .phys k → s.onWay ⟨k, k / 65536 * 65536, attr, true, false⟩ va = .ok ()
      (c.b.abandoned = true ∨ readable ∧ (ph.phase % 2 ≠ (if bit then 1 else 0) ∨ ph.flags % 2 = 1)) →
      (g.swait = some (.phaser obj va attr bit) → ∃ t g', exec (.phaserRelease r none) s = .next t ∧ t.group? r = some g' ∧
        OnlyReads s t r ∧ g'.pc = g.pc + 4 ∧ g'.swait = none ∧ g'.x = g.x ∧
        ∀ j : Fin 32, g'.lanes[j] = { g.lanes[j] with lst := if abn then g.lanes[j].lst ||| 0x80 else g.lanes[j].lst }) ∧
      (∀ (slot : Bool) (p : Path) (d : Fin 12), g.path slot = some p → p.wait = some (.barWait obj va attr bit d) → p.parked = false →
        ∃ t g', exec (.phaserRelease r (some slot)) s = .next t ∧ t.group? r = some g' ∧ OnlyReads s t r ∧
          g'.path slot = some { p with pc := p.pc + 12, wait := none, walk := none } ∧ g'.x = g.x ∧
          ∀ i : Fin 32, p.mask.getLsbD i.val = true → g'.lanes[i].getP d = abn ∧
            g'.lanes[i].lst = if abn then g.lanes[i].lst ||| 0x80 else g.lanes[i].lst)) ∧
    (∀ off, free → g.swait = some (.kwait off) → (∀ a ∈ s.outstanding g false, a.op.acquires = false ∧ a.obj.meets a.size (.sp r.blk off) 16 = false) →
      s.poisoned (.sp r.blk off) 16 = none → (barrierAt s r.blk off).count = 0 →
      (barrierAt s r.blk off).flags % 2 = 0 → goesOn (.kwaitRelease r)) ∧
    (∀ (a : Word) (dl : Option Nat) (cause : WakeCause), free → g.swait = some (.monitor a dl) →
      (cause = .monitoredWrite → ∃ m, g.monitor = some m ∧ m.written ≠ 0) → (cause = .timeout → ∃ d, dl = some d ∧ d < s.aoc.toNat) →
      Becomes s (.monitorWake r cause) r { g with monitor := none, pc := g.pc + 4, swait := none, swalk := none, blocked := 0 }) ∧
    (g.segs = [] → g.swait = some .drain ∨ g.swait = some .lanesIdle ∨ (∃ w, g.swait = some (.sweepDrain w)) → reissues (.drain r)) ∧
    (g.swait = some .segRoom ∧ g.segs.length < 8 ∨ g.swait = some .retEntry ∧ (g.retq ≠ [] ∨ g.segs = []) →
      reissues (.queueRoom r none)) ∧
    (∀ (slot : Bool) (p : Path), g.path slot = some p → p.wait = some .retRoom → g.retq.length < 16 →
      ∃ g', Becomes s (.queueRoom r (some slot)) r g' ∧ g'.path slot = some { p with wait := none } ∧
        g' = { g with path0 := g'.path0, path1 := g'.path1 } ∧ g'.path (!slot) = g.path (!slot)) ∧
    (free → g.park = none → g.swait = some .mwait → g.mcmds = [] → (∀ a ∈ s.arrivals, a.grp = r → a.op.dst = none) →
      ∃ g', Becomes s (.mwaitComplete r) r g' ∧ g'.pc = g.pc + 4 ∧ g'.swait = none ∧
      g'.x = g.x ∧ g'.acu = false ∧ g'.sat = false ∧ ∀ j : Fin 32, g'.lanes[j] = { g.lanes[j] with
        lst := g.lanes[j].lst ||| (if g.acu then 0x40 else 0) ||| (if g.sat then 0x01 else 0) }) ∧
    (g.swait = some .planePair → s.pairsOn g.core < 8 → reissues (.planePairFree r))

/-- R127 to R130, R248, R295, R303, R346, R390: where the position of a set is open, and its kicks and the posted operations whose
turn has come, but for those that poison holds, have been performed, the first group in the order of R128 whose condition is
satisfied becomes current and sees its scratchpad as of now, with its own operations that are still posted done; a yielded group
goes on. The issuing path changes only when it has parked or stopped at a full/empty access or a barrier wait, and slot 0 is taken
before slot 1. A test that must still wait for commands holds the choice. A group with a deferred trap that is due becomes current
with its wait as it is, for the trap. Which earlier commands a test awaits, the due trap as a satisfied condition, and the group's
own posted operations in its view, are the model's reading (log 31). -/
def Obligations.DeterministicChoicesTakeTheFirst : Prop :=
  (∀ (s : State) (b : Block) (l : Launch) (after : Option Nat) (pre post : List Group) (g : Group) (c : Ctx),
    s.block? b.id = some b → s.launch? b.launch = some l → l.det = true → b.co = .opened after →
    (∀ k ∈ s.kicks, k.grp.blk ≠ b.id) →
    (∀ a ∈ s.arrivals, a.grp.blk = b.id → s.arrivalDue a = false) →
    s.setOrder b.id after = pre ++ g :: post →
    (∀ h ∈ pre, h.status ≠ .resident ∨ ∃ d, s.ctxOf h = some d ∧ s.testGroup d = .unmet) →
    g.status = .resident → s.ctxOf g = some c →
    (s.testGroup c = .early → exec (.coroutineSwitch b.id) s = .next s) ∧
    (s.testGroup c = .met → ∃ t b' g', exec (.coroutineSwitch b.id) s = .next t ∧ t.block? b.id = some b' ∧ b' = { b with co := .current g.ref.gid } ∧
      t.group? g.ref = some g' ∧ g'.x = g.x ∧ BytesKept s t ∧
      g'.snap = some ((s.arrivals.filter fun a => a.grp == g.ref).foldl (fun m a => match a.obj with
        | .sp k o => if k = g.ref.blk then m.writeBytes o (a.op.apply (m.readBytes o a.size)) else m
        | .phys _ => m) b.scratch) ∧
      (g.deferredDue = true → g'.pc = g.pc ∧ g'.swait = g.swait) ∧ (g.swait = none → g'.pc = g.pc) ∧
      (g.deferredDue = false → g.swait = some .turn → g'.pc = g.pc + 4 ∧ g'.swait = none))) ∧
  ∀ (s : State) (r : GroupRef) (g : Group) (c : Ctx), s.group? r = some g → s.ctxOf g = some c → c.runs = true → c.l.det = true →
    let stops (p : Path) : Prop := p.parked = true ∨ (∃ a, p.wait = some (.fe a)) ∨ ∃ o a m b d, p.wait = some (.barWait o a m b d)
    (∀ p, g.path g.issue1 = some p → ¬ stops p → Becomes s (.pathSelect r) r g) ∧
    ((∀ p, g.path g.issue1 = some p → stops p) →
      (s.testPath c false = .early → Becomes s (.pathSelect r) r g) ∧
      (s.testPath c false = .met → Becomes s (.pathSelect r) r { g with issue1 := false }) ∧
      (s.testPath c false = .unmet → s.testPath c true = .met → Becomes s (.pathSelect r) r { g with issue1 := true }))

/-! ## Interruption -/

/-- R300, R343 to R348, R351, R352, R355 to R357, R155: a held trap is delivered, a machine check, an expired timer or a response
above 1 kills (the fault queue disabled: its record is dropped), a response of 1 lets a parked group go on, and a detected conflict
restores the checkpoint; a kill whose record finds the ring and its buffer full waits, and keeps the time of its cause, the kill
that a response asks for too. Poison parks and a kill whose record a ring with room takes are not stated here; when a timer expires
is the model's `timedOut`. A difference of the two instances of mirror issue is an operand of the event (log 10). A response is
written at once also behind a copy of its page that is under way (log 40), but not while an engine owns its line (log 22); a kill
waits while an object that it must abandon lies behind a link or a peer in recovery, or in a line that an engine owns (log 46), and
a delivered trap discards the posted reads (log 42): these are the model's readings. That a response is not written, and so has no
effect, while LINK_EN disables the CXL link is the model's choice (log 43, DESIGN CHOICE). -/
def Obligations.InterruptionsTakeEffect : Prop :=
  ∀ (s : State) (r : GroupRef) (g : Group) (c : Ctx), MemoryCanonical s → s.group? r = some g → s.ctxOf g = some c →
    g.status = .resident →
    let noQueue : Prop := (s.tenant c.l.tenant).fq.en = false ∧ s.killHeld g = false
    let kills (i : Instr) (code : TrapCode) : Prop := ∃ t, exec i s = .next t ∧ Killed s t r c.l code
    (∀ info rest, g.held = info :: rest → c.runs = true → g.closing = false → g.tx = none → g.trapMode = false →
      info.code ∈ [TrapCode.page, .version, .copy, .user] → c.k.trapseg ≠ 0xFFFFFFFF →
      ∃ t g', exec (.deferredTrapTaken r) s = .next t ∧ t.group? r = some g' ∧ OnlyGroup (withoutReads s r) t r ∧
        Delivered g g' c.k info.code info.tpc info.taddr info.detail ∧ g'.held = rest) ∧
    (∀ info rest, g.detected = info :: rest → info.code = .mirror ∨ info.code = .mcheck → (noQueue → kills (.takeTrap r none) info.code) ∧
      (s.killHeld g = true → exec (.takeTrap r none) s = .next s)) ∧
    (noQueue → kills (.takeTrap r (some .registerFile)) .mcheck) ∧
    (∀ stream, noQueue → c.l.chk = true → s.mayIssueOn c stream = true →
      kills (.takeTrap r (some (.mirrorMismatch stream))) .mirror) ∧
    (∀ (p : Park) (key : Nat) (resp : Word32), g.park = some p → p.slot = some key → p.kill = false →
      (s.cxlOn = false ∨ s.lineHeld none (.phys (key + 0x38)) 4 = true → Becomes s (.parkResponse r resp) r g) ∧
      (s.cxlOn = true → s.lineHeld none (.phys (key + 0x38)) 4 = false →
      (resp.toNat % 4 < 2 → ∃ t g', exec (.parkResponse r resp) s = .next t ∧ t.group? r = some g' ∧
        ((∀ w ∈ s.cows, key + 0x3C ≤ w.page ∨ w.page + 65536 ≤ key + 0x38) → OthersSee s t r) ∧
        t.readBytes (.phys (key + 0x38)) 4 = leBytes 4 resp.toNat ∧
        BytesKeptBut s t ((.phys (key + 0x38), 4) :: copiesUnderWay s) ∧ g'.x = g.x ∧ g'.status = g.status ∧ g'.park = (if resp.toNat % 4 = 1 then none else some p) ∧
        g'.pc = if resp.toNat % 4 = 1 ∧ p.code = .brk then g.pc + 4 else g.pc) ∧
      (2 ≤ resp.toNat % 4 → (s.tenant c.l.tenant).fq.en = false →
        ((s.finishCopies (key + 0x38) 4).writeNat none (.phys (key + 0x38)) 4 resp.toNat).killHeld g = false →
        kills (.parkResponse r resp) p.info.code) ∧
      (2 ≤ resp.toNat % 4 → (s.tenant c.l.tenant).fq.en = true → 64 ≤ (s.tenant c.l.tenant).fq.buffer.length →
        ∃ t g', exec (.parkResponse r resp) s = .next t ∧ t.group? r = some g' ∧ g'.status = .resident ∧
          g'.park = some { p with kill := true } ∧ g'.pc = g.pc ∧ g'.x = g.x))) ∧
    (∀ p : Park, g.park = some p → p.kill = true → g.detected = [] → noQueue → kills (.takeTrap r none) p.info.code) ∧
    (∀ (tx : Tx) (reason code : Nat) (addr : Word), g.tx = some tx → tx.abort = some (reason, code, addr) → g.park = none →
      ∃ g', Becomes s (.txAbort r) r g' ∧ g'.tx = none ∧ g'.pc = tx.fallback ∧
        g'.getX 62 = BitVec.ofNat 64 (reason + 256 * code) ∧ g'.getX 61 = (if reason = 4 then addr else 0) ∧
        ∀ x : BitVec 6, x ≠ 61 → x ≠ 62 → x ≠ 0 → g'.getX x = tx.saved[x.toNat]'x.isLt) ∧
    (s.timedOut g = true → c.l.det = false → noQueue → kills (.watchdog r) .watchdog) ∧
    (s.timedOut g = true → c.l.det = false → (s.tenant c.l.tenant).fq.en = true → 64 ≤ (s.tenant c.l.tenant).fq.buffer.length →
      ∃ info, info.code = .watchdog ∧ info.time = s.aoc ∧ Becomes s (.watchdog r) r { g with
        detected := if g.detected.contains info then g.detected else info :: g.detected }) ∧
    ∀ at', g.preemptAt = some at' → g.closing = true → g.detected = [] → at' + 2000 ≤ s.aoc.toNat → noQueue → kills (.closingWindow r) .watchdog

/-- R347, R359 to R363, R26, R57: a request names the victim's groups on the core; a named group that is not closing leaves its core
with its anchor state, to restart at its region's start or trap segment, but for one whose timer has reached its limit, which the
watchdog takes first; a pre-empted group goes on on a core of its partition with room. Which posted operations are performed before
it leaves, and that posted reads and atomics are given up with the region, is the model's reading (log 42). -/
def Obligations.PreemptionSavesTheAnchorState : Prop :=
  (∀ (s : State) (v : Launch) (core : Nat), s.launch? v.uid = some v → v.clus = false →
    ∃ t, exec (.preemptRequest (.controller v.uid core)) s = .next t ∧ { t with groups := s.groups } = s ∧
      ∀ q g, s.group? q = some g → ∃ g', t.group? q = some g' ∧ g' = { g with preemptAt := g'.preemptAt } ∧
        (g.status = .resident → g.core = core → g.preemptAt = none → (∃ b, s.block? q.blk = some b ∧ b.launch = v.uid) →
          g'.preemptAt = some s.aoc.toNat) ∧
        (g.status ≠ .resident ∨ g.preemptAt.isSome = true ∨ (∀ h ∈ s.groups, h.ref = q → h.core ≠ core) → g' = g)) ∧
  (∀ (s : State) (l v : Launch) (since : Nat), s.launch? l.uid = some l → l.pre = true → l.pending = true →
    l.noRoomSince = some since → since + 400 ≤ s.aoc.toNat → s.lacking l ≠ [] → s.victim l (s.lacking l) = some v →
    ∃ t, exec (.preemptRequest (.launch l.uid)) s = .next t ∧ BytesKept s t ∧ v.prio < l.prio ∧
      t.launch? l.uid = some { l with noRoomSince := some s.aoc.toNat } ∧
      ∀ g ∈ s.residentOn v.uid (s.lacking l), g.preemptAt = none → { g with preemptAt := some s.aoc.toNat } ∈ t.groups) ∧
  ∀ (s : State) (r : GroupRef) (g : Group) (c : Ctx), s.group? r = some g → s.ctxOf g = some c →
    (g.status = .resident → g.preemptAt.isSome = true → g.closing = false → g.detected = [] → g.deferredDue = false → g.tx = none →
      (∀ p, g.park = some p → p.kill = false) → (∀ a ∈ s.arrivals, s.arrivalNow r a = false) →
      (s.timedOut g = true → exec (.preempt r) s = .next s) ∧ (s.timedOut g = false → ∃ t g' b, exec (.preempt r) s = .next t ∧ t.group? r = some g' ∧ BytesKept s t ∧ t.launches = s.launches ∧
        t.arrivals = s.arrivals.filter (fun a => !(a.grp == r && a.op.dst.isSome)) ∧
        (∀ q, q ≠ r → t.group? q = s.group? q) ∧ t.block? r.blk = some b ∧
        (b = c.b ∨ b = { c.b with saved := true }) ∧
        ((∀ h ∈ s.groups, h.ref.blk = r.blk → h.ref ≠ r → h.status ≠ .resident) → b.saved = true) ∧
        ((∃ h ∈ s.groups, h.ref.blk = r.blk ∧ h.ref ≠ r ∧ h.status = .resident) → b = c.b) ∧
        g'.status = .preempted ∧ g'.preemptAt = none ∧ g'.pc = (if g.trapMode then c.k.trapseg.zeroExtend 64 else g.rstart) ∧
        g'.x = g.x ∧ g'.segs = [] ∧ g'.retq = [] ∧ g'.path0 = none ∧ g'.path1 = none ∧ g'.monitor = none ∧ g'.genK = g.genK ∧
        g'.genB = g.rB ∧ g'.vstep = g.vstep ∧ g'.dmask = g.dmask ∧ g'.held = g.held ∧ g'.regs = g.regs ∧ g'.mcmds = g.mcmds ∧
        g'.trapMode = g.trapMode ∧ ∀ j : Fin 32, g'.lanes[j] = { g.lanes[j] with o := Vector.replicate 8 0, l0 := 0, l1 := 0 })) ∧
    ∀ core, g.status = .preempted → c.l.clus = false → c.l.det = false → s.commandsOf r = false →
      (c.b.saved = true → s.blockCommands r.blk = false) → core ∈ s.partitionCores c.l.tenant →
      ((s.occupied core).add (s.resumeNeed c core)).ok = true →
      ∃ t, exec (.resume r core) s = .next t ∧ BytesKept s t ∧ (∀ q, q ≠ r → t.group? q = s.group? q) ∧
        t.group? r = some { g with status := .resident, core := core, blocked := 0 } ∧
        t.block? r.blk = some (if c.b.saved then { c.b with saved := false, home := core } else c.b)

/-! ## Queues, containers and launches -/

/-- R47 to R49, R51 to R54, R59 to R62: enabling a queue zeroes its counts; a doorbell sets the tail or ERR; a mailbox command ends
with its status and, loading, its handle; a load that must wait keeps the mailbox busy and its destination's pages locked, and goes
on when it can; the record at HEAD becomes a launch, or retires with its refusal; where a read of it must wait, nothing happens yet.
What a load comes to rests on the trusted keys (log 7), on an order of checks (log 35) and on log 49; the queue's memory of statuses
is log 36. -/
def Obligations.QueuesAndContainersFollowTheirRegisters : Prop :=
  ∀ (s : State) (n : Nat), s.tenantUp n = true →
    (∀ (q : Nat) (v : Word), q < 8 → s.cxlOn = true →
      let x := s.queue n q
      let size := v.toNat % 32
      (x.en = false → v.getLsbD 31 = true → ∃ t, exec (.lqCtl n q v) s = .next t ∧ OnlyTenant s t n ∧
        (∀ k, k ≠ q → t.queue n k = s.queue n k) ∧ t.queue n q = { x with
          devq := v.getLsbD 29, logn := if 4 ≤ size ∧ size ≤ 16 then size else x.logn, en := true, err := false, head := 0
          tail := 0, ret := 0, statuses := [], epoch := x.epoch + 1 }) ∧
      (x.en = true → v.getLsbD 31 = false → s.unadmitted n q = [] → ∃ t, exec (.lqCtl n q v) s = .next t ∧ OnlyTenant s t n ∧
        (∀ k, k ≠ q → t.queue n k = s.queue n k) ∧ t.queue n q = { x with en := false }) ∧
      (x.devq = false → ∃ t, exec (.lqDb n q v) s = .next t ∧ OnlyTenant s t n ∧ (∀ k, k ≠ q → t.queue n k = s.queue n k) ∧
        let tail := v.extractLsb' 0 32
        t.queue n q = if (tail - x.head).toNat ≤ 2 ^ x.logn ∧ (tail - x.tail).toNat < 2 ^ 31 then { x with tail := tail }
          else { x with err := true })) ∧
    ((s.tenant n).ocLoading = true ∨ s.cxlOn = true ∧ (s.tenant n).ocBusy = false →
      (∀ h s', (loadContainer n).run s = (.ok h, s') → ∃ t c, exec (.ocLoad n) s = .next t ∧ (t.tenant n).ocStatus = 0 ∧
        (t.tenant n).ocHandle = h ∧ (t.tenant n).ocBusy = false ∧ (t.tenant n).ocLoading = false ∧ (t.tenant n).ocLocked = [] ∧
        t.containers = s.containers ++ [c] ∧ c.tenant = n ∧ c.handle = h ∧ c.unloading = false ∧
        s.container? n h = none ∧ 1 ≤ h ∧ h ≤ 1024) ∧
      (∀ s', (loadContainer n).run s = (.error loadWaits, s') → ∃ t, exec (.ocLoad n) s = .next t ∧ OnlyTenant s t n ∧
        t.tenant n = { s.tenant n with
          ocBusy := true, ocLoading := true
          ocLocked := if (s.tenant n).ocLoading then (s.tenant n).ocLocked
            else s.lockable n ((s.tenant n).ocDst.toNat % 2 ^ 52) (s.tenant n).ocDsize.toNat }) ∧
      (∀ st s', (loadContainer n).run s = (.error st, s') → st ≠ loadWaits → ∃ t, exec (.ocLoad n) s = .next t ∧
        (t.tenant n).ocStatus = BitVec.ofNat 8 st ∧ (t.tenant n).ocHandle = (s.tenant n).ocHandle ∧ (t.tenant n).ocBusy = false ∧
        (t.tenant n).ocLoading = false ∧ (t.tenant n).ocLocked = [] ∧ t.containers = s.containers)) ∧
    (s.cxlOn = true → (s.tenant n).ocBusy = false → ∀ h : BitVec 16,
        (s.container? n h.toNat = none → ∃ t, exec (.ocUnload n h) s = .next t ∧ OnlyTenant s t n ∧
          (t.tenant n).ocStatus = 0x0B ∧ (t.tenant n).ocBusy = false) ∧
        ∀ c, s.container? n h.toNat = some c → (∀ d ∈ s.containers, d.unloading = false) →
          ∃ t, exec (.ocUnload n h) s = .next t ∧ BytesKept s t ∧
            ((∀ l ∈ s.launches, l.tenant = n → l.handle = h.toNat → ∃ st, l.state = .refused st) → t.container? n h.toNat = none ∧
              (t.tenant n).ocStatus = 0 ∧ (t.tenant n).ocBusy = false) ∧
            ((∃ l ∈ s.launches, l.tenant = n ∧ l.handle = h.toNat ∧ ∀ st, l.state ≠ .refused st) →
              t.container? n h.toNat = some { c with unloading := true } ∧ (t.tenant n).ocBusy = true)) ∧
    ∀ q : Nat, q < 8 → (s.queue n q).en = true → (s.queue n q).err = false → (s.queue n q).head ≠ (s.queue n q).tail →
      s.unadmitted n q = [] →
      let x := s.queue n q
      let slot := s.readFor n (x.slot x.head) 128
      let refused (st : Nat) : Prop := (s.tenant n).cq.en = false →
        ∃ t, exec (.recordRead n q) s = .next t ∧ BytesKept s t ∧ (t.queue n q).head = x.head + 1 ∧
          (t.queue n q).status? x.head = some (BitVec.ofNat 8 st) ∧ ∀ m ∈ t.launches, m.uid ≠ s.nextId
      (∀ w, slot = .error (.wait w) → exec (.recordRead n q) s = .next s) ∧
      (∀ e, slot = .error e → (∀ w, e ≠ .wait w) → refused 1) ∧
      ∀ bytes, slot = .ok bytes →
        let l := launchOf bytes s.nextId n q x.epoch x.head
        let checked := s.checkLaunch l (BitVec.ofNat 64 (leNat ((bytes.drop 0x28).take 8)))
        (recordOk bytes n q x.head = false → refused 1) ∧
        (recordOk bytes n q x.head = true → (∀ st, checked = .error (some st) → refused st) ∧
          (checked = .error none → exec (.recordRead n q) s = .next s) ∧
          ∀ l', checked = .ok l' → ∃ t, exec (.recordRead n q) s = .next t ∧ BytesKept s t ∧ t.launch? s.nextId = some l' ∧
            (t.queue n q).head = x.head + 1 ∧ (t.queue n q).ret = x.ret ∧
            ∀ r g, s.group? r = some g → ∃ h, t.group? r = some h ∧ SeenOnly g h)

/-- R54 to R57, R70, R73, R149, R364 to R369: a launch whose dependences and start time have come becomes admissible; a unit of the
first launch in rank starts, where it fits, with all its groups at the kernel's entry; a finished block frees its place; a finished
launch leaves with its status, moves RET and posts its record, with the SHA-256 of its outputs' bytes when it is deterministic and
has outputs; records that waited for room are written in order. The queue's memory of statuses is log 36; a record is written in
place on a published page too, behind a copy of it that is under way (log 40), but not while an engine owns its line (log 22); the
claim that a passed-over launch keeps is log 58. -/
def Obligations.LaunchesRunTheirCourse : Prop :=
  (∀ (s : State) (l : Launch), s.launch? l.uid = some l → l.state = .read → l.dabt = false → l.ovlp = false →
    let met (w : Word) : Prop := w.getLsbD 63 = true →
      ((s.queue l.tenant (w.toNat / 2 ^ 32 % 8)).ret - w.extractLsb' 0 32 - 1).toNat < 2 ^ 31
    (met l.dep0 → met l.dep1 →
      (l.ord = true → l.seq = 0 ∨ ((s.queue l.tenant l.queue).status? (l.seq - 1)).isSome = true) → l.stime.toNat ≤ s.aoc.toNat →
      ∃ t, exec (.launchAdmit l.uid) s = .next t ∧ { t with launches := s.launches } = s ∧
        t.launch? l.uid = some { l with state := .admissible } ∧ ∀ u, u ≠ l.uid → t.launch? u = s.launch? u) ∧
    (¬ met l.dep0 ∨ ¬ met l.dep1 ∨ s.aoc.toNat < l.stime.toNat → exec (.launchAdmit l.uid) s = .next s)) ∧
  (∀ (s : State) (part : Nat) (l l1 : Launch) (p : Plan) (k : Container) (e : Kernel), s.nextLaunch part = some l →
    s.launch? l.uid = some l1 → s.plans l l.next = [p] → p.cores.length = l.g → s.container? l.tenant l.handle = some k →
    k.kernels[l.kidx]? = some e →
    (∀ c ∈ p.home :: p.cores, let n := (s.occupied c).add (plansNeed l [p] c)
      n.groups ≤ 32 ∧ n.units ≤ 192 ∧ n.kib ≤ 512) ∧
    ∃ t b, exec (.blockDispatch part) s = .next t ∧ BytesKept s t ∧ t.blocks = s.blocks ++ [b] ∧ s.nextId ≤ b.id ∧ b.id < t.nextId ∧
      b.launch = l.uid ∧ (b.b, b.vy, b.vx) = p.key ∧ b.home = p.home ∧ b.ngrp = l.g ∧ b.scratch = Memory.empty ∧ b.tids = l.tids ∧
      b.full = [] ∧ b.abandoned = false ∧ t.groups.length = s.groups.length + l.g ∧
      (∀ i, i < l.g → ∃ g', t.groups[s.groups.length + i]? = some g' ∧ g'.ref = ⟨b.id, i⟩ ∧ g'.status = .resident ∧
        some g'.core = p.cores[i]? ∧ g'.pc = e.entry.zeroExtend 64 ∧ g'.rstart = e.entry.zeroExtend 64 ∧ (∀ x, g'.getX x = 0) ∧
        g'.vstep = l.vbase.zeroExtend 64 ∧ g'.genK = 0 ∧ g'.genB = 0 ∧ g'.trapMode = false ∧ g'.closing = false) ∧
      (∃ m, t.launch? l.uid = some
        { l1 with next := l1.next + 1, noRoomSince := none, claim := none, state := .admitted, admittedAt := m }) ∧
      ∀ m : Launch, s.launch? m.uid = some m → m.uid ≠ l.uid → m.pending = true →
        (s.tenant m.tenant).partition = (s.tenant l.tenant).partition → rankBefore (s.rank m) (s.rank l) = true →
        ∃ c, t.launch? m.uid = some { m with claim := some c } ∧ ∀ k, m.claim = some k → c = k) ∧
  (∀ (s : State) (blk : Nat), (∀ g ∈ s.groups, g.ref.blk = blk → g.status = .ended ∨ g.status = .killed) →
    s.blockCommands blk = false → (∀ a ∈ s.arrivals, a.grp.blk ≠ blk) →
    exec (.blockRetire blk) s = .next { s with
      blocks := s.blocks.filter fun b => decide (b.id ≠ blk), groups := s.groups.filter fun g => decide (g.ref.blk ≠ blk) }) ∧
  (∀ (s : State) (l : Launch) (leaf : Leaf), MemoryCanonical s → s.launch? l.uid = some l → l.state = .admitted →
    l.units ≤ l.next → (∀ b ∈ s.blocks, b.launch ≠ l.uid) → l.tenant < 16 → l.queue < 8 →
    ∀ digest : Option (List Byte), (l.det = false ∨ s.omaskFor l = 0) ∧ digest = none ∨
      l.det = true ∧ s.omaskFor l ≠ 0 ∧ (∃ bytes, DigestOf s l bytes ∧ digest = some (sha256 bytes)) →
    let q := s.queue l.tenant l.queue
    let ring := (s.tenant l.tenant).cq
    let st := if l.kcode.isSome then 8 else 0
    let slot := ring.put.toNat % 2 ^ ring.logn
    let phase : Byte := if ring.put.toNat / 2 ^ ring.logn % 2 = 0 then 1 else 0
    let va : Word := BitVec.ofNat 64 (ring.base.toNat % 2 ^ 52 + 64 * slot)
    ring.en = true → ring.buffer = [] → (ring.put - ring.get).toNat ≠ 2 ^ ring.logn →
    s.translate l.tenant .store va 64 = .ok leaf → s.reach leaf va true = .ok () → s.lineHeld none (.phys leaf.key) 64 = false →
    q.epoch = l.epoch →
    (q.head - l.seq - 1).toNat < 2 ^ 31 →
    ∃ t, exec (.launchRetire l.uid) s = .next t ∧ t.launches = s.launches.filter (fun x => x.uid != l.uid) ∧
      (t.queue l.tenant l.queue).status? l.seq = some (BitVec.ofNat 8 st) ∧
      (q.ret = l.seq → (∀ p ∈ q.statuses, p.1 ≠ l.seq + 1) → (t.queue l.tenant l.queue).ret = l.seq + 1) ∧
      (t.tenant l.tenant).cq.put = ring.put + 1 ∧ BytesKeptBut s t ((.phys leaf.key, 64) :: copiesUnderWay s) ∧
      (∀ d, digest = some d → d.length = 32) ∧ t.readBytes (.phys leaf.key) 64 =
        (completionBytes l st digest s.aoc).take 31 ++ [phase] ++ (completionBytes l st digest s.aoc).drop 31) ∧
  ∀ (s : State) (n : Nat) (fault : Bool) (rec' : PendingRec) (rest : List PendingRec) (leaf : Leaf), MemoryCanonical s → n < 16 →
    let ring := if fault then (s.tenant n).fq else (s.tenant n).cq
    ring.en = true → ring.buffer = rec' :: rest → (ring.put - ring.get).toNat ≠ 2 ^ ring.logn → rec'.bytes.length = 63 →
    let slot := ring.put.toNat % 2 ^ ring.logn
    let phase : Byte := if ring.put.toNat / 2 ^ ring.logn % 2 = 0 then 1 else 0
    let va : Word := BitVec.ofNat 64 (ring.base.toNat % 2 ^ 52 + 64 * slot)
    s.translate n .store va 64 = .ok leaf → s.reach leaf va true = .ok () → s.lineHeld none (.phys leaf.key) 64 = false →
    ∃ t, exec (if fault then .faultRecordPost n else .completionPost n) s = .next t ∧
      BytesKeptBut s t ((.phys leaf.key, 64) :: copiesUnderWay s) ∧
      t.readBytes (.phys leaf.key) 64 = (if fault then rec'.bytes ++ [phase] else rec'.bytes.take 31 ++ [phase] ++ rec'.bytes.drop 31) ∧
      (if fault then (t.tenant n).fq else (t.tenant n).cq) = { ring with put := ring.put + 1, buffer := rest }

/-! ## Engines -/

/-- R41, R245, R246, R252, R253, R256, R258, R263: the engines' steps: a record is moved and counted down, each piece of its
destination holding its part of the source; a plane is filled or the planes are exchanged; the rows of a loop step hold their
accumulated sums and are counted down, a row whose check failed twice being poisoned and reported; a traversal unit writes its
results and its path goes on. A record reads its whole source first (log 22); the origins, increments and indices of a loop step are
exact integers (log 56), and the rows whose check failed twice an operand of the event (log 10); that of a core's matrix commands
which can step the next one by age does, is the model's reading of R259 (log 65); an element's exact value and what a traversal
computes are the model's functions (log 15, log 33). -/
def Obligations.EnginesPerformTheirCommands : Prop :=
  (∀ (s : State) (k : Kick) (g : Group) (c : Ctx) (r : CopyRec) (rs : List Ready), MemoryCanonical s → s.kick? k.id = some k →
    s.group? k.grp = some g → s.ctxOf g = some c → k.recs[k.next]? = some r → s.kickFirst k = true →
    s.behindPosted k.grp k.id = false → s.recordReady { c with walk := none } k r = .ok (rs, []) →
    let bar : Place := .sp k.grp.blk k.bar
    let dst := rs.flatMap fun x => x.dst.map fun p => (p.place, p.n)
    let apart : Prop := ∀ d ∈ dst, d.1.meets d.2 bar 16 = false
    ∃ t, exec (.copyRecord k.id) s = .next t ∧ BytesKeptBut s t (dst ++ [(bar, 16)]) ∧ t.launches = s.launches ∧
      (k.next + 1 = k.recs.length → t.kicks = s.kicks.filter fun q => q.id != k.id) ∧
      (k.next + 1 ≠ k.recs.length → t.kicks = s.kicks.map fun q => if q.id = k.id then { q with next := k.next + 1 } else q) ∧
      (apart → barrierAt t k.grp.blk k.bar = { barrierAt s k.grp.blk k.bar with
        count := ((barrierAt s k.grp.blk k.bar).count + 2 ^ 64 - r.bytes % 2 ^ 64) % 2 ^ 64 }) ∧
      ∀ (m i : Nat) (x : Ready) (p : Piece), rs[m]? = some x → x.dst[i]? = some p → apart →
        let source := if x.src = [] then x.move.fill else x.src.flatMap fun q => s.readBytes q.place q.n
        let before := ((x.dst.take i).map (·.n)).sum
        before + p.n ≤ source.length → (∀ b o, p.place = .sp b o → (s.block? b).isSome = true) →
        (∀ m' i' x' p', rs[m']? = some x' → x'.dst[i']? = some p' → (m', i') ≠ (m, i) → p'.place.meets p'.n p.place p.n = false) →
        t.readBytes p.place p.n = (source.drop before).take p.n) ∧
  (∀ (s : State) (core a b : Nat),
    let ready (n : Nat) : Prop := ∃ g ∈ s.groups, ∃ p m rest, g.planes = some p ∧ p.core = core ∧ g.mcmds = m :: rest ∧
      s.behindPosted g.ref m.id = false ∧ (∀ w, s.heldReady m.stepHeld ≠ .error (.wait w)) ∧ m.id = n
    (s.stepped core a).matrixNext core = some b ↔
      ready b ∧ (a < b ∧ (∀ n, ready n → a < n → b ≤ n) ∨ ∀ n, ready n → n ≤ a ∧ b ≤ n)) ∧
  (∀ (s : State) (r : GroupRef) (g : Group) (p : PlanePair) (id : Nat) (rest : List MCmd), s.group? r = some g →
    g.planes = some p → s.matrixNext p.core = some id → rest ≠ [] ∨ g.status = .resident ∧ p.core = g.core →
    (∀ (shadow : Bool) (d : Desc) (k0 n0 : Int) (held : Held) (sh : PlaneShape), g.mcmds = .load id shadow d k0 n0 held :: rest →
      planeShape d.fmt = some sh → s.heldReady held = .ok () →
      ∃ (plane : Plane) (t : State) (g' : Group), exec (.planeLoad r) s = .next t ∧ OnlyReads (s.stepped p.core id) t r ∧ t.group? r = some g' ∧
        SeenOnly { g with planes := some (if shadow then { p with shadow := plane } else { p with stat := plane }), mcmds := rest } g' ∧
        plane.fmt = d.fmt ∧ plane.valid = true ∧ plane.elems.length = sh.k * sh.n ∧
        ∀ i j, i < sh.k → j < sh.n →
          plane.elems[i * sh.n + j]? = some (s.heldElem d held #v[k0 + i, n0 + j, 0, 0, 0])) ∧
    (g.mcmds = .swap id :: rest → ∃ t, exec (.planeSwap r) s = .next t ∧ OnlyGroup (s.stepped p.core id) t r ∧
      t.group? r = some { g with planes := some { p with stat := p.shadow, shadow := p.stat }, mcmds := rest })) ∧
  (∀ (s : State) (r : GroupRef) (g : Group) (p : PlanePair) (id : Nat) (pc : Word32) (recs : List LoopRec) (rec' st : Nat)
    (rest : List MCmd) (l : LoopRec) (sh : PlaneShape) (residue : List Nat), MemoryCanonical s → s.group? r = some g →
    g.planes = some p → g.mcmds = .loop id pc recs rec' st :: rest → recs[rec']? = some l → planeShape p.stat.fmt = some sh →
    (s.block? r.blk).isSome = true → s.matrixNext p.core = some id → s.heldReady (l.xheld ++ l.cheld) = .ok () →
    let size := fmtBytes l.c.fmt
    let xat (q i : Nat) : Vector Int 5 := #v[l.xk0 + st * l.dxk + (q : Nat), l.xrow0 + st * l.dxrow + (i : Nat), 0, 0, 0]
    let cat (i j : Nat) : Vector Int 5 := #v[l.ccol0 + st * l.dccol + (j : Nat), l.crow0 + st * l.dcrow + (i : Nat), 0, 0, 0]
    let outOf (i j : Nat) : List (Place × Nat) := match l.c.locate (cat i j) with
      | .elem a _ _ _ _ => l.cheld.range a size
      | _ => []
    let out := (List.range l.m).flatMap fun i => (List.range l.ncol).flatMap fun j => outOf i j
    let reads := (List.range l.m).flatMap fun i => (List.range (l.kstep * sh.blk)).flatMap fun n =>
      match l.x.locate (xat n i) with
      | .elem a k _ scale super => l.xheld.range a k ++ scale.toList.flatMap (l.xheld.range · 1) ++
          super.toList.flatMap (l.xheld.range · 4)
      | _ => []
    let bar : Place := .sp r.blk l.baroff
    let apart : Prop := l.baren = true → ∀ o ∈ out, o.1.meets o.2 bar 16 = false
    ∃ t g', exec (.loopStep r residue) s = .next t ∧ t.group? r = some g' ∧ g'.x = g.x ∧ g'.pc = g.pc ∧ g'.lanes = g.lanes ∧
      BytesKeptBut s t (out ++ if l.baren then [(bar, 16)] else []) ∧
      g'.mcmds = (if st + 1 < l.steps then .loop id pc recs rec' (st + 1) :: rest
        else if rec' + 1 < recs.length then .loop id pc recs (rec' + 1) 0 :: rest else rest) ∧
      (l.baren = true → apart → barrierAt t r.blk l.baroff = { barrierAt s r.blk l.baroff with
        count := ((barrierAt s r.blk l.baroff).count + 2 ^ 64 - l.m * l.ncol * size % 2 ^ 64) % 2 ^ 64 }) ∧
      (g.status = .resident → g'.detected = g.detected ++
        if ∃ i ∈ residue, i < l.m then [⟨.mirror, pc.zeroExtend 64, 0, 2, s.aoc⟩] else []) ∧
      ∀ i j q, i < l.m → j < l.ncol → outOf i j = [(q, size)] → apart → (∀ b o, q = .sp b o → (s.block? b).isSome = true) →
        (∀ i' j', i' < l.m → j' < l.ncol → (i', j') ≠ (i, j) → ∀ o ∈ outOf i' j', o.1.meets o.2 q size = false) →
        (∀ o ∈ out, ∀ x ∈ reads, o.1.meets o.2 x.1 x.2 = false) →
        (i ∈ residue → (t.poisoned q size).isSome = true) ∧
        ∃ v, t.readBytes q size = leBytes size v ∧
          Accumulated sh.cfmt sh.blk l.kstep (if l.z then 0 else (s.heldElem l.c l.cheld (cat i j)).code)
            ((List.range (l.kstep * sh.blk)).map fun n => ((s.heldElem l.x l.xheld (xat n i)).value l.x.fmt).times
              ((p.stat.elems.getD (n * sh.n + j) ⟨0, 127, 0, false⟩).value p.stat.fmt)) v) ∧
  ∀ (s s' : State) (r : GroupRef) (id : Nat) (x : Ctx) (u : UnitReq), s.unitCtx r = some x →
    x.g.units.find? (fun u => u.id == id) = some u → x.g.status = .resident → x.g.park = none → x.g.detected = [] → x.g.deferredDue = false →
    (unitJob x u).run s = (.ok (), s') →
    ∃ t g', exec (.traversalResult r id) s = .next t ∧ t.group? r = some g' ∧ (∀ q, t.readBytes q 1 = s'.readBytes q 1) ∧
      g'.x = x.g.x ∧ g'.pc = x.g.pc ∧ g'.genK = x.g.genK ∧ g'.genB = x.g.genB ∧
      (∀ h, s'.group? r = some h → g'.lanes = h.lanes) ∧ g'.units = x.g.units.filter (fun u => u.id != id) ∧
      ∀ b p, x.g.path b = some p → g'.path b = some (if p.wait = some (.unit id) then { p with wait := none } else p)

/-- R276, R278 to R280, R284, R285, R287, R289 to R291, R390: an architected run of sweeps leaves every cell of the window in the
state that its sweeps draw, and counts them; `gbread`'s bytes hold the states of their cells and its stream goes on; a posted
arrival updates its object as `Arrive` says and leaves, or waits for its poisoned object with its record posted. The sigmoid table
is the model's, with the entries that R279 lists; the order of one group's arrivals is log 26. The other posted operations, which do
at their turn what their instructions do, are log 42. -/
def Obligations.ArrayWorkAndArrivalsComplete : Prop :=
  (∀ (s : State) (q : GbCmd) (w : Window) (beta : BitVec 16) (n : Nat) (k b : Word), s.gbcmd? q.id = some q →
    q.work = .sweep beta n true k b → (s.tenant q.tenant).window? q.window = some w → q.tenant < 16 → q.window < 4 →
    fnan fp16 beta.toNat = false → finf fp16 beta.toNat = false →
    ∃ t, exec (.sweepRun q.id) s = .next t ∧ BytesKept s t ∧ t.groups = s.groups ∧ t.freeIx = s.freeIx ∧
      t.gbcmds = s.gbcmds.filter (fun x => x.id != q.id) ∧
      (t.tenant q.tenant).sweeps[q.window]? = (s.tenant q.tenant).sweeps[q.window]?.map (· + n) ∧
      (t.tenant q.tenant).noise = (s.tenant q.tenant).noise ∧
      t.cells = s.cells.filter (fun c => !w.holds c) ++ afterSweeps w.first beta.toNat k b n 0 (s.cells.filter w.holds)) ∧
  ([0, 448, 511, 512, 513, 576, 1023].map sigmoid = [22, 17625, 32512, 32768, 33024, 47911, 65514]) ∧
  (∀ (s : State) (q : GbCmd) (g : Group) (w : Window) (d : Desc) (fc : Nat) (held : Held), MemoryCanonical s →
    s.gbcmd? q.id = some q → q.work = .read d fc held → (s.tenant q.tenant).window? q.window = some w →
    s.group? q.grp = some g → g.swait = some .stateWrite → s.behindPosted q.grp q.id = false → s.heldReady held = .ok () →
    let at' (j : Nat) : List (Place × Nat) := held.range (d.addrOf #v[(j : Int), 0, 0, 0, 0]) 1
    ∃ t g', exec (.stateWrite q.id) s = .next t ∧ t.group? q.grp = some g' ∧ g'.swait = none ∧ g'.pc = g.pc ∧ g'.x = g.x ∧
      t.gbcmds = s.gbcmds.filter (fun x => x.id != q.id) ∧ t.cells = s.cells ∧
      BytesKeptBut s t ((List.range d.ext[0]).flatMap at') ∧
      ∀ j p, j < d.ext[0] → at' j = [(p, 1)] → (∀ i, i < d.ext[0] → i ≠ j → ∀ r ∈ at' i, r.1.meets 1 p 1 = false) →
        (∀ b o, p = .sp b o → (s.block? b).isSome = true) →
        ∃ v : Byte, t.readBytes p 1 = [v] ∧ ∀ b < 8, v.getLsbD b =
          match s.windowCell w (fc + 8 * j + b) with
          | some z => z.up
          | none => false) ∧
  ∀ (s : State) (a : Arrival), MemoryCanonical s → s.arrival? a.id = some a → s.arrivalReady a = true → s.arrivalWay a = .ok () →
    (∀ b o, a.obj = .sp b o → (s.block? b).isSome = true) →
    let p := s.phaserAt a.obj
    let updates (i : Instr) (n : Nat) (post : State → Prop) : Prop := ∃ t, exec i s = .next t ∧
      t.arrivals = s.arrivals.filter (fun e => e.id != a.id) ∧ BytesKeptOutside s t a.obj n ∧ post t
    let both (post : State → Prop) : Prop :=
      updates (.arrivalUpdate a.id) 16 post ∧ (a.posted = true → updates (.poisonedArrivalRetry a.id) 16 post)
    (∀ u, a.op = .arrive u → s.poisoned a.obj 16 = none → both fun t => Arrived p (t.phaserAt a.obj) u) ∧
    (∀ d, a.op = .register d → s.poisoned a.obj 16 = none → RegFits p d → both fun t => Registered p (t.phaserAt a.obj) d) ∧
    (∀ bytes, a.op = .store bytes →
      updates (.arrivalUpdate a.id) bytes.length fun t => t.readBytes a.obj bytes.length = bytes) ∧
    let old := s.readNat a.obj
    let returns (d : BitVec 6) (v : Word) (ends : Bool) (t : State) : Prop := ∀ g, s.group? a.grp = some g → g.status = .resident →
      ∃ g', t.group? a.grp = some g' ∧ g'.pc = g.pc ∧ g'.lanes = g.lanes ∧ g'.closing = (ends || g.closing) ∧
        ∀ r, g'.getX r = if r = d ∧ d ≠ 0 then v else g.getX r
    (∀ (n : Nat) (sgn : Bool) (d : BitVec 6), a.op = .load n sgn d → 0 < n → s.poisoned a.obj n = none →
      updates (.arrivalUpdate a.id) 0 (returns d (if sgn = true ∧ 2 ^ (8 * n - 1) ≤ old n
        then BitVec.ofInt 64 ((old n : Int) - 2 ^ (8 * n)) else BitVec.ofNat 64 (old n)) false)) ∧
    (∀ (op : Aop) (n v c : Nat) (d : BitVec 6), a.op = .atomic op n v c d → s.poisoned a.obj n = none →
      updates (.arrivalUpdate a.id) n fun t => returns d (BitVec.ofNat 64 (old n)) true t ∧
        t.readBytes a.obj n = leBytes n (aopInt op true (8 * n) (old n) v c)) ∧
    (∀ (bit : Bool) (d : BitVec 6), a.op = .test bit d → s.poisoned a.obj 16 = none →
      updates (.arrivalUpdate a.id) 0 (returns d (BitVec.ofNat 64 (p.phase * 2 ^ 32 +
        (if p.flags % 2 = 1 ∨ (∃ b, s.block? a.grp.blk = some b ∧ b.abandoned = true) then 2 else 0) +
        if p.phase % 2 ≠ (if bit then 1 else 0) then 1 else 0)) false)) ∧
    (∀ d : BitVec 6, a.op = .count d → s.poisoned a.obj 16 = none →
      let b := Barrier.ofBytes (s.readBytes a.obj 16)
      updates (.arrivalUpdate a.id) 0
        (returns d (BitVec.ofNat 64 (if b.flags % 2 = 1 then 2 ^ 63 + b.fidx else b.count)) false)) ∧
    (∀ (sc : Scope) (n : Nat), a.op = .announce sc n → updates (.arrivalUpdate a.id) 16 fun t =>
      let b := Barrier.ofBytes (s.readBytes a.obj 16)
      Barrier.ofBytes (t.readBytes a.obj 16) = { b with
        count := (b.count + n) % 2 ^ 64, scope := if b.count = 0 then sc.code.toNat else max (b.scope % 8) sc.code.toNat }) ∧
    (∀ u, a.op = .arrive u → (s.poisoned a.obj 16).isSome = true → a.posted = false →
      (∀ g, s.group? a.grp = some g → (s.tenant (s.tenantOf g)).fq.en = false) →
      ∃ t, exec (.arrivalUpdate a.id) s = .next t ∧ BytesKept s t ∧ t.arrival? a.id = some { a with posted := true })

/-- R216, R218, R220, R322, R328, R335 to R337, R356, R42, R43: a copy-on-write keeps the page's bytes for every step that had none
and gives the live page its new step; a returning pool page is free again; a halo exchange writes the bit patterns of its units, an
all-reduce the reductions of its elements, each counted down, and the collective leaves, or fails with F and a held trap. Which pool
page a copy takes is the model's choice (log 13), made when the copy starts; bytes of differing formats are free (log 16). That the
barrier of a collective is counted down by the element bytes of its destination (`collBytes`), of a halo exchange too even where
fewer bytes land, and that the other members' contributions to an all-reduce are an operand of the event, are the model's readings
(log 34). -/
def Obligations.CopiesAndCollectivesComplete : Prop :=
  (∀ (s : State) (w : Cow) (v : Version), MemoryCanonical s → s.cows.find? (fun x => x.page == w.page) = some w →
    s.versions.find? (fun x => x.page == w.page) = some v → v.pub = true → v.cur ≠ w.step → (∀ r ∈ v.rset, r.step ≠ w.step) →
    v.rset.length ≠ 4 →
    ∃ t u, exec (.copyOnWrite w.page) s = .next t ∧ t.cows = s.cows.filter (fun x => x.page != w.page) ∧
      (∀ r g, s.group? r = some g → ∃ g', t.group? r = some g' ∧ g' = { g with mcmds := g'.mcmds, tx := g'.tx }) ∧
      BytesKeptOutside s t (.phys w.dest) 65536 ∧ t.readBytes (.phys w.dest) 65536 = s.readBytes (.phys w.page) 65536 ∧
      t.versions.find? (fun x => x.page == w.page) = some u ∧ u.cur = w.step ∧ u.pub = false ∧ u.retired = false ∧
      u.tenant = v.tenant ∧
      (∀ q, (u.rset.find? fun r => r.step == q) =
        match v.rset.find? fun r => r.step == q && (r.copy.isSome || !r.retired) with
        | some r => some { r with copy := r.copy.or (some w.dest) }
        | none => if q = v.cur ∧ v.retired = false then some ⟨q, some w.dest, false⟩ else none) ∧
      ∀ k, k ≠ w.page → t.versions.find? (fun x => x.page == k) = s.versions.find? (fun x => x.page == k)) ∧
  (∀ (s : State) (n page : Nat), (∀ h ∈ s.stepReads, h.place ≠ .phys page) →
    (∀ g ∈ s.groups, ∀ k b, g.swait ≠ some (.reads k b)) →
    exec (.poolPageReturn n page) s = .next { s with returning := s.returning.filter fun p => p != (n, page) }) ∧
  ∀ (s : State) (q : Coll), MemoryCanonical s → s.coll? q.id = some q → (s.block? q.grp.blk).isSome = true →
    let bar : Place := .sp q.grp.blk q.bar
    let old := barrierAt s q.grp.blk q.bar
    let left := (old.count + 2 ^ 64 - collBytes q.dst % 2 ^ 64) % 2 ^ 64
    let ends (i : Instr) (out : List (Place × Nat)) (more : List Arrival) (post : State → Prop) : Prop := ∃ t, exec i s = .next t ∧
      t.colls = s.colls.filter (fun x => x.id != q.id) ∧ t.arrivals = s.arrivals ++ more ∧ BytesKeptBut s t (out ++ [(bar, 16)]) ∧
      ((∀ o ∈ out, o.1.meets o.2 bar 16 = false) → barrierAt t q.grp.blk q.bar = { old with count := left } ∧ post t)
    let moves := haloMoves q.src q.dst
    let rangeOf (m : Move) : List (Place × Nat) := match m.dst with
      | some va => q.dheld.range va m.n
      | none => []
    let inBlock (p : Place) : Prop := ∀ b o, p = .sp b o → (s.block? b).isSome = true
    (q.reduce = false → s.peersUp q = true →
      ends (.haloExchange q.id) (moves.flatMap rangeOf)
        (match q.rph with
          | some (va, obj, attr) => [⟨s.nextId, q.grp, q.pc.zeroExtend 64, obj, va, attr, .arrive q.runits, true,
              ((s.group? q.grp).map (·.segIssued)).getD 0, false⟩]
          | none => [])
        fun t => ∀ m ∈ moves, ∀ a p, m.src = some a → rangeOf m = [(p, m.n)] → (s.heldBytes q.sheld a m.n).length = m.n →
          inBlock p → (∀ m' ∈ moves, m' ≠ m → ∀ o ∈ rangeOf m', o.1.meets o.2 p m.n = false) →
          t.readBytes p m.n = s.heldBytes q.sheld a m.n) ∧
    (sameUnits q.src q.dst = true → ∀ c ∈ q.src.coords (max (fmtBlockLen q.src.fmt) 1), ∀ va, q.dst.unitAddr c .bytes = some va →
      ∃ m ∈ moves, m.src = q.src.unitAddr c .bytes ∧ m.dst = some va ∧ m.n = fmtBytes q.src.fmt) ∧
    (∀ members : List (List Byte), q.reduce = true → s.peersUp q = true → members.length = q.members.length →
      (∀ m ∈ members, m.length = contribBytes q.src.fmt * q.src.count) →
      ends (.allReduce q.id members) (q.dst.elements.flatMap fun e => q.dheld.range e.1 e.2) []
        fun t => ∀ k c va n p, (q.src.coords 1)[k]? = some c → q.dst.elements[k]? = some (va, n) → k < q.src.count →
          fmtBlockLen q.dst.fmt = 0 → n = fmtBytes q.dst.fmt → fmtBytes q.dst.fmt = fmtBytes q.dfmt →
          q.dheld.range va n = [(p, n)] → inBlock p →
          (∀ k' e, q.dst.elements[k']? = some e → k' ≠ k → ∀ o ∈ q.dheld.range e.1 e.2, o.1.meets o.2 p n = false) →
          let w := contribBytes q.src.fmt
          let given (i : Nat) : Nat := if i = q.members.idxOf s.mgmt.uaId then (s.ownContrib q c).1
            else leNat (((members.getD i []).drop (w * k)).take w)
          ∃ v, t.readBytes p n = leBytes n v ∧ Reduced q.src.fmt q.dfmt ((List.range members.length).map given) v) ∧
    let failed (st : Nat) : Prop := ∃ t, exec (.collectiveFailure q.id (BitVec.ofNat 3 st)) s = .next t ∧
      t.colls = s.colls.filter (fun x => x.id != q.id) ∧ BytesKeptOutside s t bar 16 ∧
      barrierAt t q.grp.blk q.bar = { old with count := left, fidx := 0, flags := old.flags ||| 1 } ∧
      ∀ g, s.group? q.grp = some g → g.status = .resident → ∃ g', t.group? q.grp = some g' ∧ g'.pc = g.pc ∧ g'.x = g.x ∧
        g'.held = g.held ++ [⟨.copy, q.pc.zeroExtend 64, 0, BitVec.ofNat 32 (4 * 256 + 65536 * st), s.aoc⟩]
    let xtl := (s.tenant q.tenant).xtl.toNat
    (q.reduce = true → failed 1 ∧ (xtl ≠ 0 → q.accepted + 1000 * xtl ≤ s.aoc.toNat → failed 2)) ∧
    ((∃ d ∈ q.peers, d ∈ s.lost) → failed 3) ∧ (xtl = 0 → exec (.collectiveFailure q.id 2) s = .next s)

/-! ## Memory system, peers, host -/

/-- R61, R195, R205, R209 to R214, R219, R330, R332, R355, R373, R375, R376: a home serves or refuses; the owner hands a page over;
peers and the host read and write tenants' memory, the host its own and a management controller its window; a link in recovery is up
again or lost, and then the groups that wait at a phaser of that peer have their machine check; an error poisons its sector, or in a
group's registers is its machine check, and is logged; a page that Ocard holds locked is written by nobody else; a link retrains.
That the host and controllers wait for the lock, and a peer is refused, is the model's reading (log 49). Six requester ports and the
form of refusals are the model's reading (log 39), and so are the 64 KiB of a page whose owner changes (log 45) and the engine's
lines that an access waits for (log 22); a snoop changes nothing (log 2), a page's loss aborts a transaction that has lines of it
(log 47), and controllers' writes, which end a copy under way (log 40), and errors of the bits beside memory are log 55. -/
def Obligations.LinksServeTheirRequests : Prop :=
  (∀ (s : State) (line port : Nat) (q : LineReq), port < 6 →
    let d := s.dirLine line
    (d.reserved = none → ∃ t, exec (.homeRetry line [(port, q)] false) s = .next t ∧ { t with dir := s.dir } = s ∧
      (∀ k, k ≠ line → t.dirLine k = s.dirLine k) ∧ ∀ i : Fin 6, (t.dirLine line).states[i] =
        let others := decide (∃ j : Fin 6, j.val ≠ port ∧ d.states[j] ≠ .invalid)
        match q with
        | .exclusive => if i.val = port then .modified else .invalid
        | .giveUp => if i.val = port then .invalid else d.states[i]
        | .read =>
          if i.val = port then (if d.states[i] = .invalid then (if others then .shared else .exclusive) else d.states[i])
          else match d.states[i] with
            | .modified => .owned
            | .exclusive => .shared
            | x => x) ∧
    (∃ t, exec (.homeRetry line [(port, q)] true) s = .next t ∧ { t with dir := s.dir } = s ∧
      (t.dirLine line).states = d.states ∧ (t.dirLine line).refusals = (if d.refusals = 15 then 0 else d.refusals + 1) ∧
      (d.refusals = 15 → (t.dirLine line).reserved.isSome = true) ∧
      (t.dirLine line).waiting.any (fun w => w.port == port) = true)) ∧
  (∀ (s : State) (page : PAddr) (dev : BitVec 10), page.space ≠ .host → s.uaOn = true →
    let key := physKey page / 65536 * 65536
    s.owner key ≠ dev.toNat → s.linkUp (s.owner key) = true → s.linkUp dev.toNat = true → s.linkUp (s.holder key) = true →
    ∃ t, exec (.ownershipRequest page dev) s = .next t ∧ { t with owners := s.owners, dir := s.dir, groups := s.groups } = s ∧
      (∀ q g, s.group? q = some g → ∃ h, t.group? q = some h ∧ h = { g with tx := h.tx } ∧
        ∀ x l, s.owner key = s.mgmt.uaId → g.tx = some x → l ∈ x.lines → 128 * l / 65536 * 65536 = key →
          ∃ y, h.tx = some y ∧ y.abort.isSome = true) ∧
      t.owner key = dev.toNat ∧ (∀ k, k ≠ key → t.owner k = s.owner k) ∧
      (s.owner key = s.mgmt.uaId → ∀ d ∈ t.dir, d.line * 128 / 65536 * 65536 = key → ∀ i : Fin 6, d.states[i] = .invalid)) ∧
  (∀ (s : State) (n addr : Nat), MemoryCanonical s → s.uaOn = true → s.tenantUp n = true →
    let free (m : Nat) : Prop := (s.tenant n).inWindow addr m = true ∧ addr + m ≤ 2 ^ 39 ∧ s.lineHeld none (.phys addr) m = false
    let locked (m : Nat) : Prop := s.lockedRange addr m = true
    let live (m : Nat) : Prop := (∀ v ∈ s.versions, v.page ∈ localPages addr m → v.pub = false) ∧
      (∀ w ∈ s.cows, w.page ∉ localPages addr m) ∧ ¬ locked m
    (∀ m, 64 ≤ m → m ≤ 256 → free m → s.poisoned (.phys addr) m = none → ∃ t, exec (.peerAccess n addr (.read m)) s = .next t ∧
      BytesKept s t ∧ t.reply = .data (s.readBytes (.phys addr) m)) ∧
    (∀ m, 64 ≤ m → m ≤ 256 → (s.tenant n).inWindow addr m = false →
      exec (.peerAccess n addr (.read m)) s = .next { s with reply := .refused .protection 0 }) ∧
    (∀ op : PeerOp, peerFits op addr = true → (∀ m, op ≠ .read m) → locked (peerSize op) →
      exec (.peerAccess n addr op) s = .next { s with reply := .refused .protection 0 }) ∧
    (∀ bytes : List Byte, 64 ≤ bytes.length → bytes.length ≤ 256 → free bytes.length → live bytes.length →
      ∃ t, exec (.peerAccess n addr (.write bytes)) s = .next t ∧ t.reply = .none ∧
        BytesKeptOutside s t (.phys addr) bytes.length ∧ t.readBytes (.phys addr) bytes.length = bytes) ∧
    (∀ (ty : Ty) (op : Aop) (v c : Word), op.okFor ty = true → addr % (ty.width / 8) = 0 → free (ty.width / 8) →
      live (ty.width / 8) → s.poisoned (.phys addr) (ty.width / 8) = none →
      let m := ty.width / 8
      let old := s.readNat (.phys addr) m
      ∃ t, exec (.peerAccess n addr (.atomic ty op v c)) s = .next t ∧ t.reply = .data (leBytes m old) ∧
        BytesKeptOutside s t (.phys addr) m ∧ t.readNat (.phys addr) m =
          aopLane op ty old (v.toNat % 2 ^ (8 * m)) (c.toNat % 2 ^ (8 * m)) % 2 ^ (8 * m)) ∧
    ∀ units : BitVec 16, addr % 16 = 0 → free 16 → live 16 → s.poisoned (.phys addr) 16 = none →
      ∃ t, exec (.peerAccess n addr (.arrival units)) s = .next t ∧ t.reply = .none ∧ BytesKeptOutside s t (.phys addr) 16 ∧
        Arrived (s.phaserAt (.phys addr)) (t.phaserAt (.phys addr)) units.toNat) ∧
  (∀ (s : State) (n host addr m : Nat), MemoryCanonical s → s.cxlMemOn = true → s.regionOf host m = some (n, addr) → 0 < m →
    addr + m ≤ 2 ^ 39 → s.ownsRange addr m = true → s.lineHeld none (.phys addr) m = false →
    (s.poisoned (.phys addr) m = none → ∃ t, exec (.hostRead (.mem host) m) s = .next t ∧ BytesKept s t ∧
      t.reply = .data (s.readBytes (.phys addr) m)) ∧
    ∀ bytes : List Byte, bytes.length = m → addr % 65536 + m ≤ 65536 →
      (s.locked (addr / 65536 * 65536) = true → exec (.hostWrite (.cxlMem host) bytes) s = .next s) ∧
      ((∀ v ∈ s.versions, v.page = addr / 65536 * 65536 → v.pub = false) → (∀ w ∈ s.cows, w.page ≠ addr / 65536 * 65536) →
        s.locked (addr / 65536 * 65536) = false →
        ∃ t, exec (.hostWrite (.cxlMem host) bytes) s = .next t ∧ BytesKeptOutside s t (.phys addr) m ∧
          t.readBytes (.phys addr) m = bytes)) ∧
  (∀ (s : State) (addr : Nat) (bytes : List Byte), MemoryCanonical s →
    (addr + bytes.length ≤ 2 ^ 52 → s.lineHeld none (.phys (2 ^ 52 + addr)) bytes.length = false →
      s.lockedRange (2 ^ 52 + addr) bytes.length = false → ∃ t, exec (.hostWrite (.ownMemory addr) bytes) s = .next t ∧
      BytesKeptOutside s t (.phys (2 ^ 52 + addr)) bytes.length ∧ t.readBytes (.phys (2 ^ 52 + addr)) bytes.length = bytes) ∧
    ∀ i : BitVec 2, let w := s.mgmt.mcw.toList.getD i.toNat (0, 0)
      let inside : Prop := w.1.toNat ≤ addr ∧ addr + bytes.length ≤ w.1.toNat + w.2.toNat
      let held : Prop := s.lockedRange addr bytes.length = true ∨ s.lineHeld none (.phys addr) bytes.length = true
      (inside → addr + bytes.length ≤ 2 ^ 39 → held → exec (.hostWrite (.controller i addr) bytes) s = .next s) ∧
      (inside → addr + bytes.length ≤ 2 ^ 39 → ¬ held → ∃ t, exec (.hostWrite (.controller i addr) bytes) s = .next t ∧
        BytesKeptBut s t ((.phys addr, bytes.length) :: copiesUnderWay s) ∧ t.readBytes (.phys addr) bytes.length = bytes) ∧
      (¬ inside → exec (.hostWrite (.controller i addr) bytes) s =
        .next { s with mgmt := { s.mgmt with log := .controllerDropped i.toNat addr :: s.mgmt.log } })) ∧
  (∀ (s : State) (dev : BitVec 10),
    (dev.toNat ∉ s.lost → (∀ r ∈ s.recovering, r.1 ≠ dev.toNat) → dev.toNat ≠ s.mgmt.uaId →
      ∃ t, exec (.peerRecoveryStart dev) s = .next t ∧ t.recovering = s.recovering ++ [(dev.toNat, s.aoc.toNat)] ∧
        { t with recovering := s.recovering, mgmt := s.mgmt } = s ∧ t.mgmt = { s.mgmt with log := .link dev.toNat :: s.mgmt.log }) ∧
    exec (.peerRecoveryEnd dev) s = .next { s with recovering := s.recovering.filter fun r => r.1 != dev.toNat } ∧
    (∀ r, s.recovering.find? (fun r => r.1 == dev.toNat) = some r → r.2 + 1000000 ≤ s.aoc.toNat →
      ∃ t, exec (.peerLost dev) s = .next t ∧ t.lost = s.lost ++ [dev.toNat] ∧ (∀ r ∈ t.recovering, r.1 ≠ dev.toNat) ∧
        { t with recovering := s.recovering, lost := s.lost, mgmt := s.mgmt, groups := s.groups } = s ∧
        (∀ q g, s.group? q = some g → ∃ h, t.group? q = some h ∧ h = { g with detected := h.detected } ∧
          ∃ more, h.detected = g.detected ++ more ∧ ∀ i ∈ more, i.code = .mcheck) ∧
        ∀ q g k va attr bit, s.group? q = some g → s.blockAbandoned q = false → g.swait = some (.phaser (.phys k) va attr bit) →
          2 ^ 53 ≤ k → k / 2 ^ 52 - 2 = dev.toNat →
          ∃ h, t.group? q = some h ∧ ∃ i ∈ h.detected, i.code = .mcheck ∧ i.taddr = va ∧ i.tpc = (g.pc.extractLsb' 0 32).zeroExtend 64)) ∧
  ∀ s : State,
    let logged (t : State) (p : ErrPlace) (corrected : Bool) : Prop :=
      t.mgmt = { s.mgmt with log := .ecc p corrected :: s.mgmt.log } ∧ BytesKept s t
    (∀ p : PAddr, physKey p < 2 ^ 39 ∨ p.space ≠ .hbm →
      (∃ t, exec (.memoryError ⟨.mem p, false⟩) s = .next t ∧ logged t (.mem p) false ∧
        ∀ i, i ∈ t.poison ↔ i = physKey p / 32 ∨ i ∈ s.poison) ∧
      ∃ t, exec (.memoryError ⟨.mem p, true⟩) s = .next t ∧ logged t (.mem p) true ∧ { t with mgmt := s.mgmt } = s) ∧
    (∀ (b : Block) (off : Nat), s.block? b.id = some b → off < 2 ^ 19 →
      ∃ t b', exec (.memoryError ⟨.scratch b.id off, false⟩) s = .next t ∧ logged t (.scratch b.id off) false ∧
        t.block? b.id = some b' ∧ b' = { b with poison := b'.poison } ∧ ∀ i, i ∈ b'.poison ↔ i = off / 32 ∨ i ∈ b.poison) ∧
    (∀ (r : GroupRef) (g : Group), s.group? r = some g → g.status = .resident ∨ g.status = .preempted →
      (∃ t, exec (.memoryError ⟨.registers r, true⟩) s = .next t ∧ logged t (.registers r) true ∧ { t with mgmt := s.mgmt } = s) ∧
      ∃ t, exec (.memoryError ⟨.registers r, false⟩) s = .next t ∧ logged t (.registers r) false ∧
        OnlyGroup { s with mgmt := t.mgmt } t r ∧ t.group? r = some { g with detected := g.detected ++
          [⟨.mcheck, if g.status = .preempted then g.rstart else (g.pc.extractLsb' 0 32).zeroExtend 64, 0, 2, s.aoc⟩] }) ∧
    (∀ line inv, exec (.cxlCacheSnoop line inv) s = .next s) ∧
    exec .laneFailure s = .next { s with mgmt := { s.mgmt with cxlWidth := 8, log := .cxlWidth 8 :: s.mgmt.log } }

/-! ## Management -/

/-- R203, R206, R274, R321, R372, R373: mailbox commands end with their status and vector 9 and change the registers they name; a
command that changes translations waits, busy, while accepted commands hold pages, one that changes a lease while commands wait or
work on its window; a pool is refused while a retained entry refers to one of its pages; the two host ranges recall their lines. A
bump of GEN has no other effect here (log 2). That the DIE of a lease word whose EN is clear is not checked is the model's choice
(log 69). How arguments are masked, and that moving a pool gives up the copies under way into the old pool's pages, is the model's
reading (log 37). -/
def Obligations.MailboxCommandsEnd : Prop :=
  ∀ (s : State) (n : Nat), s.tenantUp n = true → s.cxlOn = true → (s.tenant n).mbBusy = none →
    let x := s.tenant n
    let a := x.mbArg0
    let b := x.mbArg1
    let page (v : Word) : Word := BitVec.ofNat 64 (v.toNat / 2 ^ 16 % 2 ^ 36 * 2 ^ 16)
    let ends (i : Instr) (st : BitVec 8) (f : State) (y : Tenant) : Prop := ∃ t, exec i s = .next t ∧ OnlyTenant f t n ∧
      t.tenant n = { y with mbBusy := none, mbStatus := st, vectors := 9 :: y.vectors }
    let waits (i : Instr) (c : Nat) : Prop := ∃ t, exec i s = .next t ∧ OnlyTenant s t n ∧ t.tenant n = { x with mbBusy := some (c, a, b) }
    (∀ asid, s.holdsPages n = false →
      ends (.mbSetRoot n asid) 0 s { x with txRoot := page a, asid := asid, gen := x.gen + 1 } ∧
      ends (.mbBumpGen n) 0 s { x with gen := x.gen + 1 }) ∧
    (∀ asid, s.holdsPages n = true → waits (.mbSetRoot n asid) 1 ∧ waits (.mbBumpGen n) 2) ∧
    ((∃ v ∈ s.versions, ∃ r ∈ v.rset, ∃ f ∈ x.pool, r.copy = some f) → ends (.mbSetPool n) 2 s x) ∧
    ((∀ v ∈ s.versions, ∀ r ∈ v.rset, ∀ f, r.copy = some f → f ∉ x.pool) →
      let base := page a
      let npg := b.toNat % 2 ^ 24
      (npg = 0 ∨ x.inWindow base.toNat (npg * 65536) = true → ends (.mbSetPool n) 0
        { s with cows := s.cows.filter fun w => !x.pool.contains w.dest } { x with vpBase := base, npg := npg }) ∧
      (npg ≠ 0 → x.inWindow base.toNat (npg * 65536) = false → ends (.mbSetPool n) 2 s x)) ∧
    (∀ (w : Fin 4), b.toNat % 4 = w.val →
      let v := leaseWord a
      let inLease (l : Word) (z : Cell) : Bool := match leaseCells l with
        | some (die, first, m) => z.die == die && decide (first ≤ z.cell) && decide (z.cell < first + m)
        | none => false
      let busy : Prop := (∃ q ∈ s.gbcmds, q.tenant = n ∧ q.window = w.val) ∨
        ∃ g ∈ s.groups, s.tenantOf g = n ∧ g.swait.isSome = true ∧ g.swait ≠ some .stateWrite ∧ ∃ c x y, s.ctxOf g = some c ∧
          (∃ i ∈ [Instr.gbload y x, .gbclamp y x, .gbread y x, .gbsweep x, .gbstat y x], s.issueScalar c = .ok i) ∧
          (g.getX x).toNat / 2 ^ 20 % 4 = w.val
      (busy → waits (.mbSetLease n) 4) ∧
      (¬ busy → s.leaseOk n w.val v = false → ends (.mbSetLease n) 2 s x) ∧
      (¬ busy → s.leaseOk n w.val v = true → ends (.mbSetLease n) 0
        { s with cells := s.cells.filter fun z => !inLease x.leases[w] z && !inLease v z }
        { x with leases := x.leases.set w.val v, sweeps := x.sweeps.set w.val 0, changes := x.changes.set w.val 0
                 noise := x.noise.set w.val 0 })) ∧
    let st := if a.toNat % 65536 ≠ 0 ∨ b = 0 ∨ b.toNat % 65536 ≠ 0 then 1 else if x.inWindow a.toNat b.toNat then 0 else 2
    let marked (t : Tenant) (p : Nat) : Prop := ∃ r ∈ t.hdmDb, r.1 ≤ p ∧ p < r.1 + r.2
    let inRange (p : Nat) : Prop := a.toNat ≤ p ∧ p < a.toNat + b.toNat
    let recalled : State := { s with dir := s.dir.map fun d =>
      if a.toNat ≤ 128 * d.line ∧ 128 * d.line < a.toNat + b.toNat then { d with states := Vector.replicate 6 .invalid } else d }
    (st ≠ 0 → ends (.mbHostCoherent n) (BitVec.ofNat 8 st) s x ∧ ends (.mbHostPlain n) (BitVec.ofNat 8 st) s x) ∧
    (st = 0 → (∃ y, ends (.mbHostCoherent n) 0 recalled y ∧ y = { x with hdmDb := y.hdmDb } ∧
        ∀ p, marked y p ↔ inRange p ∨ marked x p) ∧
      ∃ y, ends (.mbHostPlain n) 0 recalled y ∧ y = { x with hdmDb := y.hdmDb } ∧ ∀ p, marked y p ↔ ¬ inRange p ∧ marked x p)

/-- R4, R46 to R49, R60, R61, R321, R339, R340, R349, R356, R367, R371, R372, R375 to R378: writes of registers, by name or by page
and offset, keep their fields, limits and locks, and reads give their words, on a tenant's pages while the CXL link is enabled;
reset empties the device and reports self-test, a failure meaning the safe state; power and temperature move each die's clock; the
counter slews by a tick; dies are divided and tenants created. Clocks and ceilings after reset (log 5), HBM4E reading 0 (log 4), the
average over fewer than 100 samples, a LOGN outside 4 to 12 that leaves LOGN as it is and the other registers of a created tenant
that keep their values (log 37), an `LQ_BASE` that is no multiple of 4,096 and is kept (log 50), the way to a tenant's pages over
the CXL link (log 43), the recheck of read launches against a new division (log 54), and the release of leases on dies that a new
division takes from their tenant (log 69) are the model's choices. -/
def Obligations.ManagementFollowsItsRegisters : Prop :=
  ∀ s : State,
    (∀ (n : Nat) (completion : Bool) (v : Word), s.vfUp n = true →
      let ring (t : State) : Ring := if completion then (t.tenant n).cq else (t.tenant n).fq
      let old := ring s
      let size := v.toNat % 32
      let starts := v.getLsbD 31 && !old.en
      ∃ t, exec (.fqCtl n completion v) s = .next t ∧ OnlyTenant s t n ∧ ring t = { old with
        en := v.getLsbD 31, irq := v.getLsbD 30, logn := if old.en = false ∧ 4 ≤ size ∧ size ≤ 12 then size else old.logn
        get := if starts then 0 else old.get, put := if starts then 0 else old.put }) ∧
    (∀ (r : RegName) (v : Word), ∃ t, exec (.registerWrite r v) s = .next t ∧
      (∀ n q, r = .lqBase n q → s.vfUp n = true → q < 8 → OnlyTenant s t n ∧ t.queue n q =
        if (s.queue n q).en then s.queue n q else { s.queue n q with base := BitVec.ofNat 64 (v.toNat % 2 ^ 52) }) ∧
      (∀ n, r = .ocImg n → s.vfUp n = true → OnlyTenant s t n ∧ t.tenant n =
        if (s.tenant n).ocBusy then s.tenant n else { s.tenant n with ocImg := BitVec.ofNat 64 (v.toNat % 2 ^ 52) }) ∧
      (∀ n, r = .ocDst n → s.vfUp n = true → OnlyTenant s t n ∧ t.tenant n =
        if (s.tenant n).ocBusy then s.tenant n else { s.tenant n with ocDst := BitVec.ofNat 64 (v.toNat % 2 ^ 52) }) ∧
      (∀ n, r = .ocDsize n → s.vfUp n = true → OnlyTenant s t n ∧ t.tenant n =
        if (s.tenant n).ocBusy then s.tenant n else { s.tenant n with ocDsize := v }) ∧
      (∀ n, r = .wdCtl n → s.vfUp n = true → OnlyTenant s t n ∧
        t.tenant n = { s.tenant n with xtl := v.extractLsb' 32 32, wdl := v.extractLsb' 0 32 }) ∧
      (∀ n, r = .fqPtr n → s.vfUp n = true → OnlyTenant s t n ∧
        t.tenant n = { s.tenant n with fq := { (s.tenant n).fq with get := v.extractLsb' 32 32 } }) ∧
      (∀ n, r = .mbCmd n → s.vfUp n = true → (s.tenant n).mbBusy = none → OnlyTenant s t n ∧
        let c := v.toNat % 256
        t.tenant n = if 1 ≤ c ∧ c ≤ 6 then { s.tenant n with mbBusy := some (c, (s.tenant n).mbArg0, (s.tenant n).mbArg1) }
          else { s.tenant n with mbStatus := 3, vectors := 9 :: (s.tenant n).vectors }) ∧
      (r = .pwrCeil → t = if s.mgmt.bootLock then s else
        { s with mgmt := { s.mgmt with pwrCeil := min (v.toNat % 2 ^ 12) 2600 } }) ∧
      (r = .linkEn →
        let u : State := if s.mgmt.bootLock then s else { s with mgmt := { s.mgmt with linkEn := v.extractLsb' 0 17 } }
        t = if u.cxlOn then { u with tenants := u.tenants.map fun x => { x with
          vectors := x.vectorsDue ++ x.vectors, vectorsDue := [] } } else u) ∧
      (r = .aoc → t.aoc = if s.tenants.any (·.created) then s.aoc else v)) ∧
    (∀ (n q : Nat) (v : Word), q < 8 →
      let control (off : Nat) := exec (.registerWrite (.control n off) v) s
      let view (off : Nat) := exec (.registerWrite (.view n off) v) s
      control (0x40 * q) = exec (.registerWrite (.lqBase n q) v) s ∧ control (0x40 * q + 0x08) = exec (.lqCtl n q v) s ∧
      control (0x40 * q + 0x10) = .next s ∧ control (0x40 * q + 0x18) = exec (.lqDb n q v) s ∧
      control 0x400 = exec (.registerWrite (.ocImg n) v) s ∧ control 0x408 = exec (.registerWrite (.ocDst n) v) s ∧
      control 0x410 = exec (.registerWrite (.ocDsize n) v) s ∧ control 0x800 = exec (.registerWrite (.l2pBase n) v) s ∧
      ((s.tenant n).ocBusy = true → control 0x418 = .next s) ∧
      (s.vfUp n = true → (s.tenant n).ocBusy = false → v.toNat % 4 = 1 → control 0x418 = exec (.ocLoad n) s) ∧
      (s.vfUp n = true → (s.tenant n).ocBusy = false → v.toNat % 4 = 2 →
        control 0x418 = exec (.ocUnload n (v.extractLsb' 16 16)) s) ∧
      (s.cxlOn = false → ∀ off, control off = .next s ∧ view off = .next s) ∧
      view 0x000 = exec (.registerWrite (.fqBase n) v) s ∧ view 0x008 = exec (.fqCtl n false v) s ∧
      view 0x010 = exec (.registerWrite (.fqPtr n) v) s ∧ view 0x020 = exec (.registerWrite (.cqBase n) v) s ∧
      view 0x028 = exec (.fqCtl n true v) s ∧ view 0x030 = exec (.registerWrite (.cqPtr n) v) s ∧
      view 0x040 = exec (.registerWrite (.wdCtl n) v) s ∧ view 0x048 = exec (.registerWrite (.vxStep n) v) s ∧
      view 0x100 = exec (.registerWrite (.mbCmd n) v) s ∧ view 0x108 = exec (.registerWrite (.mbArg0 n) v) s ∧
      view 0x110 = exec (.registerWrite (.mbArg1 n) v) s ∧
      (∀ off, off ∉ [0x000, 0x008, 0x010, 0x020, 0x028, 0x030, 0x040, 0x048, 0x100, 0x108, 0x110] → view off = .next s) ∧
      (n < 16 → exec (.registerWrite (.pf0 (0x1000 + 0x20 * n)) v) s = exec (.registerWrite (.twBase n) v) s ∧
        exec (.registerWrite (.pf0 (0x1008 + 0x20 * n)) v) s = exec (.registerWrite (.twSize n) v) s)) ∧
    (∀ n q : Nat, s.vfUp n = true → q < 8 →
      let reads (i : HostItem) (v : Word) : Prop := exec (.hostRead i 8) s = .next { s with reply := .data (leBytes 8 v.toNat) }
      let x := s.tenant n
      reads (.control n (0x40 * q + 0x10)) ((s.queue n q).ret ++ (s.queue n q).head) ∧ reads (.control n (0x40 * q + 0x18)) 0 ∧
      reads (.view n 0x010) (x.fq.get ++ x.fq.put) ∧ reads (.view n 0x040) (x.xtl ++ x.wdl) ∧ reads (.view n 0x080) x.txRoot ∧
      reads (.view n 0x108) x.mbArg0 ∧ reads (.view n 0x100) 0) ∧
    (∀ (n off k : Nat), s.cxlOn = false → exec (.hostRead (.control n off) k) s = .next s ∧ exec (.hostRead (.view n off) k) s = .next s) ∧
    (∀ (k : Nat) (i : BitVec 2) (n : Fin 16),
      let reads (j : HostItem) (v : Word) : Prop := exec (.hostRead j k) s = .next { s with reply := .data (leBytes 8 v.toNat) }
      reads (.register .pwrCeil) (BitVec.ofNat 64 s.mgmt.pwrCeil) ∧ reads (.register .clkCeil) (BitVec.ofNat 64 s.mgmt.clkCeil) ∧
      reads (.register .linkEn) (s.mgmt.linkEn.zeroExtend 64) ∧ reads (.register (.mcw i false)) (s.mgmt.mcw[i.toNat]'i.isLt).1 ∧
      reads (.register (.mcw i true)) (s.mgmt.mcw[i.toNat]'i.isLt).2 ∧ reads (.register .uaId) (BitVec.ofNat 64 s.mgmt.uaId) ∧
      reads (.pf0 (0x1000 + 0x20 * n.val)) (s.tenant n.val).twBase ∧ reads (.pf0 (0x1008 + 0x20 * n.val)) (s.tenant n.val).twSize) ∧
    exec (.hostRead .stStat 4) s = .next { s with reply := .data (leBytes 4 s.mgmt.stStat.toNat) } ∧
    (∀ f : BitVec 16, ∃ t, exec (.reset f) s = .next t ∧ t.groups = [] ∧ t.blocks = [] ∧ t.launches = [] ∧ t.containers = [] ∧
      t.versions = [] ∧ t.tenants = State.reset.tenants ∧ t.aoc = 0 ∧ t.present = s.present ∧ t.mgmt.bootLock = false ∧
      t.mgmt.linkEn = 0 ∧ t.mgmt.stStat = 0x80000000#32 + f.zeroExtend 32 ∧ t.mgmt.safe = decide (f ≠ 0) ∧
      ∀ k, t.mem.read k = if k < 2 ^ 52 then 0 else s.mem.read k) ∧
    exec .bootLock s = .next { s with mgmt := { s.mgmt with bootLock := true } } ∧
    (∀ watts : Nat, ∃ t, exec (.powerSample watts) s = .next t ∧ { t with mgmt := s.mgmt } = s ∧
      t.mgmt.samples = (watts :: s.mgmt.samples).take 100 ∧
      let sum := t.mgmt.samples.sum
      let n := t.mgmt.samples.length
      ∀ d : Fin 4, let c := s.mgmt.clocks[d]
        t.mgmt.clocks[d] = if s.mgmt.hot[d] then c
          else if s.mgmt.pwrCeil * n < sum then min c (max 400 (c - 25))
          else if 100 * sum < 95 * (s.mgmt.pwrCeil * n) then max c (min s.mgmt.clkCeil (c + 25)) else c) ∧
    (∀ (die : BitVec 2) (on : Bool), ∃ t, exec (.overTemperature ⟨die, on⟩) s = .next t ∧ { t with mgmt := s.mgmt } = s ∧
      t.mgmt = { s.mgmt with hot := t.mgmt.hot, clocks := t.mgmt.clocks } ∧
      ∀ d : Fin 4, t.mgmt.hot[d] = (if d.val = die.toNat then on else s.mgmt.hot[d]) ∧
        t.mgmt.clocks[d] = if d.val = die.toNat ∧ on = true then min s.mgmt.clkCeil 400 else s.mgmt.clocks[d]) ∧
    (s.mgmt.lastSlew + 2000 ≤ s.aoc.toNat → ∃ t u, exec (.aocSlew true) s = .next t ∧ exec (.aocSlew false) s = .next u ∧
      t.aoc = s.aoc + 1 ∧ u.aoc = s.aoc ∧ t.mgmt.lastSlew = (s.aoc + 1).toNat ∧ u.mgmt.lastSlew = s.aoc.toNat ∧ t.groups = s.groups) ∧
    (∀ (div : Nat) (bind : List Nat), div ∈ [1, 2, 4] → bind.length = 16 → (∀ p ∈ bind, p < div) →
      (∀ l ∈ s.launches, l.state ≠ .admitted) →
      let s1 : State := { s with mgmt := { s.mgmt with division := div }
                                 tenants := s.tenants.mapIdx fun i x => { x with partition := bind.getD i 0 } }
      let stray (n w : Nat) : Prop := (n, w) ∈ s1.strayLeases
      ((∃ n w, stray n w ∧ s.windowBusy n w = true) → exec (.partitionConfigure div bind) s = .next s) ∧
      ((∀ n w, ¬ stray n w) → (∀ l ∈ s.launches, l.state.waiting = true → s1.tableOk l = true) →
        exec (.partitionConfigure div bind) s = .next s1) ∧
      ((∀ n w, stray n w → s.windowBusy n w = false) → ∃ t, exec (.partitionConfigure div bind) s = .next t ∧ t.mgmt.division = div ∧
        (∀ n w, n < 16 → w < 4 → stray n w → leaseCells ((t.tenant n).leases[w]?.getD 0) = none) ∧
        (∀ n w, ¬ stray n w → (t.tenant n).leases[w]? = (s.tenant n).leases[w]?) ∧
        ∀ l, s.launch? l.uid = some l → l.state.waiting = true → s1.tableOk l = false →
          ∀ m, t.launch? l.uid = some m → m.state = .refused 6)) ∧
    ∀ n : Nat, n < 16 → s.mgmt.safe = false → (s.tenant n).created = false →
      ∃ t, exec (.tenantCreate n) s = .next t ∧ OnlyTenant s t n ∧
        t.tenant n = { s.tenant n with created := true, ocTmeas := List.replicate 32 0 }
end

