-- ==== Sys2Proof/Laws/Memory.lean ====
section
/-! SUPPORT. Laws of the sparse memory: reading what was written, and that every memory operation keeps the canonical
form. -/

namespace Sys2Proof.Machine

open Sys2Proof

/-! ## One byte -/

theorem cellsWf_weaken {lo lo' : Option Nat} {l : List Host.Cell} (h : cellsWf lo l = true)
    (hlo : ∀ a, lo' = some a → ∃ b, lo = some b ∧ a ≤ b) : cellsWf lo' l = true := by
  cases l with
  | nil => rfl
  | cons e rest =>
    obtain ⟨k, b⟩ := e
    simp only [cellsWf, Bool.and_eq_true] at h ⊢
    refine ⟨⟨?_, h.1.2⟩, h.2⟩
    cases lo' with
    | none => rfl
    | some a =>
      obtain ⟨b', rfl, hab⟩ := hlo a rfl
      have := h.1.1
      simp only [decide_eq_true_eq] at this ⊢
      omega

theorem cellsWf_cons {lo : Option Nat} {a : Nat} {b : Byte} {l : List Host.Cell} (hlo : ∀ k, lo = some k → k < a)
    (hb : ¬b = 0#8) (h : cellsWf (some a) l = true) : cellsWf lo ((a, b) :: l) = true := by
  cases lo <;> simp_all [cellsWf]

/-- A key at or below the bound is not listed. -/
theorem readCells_below {l : List Host.Cell} {lo a : Nat} (h : cellsWf (some lo) l = true) (ha : a ≤ lo) :
    readCells l a = 0 := by
  cases l with
  | nil => rfl
  | cons e rest =>
    obtain ⟨k, b⟩ := e
    simp only [cellsWf, Bool.and_eq_true, decide_eq_true_eq] at h
    have hk : lo < k := h.1.1
    simp [readCells, show k ≠ a by omega, show a < k by omega]

theorem writeCells_wf {l : List Host.Cell} {lo : Option Nat} (a : Nat) (b : Byte) (h : cellsWf lo l = true)
    (hlo : ∀ k, lo = some k → k < a) : cellsWf lo (writeCells l a b) = true := by
  induction l generalizing lo with
  | nil =>
    by_cases hb : b = 0#8
    · simp [writeCells, hb, cellsWf]
    · cases lo <;> simp_all [writeCells, cellsWf]
  | cons e rest ih =>
    obtain ⟨k, c⟩ := e
    simp only [cellsWf, Bool.and_eq_true] at h
    obtain ⟨⟨hk, hc⟩, hr⟩ := h
    have hc' : ¬c = 0#8 := by simpa using hc
    unfold writeCells
    by_cases h1 : a < k
    · by_cases hb : b = 0#8
      · simp [h1, hb, cellsWf, hk, hc', hr]
      · simpa [h1, hb] using cellsWf_cons hlo hb (cellsWf_cons (by simpa using h1) hc' hr)
    · by_cases h2 : a = k
      · subst h2
        by_cases hb : b = 0#8
        · simp only [Nat.lt_irrefl, if_false, if_true, hb]
          exact cellsWf_weaken hr fun x hx => ⟨a, rfl, Nat.le_of_lt (hlo x hx)⟩
        · simpa [hb] using cellsWf_cons hlo hb hr
      · simp only [h1, h2, if_false, cellsWf, Bool.and_eq_true]
        refine ⟨⟨hk, hc⟩, ih hr fun x hx => ?_⟩
        simp only [Option.some.injEq] at hx
        omega

theorem readCells_writeCells {l : List Host.Cell} {lo : Option Nat} (a : Nat) (b : Byte) (h : cellsWf lo l = true)
    (a' : Nat) : readCells (writeCells l a b) a' = if a' = a then b else readCells l a' := by
  induction l generalizing lo with
  | nil =>
    by_cases hb : b = 0#8
    · simp [writeCells, readCells, hb]
    · by_cases ha : a' = a
      · simp [writeCells, readCells, hb, ha]
      · simp [writeCells, readCells, hb, ha, show a ≠ a' by omega]
  | cons e rest ih =>
    obtain ⟨k, c⟩ := e
    simp only [cellsWf, Bool.and_eq_true] at h
    obtain ⟨-, hr⟩ := h
    unfold writeCells
    by_cases h1 : a < k
    · by_cases hb : b = 0#8
      · by_cases ha : a' = a
        · subst ha; simp [h1, hb, readCells, show k ≠ a' by omega]
        · simp [h1, hb, ha]
      · by_cases ha : a' = a
        · subst ha; simp [h1, hb, readCells]
        · by_cases h3 : a' < a
          · simp [h1, hb, ha, readCells, show a ≠ a' by omega, h3, show k ≠ a' by omega, show a' < k by omega]
          · simp [h1, hb, ha, readCells, show a ≠ a' by omega, h3]
    · by_cases h2 : a = k
      · subst h2
        by_cases ha : a' = a
        · subst ha
          by_cases hb : b = 0#8
          · simp [hb, readCells_below hr (Nat.le_refl _)]
          · simp [hb, readCells]
        · by_cases hb : b = 0#8
          · simp only [Nat.lt_irrefl, if_false, if_true, hb, ha]
            by_cases h3 : a' < a
            · simp [readCells, show a ≠ a' by omega, h3, readCells_below hr (Nat.le_of_lt h3)]
            · simp [readCells, show a ≠ a' by omega, h3]
          · simp [hb, readCells, ha, show a ≠ a' by omega]
      · simp only [h1, h2, if_false, readCells]
        by_cases h3 : k = a'
        · subst h3; simp [show k ≠ a by omega]
        · simp only [h3, if_false]
          by_cases h4 : a' < k
          · simp [h4, show a' ≠ a by omega]
          · simp [h4, ih hr]

/-- A byte read after a byte written: the byte at the same key, the old one elsewhere. -/
theorem Memory.read_write (m : Memory) (h : m.wf = true) (a : Nat) (b : Byte) (a' : Nat) :
    (m.write a b).read a' = if a' = a then b else m.read a' :=
  readCells_writeCells a b h a'

theorem Memory.write_wf (m : Memory) (h : m.wf = true) (a : Nat) (b : Byte) : (m.write a b).wf = true :=
  writeCells_wf a b h (by simp)

theorem Memory.writeBytes_wf (m : Memory) (h : m.wf = true) (a : Nat) (l : List Byte) : (m.writeBytes a l).wf = true := by
  induction l generalizing m a with
  | nil => exact h
  | cons b rest ih => exact ih _ (m.write_wf h a b) _

@[simp] theorem Memory.empty_wf : Memory.empty.wf = true := rfl

/-- Bytes written from a key upwards leave every byte outside their range. -/
theorem Memory.read_writeBytes_outside (m : Memory) (h : m.wf = true) (a : Nat) (l : List Byte) (k : Nat)
    (hk : k < a ∨ a + l.length ≤ k) : (m.writeBytes a l).read k = m.read k := by
  induction l generalizing m a with
  | nil => rfl
  | cons b rest ih =>
    simp only [List.length_cons] at hk
    rw [Memory.writeBytes, ih _ (m.write_wf h a b) _ (by omega), m.read_write h]
    simp [show k ≠ a by omega]

/-- Bytes written are the bytes read back. -/
theorem Memory.read_writeBytes_inside (m : Memory) (h : m.wf = true) (a : Nat) (l : List Byte) (j : Nat)
    (hj : j < l.length) : (m.writeBytes a l).read (a + j) = l[j] := by
  induction l generalizing m a j with
  | nil => simp at hj
  | cons b rest ih =>
    cases j with
    | zero =>
      rw [Memory.writeBytes, Memory.read_writeBytes_outside _ (m.write_wf h a b) _ _ _ (by omega), m.read_write h]
      simp
    | succ j =>
      have := ih (m.write a b) (m.write_wf h a b) (a + 1) j (by simpa using hj)
      simpa [Memory.writeBytes, Nat.add_assoc, Nat.add_comm 1 j] using this

theorem cellsWf_filter {lo : Option Nat} {l : List Host.Cell} (p : Host.Cell → Bool) (h : cellsWf lo l = true) :
    cellsWf lo (l.filter p) = true := by
  induction l generalizing lo with
  | nil => rfl
  | cons e rest ih =>
    obtain ⟨k, b⟩ := e
    simp only [cellsWf, Bool.and_eq_true] at h
    by_cases hp : p (k, b)
    · simp only [List.filter_cons, hp, if_true, cellsWf, Bool.and_eq_true]
      exact ⟨h.1, ih h.2⟩
    · simp only [List.filter_cons, hp]
      refine ih (cellsWf_weaken h.2 fun x hx => ⟨k, rfl, ?_⟩)
      subst hx
      have := h.1.1
      simp only [decide_eq_true_eq] at this
      omega

/-! ## The little-endian bytes of a number (R3) -/

@[simp] theorem leBytes_length (n x : Nat) : (leBytes n x).length = n := by
  induction n generalizing x with
  | zero => rfl
  | succ n ih => simp [leBytes, ih]

theorem leNat_leBytes (n x : Nat) : leNat (leBytes n x) = x % 256 ^ n := by
  induction n generalizing x with
  | zero => simp [leBytes, leNat, Nat.mod_one]
  | succ n ih =>
    have e : x % 256 ^ (n + 1) = x % 256 + 256 * (x / 256 % 256 ^ n) := by
      rw [Nat.pow_succ, Nat.mul_comm, Nat.mod_mul]
    rw [leBytes, leNat, ih, e, BitVec.toNat_ofNat]

@[simp] theorem Memory.readBytes_length (m : Memory) (a n : Nat) : (m.readBytes a n).length = n := by
  induction n generalizing a with
  | zero => rfl
  | succ n ih => simp [Memory.readBytes, ih]

theorem Memory.readBytes_writeBytes (m : Memory) (h : m.wf = true) (a : Nat) (l : List Byte) :
    (m.writeBytes a l).readBytes a l.length = l := by
  have key : ∀ (n : Nat) (m' : Memory) (b : Nat), (∀ j, j < n → m'.read (b + j) = (l.drop (l.length - n)).getD j 0) →
      n ≤ l.length → m'.readBytes b n = l.drop (l.length - n) := by
    intro n
    induction n with
    | zero => intro m' b _ _; simp [Memory.readBytes]
    | succ n ih =>
      intro m' b hr hn
      have h0 := hr 0 (by omega)
      have e : l.drop (l.length - (n + 1)) = l[l.length - (n + 1)] :: l.drop (l.length - n) := by
        rw [List.drop_eq_getElem_cons (by omega), show l.length - (n + 1) + 1 = l.length - n by omega]
      rw [Memory.readBytes, ih m' (b + 1) (fun j hj => ?_) (by omega), e]
      · rw [e] at h0; simp at h0; rw [h0]
      · have := hr (j + 1) (by omega)
        rw [e] at this
        simpa [Nat.add_assoc, Nat.add_comm 1 j] using this
  have := key l.length (m.writeBytes a l) a (fun j hj => by
    rw [m.read_writeBytes_inside h a l j hj]; simp [hj]) (Nat.le_refl _)
  simpa using this

/-! ## Memories of a state -/

/-- Every memory that a group holds is in canonical form. -/
structure Group.memsOk (g : Group) : Prop where
  tx : ∀ t, g.tx = some t → t.bytes.wf = true
  snap : ∀ m, g.snap = some m → m.wf = true
  swalk : ∀ w, g.swalk = some w → w.mem.wf = true
  walk0 : ∀ p w, g.path0 = some p → p.walk = some w → w.mem.wf = true
  walk1 : ∀ p w, g.path1 = some p → p.walk = some w → w.mem.wf = true

/-- `memsOk` says it of every memory that `memories` lists. -/
theorem Group.memsOk_iff (g : Group) : g.memsOk ↔ ∀ m ∈ g.memories, m.wf = true := by
  constructor
  · intro h m hm
    simp only [Group.memories, List.mem_append, Option.mem_toList, Option.map_eq_some_iff, Option.bind_eq_some_iff] at hm
    obtain (((⟨t, e, rfl⟩ | e) | ⟨w, e, rfl⟩) | ⟨w, ⟨p, e, ew⟩, rfl⟩) | ⟨w, ⟨p, e, ew⟩, rfl⟩ := hm
    · exact h.tx t e
    · exact h.snap m e
    · exact h.swalk w e
    · exact h.walk0 p w e ew
    · exact h.walk1 p w e ew
  · intro h
    refine ⟨fun t e => h _ ?_, fun m e => h _ ?_, fun w e => h _ ?_, fun p w e ew => h _ ?_, fun p w e ew => h _ ?_⟩ <;>
      simp [Group.memories, *]

/-- The device's memory, every block's scratchpad and the memories of the groups are in canonical form. -/
def State.memOk (s : State) : Prop :=
  s.mem.wf = true ∧ (∀ b ∈ s.blocks, b.scratch.wf = true) ∧ ∀ g ∈ s.groups, g.memsOk

theorem State.putBytes_memOk (s : State) (h : s.memOk) (p : Place) (l : List Byte) : (s.putBytes p l).memOk := by
  cases p with
  | phys k => exact ⟨s.mem.writeBytes_wf h.1 k l, h.2.1, h.2.2⟩
  | sp b o =>
    refine ⟨h.1, fun x hx => ?_, h.2.2⟩
    simp only [State.putBytes, State.updBlock, List.mem_map] at hx
    obtain ⟨y, hy, rfl⟩ := hx
    split
    · exact y.scratch.writeBytes_wf (h.2.1 y hy) o l
    · exact h.2.1 y hy

end Sys2Proof.Machine
end

