-- ==== Sys2Proof/Laws/State.lean ====
section
/-! SUPPORT. One lemma per field per update: what the updates of a state and of a group leave as it was. -/

namespace Sys2Proof.Machine

open Sys2Proof

/-! ## updGroup -/

@[simp] theorem State.updGroup_mem (s : State) (r : GroupRef) (f : Group → Group) : (s.updGroup r f).mem = s.mem := rfl
@[simp] theorem State.updGroup_poison (s : State) (r : GroupRef) (f : Group → Group) : (s.updGroup r f).poison = s.poison := rfl
@[simp] theorem State.updGroup_blocks (s : State) (r : GroupRef) (f : Group → Group) : (s.updGroup r f).blocks = s.blocks := rfl
@[simp] theorem State.updGroup_launches (s : State) (r : GroupRef) (f : Group → Group) : (s.updGroup r f).launches = s.launches := rfl
@[simp] theorem State.updGroup_containers (s : State) (r : GroupRef) (f : Group → Group) : (s.updGroup r f).containers = s.containers := rfl
@[simp] theorem State.updGroup_tenants (s : State) (r : GroupRef) (f : Group → Group) : (s.updGroup r f).tenants = s.tenants := rfl
@[simp] theorem State.updGroup_versions (s : State) (r : GroupRef) (f : Group → Group) : (s.updGroup r f).versions = s.versions := rfl
@[simp] theorem State.updGroup_cows (s : State) (r : GroupRef) (f : Group → Group) : (s.updGroup r f).cows = s.cows := rfl
@[simp] theorem State.updGroup_returning (s : State) (r : GroupRef) (f : Group → Group) : (s.updGroup r f).returning = s.returning := rfl
@[simp] theorem State.updGroup_kicks (s : State) (r : GroupRef) (f : Group → Group) : (s.updGroup r f).kicks = s.kicks := rfl
@[simp] theorem State.updGroup_arrivals (s : State) (r : GroupRef) (f : Group → Group) : (s.updGroup r f).arrivals = s.arrivals := rfl
@[simp] theorem State.updGroup_cells (s : State) (r : GroupRef) (f : Group → Group) : (s.updGroup r f).cells = s.cells := rfl
@[simp] theorem State.updGroup_gbcmds (s : State) (r : GroupRef) (f : Group → Group) : (s.updGroup r f).gbcmds = s.gbcmds := rfl
@[simp] theorem State.updGroup_colls (s : State) (r : GroupRef) (f : Group → Group) : (s.updGroup r f).colls = s.colls := rfl
@[simp] theorem State.updGroup_engineAt (s : State) (r : GroupRef) (f : Group → Group) : (s.updGroup r f).engineAt = s.engineAt := rfl
@[simp] theorem State.updGroup_dir (s : State) (r : GroupRef) (f : Group → Group) : (s.updGroup r f).dir = s.dir := rfl
@[simp] theorem State.updGroup_rho (s : State) (r : GroupRef) (f : Group → Group) : (s.updGroup r f).rho = s.rho := rfl
@[simp] theorem State.updGroup_owners (s : State) (r : GroupRef) (f : Group → Group) : (s.updGroup r f).owners = s.owners := rfl
@[simp] theorem State.updGroup_recovering (s : State) (r : GroupRef) (f : Group → Group) : (s.updGroup r f).recovering = s.recovering := rfl
@[simp] theorem State.updGroup_lost (s : State) (r : GroupRef) (f : Group → Group) : (s.updGroup r f).lost = s.lost := rfl
@[simp] theorem State.updGroup_present (s : State) (r : GroupRef) (f : Group → Group) : (s.updGroup r f).present = s.present := rfl
@[simp] theorem State.updGroup_aoc (s : State) (r : GroupRef) (f : Group → Group) : (s.updGroup r f).aoc = s.aoc := rfl
@[simp] theorem State.updGroup_dcyc (s : State) (r : GroupRef) (f : Group → Group) : (s.updGroup r f).dcyc = s.dcyc := rfl
@[simp] theorem State.updGroup_mgmt (s : State) (r : GroupRef) (f : Group → Group) : (s.updGroup r f).mgmt = s.mgmt := rfl
@[simp] theorem State.updGroup_reply (s : State) (r : GroupRef) (f : Group → Group) : (s.updGroup r f).reply = s.reply := rfl
@[simp] theorem State.updGroup_schedule (s : State) (r : GroupRef) (f : Group → Group) : (s.updGroup r f).schedule = s.schedule := rfl
@[simp] theorem State.updGroup_who (s : State) (r : GroupRef) (f : Group → Group) : (s.updGroup r f).who = s.who := rfl
@[simp] theorem State.updGroup_nextId (s : State) (r : GroupRef) (f : Group → Group) : (s.updGroup r f).nextId = s.nextId := rfl
@[simp] theorem State.updGroup_freeIx (s : State) (r : GroupRef) (f : Group → Group) : (s.updGroup r f).freeIx = s.freeIx := rfl

/-! ## updBlock -/

@[simp] theorem State.updBlock_mem (s : State) (i : Nat) (f : Block → Block) : (s.updBlock i f).mem = s.mem := rfl
@[simp] theorem State.updBlock_poison (s : State) (i : Nat) (f : Block → Block) : (s.updBlock i f).poison = s.poison := rfl
@[simp] theorem State.updBlock_groups (s : State) (i : Nat) (f : Block → Block) : (s.updBlock i f).groups = s.groups := rfl
@[simp] theorem State.updBlock_launches (s : State) (i : Nat) (f : Block → Block) : (s.updBlock i f).launches = s.launches := rfl
@[simp] theorem State.updBlock_containers (s : State) (i : Nat) (f : Block → Block) : (s.updBlock i f).containers = s.containers := rfl
@[simp] theorem State.updBlock_tenants (s : State) (i : Nat) (f : Block → Block) : (s.updBlock i f).tenants = s.tenants := rfl
@[simp] theorem State.updBlock_versions (s : State) (i : Nat) (f : Block → Block) : (s.updBlock i f).versions = s.versions := rfl
@[simp] theorem State.updBlock_cows (s : State) (i : Nat) (f : Block → Block) : (s.updBlock i f).cows = s.cows := rfl
@[simp] theorem State.updBlock_returning (s : State) (i : Nat) (f : Block → Block) : (s.updBlock i f).returning = s.returning := rfl
@[simp] theorem State.updBlock_kicks (s : State) (i : Nat) (f : Block → Block) : (s.updBlock i f).kicks = s.kicks := rfl
@[simp] theorem State.updBlock_arrivals (s : State) (i : Nat) (f : Block → Block) : (s.updBlock i f).arrivals = s.arrivals := rfl
@[simp] theorem State.updBlock_cells (s : State) (i : Nat) (f : Block → Block) : (s.updBlock i f).cells = s.cells := rfl
@[simp] theorem State.updBlock_gbcmds (s : State) (i : Nat) (f : Block → Block) : (s.updBlock i f).gbcmds = s.gbcmds := rfl
@[simp] theorem State.updBlock_colls (s : State) (i : Nat) (f : Block → Block) : (s.updBlock i f).colls = s.colls := rfl
@[simp] theorem State.updBlock_engineAt (s : State) (i : Nat) (f : Block → Block) : (s.updBlock i f).engineAt = s.engineAt := rfl
@[simp] theorem State.updBlock_dir (s : State) (i : Nat) (f : Block → Block) : (s.updBlock i f).dir = s.dir := rfl
@[simp] theorem State.updBlock_rho (s : State) (i : Nat) (f : Block → Block) : (s.updBlock i f).rho = s.rho := rfl
@[simp] theorem State.updBlock_owners (s : State) (i : Nat) (f : Block → Block) : (s.updBlock i f).owners = s.owners := rfl
@[simp] theorem State.updBlock_recovering (s : State) (i : Nat) (f : Block → Block) : (s.updBlock i f).recovering = s.recovering := rfl
@[simp] theorem State.updBlock_lost (s : State) (i : Nat) (f : Block → Block) : (s.updBlock i f).lost = s.lost := rfl
@[simp] theorem State.updBlock_present (s : State) (i : Nat) (f : Block → Block) : (s.updBlock i f).present = s.present := rfl
@[simp] theorem State.updBlock_aoc (s : State) (i : Nat) (f : Block → Block) : (s.updBlock i f).aoc = s.aoc := rfl
@[simp] theorem State.updBlock_dcyc (s : State) (i : Nat) (f : Block → Block) : (s.updBlock i f).dcyc = s.dcyc := rfl
@[simp] theorem State.updBlock_mgmt (s : State) (i : Nat) (f : Block → Block) : (s.updBlock i f).mgmt = s.mgmt := rfl
@[simp] theorem State.updBlock_reply (s : State) (i : Nat) (f : Block → Block) : (s.updBlock i f).reply = s.reply := rfl
@[simp] theorem State.updBlock_schedule (s : State) (i : Nat) (f : Block → Block) : (s.updBlock i f).schedule = s.schedule := rfl
@[simp] theorem State.updBlock_who (s : State) (i : Nat) (f : Block → Block) : (s.updBlock i f).who = s.who := rfl
@[simp] theorem State.updBlock_nextId (s : State) (i : Nat) (f : Block → Block) : (s.updBlock i f).nextId = s.nextId := rfl
@[simp] theorem State.updBlock_freeIx (s : State) (i : Nat) (f : Block → Block) : (s.updBlock i f).freeIx = s.freeIx := rfl

/-! ## updLaunch -/

@[simp] theorem State.updLaunch_mem (s : State) (i : Nat) (f : Launch → Launch) : (s.updLaunch i f).mem = s.mem := rfl
@[simp] theorem State.updLaunch_poison (s : State) (i : Nat) (f : Launch → Launch) : (s.updLaunch i f).poison = s.poison := rfl
@[simp] theorem State.updLaunch_groups (s : State) (i : Nat) (f : Launch → Launch) : (s.updLaunch i f).groups = s.groups := rfl
@[simp] theorem State.updLaunch_blocks (s : State) (i : Nat) (f : Launch → Launch) : (s.updLaunch i f).blocks = s.blocks := rfl
@[simp] theorem State.updLaunch_containers (s : State) (i : Nat) (f : Launch → Launch) : (s.updLaunch i f).containers = s.containers := rfl
@[simp] theorem State.updLaunch_tenants (s : State) (i : Nat) (f : Launch → Launch) : (s.updLaunch i f).tenants = s.tenants := rfl
@[simp] theorem State.updLaunch_versions (s : State) (i : Nat) (f : Launch → Launch) : (s.updLaunch i f).versions = s.versions := rfl
@[simp] theorem State.updLaunch_cows (s : State) (i : Nat) (f : Launch → Launch) : (s.updLaunch i f).cows = s.cows := rfl
@[simp] theorem State.updLaunch_returning (s : State) (i : Nat) (f : Launch → Launch) : (s.updLaunch i f).returning = s.returning := rfl
@[simp] theorem State.updLaunch_kicks (s : State) (i : Nat) (f : Launch → Launch) : (s.updLaunch i f).kicks = s.kicks := rfl
@[simp] theorem State.updLaunch_arrivals (s : State) (i : Nat) (f : Launch → Launch) : (s.updLaunch i f).arrivals = s.arrivals := rfl
@[simp] theorem State.updLaunch_cells (s : State) (i : Nat) (f : Launch → Launch) : (s.updLaunch i f).cells = s.cells := rfl
@[simp] theorem State.updLaunch_gbcmds (s : State) (i : Nat) (f : Launch → Launch) : (s.updLaunch i f).gbcmds = s.gbcmds := rfl
@[simp] theorem State.updLaunch_colls (s : State) (i : Nat) (f : Launch → Launch) : (s.updLaunch i f).colls = s.colls := rfl
@[simp] theorem State.updLaunch_engineAt (s : State) (i : Nat) (f : Launch → Launch) : (s.updLaunch i f).engineAt = s.engineAt := rfl
@[simp] theorem State.updLaunch_dir (s : State) (i : Nat) (f : Launch → Launch) : (s.updLaunch i f).dir = s.dir := rfl
@[simp] theorem State.updLaunch_rho (s : State) (i : Nat) (f : Launch → Launch) : (s.updLaunch i f).rho = s.rho := rfl
@[simp] theorem State.updLaunch_owners (s : State) (i : Nat) (f : Launch → Launch) : (s.updLaunch i f).owners = s.owners := rfl
@[simp] theorem State.updLaunch_recovering (s : State) (i : Nat) (f : Launch → Launch) : (s.updLaunch i f).recovering = s.recovering := rfl
@[simp] theorem State.updLaunch_lost (s : State) (i : Nat) (f : Launch → Launch) : (s.updLaunch i f).lost = s.lost := rfl
@[simp] theorem State.updLaunch_present (s : State) (i : Nat) (f : Launch → Launch) : (s.updLaunch i f).present = s.present := rfl
@[simp] theorem State.updLaunch_aoc (s : State) (i : Nat) (f : Launch → Launch) : (s.updLaunch i f).aoc = s.aoc := rfl
@[simp] theorem State.updLaunch_dcyc (s : State) (i : Nat) (f : Launch → Launch) : (s.updLaunch i f).dcyc = s.dcyc := rfl
@[simp] theorem State.updLaunch_mgmt (s : State) (i : Nat) (f : Launch → Launch) : (s.updLaunch i f).mgmt = s.mgmt := rfl
@[simp] theorem State.updLaunch_reply (s : State) (i : Nat) (f : Launch → Launch) : (s.updLaunch i f).reply = s.reply := rfl
@[simp] theorem State.updLaunch_schedule (s : State) (i : Nat) (f : Launch → Launch) : (s.updLaunch i f).schedule = s.schedule := rfl
@[simp] theorem State.updLaunch_who (s : State) (i : Nat) (f : Launch → Launch) : (s.updLaunch i f).who = s.who := rfl
@[simp] theorem State.updLaunch_nextId (s : State) (i : Nat) (f : Launch → Launch) : (s.updLaunch i f).nextId = s.nextId := rfl
@[simp] theorem State.updLaunch_freeIx (s : State) (i : Nat) (f : Launch → Launch) : (s.updLaunch i f).freeIx = s.freeIx := rfl

/-! ## updTenant -/

@[simp] theorem State.updTenant_mem (s : State) (i : Nat) (f : Tenant → Tenant) : (s.updTenant i f).mem = s.mem := rfl
@[simp] theorem State.updTenant_poison (s : State) (i : Nat) (f : Tenant → Tenant) : (s.updTenant i f).poison = s.poison := rfl
@[simp] theorem State.updTenant_groups (s : State) (i : Nat) (f : Tenant → Tenant) : (s.updTenant i f).groups = s.groups := rfl
@[simp] theorem State.updTenant_blocks (s : State) (i : Nat) (f : Tenant → Tenant) : (s.updTenant i f).blocks = s.blocks := rfl
@[simp] theorem State.updTenant_launches (s : State) (i : Nat) (f : Tenant → Tenant) : (s.updTenant i f).launches = s.launches := rfl
@[simp] theorem State.updTenant_containers (s : State) (i : Nat) (f : Tenant → Tenant) : (s.updTenant i f).containers = s.containers := rfl
@[simp] theorem State.updTenant_versions (s : State) (i : Nat) (f : Tenant → Tenant) : (s.updTenant i f).versions = s.versions := rfl
@[simp] theorem State.updTenant_cows (s : State) (i : Nat) (f : Tenant → Tenant) : (s.updTenant i f).cows = s.cows := rfl
@[simp] theorem State.updTenant_returning (s : State) (i : Nat) (f : Tenant → Tenant) : (s.updTenant i f).returning = s.returning := rfl
@[simp] theorem State.updTenant_kicks (s : State) (i : Nat) (f : Tenant → Tenant) : (s.updTenant i f).kicks = s.kicks := rfl
@[simp] theorem State.updTenant_arrivals (s : State) (i : Nat) (f : Tenant → Tenant) : (s.updTenant i f).arrivals = s.arrivals := rfl
@[simp] theorem State.updTenant_cells (s : State) (i : Nat) (f : Tenant → Tenant) : (s.updTenant i f).cells = s.cells := rfl
@[simp] theorem State.updTenant_gbcmds (s : State) (i : Nat) (f : Tenant → Tenant) : (s.updTenant i f).gbcmds = s.gbcmds := rfl
@[simp] theorem State.updTenant_colls (s : State) (i : Nat) (f : Tenant → Tenant) : (s.updTenant i f).colls = s.colls := rfl
@[simp] theorem State.updTenant_engineAt (s : State) (i : Nat) (f : Tenant → Tenant) : (s.updTenant i f).engineAt = s.engineAt := rfl
@[simp] theorem State.updTenant_dir (s : State) (i : Nat) (f : Tenant → Tenant) : (s.updTenant i f).dir = s.dir := rfl
@[simp] theorem State.updTenant_rho (s : State) (i : Nat) (f : Tenant → Tenant) : (s.updTenant i f).rho = s.rho := rfl
@[simp] theorem State.updTenant_owners (s : State) (i : Nat) (f : Tenant → Tenant) : (s.updTenant i f).owners = s.owners := rfl
@[simp] theorem State.updTenant_recovering (s : State) (i : Nat) (f : Tenant → Tenant) : (s.updTenant i f).recovering = s.recovering := rfl
@[simp] theorem State.updTenant_lost (s : State) (i : Nat) (f : Tenant → Tenant) : (s.updTenant i f).lost = s.lost := rfl
@[simp] theorem State.updTenant_present (s : State) (i : Nat) (f : Tenant → Tenant) : (s.updTenant i f).present = s.present := rfl
@[simp] theorem State.updTenant_aoc (s : State) (i : Nat) (f : Tenant → Tenant) : (s.updTenant i f).aoc = s.aoc := rfl
@[simp] theorem State.updTenant_dcyc (s : State) (i : Nat) (f : Tenant → Tenant) : (s.updTenant i f).dcyc = s.dcyc := rfl
@[simp] theorem State.updTenant_mgmt (s : State) (i : Nat) (f : Tenant → Tenant) : (s.updTenant i f).mgmt = s.mgmt := rfl
@[simp] theorem State.updTenant_reply (s : State) (i : Nat) (f : Tenant → Tenant) : (s.updTenant i f).reply = s.reply := rfl
@[simp] theorem State.updTenant_schedule (s : State) (i : Nat) (f : Tenant → Tenant) : (s.updTenant i f).schedule = s.schedule := rfl
@[simp] theorem State.updTenant_who (s : State) (i : Nat) (f : Tenant → Tenant) : (s.updTenant i f).who = s.who := rfl
@[simp] theorem State.updTenant_nextId (s : State) (i : Nat) (f : Tenant → Tenant) : (s.updTenant i f).nextId = s.nextId := rfl
@[simp] theorem State.updTenant_freeIx (s : State) (i : Nat) (f : Tenant → Tenant) : (s.updTenant i f).freeIx = s.freeIx := rfl

/-! ## touch -/

@[simp] theorem State.touch_mem (s : State) (w : Option GroupRef) (b : Bool) (p : Place) (n : Nat) : (s.touch w b p n).mem = s.mem := rfl
@[simp] theorem State.touch_poison (s : State) (w : Option GroupRef) (b : Bool) (p : Place) (n : Nat) : (s.touch w b p n).poison = s.poison := rfl
@[simp] theorem State.touch_blocks (s : State) (w : Option GroupRef) (b : Bool) (p : Place) (n : Nat) : (s.touch w b p n).blocks = s.blocks := rfl
@[simp] theorem State.touch_launches (s : State) (w : Option GroupRef) (b : Bool) (p : Place) (n : Nat) : (s.touch w b p n).launches = s.launches := rfl
@[simp] theorem State.touch_containers (s : State) (w : Option GroupRef) (b : Bool) (p : Place) (n : Nat) : (s.touch w b p n).containers = s.containers := rfl
@[simp] theorem State.touch_tenants (s : State) (w : Option GroupRef) (b : Bool) (p : Place) (n : Nat) : (s.touch w b p n).tenants = s.tenants := rfl
@[simp] theorem State.touch_versions (s : State) (w : Option GroupRef) (b : Bool) (p : Place) (n : Nat) : (s.touch w b p n).versions = s.versions := rfl
@[simp] theorem State.touch_cows (s : State) (w : Option GroupRef) (b : Bool) (p : Place) (n : Nat) : (s.touch w b p n).cows = s.cows := rfl
@[simp] theorem State.touch_returning (s : State) (w : Option GroupRef) (b : Bool) (p : Place) (n : Nat) : (s.touch w b p n).returning = s.returning := rfl
@[simp] theorem State.touch_kicks (s : State) (w : Option GroupRef) (b : Bool) (p : Place) (n : Nat) : (s.touch w b p n).kicks = s.kicks := rfl
@[simp] theorem State.touch_arrivals (s : State) (w : Option GroupRef) (b : Bool) (p : Place) (n : Nat) : (s.touch w b p n).arrivals = s.arrivals := rfl
@[simp] theorem State.touch_cells (s : State) (w : Option GroupRef) (b : Bool) (p : Place) (n : Nat) : (s.touch w b p n).cells = s.cells := rfl
@[simp] theorem State.touch_gbcmds (s : State) (w : Option GroupRef) (b : Bool) (p : Place) (n : Nat) : (s.touch w b p n).gbcmds = s.gbcmds := rfl
@[simp] theorem State.touch_colls (s : State) (w : Option GroupRef) (b : Bool) (p : Place) (n : Nat) : (s.touch w b p n).colls = s.colls := rfl
@[simp] theorem State.touch_engineAt (s : State) (w : Option GroupRef) (b : Bool) (p : Place) (n : Nat) : (s.touch w b p n).engineAt = s.engineAt := rfl
@[simp] theorem State.touch_dir (s : State) (w : Option GroupRef) (b : Bool) (p : Place) (n : Nat) : (s.touch w b p n).dir = s.dir := rfl
@[simp] theorem State.touch_rho (s : State) (w : Option GroupRef) (b : Bool) (p : Place) (n : Nat) : (s.touch w b p n).rho = s.rho := rfl
@[simp] theorem State.touch_owners (s : State) (w : Option GroupRef) (b : Bool) (p : Place) (n : Nat) : (s.touch w b p n).owners = s.owners := rfl
@[simp] theorem State.touch_recovering (s : State) (w : Option GroupRef) (b : Bool) (p : Place) (n : Nat) : (s.touch w b p n).recovering = s.recovering := rfl
@[simp] theorem State.touch_lost (s : State) (w : Option GroupRef) (b : Bool) (p : Place) (n : Nat) : (s.touch w b p n).lost = s.lost := rfl
@[simp] theorem State.touch_present (s : State) (w : Option GroupRef) (b : Bool) (p : Place) (n : Nat) : (s.touch w b p n).present = s.present := rfl
@[simp] theorem State.touch_aoc (s : State) (w : Option GroupRef) (b : Bool) (p : Place) (n : Nat) : (s.touch w b p n).aoc = s.aoc := rfl
@[simp] theorem State.touch_dcyc (s : State) (w : Option GroupRef) (b : Bool) (p : Place) (n : Nat) : (s.touch w b p n).dcyc = s.dcyc := rfl
@[simp] theorem State.touch_mgmt (s : State) (w : Option GroupRef) (b : Bool) (p : Place) (n : Nat) : (s.touch w b p n).mgmt = s.mgmt := rfl
@[simp] theorem State.touch_reply (s : State) (w : Option GroupRef) (b : Bool) (p : Place) (n : Nat) : (s.touch w b p n).reply = s.reply := rfl
@[simp] theorem State.touch_schedule (s : State) (w : Option GroupRef) (b : Bool) (p : Place) (n : Nat) : (s.touch w b p n).schedule = s.schedule := rfl
@[simp] theorem State.touch_who (s : State) (w : Option GroupRef) (b : Bool) (p : Place) (n : Nat) : (s.touch w b p n).who = s.who := rfl
@[simp] theorem State.touch_nextId (s : State) (w : Option GroupRef) (b : Bool) (p : Place) (n : Nat) : (s.touch w b p n).nextId = s.nextId := rfl
@[simp] theorem State.touch_freeIx (s : State) (w : Option GroupRef) (b : Bool) (p : Place) (n : Nat) : (s.touch w b p n).freeIx = s.freeIx := rfl

/-! ## complete -/

@[simp] theorem Group.complete_ref (g : Group) (pc : Word) : (g.complete pc).ref = g.ref := rfl
@[simp] theorem Group.complete_status (g : Group) (pc : Word) : (g.complete pc).status = g.status := rfl
@[simp] theorem Group.complete_core (g : Group) (pc : Word) : (g.complete pc).core = g.core := rfl
@[simp] theorem Group.complete_x (g : Group) (pc : Word) : (g.complete pc).x = g.x := rfl
@[simp] theorem Group.complete_lanes (g : Group) (pc : Word) : (g.complete pc).lanes = g.lanes := rfl
@[simp] theorem Group.complete_stage (g : Group) (pc : Word) : (g.complete pc).stage = g.stage := rfl
@[simp] theorem Group.complete_segs (g : Group) (pc : Word) : (g.complete pc).segs = g.segs := rfl
@[simp] theorem Group.complete_path0 (g : Group) (pc : Word) : (g.complete pc).path0 = g.path0 := rfl
@[simp] theorem Group.complete_path1 (g : Group) (pc : Word) : (g.complete pc).path1 = g.path1 := rfl
@[simp] theorem Group.complete_frame (g : Group) (pc : Word) : (g.complete pc).frame = g.frame := rfl
@[simp] theorem Group.complete_issue1 (g : Group) (pc : Word) : (g.complete pc).issue1 = g.issue1 := rfl
@[simp] theorem Group.complete_units (g : Group) (pc : Word) : (g.complete pc).units = g.units := rfl
@[simp] theorem Group.complete_segIssued (g : Group) (pc : Word) : (g.complete pc).segIssued = g.segIssued := rfl
@[simp] theorem Group.complete_segDone (g : Group) (pc : Word) : (g.complete pc).segDone = g.segDone := rfl
@[simp] theorem Group.complete_retq (g : Group) (pc : Word) : (g.complete pc).retq = g.retq := rfl
@[simp] theorem Group.complete_rstart (g : Group) (pc : Word) : (g.complete pc).rstart = g.rstart := rfl
@[simp] theorem Group.complete_rB (g : Group) (pc : Word) : (g.complete pc).rB = g.rB := rfl
@[simp] theorem Group.complete_genK (g : Group) (pc : Word) : (g.complete pc).genK = g.genK := rfl
@[simp] theorem Group.complete_genB (g : Group) (pc : Word) : (g.complete pc).genB = g.genB := rfl
@[simp] theorem Group.complete_vstep (g : Group) (pc : Word) : (g.complete pc).vstep = g.vstep := rfl
@[simp] theorem Group.complete_dmask (g : Group) (pc : Word) : (g.complete pc).dmask = g.dmask := rfl
@[simp] theorem Group.complete_closing (g : Group) (pc : Word) : (g.complete pc).closing = g.closing := rfl
@[simp] theorem Group.complete_preemptAt (g : Group) (pc : Word) : (g.complete pc).preemptAt = g.preemptAt := rfl
@[simp] theorem Group.complete_trapMode (g : Group) (pc : Word) : (g.complete pc).trapMode = g.trapMode := rfl
@[simp] theorem Group.complete_tcode (g : Group) (pc : Word) : (g.complete pc).tcode = g.tcode := rfl
@[simp] theorem Group.complete_tpc (g : Group) (pc : Word) : (g.complete pc).tpc = g.tpc := rfl
@[simp] theorem Group.complete_taddr (g : Group) (pc : Word) : (g.complete pc).taddr = g.taddr := rfl
@[simp] theorem Group.complete_taux (g : Group) (pc : Word) : (g.complete pc).taux = g.taux := rfl
@[simp] theorem Group.complete_held (g : Group) (pc : Word) : (g.complete pc).held = g.held := rfl
@[simp] theorem Group.complete_detected (g : Group) (pc : Word) : (g.complete pc).detected = g.detected := rfl
@[simp] theorem Group.complete_regs (g : Group) (pc : Word) : (g.complete pc).regs = g.regs := rfl
@[simp] theorem Group.complete_monitor (g : Group) (pc : Word) : (g.complete pc).monitor = g.monitor := rfl
@[simp] theorem Group.complete_tx (g : Group) (pc : Word) : (g.complete pc).tx = g.tx := rfl
@[simp] theorem Group.complete_acu (g : Group) (pc : Word) : (g.complete pc).acu = g.acu := rfl
@[simp] theorem Group.complete_sat (g : Group) (pc : Word) : (g.complete pc).sat = g.sat := rfl
@[simp] theorem Group.complete_mscope (g : Group) (pc : Word) : (g.complete pc).mscope = g.mscope := rfl
@[simp] theorem Group.complete_planes (g : Group) (pc : Word) : (g.complete pc).planes = g.planes := rfl
@[simp] theorem Group.complete_mcmds (g : Group) (pc : Word) : (g.complete pc).mcmds = g.mcmds := rfl
@[simp] theorem Group.complete_park (g : Group) (pc : Word) : (g.complete pc).park = g.park := rfl
@[simp] theorem Group.complete_snap (g : Group) (pc : Word) : (g.complete pc).snap = g.snap := rfl

/-! ## advance -/

@[simp] theorem Group.advance_ref (g : Group) : (g.advance).ref = g.ref := rfl
@[simp] theorem Group.advance_status (g : Group) : (g.advance).status = g.status := rfl
@[simp] theorem Group.advance_core (g : Group) : (g.advance).core = g.core := rfl
@[simp] theorem Group.advance_x (g : Group) : (g.advance).x = g.x := rfl
@[simp] theorem Group.advance_lanes (g : Group) : (g.advance).lanes = g.lanes := rfl
@[simp] theorem Group.advance_stage (g : Group) : (g.advance).stage = g.stage := rfl
@[simp] theorem Group.advance_segs (g : Group) : (g.advance).segs = g.segs := rfl
@[simp] theorem Group.advance_path0 (g : Group) : (g.advance).path0 = g.path0 := rfl
@[simp] theorem Group.advance_path1 (g : Group) : (g.advance).path1 = g.path1 := rfl
@[simp] theorem Group.advance_frame (g : Group) : (g.advance).frame = g.frame := rfl
@[simp] theorem Group.advance_issue1 (g : Group) : (g.advance).issue1 = g.issue1 := rfl
@[simp] theorem Group.advance_units (g : Group) : (g.advance).units = g.units := rfl
@[simp] theorem Group.advance_segIssued (g : Group) : (g.advance).segIssued = g.segIssued := rfl
@[simp] theorem Group.advance_segDone (g : Group) : (g.advance).segDone = g.segDone := rfl
@[simp] theorem Group.advance_retq (g : Group) : (g.advance).retq = g.retq := rfl
@[simp] theorem Group.advance_rstart (g : Group) : (g.advance).rstart = g.rstart := rfl
@[simp] theorem Group.advance_rB (g : Group) : (g.advance).rB = g.rB := rfl
@[simp] theorem Group.advance_genK (g : Group) : (g.advance).genK = g.genK := rfl
@[simp] theorem Group.advance_genB (g : Group) : (g.advance).genB = g.genB := rfl
@[simp] theorem Group.advance_vstep (g : Group) : (g.advance).vstep = g.vstep := rfl
@[simp] theorem Group.advance_dmask (g : Group) : (g.advance).dmask = g.dmask := rfl
@[simp] theorem Group.advance_closing (g : Group) : (g.advance).closing = g.closing := rfl
@[simp] theorem Group.advance_preemptAt (g : Group) : (g.advance).preemptAt = g.preemptAt := rfl
@[simp] theorem Group.advance_trapMode (g : Group) : (g.advance).trapMode = g.trapMode := rfl
@[simp] theorem Group.advance_tcode (g : Group) : (g.advance).tcode = g.tcode := rfl
@[simp] theorem Group.advance_tpc (g : Group) : (g.advance).tpc = g.tpc := rfl
@[simp] theorem Group.advance_taddr (g : Group) : (g.advance).taddr = g.taddr := rfl
@[simp] theorem Group.advance_taux (g : Group) : (g.advance).taux = g.taux := rfl
@[simp] theorem Group.advance_held (g : Group) : (g.advance).held = g.held := rfl
@[simp] theorem Group.advance_detected (g : Group) : (g.advance).detected = g.detected := rfl
@[simp] theorem Group.advance_regs (g : Group) : (g.advance).regs = g.regs := rfl
@[simp] theorem Group.advance_monitor (g : Group) : (g.advance).monitor = g.monitor := rfl
@[simp] theorem Group.advance_tx (g : Group) : (g.advance).tx = g.tx := rfl
@[simp] theorem Group.advance_acu (g : Group) : (g.advance).acu = g.acu := rfl
@[simp] theorem Group.advance_sat (g : Group) : (g.advance).sat = g.sat := rfl
@[simp] theorem Group.advance_mscope (g : Group) : (g.advance).mscope = g.mscope := rfl
@[simp] theorem Group.advance_planes (g : Group) : (g.advance).planes = g.planes := rfl
@[simp] theorem Group.advance_mcmds (g : Group) : (g.advance).mcmds = g.mcmds := rfl
@[simp] theorem Group.advance_park (g : Group) : (g.advance).park = g.park := rfl
@[simp] theorem Group.advance_snap (g : Group) : (g.advance).snap = g.snap := rfl

/-! ## close -/

@[simp] theorem Group.close_ref (g : Group) : (g.close).ref = g.ref := rfl
@[simp] theorem Group.close_status (g : Group) : (g.close).status = g.status := rfl
@[simp] theorem Group.close_core (g : Group) : (g.close).core = g.core := rfl
@[simp] theorem Group.close_pc (g : Group) : (g.close).pc = g.pc := rfl
@[simp] theorem Group.close_x (g : Group) : (g.close).x = g.x := rfl
@[simp] theorem Group.close_lanes (g : Group) : (g.close).lanes = g.lanes := rfl
@[simp] theorem Group.close_stage (g : Group) : (g.close).stage = g.stage := rfl
@[simp] theorem Group.close_segs (g : Group) : (g.close).segs = g.segs := rfl
@[simp] theorem Group.close_path0 (g : Group) : (g.close).path0 = g.path0 := rfl
@[simp] theorem Group.close_path1 (g : Group) : (g.close).path1 = g.path1 := rfl
@[simp] theorem Group.close_frame (g : Group) : (g.close).frame = g.frame := rfl
@[simp] theorem Group.close_issue1 (g : Group) : (g.close).issue1 = g.issue1 := rfl
@[simp] theorem Group.close_units (g : Group) : (g.close).units = g.units := rfl
@[simp] theorem Group.close_segIssued (g : Group) : (g.close).segIssued = g.segIssued := rfl
@[simp] theorem Group.close_segDone (g : Group) : (g.close).segDone = g.segDone := rfl
@[simp] theorem Group.close_retq (g : Group) : (g.close).retq = g.retq := rfl
@[simp] theorem Group.close_rstart (g : Group) : (g.close).rstart = g.rstart := rfl
@[simp] theorem Group.close_rB (g : Group) : (g.close).rB = g.rB := rfl
@[simp] theorem Group.close_genK (g : Group) : (g.close).genK = g.genK := rfl
@[simp] theorem Group.close_genB (g : Group) : (g.close).genB = g.genB := rfl
@[simp] theorem Group.close_vstep (g : Group) : (g.close).vstep = g.vstep := rfl
@[simp] theorem Group.close_dmask (g : Group) : (g.close).dmask = g.dmask := rfl
@[simp] theorem Group.close_preemptAt (g : Group) : (g.close).preemptAt = g.preemptAt := rfl
@[simp] theorem Group.close_trapMode (g : Group) : (g.close).trapMode = g.trapMode := rfl
@[simp] theorem Group.close_tcode (g : Group) : (g.close).tcode = g.tcode := rfl
@[simp] theorem Group.close_tpc (g : Group) : (g.close).tpc = g.tpc := rfl
@[simp] theorem Group.close_taddr (g : Group) : (g.close).taddr = g.taddr := rfl
@[simp] theorem Group.close_taux (g : Group) : (g.close).taux = g.taux := rfl
@[simp] theorem Group.close_held (g : Group) : (g.close).held = g.held := rfl
@[simp] theorem Group.close_detected (g : Group) : (g.close).detected = g.detected := rfl
@[simp] theorem Group.close_regs (g : Group) : (g.close).regs = g.regs := rfl
@[simp] theorem Group.close_monitor (g : Group) : (g.close).monitor = g.monitor := rfl
@[simp] theorem Group.close_tx (g : Group) : (g.close).tx = g.tx := rfl
@[simp] theorem Group.close_acu (g : Group) : (g.close).acu = g.acu := rfl
@[simp] theorem Group.close_sat (g : Group) : (g.close).sat = g.sat := rfl
@[simp] theorem Group.close_mscope (g : Group) : (g.close).mscope = g.mscope := rfl
@[simp] theorem Group.close_planes (g : Group) : (g.close).planes = g.planes := rfl
@[simp] theorem Group.close_mcmds (g : Group) : (g.close).mcmds = g.mcmds := rfl
@[simp] theorem Group.close_swait (g : Group) : (g.close).swait = g.swait := rfl
@[simp] theorem Group.close_swalk (g : Group) : (g.close).swalk = g.swalk := rfl
@[simp] theorem Group.close_park (g : Group) : (g.close).park = g.park := rfl
@[simp] theorem Group.close_blocked (g : Group) : (g.close).blocked = g.blocked := rfl
@[simp] theorem Group.close_snap (g : Group) : (g.close).snap = g.snap := rfl

/-! ## setX -/

@[simp] theorem Group.setX_ref (g : Group) (r : BitVec 6) (v : Word) : (g.setX r v).ref = g.ref := by unfold Group.setX; split <;> rfl
@[simp] theorem Group.setX_status (g : Group) (r : BitVec 6) (v : Word) : (g.setX r v).status = g.status := by unfold Group.setX; split <;> rfl
@[simp] theorem Group.setX_core (g : Group) (r : BitVec 6) (v : Word) : (g.setX r v).core = g.core := by unfold Group.setX; split <;> rfl
@[simp] theorem Group.setX_pc (g : Group) (r : BitVec 6) (v : Word) : (g.setX r v).pc = g.pc := by unfold Group.setX; split <;> rfl
@[simp] theorem Group.setX_lanes (g : Group) (r : BitVec 6) (v : Word) : (g.setX r v).lanes = g.lanes := by unfold Group.setX; split <;> rfl
@[simp] theorem Group.setX_stage (g : Group) (r : BitVec 6) (v : Word) : (g.setX r v).stage = g.stage := by unfold Group.setX; split <;> rfl
@[simp] theorem Group.setX_segs (g : Group) (r : BitVec 6) (v : Word) : (g.setX r v).segs = g.segs := by unfold Group.setX; split <;> rfl
@[simp] theorem Group.setX_path0 (g : Group) (r : BitVec 6) (v : Word) : (g.setX r v).path0 = g.path0 := by unfold Group.setX; split <;> rfl
@[simp] theorem Group.setX_path1 (g : Group) (r : BitVec 6) (v : Word) : (g.setX r v).path1 = g.path1 := by unfold Group.setX; split <;> rfl
@[simp] theorem Group.setX_frame (g : Group) (r : BitVec 6) (v : Word) : (g.setX r v).frame = g.frame := by unfold Group.setX; split <;> rfl
@[simp] theorem Group.setX_issue1 (g : Group) (r : BitVec 6) (v : Word) : (g.setX r v).issue1 = g.issue1 := by unfold Group.setX; split <;> rfl
@[simp] theorem Group.setX_units (g : Group) (r : BitVec 6) (v : Word) : (g.setX r v).units = g.units := by unfold Group.setX; split <;> rfl
@[simp] theorem Group.setX_segIssued (g : Group) (r : BitVec 6) (v : Word) : (g.setX r v).segIssued = g.segIssued := by unfold Group.setX; split <;> rfl
@[simp] theorem Group.setX_segDone (g : Group) (r : BitVec 6) (v : Word) : (g.setX r v).segDone = g.segDone := by unfold Group.setX; split <;> rfl
@[simp] theorem Group.setX_retq (g : Group) (r : BitVec 6) (v : Word) : (g.setX r v).retq = g.retq := by unfold Group.setX; split <;> rfl
@[simp] theorem Group.setX_rstart (g : Group) (r : BitVec 6) (v : Word) : (g.setX r v).rstart = g.rstart := by unfold Group.setX; split <;> rfl
@[simp] theorem Group.setX_rB (g : Group) (r : BitVec 6) (v : Word) : (g.setX r v).rB = g.rB := by unfold Group.setX; split <;> rfl
@[simp] theorem Group.setX_genK (g : Group) (r : BitVec 6) (v : Word) : (g.setX r v).genK = g.genK := by unfold Group.setX; split <;> rfl
@[simp] theorem Group.setX_genB (g : Group) (r : BitVec 6) (v : Word) : (g.setX r v).genB = g.genB := by unfold Group.setX; split <;> rfl
@[simp] theorem Group.setX_vstep (g : Group) (r : BitVec 6) (v : Word) : (g.setX r v).vstep = g.vstep := by unfold Group.setX; split <;> rfl
@[simp] theorem Group.setX_dmask (g : Group) (r : BitVec 6) (v : Word) : (g.setX r v).dmask = g.dmask := by unfold Group.setX; split <;> rfl
@[simp] theorem Group.setX_closing (g : Group) (r : BitVec 6) (v : Word) : (g.setX r v).closing = g.closing := by unfold Group.setX; split <;> rfl
@[simp] theorem Group.setX_preemptAt (g : Group) (r : BitVec 6) (v : Word) : (g.setX r v).preemptAt = g.preemptAt := by unfold Group.setX; split <;> rfl
@[simp] theorem Group.setX_trapMode (g : Group) (r : BitVec 6) (v : Word) : (g.setX r v).trapMode = g.trapMode := by unfold Group.setX; split <;> rfl
@[simp] theorem Group.setX_tcode (g : Group) (r : BitVec 6) (v : Word) : (g.setX r v).tcode = g.tcode := by unfold Group.setX; split <;> rfl
@[simp] theorem Group.setX_tpc (g : Group) (r : BitVec 6) (v : Word) : (g.setX r v).tpc = g.tpc := by unfold Group.setX; split <;> rfl
@[simp] theorem Group.setX_taddr (g : Group) (r : BitVec 6) (v : Word) : (g.setX r v).taddr = g.taddr := by unfold Group.setX; split <;> rfl
@[simp] theorem Group.setX_taux (g : Group) (r : BitVec 6) (v : Word) : (g.setX r v).taux = g.taux := by unfold Group.setX; split <;> rfl
@[simp] theorem Group.setX_held (g : Group) (r : BitVec 6) (v : Word) : (g.setX r v).held = g.held := by unfold Group.setX; split <;> rfl
@[simp] theorem Group.setX_detected (g : Group) (r : BitVec 6) (v : Word) : (g.setX r v).detected = g.detected := by unfold Group.setX; split <;> rfl
@[simp] theorem Group.setX_regs (g : Group) (r : BitVec 6) (v : Word) : (g.setX r v).regs = g.regs := by unfold Group.setX; split <;> rfl
@[simp] theorem Group.setX_monitor (g : Group) (r : BitVec 6) (v : Word) : (g.setX r v).monitor = g.monitor := by unfold Group.setX; split <;> rfl
@[simp] theorem Group.setX_tx (g : Group) (r : BitVec 6) (v : Word) : (g.setX r v).tx = g.tx := by unfold Group.setX; split <;> rfl
@[simp] theorem Group.setX_acu (g : Group) (r : BitVec 6) (v : Word) : (g.setX r v).acu = g.acu := by unfold Group.setX; split <;> rfl
@[simp] theorem Group.setX_sat (g : Group) (r : BitVec 6) (v : Word) : (g.setX r v).sat = g.sat := by unfold Group.setX; split <;> rfl
@[simp] theorem Group.setX_mscope (g : Group) (r : BitVec 6) (v : Word) : (g.setX r v).mscope = g.mscope := by unfold Group.setX; split <;> rfl
@[simp] theorem Group.setX_planes (g : Group) (r : BitVec 6) (v : Word) : (g.setX r v).planes = g.planes := by unfold Group.setX; split <;> rfl
@[simp] theorem Group.setX_mcmds (g : Group) (r : BitVec 6) (v : Word) : (g.setX r v).mcmds = g.mcmds := by unfold Group.setX; split <;> rfl
@[simp] theorem Group.setX_swait (g : Group) (r : BitVec 6) (v : Word) : (g.setX r v).swait = g.swait := by unfold Group.setX; split <;> rfl
@[simp] theorem Group.setX_swalk (g : Group) (r : BitVec 6) (v : Word) : (g.setX r v).swalk = g.swalk := by unfold Group.setX; split <;> rfl
@[simp] theorem Group.setX_park (g : Group) (r : BitVec 6) (v : Word) : (g.setX r v).park = g.park := by unfold Group.setX; split <;> rfl
@[simp] theorem Group.setX_blocked (g : Group) (r : BitVec 6) (v : Word) : (g.setX r v).blocked = g.blocked := by unfold Group.setX; split <;> rfl
@[simp] theorem Group.setX_snap (g : Group) (r : BitVec 6) (v : Word) : (g.setX r v).snap = g.snap := by unfold Group.setX; split <;> rfl

/-! ## setPath -/

@[simp] theorem Group.setPath_ref (g : Group) (b : Bool) (p : Option Path) : (g.setPath b p).ref = g.ref := by unfold Group.setPath; split <;> rfl
@[simp] theorem Group.setPath_status (g : Group) (b : Bool) (p : Option Path) : (g.setPath b p).status = g.status := by unfold Group.setPath; split <;> rfl
@[simp] theorem Group.setPath_core (g : Group) (b : Bool) (p : Option Path) : (g.setPath b p).core = g.core := by unfold Group.setPath; split <;> rfl
@[simp] theorem Group.setPath_pc (g : Group) (b : Bool) (p : Option Path) : (g.setPath b p).pc = g.pc := by unfold Group.setPath; split <;> rfl
@[simp] theorem Group.setPath_x (g : Group) (b : Bool) (p : Option Path) : (g.setPath b p).x = g.x := by unfold Group.setPath; split <;> rfl
@[simp] theorem Group.setPath_lanes (g : Group) (b : Bool) (p : Option Path) : (g.setPath b p).lanes = g.lanes := by unfold Group.setPath; split <;> rfl
@[simp] theorem Group.setPath_stage (g : Group) (b : Bool) (p : Option Path) : (g.setPath b p).stage = g.stage := by unfold Group.setPath; split <;> rfl
@[simp] theorem Group.setPath_segs (g : Group) (b : Bool) (p : Option Path) : (g.setPath b p).segs = g.segs := by unfold Group.setPath; split <;> rfl
@[simp] theorem Group.setPath_frame (g : Group) (b : Bool) (p : Option Path) : (g.setPath b p).frame = g.frame := by unfold Group.setPath; split <;> rfl
@[simp] theorem Group.setPath_issue1 (g : Group) (b : Bool) (p : Option Path) : (g.setPath b p).issue1 = g.issue1 := by unfold Group.setPath; split <;> rfl
@[simp] theorem Group.setPath_units (g : Group) (b : Bool) (p : Option Path) : (g.setPath b p).units = g.units := by unfold Group.setPath; split <;> rfl
@[simp] theorem Group.setPath_segIssued (g : Group) (b : Bool) (p : Option Path) : (g.setPath b p).segIssued = g.segIssued := by unfold Group.setPath; split <;> rfl
@[simp] theorem Group.setPath_segDone (g : Group) (b : Bool) (p : Option Path) : (g.setPath b p).segDone = g.segDone := by unfold Group.setPath; split <;> rfl
@[simp] theorem Group.setPath_retq (g : Group) (b : Bool) (p : Option Path) : (g.setPath b p).retq = g.retq := by unfold Group.setPath; split <;> rfl
@[simp] theorem Group.setPath_rstart (g : Group) (b : Bool) (p : Option Path) : (g.setPath b p).rstart = g.rstart := by unfold Group.setPath; split <;> rfl
@[simp] theorem Group.setPath_rB (g : Group) (b : Bool) (p : Option Path) : (g.setPath b p).rB = g.rB := by unfold Group.setPath; split <;> rfl
@[simp] theorem Group.setPath_genK (g : Group) (b : Bool) (p : Option Path) : (g.setPath b p).genK = g.genK := by unfold Group.setPath; split <;> rfl
@[simp] theorem Group.setPath_genB (g : Group) (b : Bool) (p : Option Path) : (g.setPath b p).genB = g.genB := by unfold Group.setPath; split <;> rfl
@[simp] theorem Group.setPath_vstep (g : Group) (b : Bool) (p : Option Path) : (g.setPath b p).vstep = g.vstep := by unfold Group.setPath; split <;> rfl
@[simp] theorem Group.setPath_dmask (g : Group) (b : Bool) (p : Option Path) : (g.setPath b p).dmask = g.dmask := by unfold Group.setPath; split <;> rfl
@[simp] theorem Group.setPath_closing (g : Group) (b : Bool) (p : Option Path) : (g.setPath b p).closing = g.closing := by unfold Group.setPath; split <;> rfl
@[simp] theorem Group.setPath_preemptAt (g : Group) (b : Bool) (p : Option Path) : (g.setPath b p).preemptAt = g.preemptAt := by unfold Group.setPath; split <;> rfl
@[simp] theorem Group.setPath_trapMode (g : Group) (b : Bool) (p : Option Path) : (g.setPath b p).trapMode = g.trapMode := by unfold Group.setPath; split <;> rfl
@[simp] theorem Group.setPath_tcode (g : Group) (b : Bool) (p : Option Path) : (g.setPath b p).tcode = g.tcode := by unfold Group.setPath; split <;> rfl
@[simp] theorem Group.setPath_tpc (g : Group) (b : Bool) (p : Option Path) : (g.setPath b p).tpc = g.tpc := by unfold Group.setPath; split <;> rfl
@[simp] theorem Group.setPath_taddr (g : Group) (b : Bool) (p : Option Path) : (g.setPath b p).taddr = g.taddr := by unfold Group.setPath; split <;> rfl
@[simp] theorem Group.setPath_taux (g : Group) (b : Bool) (p : Option Path) : (g.setPath b p).taux = g.taux := by unfold Group.setPath; split <;> rfl
@[simp] theorem Group.setPath_held (g : Group) (b : Bool) (p : Option Path) : (g.setPath b p).held = g.held := by unfold Group.setPath; split <;> rfl
@[simp] theorem Group.setPath_detected (g : Group) (b : Bool) (p : Option Path) : (g.setPath b p).detected = g.detected := by unfold Group.setPath; split <;> rfl
@[simp] theorem Group.setPath_regs (g : Group) (b : Bool) (p : Option Path) : (g.setPath b p).regs = g.regs := by unfold Group.setPath; split <;> rfl
@[simp] theorem Group.setPath_monitor (g : Group) (b : Bool) (p : Option Path) : (g.setPath b p).monitor = g.monitor := by unfold Group.setPath; split <;> rfl
@[simp] theorem Group.setPath_tx (g : Group) (b : Bool) (p : Option Path) : (g.setPath b p).tx = g.tx := by unfold Group.setPath; split <;> rfl
@[simp] theorem Group.setPath_acu (g : Group) (b : Bool) (p : Option Path) : (g.setPath b p).acu = g.acu := by unfold Group.setPath; split <;> rfl
@[simp] theorem Group.setPath_sat (g : Group) (b : Bool) (p : Option Path) : (g.setPath b p).sat = g.sat := by unfold Group.setPath; split <;> rfl
@[simp] theorem Group.setPath_mscope (g : Group) (b : Bool) (p : Option Path) : (g.setPath b p).mscope = g.mscope := by unfold Group.setPath; split <;> rfl
@[simp] theorem Group.setPath_planes (g : Group) (b : Bool) (p : Option Path) : (g.setPath b p).planes = g.planes := by unfold Group.setPath; split <;> rfl
@[simp] theorem Group.setPath_mcmds (g : Group) (b : Bool) (p : Option Path) : (g.setPath b p).mcmds = g.mcmds := by unfold Group.setPath; split <;> rfl
@[simp] theorem Group.setPath_swait (g : Group) (b : Bool) (p : Option Path) : (g.setPath b p).swait = g.swait := by unfold Group.setPath; split <;> rfl
@[simp] theorem Group.setPath_swalk (g : Group) (b : Bool) (p : Option Path) : (g.setPath b p).swalk = g.swalk := by unfold Group.setPath; split <;> rfl
@[simp] theorem Group.setPath_park (g : Group) (b : Bool) (p : Option Path) : (g.setPath b p).park = g.park := by unfold Group.setPath; split <;> rfl
@[simp] theorem Group.setPath_blocked (g : Group) (b : Bool) (p : Option Path) : (g.setPath b p).blocked = g.blocked := by unfold Group.setPath; split <;> rfl
@[simp] theorem Group.setPath_snap (g : Group) (b : Bool) (p : Option Path) : (g.setPath b p).snap = g.snap := by unfold Group.setPath; split <;> rfl

/-! ## noteStore and dropPosted -/

@[simp] theorem State.noteStore_mem (s : State) (w : Option GroupRef) (p : Place) (l : List Byte) : (s.noteStore w p l).mem = s.mem := rfl
@[simp] theorem State.noteStore_poison (s : State) (w : Option GroupRef) (p : Place) (l : List Byte) : (s.noteStore w p l).poison = s.poison := rfl
@[simp] theorem State.noteStore_blocks (s : State) (w : Option GroupRef) (p : Place) (l : List Byte) : (s.noteStore w p l).blocks = s.blocks := rfl
@[simp] theorem State.noteStore_arrivals (s : State) (w : Option GroupRef) (p : Place) (l : List Byte) : (s.noteStore w p l).arrivals = s.arrivals := rfl
@[simp] theorem State.noteStore_tenants (s : State) (w : Option GroupRef) (p : Place) (l : List Byte) : (s.noteStore w p l).tenants = s.tenants := rfl
@[simp] theorem State.dropPosted_groups (s : State) (r : GroupRef) (f : PostOp → Bool) : (s.dropPosted r f).groups = s.groups := rfl
@[simp] theorem State.dropPosted_mem (s : State) (r : GroupRef) (f : PostOp → Bool) : (s.dropPosted r f).mem = s.mem := rfl
@[simp] theorem State.dropPosted_blocks (s : State) (r : GroupRef) (f : PostOp → Bool) : (s.dropPosted r f).blocks = s.blocks := rfl
@[simp] theorem State.dropPosted_tenants (s : State) (r : GroupRef) (f : PostOp → Bool) : (s.dropPosted r f).tenants = s.tenants := rfl

/-! ## discard -/

@[simp] theorem Group.discard_ref (g : Group) : (g.discard).ref = g.ref := rfl
@[simp] theorem Group.discard_status (g : Group) : (g.discard).status = g.status := rfl
@[simp] theorem Group.discard_core (g : Group) : (g.discard).core = g.core := rfl
@[simp] theorem Group.discard_pc (g : Group) : (g.discard).pc = g.pc := rfl
@[simp] theorem Group.discard_x (g : Group) : (g.discard).x = g.x := rfl
@[simp] theorem Group.discard_stage (g : Group) : (g.discard).stage = g.stage := rfl
@[simp] theorem Group.discard_segIssued (g : Group) : (g.discard).segIssued = g.segIssued := rfl
@[simp] theorem Group.discard_rstart (g : Group) : (g.discard).rstart = g.rstart := rfl
@[simp] theorem Group.discard_rB (g : Group) : (g.discard).rB = g.rB := rfl
@[simp] theorem Group.discard_genK (g : Group) : (g.discard).genK = g.genK := rfl
@[simp] theorem Group.discard_vstep (g : Group) : (g.discard).vstep = g.vstep := rfl
@[simp] theorem Group.discard_dmask (g : Group) : (g.discard).dmask = g.dmask := rfl
@[simp] theorem Group.discard_closing (g : Group) : (g.discard).closing = g.closing := rfl
@[simp] theorem Group.discard_preemptAt (g : Group) : (g.discard).preemptAt = g.preemptAt := rfl
@[simp] theorem Group.discard_trapMode (g : Group) : (g.discard).trapMode = g.trapMode := rfl
@[simp] theorem Group.discard_tcode (g : Group) : (g.discard).tcode = g.tcode := rfl
@[simp] theorem Group.discard_tpc (g : Group) : (g.discard).tpc = g.tpc := rfl
@[simp] theorem Group.discard_taddr (g : Group) : (g.discard).taddr = g.taddr := rfl
@[simp] theorem Group.discard_taux (g : Group) : (g.discard).taux = g.taux := rfl
@[simp] theorem Group.discard_held (g : Group) : (g.discard).held = g.held := rfl
@[simp] theorem Group.discard_detected (g : Group) : (g.discard).detected = g.detected := rfl
@[simp] theorem Group.discard_regs (g : Group) : (g.discard).regs = g.regs := rfl
@[simp] theorem Group.discard_tx (g : Group) : (g.discard).tx = g.tx := rfl
@[simp] theorem Group.discard_acu (g : Group) : (g.discard).acu = g.acu := rfl
@[simp] theorem Group.discard_sat (g : Group) : (g.discard).sat = g.sat := rfl
@[simp] theorem Group.discard_mscope (g : Group) : (g.discard).mscope = g.mscope := rfl
@[simp] theorem Group.discard_planes (g : Group) : (g.discard).planes = g.planes := rfl
@[simp] theorem Group.discard_mcmds (g : Group) : (g.discard).mcmds = g.mcmds := rfl
@[simp] theorem Group.discard_park (g : Group) : (g.discard).park = g.park := rfl
@[simp] theorem Group.discard_snap (g : Group) : (g.discard).snap = g.snap := rfl

end Sys2Proof.Machine
end

