-- ==== Sys2Proof/Laws/Ops.lean ====
section
/-! SUPPORT. Laws of the shared operations: registers, one group's update, the frames of instructions, and that records, kills,
parks and traps keep the canonical form of every memory. -/

namespace Sys2Proof.Machine

open Sys2Proof

/-! ## Scalar registers -/

@[simp] theorem Group.getX_zero (g : Group) : g.getX 0 = 0 := rfl

/-- A register after a write: the written value at a register other than x0, the old value elsewhere. -/
theorem Group.getX_setX (g : Group) (d r : BitVec 6) (v : Word) :
    (g.setX d v).getX r = if r = d ∧ d ≠ 0#6 then v else g.getX r := by
  by_cases hd : d = 0#6
  · simp [Group.setX, hd]
  · by_cases hr : r = d
    · subst hr; simp [Group.setX, Group.getX, hd]
    · have hne : d.toNat ≠ r.toNat := fun h => hr (BitVec.eq_of_toNat_eq h.symm)
      simp [Group.setX, Group.getX, hd, hr, hne]

@[simp] theorem Group.getX_complete (g : Group) (pc : Word) (r : BitVec 6) : (g.complete pc).getX r = g.getX r := rfl
@[simp] theorem Group.getX_advance (g : Group) (r : BitVec 6) : g.advance.getX r = g.getX r := rfl
@[simp] theorem Group.getX_close (g : Group) (r : BitVec 6) : g.close.getX r = g.getX r := rfl
@[simp] theorem Group.complete_pc (g : Group) (pc : Word) : (g.complete pc).pc = pc := rfl
@[simp] theorem Group.advance_pc (g : Group) : g.advance.pc = g.pc + 4 := rfl

/-! ## One group's update -/

theorem State.group?_ref {s : State} {r : GroupRef} {g : Group} (h : s.group? r = some g) : g.ref = r := by
  have := List.find?_some h
  simpa using this

/-- What a lookup finds after one group's update. -/
theorem State.group?_updGroup (s : State) (r q : GroupRef) (f : Group → Group) (hf : ∀ g, (f g).ref = g.ref) :
    (s.updGroup r f).group? q = if q = r then (s.group? q).map f else s.group? q := by
  simp only [State.group?, State.updGroup]
  generalize s.groups = gs
  induction gs with
  | nil => simp
  | cons g rest ih =>
    have hk : (if g.ref = r then f g else g).ref = g.ref := by split <;> simp [hf]
    simp only [List.map_cons, List.find?_cons, hk, ih]
    by_cases hg : g.ref = q
    · subst hg
      by_cases hr : g.ref = r <;> simp [hr]
    · have : (g.ref == q) = false := by simpa using hg
      simp [this]

theorem State.group?_updGroup_self (s : State) (r : GroupRef) (f : Group → Group) (hf : ∀ g, (f g).ref = g.ref)
    {g : Group} (h : s.group? r = some g) : (s.updGroup r f).group? r = some (f g) := by
  simp [s.group?_updGroup r r f hf, h]

/-- Bytes do not depend on the groups. -/
@[simp] theorem State.readBytes_updGroup (s : State) (r : GroupRef) (f : Group → Group) (p : Place) (n : Nat) :
    (s.updGroup r f).readBytes p n = s.readBytes p n := by cases p <;> rfl

@[simp] theorem State.readBytes_touch (s : State) (w : Option GroupRef) (b : Bool) (p q : Place) (n m : Nat) :
    (s.touch w b p n).readBytes q m = s.readBytes q m := by cases q <;> rfl

/-! ## The frames of instructions -/

/-- Everything `scalarPure` can do, where its group is resident. -/
theorem State.scalarPure_eq {s : State} {g : Group} (h : s.group? s.who.grp = some g) (f : Group → Group) :
    s.scalarPure f = .next (s.updGroup s.who.grp f) := by simp [State.scalarPure, h]

theorem State.scalar_eq {s : State} {g : Group} (h : s.group? s.who.grp = some g) (b : Group → Res State) :
    s.scalar b = s.settle g none (b g) := by simp [State.scalar, h]

theorem State.scalarCtx_eq {s : State} {g : Group} {c : Ctx} (h : s.group? s.who.grp = some g) (ht : g.tx = none)
    (hc : s.ctxOf g = some c) (b : Ctx → Res State) : s.scalarCtx b = s.settle g none (b c) := by
  simp [State.scalarCtx, State.scalarOut, State.scalar_eq h, ht, hc]

theorem State.lanePure_eq {s : State} {g : Group} {p : Path} (h : s.group? s.who.grp = some g)
    (hp : g.path s.who.slot = some p) (f : Group → Path → Group) :
    s.lanePure f = .next (s.updGroup s.who.grp fun g => (f g p).advanceLane s.who.slot) := by
  simp [State.lanePure, h, hp]

theorem State.laneCtx_eq {s : State} {g : Group} {p : Path} {c : Ctx} (h : s.group? s.who.grp = some g)
    (hp : g.path s.who.slot = some p) (hc : s.ctxOf g = some c) (b : Ctx → Path → Res State) :
    s.laneCtx b = s.settle g (some s.who.slot) (b (c.onPath p) p) := by
  simp [State.laneCtx, State.laneRes, h, hp, hc]

/-- The context of a group holds that group. -/
theorem State.ctxOf_g {s : State} {g : Group} {c : Ctx} (h : s.ctxOf g = some c) : c.g = g := by
  simp only [State.ctxOf, Option.bind_eq_bind, Option.bind_eq_some_iff] at h
  obtain ⟨b, -, l, -, k, -, kk, -, h⟩ := h
  cases h
  rfl

/-! ## Memories stay in canonical form -/

theorem State.memOk_congr {s t : State} (h : s.memOk) (hm : t.mem = s.mem) (hb : t.blocks = s.blocks)
    (hg : t.groups = s.groups) : t.memOk := by
  unfold State.memOk at *; rw [hm, hb, hg]; exact h

theorem State.memsOk_of {s : State} (h : s.memOk) {r : GroupRef} {g : Group} (hg : s.group? r = some g) : g.memsOk :=
  h.2.2 g (List.mem_of_find?_eq_some hg)

/-- An update of all groups that keeps their memories in form. -/
theorem State.memOk_map {s t : State} (h : s.memOk) (f : Group → Group) (hm : t.mem = s.mem) (hb : t.blocks = s.blocks)
    (hg : t.groups = s.groups.map f) (hf : ∀ g, g.memsOk → (f g).memsOk) : t.memOk := by
  refine ⟨hm ▸ h.1, hb ▸ h.2.1, fun g hx => ?_⟩
  rw [hg, List.mem_map] at hx
  obtain ⟨x, hx, rfl⟩ := hx
  exact hf x (h.2.2 x hx)

/-- An update of one group that keeps its memories in form. -/
theorem State.updGroup_memOk {s : State} (h : s.memOk) (r : GroupRef) (f : Group → Group)
    (hf : ∀ g, g.memsOk → (f g).memsOk) : (s.updGroup r f).memOk :=
  State.memOk_map h (fun g => if g.ref = r then f g else g) rfl rfl rfl fun g hg => by
    split
    · exact hf g hg
    · exact hg

theorem Group.discard_memsOk {g : Group} (h : g.memsOk) : g.discard.memsOk :=
  ⟨h.tx, h.snap, fun _ e => (by cases e), fun _ _ e => (by cases e), fun _ _ e => (by cases e)⟩

theorem Group.complete_memsOk {g : Group} (h : g.memsOk) (pc : Word) : (g.complete pc).memsOk :=
  ⟨h.tx, h.snap, fun _ e => (by cases e), h.walk0, h.walk1⟩

theorem Group.setX_memsOk {g : Group} (h : g.memsOk) (r : BitVec 6) (v : Word) : (g.setX r v).memsOk := by
  refine ⟨?_, ?_, ?_, ?_, ?_⟩ <;> simp <;> first | exact h.tx | exact h.snap | exact h.swalk | exact h.walk0 | exact h.walk1

theorem Group.deliver_memsOk {g : Group} (h : g.memsOk) (k : Kernel) (i : TrapInfo) : (g.deliver k i).memsOk :=
  ⟨h.tx, h.snap, fun _ e => (by cases e), h.walk0, h.walk1⟩

theorem Group.abortTx_memsOk {g : Group} (h : g.memsOk) (r c : Nat) (a : Word) : (g.abortTx r c a).memsOk := by
  unfold Group.abortTx
  split
  · exact h
  · rename_i tx _
    have h1 : Group.memsOk { g with x := tx.saved, tx := none } :=
      ⟨fun _ e => (by cases e), h.snap, h.swalk, h.walk0, h.walk1⟩
    exact Group.complete_memsOk (Group.setX_memsOk (Group.setX_memsOk h1 _ _) _ _) _

theorem Group.setPath_memsOk {g : Group} (h : g.memsOk) (b : Bool) (p : Option Path)
    (hp : ∀ q w, p = some q → q.walk = some w → w.mem.wf = true) : (g.setPath b p).memsOk := by
  cases b
  · exact ⟨h.tx, h.snap, h.swalk, hp, h.walk1⟩
  · exact ⟨h.tx, h.snap, h.swalk, h.walk0, hp⟩

/-- The tables that a path of a group keeps are in form. -/
theorem Group.walk_ok {g : Group} (h : g.memsOk) {b : Bool} {p : Path} {w : Tables} (hp : g.path b = some p)
    (hw : p.walk = some w) : w.mem.wf = true := by
  cases b
  · exact h.walk0 p w hp hw
  · exact h.walk1 p w hp hw

theorem Group.await_memsOk {g : Group} (h : g.memsOk) (slot : Option Bool) (w : Wait) : (g.await slot w).memsOk := by
  cases slot with
  | none => exact ⟨h.tx, h.snap, h.swalk, h.walk0, h.walk1⟩
  | some b =>
    refine Group.setPath_memsOk h b _ fun q t hq ht => ?_
    cases e : g.path b with
    | none => rw [e] at hq; cases hq
    | some p => rw [e] at hq; cases hq; exact Group.walk_ok h e ht

theorem Group.dropWalk_memsOk {g : Group} (h : g.memsOk) (slot : Option Bool) : (g.dropWalk slot).memsOk := by
  cases slot with
  | none => exact ⟨h.tx, h.snap, fun _ e => (by cases e), h.walk0, h.walk1⟩
  | some b =>
    refine Group.setPath_memsOk h b _ fun q t hq ht => ?_
    simp only [Option.map_eq_some_iff] at hq
    obtain ⟨p, -, rfl⟩ := hq
    cases ht

theorem Group.keepWalk_memsOk {g : Group} (h : g.memsOk) (slot : Option Bool) (w : Wait) (tb : Tables) (ht : tb.mem.wf = true) :
    (g.keepWalk slot w tb).memsOk := by
  have new : ∀ (o : Option Tables), (∀ x, o = some x → x.mem.wf = true) → (o.getD tb).mem.wf = true := by
    intro o ho
    cases o with
    | none => exact ht
    | some x => exact ho x rfl
  have scalar : Group.memsOk { g with swalk := some (g.swalk.getD tb) } :=
    ⟨h.tx, h.snap, fun x e => (by cases e; exact new _ h.swalk), h.walk0, h.walk1⟩
  have lane : ∀ b, (g.setPath b ((g.path b).map fun p => { p with walk := some (p.walk.getD tb) })).memsOk := by
    intro b
    refine Group.setPath_memsOk h b _ fun q t hq hw => ?_
    cases e : g.path b with
    | none => rw [e] at hq; cases hq
    | some p =>
      rw [e] at hq; cases hq; cases hw
      exact new _ fun x ex => Group.walk_ok h e ex
  unfold Group.keepWalk
  cases w <;> cases slot <;> first | exact scalar | exact lane _ | exact h

theorem Group.touch_memsOk {g : Group} (h : g.memsOk) (w : Option GroupRef) (b : Bool) (p : Place) (n : Nat) :
    (g.touch w b p n).memsOk := by
  unfold Group.touch
  simp only
  split
  · rename_i t e
    split
    · exact ⟨fun x ex => (by cases ex; exact h.tx t e), h.snap, h.swalk, h.walk0, h.walk1⟩
    · exact ⟨h.tx, h.snap, h.swalk, h.walk0, h.walk1⟩
  · exact ⟨h.tx, h.snap, h.swalk, h.walk0, h.walk1⟩

theorem Group.noteOwn_memsOk {g : Group} (h : g.memsOk) (w : Option GroupRef) (p : Place) (l : List Byte) :
    (g.noteOwn w p l).memsOk := by
  unfold Group.noteOwn
  split
  · split
    · refine ⟨h.tx, fun m e => ?_, h.swalk, h.walk0, h.walk1⟩
      simp only [Option.map_eq_some_iff] at e
      obtain ⟨a, ha, rfl⟩ := e
      exact Memory.writeBytes_wf a (h.snap a ha) _ _
    · exact h
  · exact h

/-- An update of blocks that leaves their scratchpads. -/
theorem State.updBlock_memOk {s : State} (h : s.memOk) (i : Nat) (f : Block → Block)
    (hf : ∀ b, b.scratch.wf = true → (f b).scratch.wf = true) : (s.updBlock i f).memOk := by
  refine ⟨h.1, fun b hb => ?_, h.2.2⟩
  simp only [State.updBlock, List.mem_map] at hb
  obtain ⟨c, hc, rfl⟩ := hb
  split
  · exact hf c (h.2.1 c hc)
  · exact h.2.1 c hc

theorem State.touch_memOk {s : State} (h : s.memOk) (w : Option GroupRef) (b : Bool) (p : Place) (n : Nat) :
    (s.touch w b p n).memOk :=
  State.memOk_map h _ rfl rfl rfl fun _ hg => Group.touch_memsOk hg _ _ _ _

theorem State.storeBytes_memOk {s : State} (h : s.memOk) (w : Option GroupRef) (p : Place) (l : List Byte) :
    (s.storeBytes w p l).memOk := State.touch_memOk (s.putBytes_memOk h p l) _ _ _ _

theorem State.noteStore_memOk {s : State} (h : s.memOk) (w : Option GroupRef) (p : Place) (l : List Byte) :
    (s.noteStore w p l).memOk :=
  State.memOk_map h _ rfl rfl rfl fun _ hg => Group.noteOwn_memsOk hg _ _ _

theorem State.writeBytes_memOk {s : State} (h : s.memOk) (w : Option GroupRef) (p : Place) (l : List Byte) :
    (s.writeBytes w p l).memOk := State.noteStore_memOk (State.storeBytes_memOk h w p l) _ _ _

theorem State.writeNat_memOk {s : State} (h : s.memOk) (w : Option GroupRef) (p : Place) (n x : Nat) :
    (s.writeNat w p n x).memOk := State.writeBytes_memOk h w p _

theorem State.clearPoison_memOk {s : State} (h : s.memOk) (p : Place) (n : Nat) : (s.clearPoison p n).memOk := by
  cases p with
  | phys k => exact h
  | sp b o => exact State.updBlock_memOk h b _ fun _ hx => hx

theorem State.poisonRange_memOk {s : State} (h : s.memOk) (p : Place) (n : Nat) : (s.poisonRange p n).memOk := by
  cases p with
  | phys k => exact h
  | sp b o => exact State.updBlock_memOk h b _ fun _ hx => hx

theorem State.writeWhole_memOk {s : State} (h : s.memOk) (w : Option GroupRef) (p : Place) (l : List Byte) :
    (s.writeWhole w p l).memOk := State.clearPoison_memOk (State.writeBytes_memOk h w p l) _ _

theorem State.setFull_memOk {s : State} (h : s.memOk) (b : Nat) (gs : List Nat) (f : Bool) : (s.setFull b gs f).memOk :=
  State.updBlock_memOk h b _ fun _ hx => hx

theorem State.engineWrite_memOk {s : State} (h : s.memOk) (w : GroupRef) (p : Place) (l : List Byte) :
    (s.engineWrite w p l).memOk := by
  unfold State.engineWrite State.fillGranules
  have h1 := State.writeWhole_memOk h (some w) p l
  cases p with
  | phys k => exact h1
  | sp b o => exact State.setFull_memOk h1 _ _ _

theorem State.foldl_memOk {α : Type} (l : List α) (f : State → α → State) (hf : ∀ s x, s.memOk → (f s x).memOk)
    {s : State} (h : s.memOk) : (l.foldl f s).memOk := by
  induction l generalizing s with
  | nil => exact h
  | cons x rest ih => exact ih (hf s x h)

theorem State.copyPage_memOk {s : State} (h : s.memOk) (src dst : Nat) : (s.copyPage src dst).memOk := by
  unfold State.copyPage
  have h1 := (s.touch none false (.phys src) pageSize).putBytes_memOk (State.touch_memOk h _ _ _ _) (.phys dst)
    (s.readBytes (.phys src) pageSize)
  generalize State.putBytes _ _ _ = u at h1 ⊢
  exact State.memOk_congr h1 rfl rfl rfl

theorem State.redirectHeld_memOk {s : State} (h : s.memOk) (p d : Nat) : (s.redirectHeld p d).memOk :=
  State.memOk_map h _ rfl rfl rfl fun _ hg => ⟨hg.tx, hg.snap, hg.swalk, hg.walk0, hg.walk1⟩

theorem State.setVersion_memOk {s : State} (h : s.memOk) (v : Version) : (s.setVersion v).memOk := by
  unfold State.setVersion
  split <;> exact State.memOk_congr h rfl rfl rfl

theorem State.cowUpdate_memOk {s : State} (h : s.memOk) (t p d : Nat) (q : Word32) : (s.cowUpdate t p d q).memOk := by
  unfold State.cowUpdate
  have h1 := State.redirectHeld_memOk (State.setVersion_memOk h ((s.version t p).afterCow q d)) p d
  simp only
  split
  · exact h1
  · exact State.memOk_congr h1 rfl rfl rfl

/-- A copy-on-write keeps every memory in form, when it ends and when it is made at once. -/
theorem State.cowFinish_memOk {s : State} (h : s.memOk) (w : Cow) : (s.cowFinish w).memOk := by
  have h1 : State.memOk { s with cows := s.cows.filter fun x => x.page != w.page } := State.memOk_congr h rfl rfl rfl
  exact State.cowUpdate_memOk (State.copyPage_memOk h1 _ _) _ _ _ _

theorem State.endCopy_memOk {s : State} (h : s.memOk) (w : Cow) : (s.endCopy w).memOk := by
  have drop : State.memOk { s with cows := s.cows.filter fun x => x.page != w.page } := State.memOk_congr h rfl rfl rfl
  unfold State.endCopy
  split
  · split
    · exact drop
    · exact State.cowFinish_memOk h w
  · exact drop

theorem State.finishCopies_memOk {s : State} (h : s.memOk) (k n : Nat) : (s.finishCopies k n).memOk :=
  State.foldl_memOk _ _ (fun _ w hs => State.endCopy_memOk hs w) h

/-- The states that a posting can leave. -/
def Posting.memOk (p : Posting) : Prop :=
  match p with
  | .noRoom => True
  | .dropped s => s.memOk
  | .posted s _ => s.memOk

theorem State.writeSlot_memOk {s : State} (h : s.memOk) (t : Nat) (f : Bool) (rec : PendingRec) :
    (s.writeSlot t f rec).memOk := by
  unfold State.writeSlot
  simp only
  split
  · exact State.memOk_congr (t := (s.dropRecord t f).logEvent _) h rfl rfl rfl
  · rename_i l _
    generalize (if f = true then rec.bytes ++ [_] else _) = bs
    have hw := State.writeBytes_memOk (State.finishCopies_memOk h l.key bs.length) none (.phys l.key) bs
    generalize (s.finishCopies l.key bs.length).writeBytes none (.phys l.key) bs = w at hw ⊢
    generalize (fun x : Tenant => x.setRing f _) = up
    have hp : ∀ p : Option Nat, State.memOk (match p with
        | some id => { w.updTenant t up with groups := (w.updTenant t up).groups.map fun g =>
            { g with park := g.park.map fun (p : Park) => if p.id = id then { p with slot := some l.key } else p } }
        | none => w.updTenant t up) := by
      intro p
      cases p with
      | none => exact State.memOk_congr (t := w.updTenant t up) hw rfl rfl rfl
      | some id => exact State.memOk_map hw _ rfl rfl rfl fun g hg => ⟨hg.tx, hg.snap, hg.swalk, hg.walk0, hg.walk1⟩
    have hv := hp rec.park
    simp only [Posting.memOk]
    split
    · exact State.memOk_congr hv rfl rfl rfl
    · split
      · exact State.memOk_congr hv rfl rfl rfl
      · exact hv

theorem State.postRecord_memOk {s : State} (h : s.memOk) (t : Nat) (f : Bool) (rec : PendingRec) :
    (s.postRecord t f rec).memOk := by
  unfold State.postRecord
  simp only
  split
  · exact State.memOk_congr (t := s.dropRecord t f) h rfl rfl rfl
  · split
    · exact State.writeSlot_memOk h t f rec
    · split
      · exact State.memOk_congr (t := s.updTenant t _) h rfl rfl rfl
      · trivial

theorem State.cowNow_memOk {s : State} (h : s.memOk) (t p : Nat) (q : Word32) : (s.cowNow t p q).memOk := by
  unfold State.cowNow
  split
  · exact State.cowUpdate_memOk (State.copyPage_memOk h _ _) _ _ _ _
  · exact h

theorem State.ownPage_memOk {s : State} (h : s.memOk) (t p : Nat) (q : Word32) :
    ∀ u, s.ownPage t p q = some u → u.memOk := by
  have key : ∀ v : State, v.memOk → ∀ u, (if !(v.version t p).pub then some v
      else if (v.cowFault (v.version t p) t q 1).isSome then none else some (v.cowNow t p q)) = some u → u.memOk := by
    intro v hv u hu
    split at hu
    · cases hu; exact hv
    · split at hu
      · cases hu
      · cases hu; exact State.cowNow_memOk hv _ _ _
  intro u hu
  unfold State.ownPage at hu
  cases e : s.cows.find? fun w => w.page == p with
  | none => rw [e] at hu; exact key s h u hu
  | some w => rw [e] at hu; exact key _ (State.endCopy_memOk h w) u hu

theorem State.abandonObject_memOk {s : State} (h : s.memOk) (c : Ctx) (r : Registration) : (s.abandonObject c r).memOk := by
  unfold State.abandonObject
  split
  · split
    · exact h
    · split
      · rename_i s1 e
        split at e
        · exact State.writeNat_memOk (State.ownPage_memOk h _ _ _ _ e) _ _ _ _
        · cases e; exact State.writeNat_memOk h _ _ _ _
      · exact h
  · exact h

theorem State.abandon_memOk {s : State} (h : s.memOk) (g : Group) : (s.abandon g).memOk := by
  unfold State.abandon
  refine State.updBlock_memOk ?_ _ _ fun _ hx => hx
  split
  · exact State.foldl_memOk _ _ (fun s r hs => State.abandonObject_memOk hs _ r) h
  · exact h

theorem State.dropPosted_memOk {s : State} (h : s.memOk) (r : GroupRef) (f : PostOp → Bool) : (s.dropPosted r f).memOk :=
  State.memOk_congr h rfl rfl rfl

theorem State.endGroup_memOk {s : State} (h : s.memOk) (r : GroupRef) (st : GroupStatus) : (s.endGroup r st).memOk := by
  unfold State.endGroup
  refine State.updBlock_memOk (State.dropPosted_memOk (State.updGroup_memOk h r _ fun g hg => ?_) _ _) _ _ fun b hb => ?_
  · exact ⟨fun _ e => (by cases e), hg.snap, fun _ e => (by cases e), fun _ _ e => (by cases e), fun _ _ e => (by cases e)⟩
  · split <;> exact hb

theorem State.kill_memOk {s : State} (h : s.memOk) (r : GroupRef) (info : TrapInfo) (n : Bool) :
    ∀ t, s.kill r info n = some t → t.memOk := by
  intro t ht
  unfold State.kill at ht
  split at ht
  · cases ht; exact h
  · rename_i g hg
    have hp := State.postRecord_memOk (State.abandon_memOk h g) (s.tenantOf g) true
      ⟨s.faultRecord g info (1 + if n then 8 else 0), none, none⟩
    have fin : ∀ s2 : State, s2.memOk →
        (let s3 := s2.endGroup r .killed
         let s4 := match s.block? r.blk with
          | some b => s3.updLaunch b.launch fun l =>
              { l with kcode := l.kcode.or (some info.code), nkill := min (l.nkill + 1) 0xFFFFFFFF }
          | none => s3
         if info.code.machineCheck then s4.logEvent (.machineCheck r info.code) else s4).memOk := by
      intro s2 h2
      have h3 := State.endGroup_memOk h2 r .killed
      simp only
      split <;> split <;> exact State.memOk_congr h3 rfl rfl rfl
    split at ht
    · cases ht
    · simp only at ht
      split at ht
      · cases ht
      · rename_i s2 e
        rw [e] at hp
        cases ht
        exact fin s2 hp
      · rename_i s2 sl e
        rw [e] at hp
        cases ht
        exact fin s2 hp

theorem State.parkGroup_memOk {s : State} (h : s.memOk) (r : GroupRef) (info : TrapInfo) :
    ∀ t, s.parkGroup r info = some t → t.memOk := by
  intro t ht
  unfold State.parkGroup at ht
  split at ht
  · cases ht; exact h
  · rename_i g hg
    have h1 : State.memOk { s with nextId := s.nextId + 1 } := State.memOk_congr h rfl rfl rfl
    have hp := State.postRecord_memOk h1 (s.tenantOf g) true ⟨s.faultRecord g info 2, some s.nextId, none⟩
    simp only at ht
    split at ht
    · cases ht
    · rename_i s2 e
      have e' : State.postRecord { s with nextId := s.nextId + 1 } (s.tenantOf g) true
          ⟨s.faultRecord g info 2, some s.nextId, none⟩ = .dropped s2 := e
      rw [e'] at hp
      exact State.kill_memOk hp r info _ t ht
    · rename_i s2 sl e
      have e' : State.postRecord { s with nextId := s.nextId + 1 } (s.tenantOf g) true
          ⟨s.faultRecord g info 2, some s.nextId, none⟩ = .posted s2 sl := e
      rw [e'] at hp
      cases ht
      exact State.updGroup_memOk hp r _ fun g hg => ⟨hg.tx, hg.snap, hg.swalk, hg.walk0, hg.walk1⟩

theorem State.takeTrap_memOk {s : State} (h : s.memOk) (r : GroupRef) (info : TrapInfo) :
    ∀ t, s.takeTrap r info = some t → t.memOk := by
  intro t ht
  have h1 : ((s.updGroup r Group.discard).dropPosted r PostOp.reads).memOk :=
    State.dropPosted_memOk (State.updGroup_memOk h r _ fun g hg => Group.discard_memsOk hg) r _
  unfold State.takeTrap at ht
  split at ht
  · cases ht; exact h
  · simp only at ht
    split at ht
    · exact State.parkGroup_memOk h1 r info t ht
    · split at ht
      · split at ht
        · cases ht; exact State.updGroup_memOk h1 r _ fun g hg => Group.deliver_memsOk hg _ _
        · exact State.kill_memOk h1 r info _ t ht
      · exact State.kill_memOk h1 r info _ t ht

/-- An outcome whose next state, if there is one, has its memories in canonical form. -/
def Out.memOk (o : Out) : Prop := ∀ t, o = .next t → t.memOk

theorem Out.memOk_next {s : State} (h : s.memOk) : Out.memOk (.next s) := by
  intro t ht; cases ht; exact h

/-- Taking a trap, or waiting for its record's room. -/
theorem State.orRoom_memOk {s : State} (h : s.memOk) (r : GroupRef) (info : TrapInfo) (t : Option State)
    (ht : ∀ u, t = some u → u.memOk) : (s.orRoom r info t).memOk := by
  unfold State.orRoom
  cases t with
  | none => exact State.updGroup_memOk h r _ fun g hg => ⟨hg.tx, hg.snap, hg.swalk, hg.walk0, hg.walk1⟩
  | some u => exact ht u rfl

/-- Whatever an instruction that does not complete does, memories stay in canonical form. -/
theorem State.stopped_memOk {s : State} (h : s.memOk) (g : Group) (slot : Option Bool) (st : Stop) :
    Out.memOk (s.stopped g slot st) := by
  unfold State.stopped
  cases st with
  | trap code addr d => exact Out.memOk_next (State.orRoom_memOk h _ _ _ (State.takeTrap_memOk h _ _))
  | park addr d =>
    exact Out.memOk_next (State.updGroup_memOk (State.orRoom_memOk h _ _ _ (State.parkGroup_memOk h _ _)) _ _
      fun g hg => Group.dropWalk_memsOk hg _)
  | wait w =>
    exact Out.memOk_next (State.updGroup_memOk h _ _ fun g hg => Group.keepWalk_memsOk (Group.await_memsOk hg _ _) _ _ _ h.1)
  | abort => exact Out.memOk_next (State.updGroup_memOk h _ _ fun g hg => Group.abortTx_memsOk hg _ _ _)
  | fault f => intro t ht; cases ht

/-- An instruction keeps the canonical form when the state it completes in does. -/
theorem State.settle_memOk {s : State} (h : s.memOk) (g : Group) (slot : Option Bool) (r : Res State)
    (hr : ∀ t, r = .ok t → t.memOk) : Out.memOk (s.settle g slot r) := by
  unfold State.settle
  split
  · exact Out.memOk_next (hr _ rfl)
  · exact State.stopped_memOk h g slot _

theorem State.scalarPure_memOk {s : State} (h : s.memOk) (f : Group → Group) (hf : ∀ g, g.memsOk → (f g).memsOk) :
    Out.memOk (s.scalarPure f) := by
  unfold State.scalarPure
  split
  · exact Out.memOk_next h
  · exact Out.memOk_next (State.updGroup_memOk h _ f hf)

theorem Group.completeLane_memsOk {g : Group} (h : g.memsOk) (slot : Bool) (pc : Word32) : (g.completeLane slot pc).memsOk := by
  unfold Group.completeLane
  refine Group.setPath_memsOk (g := { g with blocked := 0 }) ⟨h.tx, h.snap, h.swalk, h.walk0, h.walk1⟩ _ _ fun q w hq hw => ?_
  simp only [Option.map_eq_some_iff] at hq
  obtain ⟨p, -, rfl⟩ := hq
  cases hw

theorem Group.advanceLane_memsOk {g : Group} (h : g.memsOk) (slot : Bool) : (g.advanceLane slot).memsOk := by
  unfold Group.advanceLane
  split
  · exact Group.completeLane_memsOk h _ _
  · exact h

theorem State.lanePure_memOk {s : State} (h : s.memOk) (f : Group → Path → Group)
    (hf : ∀ g p, g.memsOk → (f g p).memsOk) : Out.memOk (s.lanePure f) := by
  unfold State.lanePure
  split
  · exact Out.memOk_next h
  · split
    · exact Out.memOk_next h
    · exact Out.memOk_next (State.updGroup_memOk h _ _ fun g hg => Group.advanceLane_memsOk (hf g _ hg) _)

theorem State.scalar_memOk {s : State} (h : s.memOk) (b : Group → Res State) (hb : ∀ g t, b g = .ok t → t.memOk) :
    Out.memOk (s.scalar b) := by
  unfold State.scalar
  split
  · exact Out.memOk_next h
  · exact State.settle_memOk h _ _ _ (hb _)

theorem State.scalarCtx_memOk {s : State} (h : s.memOk) (b : Ctx → Res State) (hb : ∀ c t, b c = .ok t → t.memOk) :
    Out.memOk (s.scalarCtx b) := by
  refine State.scalar_memOk h _ fun g t ht => ?_
  split at ht
  · cases ht
  · simp only at ht
    split at ht
    · exact hb _ _ ht
    · cases ht; exact h

theorem State.laneCtx_memOk {s : State} (h : s.memOk) (b : Ctx → Path → Res State)
    (hb : ∀ c p t, b c p = .ok t → t.memOk) : Out.memOk (s.laneCtx b) := by
  unfold State.laneCtx State.laneRes
  split
  · exact Out.memOk_next h
  · split
    · exact Out.memOk_next h
    · refine State.settle_memOk h _ _ _ fun t ht => ?_
      simp only at ht
      split at ht
      · exact hb _ _ _ ht
      · cases ht; exact h

end Sys2Proof.Machine
end

