-- ==== Sys2Proof/Laws/Reach.lean ====
section
/-! SUPPORT. What the shared checks of accesses can do: reachability, the lines that engines own, the order behind posted operations,
the turn of a core's matrix commands, Ocard's locks, and the tests of waits. -/

namespace Sys2Proof.Machine

open Sys2Proof

/-- No engine owns bytes of a scratchpad: only granules in memory lie in lines (R245). -/
@[simp] theorem State.lineHeld_sp (s : State) (who : Option GroupRef) (b o n : Nat) : s.lineHeld who (.sp b o) n = false := rfl

/-- Where no accepted command is still to write, no line is held. -/
theorem State.lineHeld_nil {s : State} (h : s.dests = []) (who : Option GroupRef) (p : Place) (n : Nat) :
    s.lineHeld who p n = false := by simp [State.lineHeld, h]

theorem State.lineFree_ok {s : State} {c : Ctx} {p : Place} {n : Nat} {va : Word} :
    s.lineFree c p n va = .ok () ↔ s.lineHeld (some c.g.ref) p n = false := by
  unfold State.lineFree
  split <;> simp_all

/-- A target is reachable exactly when its way is open and no engine owns its line. -/
theorem State.reachable_ok {s : State} {c : Ctx} {t : Target} :
    s.reachable c t = .ok () ↔ s.wayTo t = .ok () ∧ s.lineHeld (some c.g.ref) t.place 1 = false := by
  unfold State.reachable
  rw [← State.lineFree_ok (va := t.va)]
  cases s.wayTo t with
  | error e => exact ⟨fun h => (nomatch h), fun h => (nomatch h.1)⟩
  | ok u => exact ⟨fun h => ⟨rfl, h⟩, And.right⟩

/-- A target is readable exactly when it is reachable and free of poison. -/
theorem State.readable_ok {s : State} {c : Ctx} {t : Target} {n : Nat} :
    s.readable c t n = .ok () ↔ s.reachable c t = .ok () ∧ s.poisoned t.place n = none := by
  unfold State.readable
  cases s.reachable c t with
  | error e => exact ⟨fun h => (nomatch h), fun h => (nomatch h.1)⟩
  | ok u => cases h : s.poisoned t.place n with
    | none => exact ⟨fun _ => ⟨rfl, rfl⟩, fun _ => rfl⟩
    | some q => exact ⟨fun h => (nomatch h), fun h => (nomatch h.2)⟩

/-- A read of the scalar stream waits for nothing exactly where every posted operation of the group is no test and works elsewhere or
is a store. -/
theorem State.updatePending_false {s : State} {g : Group} {p : Place} {n : Nat} :
    s.updatePending g false p n = false ↔
      ∀ a ∈ s.outstanding g false, a.op.acquires = false ∧ (a.obj.meets a.size p n = true → a.op.isStore = true) := by
  simp only [State.updatePending, List.any_eq_false, Bool.or_eq_true, Bool.and_eq_true, Bool.false_or, not_or, not_and]
  constructor <;> intro h a ha <;> have := h a ha <;> revert this <;>
    cases a.op.acquires <;> cases a.op.isStore <;> simp

@[simp] theorem State.stepped_groups (s : State) (core id : Nat) : (s.stepped core id).groups = s.groups := rfl
@[simp] theorem State.stepped_blocks (s : State) (core id : Nat) : (s.stepped core id).blocks = s.blocks := rfl
@[simp] theorem State.stepped_mem (s : State) (core id : Nat) : (s.stepped core id).mem = s.mem := rfl
@[simp] theorem State.stepped_poison (s : State) (core id : Nat) : (s.stepped core id).poison = s.poison := rfl

/-- The least of a list is in it, and none is less. -/
theorem leastOf_spec {l : List Nat} {n : Nat} (h : leastOf l = some n) : n ∈ l ∧ ∀ m ∈ l, n ≤ m := by
  have step : ∀ (l : List Nat) (a : Nat), l.foldl min a ∈ a :: l ∧ ∀ m ∈ a :: l, l.foldl min a ≤ m := by
    intro l
    induction l with
    | nil => intro a; simp
    | cons b l ih =>
      intro a
      obtain ⟨h1, h2⟩ := ih (min a b)
      have hmin := h2 (min a b) (by simp)
      refine ⟨?_, fun m hm => ?_⟩
      · simp only [List.foldl_cons, List.mem_cons] at h1 ⊢
        rcases h1 with h1 | h1
        · rcases Nat.le_total a b with hab | hab
          · exact .inl (h1.trans (Nat.min_eq_left hab))
          · exact .inr (.inl (h1.trans (Nat.min_eq_right hab)))
        · exact .inr (.inr h1)
      · simp only [List.foldl_cons, List.mem_cons] at hm ⊢
        rcases hm with rfl | rfl | hm
        · exact Nat.le_trans hmin (Nat.min_le_left ..)
        · exact Nat.le_trans hmin (Nat.min_le_right ..)
        · exact h2 m (by simp [hm])
  cases l with
  | nil => simp [leastOf] at h
  | cons a l =>
    simp only [leastOf, Option.some.injEq] at h
    subst h
    exact step l a

/-- The command that a core's engine steps next is the head of some group bound to that core, and can take its step (R259). -/
theorem State.matrixNext_ready {s : State} {core id : Nat} (h : s.matrixNext core = some id) :
    ∃ g ∈ s.groups, ∃ p m rest, g.planes = some p ∧ p.core = core ∧ g.mcmds = m :: rest ∧ s.matrixReady g.ref m = true ∧ m.id = id := by
  have hmem : ∀ {l : List Nat} {f : Nat → Bool} {n : Nat}, (leastOf (l.filter f)).or (leastOf l) = some n → n ∈ l := by
    intro l f n h
    cases hf : leastOf (l.filter f) with
    | some m =>
      simp only [hf, Option.some_or, Option.some.injEq] at h
      exact h ▸ (List.mem_filter.mp (leastOf_spec hf).1).1
    | none =>
      simp only [hf, Option.none_or] at h
      exact (leastOf_spec h).1
  have := hmem h
  rw [List.mem_filterMap] at this
  obtain ⟨g, hg, he⟩ := this
  split at he
  · next p m rest hp hm =>
    split at he
    · next hc => exact ⟨g, hg, p, m, rest, hp, hc.1, hm, hc.2, by simpa using he⟩
    · cases he
  · cases he

/-- No posted read of the group is outstanding. -/
theorem State.readsDue_false {s : State} {r : GroupRef} :
    s.readsDue r = false ↔ ∀ a ∈ s.arrivals, a.grp = r → a.op.dst = none := by
  simp only [State.readsDue, List.any_eq_false, Bool.and_eq_true, beq_iff_eq, not_and, Option.not_isSome_iff_eq_none]

/-- A page that passes the protection checks for a write is writable, and Ocard does not hold it locked (R61, R205). -/
theorem State.protect_ok {s : State} {n m : Nat} {k : Access} {va : Word} {l l' : Leaf} (h : s.protect n k va m l = .ok l') :
    l' = l ∧ (k.writes = true → l.writable = true ∧ s.locked l.pageKey = false) := by
  simp only [State.protect] at h
  split at h
  · cases h
  · next hw =>
    have hw' : k.writes = true → l.writable = true ∧ s.locked l.pageKey = false := by simpa using hw
    split at h
    · cases h
    · split at h
      · cases h
      · split at h
        · cases h
        · cases h
          exact ⟨rfl, hw'⟩

@[simp] theorem Tested.of_early {q m : Bool} : Tested.of q m = .early ↔ q = false := by cases q <;> cases m <;> decide
@[simp] theorem Tested.of_met {q m : Bool} : Tested.of q m = .met ↔ q = true ∧ m = true := by cases q <;> cases m <;> decide
@[simp] theorem Tested.of_unmet {q m : Bool} : Tested.of q m = .unmet ↔ q = true ∧ m = false := by cases q <;> cases m <;> decide

/-- The path in slot 0 goes on where its test is met, and the one in slot 1 where slot 0 cannot and its own test is met (R130). -/
theorem State.testPaths_met {s : State} {c : Ctx} {slot : Bool} :
    s.testPaths c = (.met, slot) ↔
      (slot = false ∧ s.testPath c false = .met) ∨ (slot = true ∧ s.testPath c false = .unmet ∧ s.testPath c true = .met) := by
  unfold State.testPaths
  cases h : s.testPath c false <;> cases slot <;> simp

end Sys2Proof.Machine
end

