-- ==== Sys2Proof/Tests/Slice0.lean ====
section
/-! SUPPORT. Tests: ill-formed terms that `wf` refuses; words written out from the spec's encodings; small steps with results worked
out from the rules; and, for every statement with hypotheses, concrete states and operands that meet them, clause by clause
(`test_wit_…`). -/

namespace Sys2Proof.Tests

/- One declaration after another: kernel evaluations side by side need a thread, with its stack, each. -/
set_option Elab.async false

open Sys2Proof Sys2Proof.Machine Sys2Proof.Safety

/-! ## Helpers -/

def r1 : GroupRef := ⟨1, 0⟩

/-- One group on core 0, placed to run the scalar word `w` (32 bits) or the lane word `w` (96 bits). -/
def atWord (nbits w : Nat) : State := { State.reset.placed nbits w with who := ⟨r1, false⟩ }

/-- A scalar group that stands still, its turn taken; and one with a lane path in slot 0. -/
def sG : State := { atWord 32 0x4E with schedule := [] }
def sL : State := { atWord 96 0 with schedule := [] }

def noCtx : Ctx := ⟨Group.fresh r1 0 0 0 0, placedBlock 1 1, placedLaunch 1, placedContainer, placedKernel, false, none⟩

/-- What the issuing group's accesses depend on. -/
def ctx (s : State) : Ctx := ((s.group? s.who.grp).bind s.ctxOf).getD noCtx
def grp (s : State) : Group := (s.group? s.who.grp).getD noCtx.g
def noPath : Path := ⟨0, 0, false, none, none⟩
def pth (s : State) : Path := ((grp s).path s.who.slot).getD noPath

/-- And what those of its path do. -/
def lctx (s : State) : Ctx := (ctx s).onPath (pth s)

/-- The group whose turn it is exists, with its block, launch, container and kernel (`here_iff`); and it has a path in the slot whose
turn it is (`hereLane_atPath`). -/
def here (s : State) : Bool := ((s.group? s.who.grp).bind s.ctxOf).isSome
def hereLane (s : State) : Bool := here s && ((ctx s).g.path s.who.slot).isSome

theorem here_iff (s : State) (h : here s = true) :
    s.group? s.who.grp = some (ctx s).g ∧ s.ctxOf (ctx s).g = some (ctx s) := by
  unfold here at h
  unfold ctx
  cases hg : s.group? s.who.grp with
  | none => simp [hg] at h
  | some g =>
    cases hc : s.ctxOf g with
    | none => simp [hg, hc] at h
    | some c => simp [hc, State.ctxOf_g hc]

theorem hereLane_atPath (s : State) (h : hereLane s = true) : AtPath s (ctx s).g (pth s) ((ctx s).onPath (pth s)) := by
  simp only [hereLane, Bool.and_eq_true] at h
  obtain ⟨hg, hc⟩ := here_iff s h.1
  have hp : pth s = ((ctx s).g.path s.who.slot).getD noPath := by simp [pth, grp, hg]
  refine ⟨hg, ?_, by simp [hc]⟩
  obtain ⟨p, e⟩ := Option.isSome_iff_exists.1 h.2
  simp [hp, e]

/-- A check that a result is `.ok` of something with a property: `meets r p = true ↔ ∃ a, r = .ok a ∧ p a = true`. -/
def meets {α : Type} (r : Res α) (p : α → Bool) : Bool :=
  match r with
  | .ok a => p a
  | .error _ => false

theorem meets_iff {α : Type} (r : Res α) (p : α → Bool) : meets r p = true ↔ ∃ a, r = .ok a ∧ p a = true := by
  cases r <;> simp [meets]

def ok {α : Type} (r : Res α) : Bool := meets r fun _ => true

/-- The next state of a step, a condition of it, and a group of it. -/
def then' (o : Out) (p : State → Bool) : Bool :=
  match o with
  | .next t => p t
  | _ => false

def thenG (o : Out) (p : Group → Bool) : Bool := then' o fun t => match t.group? r1 with
  | some g => p g
  | none => false

def upd (s : State) (f : Group → Group) : State := s.updGroup r1 f
def setX (s : State) (r : BitVec 6) (v : Word) : State := upd s fun g => g.setX r v
def setLaunch (s : State) (f : Launch → Launch) : State := s.updLaunch 1 f
def det (s : State) : State := (setLaunch s fun l => { l with det := true }).updBlock 1 fun b => { b with co := .current 0 }
def setReg (s : State) (n : BitVec 8) (v : Fin 32 → Word) : State :=
  upd s fun g => g.mapLanes fun i l => l.setD (.v n) (v i)

/-- A table that maps 0x10000·k to memory at 0x300000 + 0x10000·k, for k from 1 to 3 plain and from 4 to 6 versioned; tenant 0 is in
use, with a window over the first 16 MiB and four pool pages from 0x800000. -/
def paged (s : State) : State :=
  let put (m : Memory) (e : Nat × Nat) : Memory := m.writeBytes e.1 (leBytes 8 e.2)
  let leaf (k flags : Nat) : Nat × Nat := (0x220000 + 8 * k, 0x300000 + 0x10000 * k + flags)
  let mem := ([(0x200000, 0x210001), (0x210000, 0x220001), leaf 1 0x27, leaf 2 0x27, leaf 3 0x27, leaf 4 0x227, leaf 5 0x227,
    leaf 6 0x227] : List (Nat × Nat)).foldl put s.mem
  ({ s with mem := mem }).updTenant 0 fun t =>
    { t with created := true, txRoot := 0x200000, twBase := 0, twSize := 0x1000000, vpBase := 0x800000, npg := 4 }

/-- Bytes written to memory. -/
def poke (s : State) (p : Place) (bytes : List Byte) : State := s.putBytes p bytes

def win (off : Nat) : Word := BitVec.ofNat 64 (windowBase + off)

/-- With a posted operation of the scalar stream at work. -/
def posted (s : State) (op : PostOp) (obj : Place) : State :=
  { s with arrivals := s.arrivals ++ [⟨0, r1, 0, obj, 0, 2, op, false, 0, false⟩] }

/-- With its CXL and peer links up, a range of host memory over the first 16 MiB, and a window of a management controller. -/
def linked (s : State) : State :=
  { s with mgmt := { s.mgmt with
    linkEn := 0x10001, regions := [⟨0, 0x1000000, 0, 0⟩], mcw := s.mgmt.mcw.set 1 (0x400000, 0x1000) } }

/-- The state after an instruction or an event. -/
def after (o : Out) : State :=
  match o with
  | .next t => t
  | _ => State.reset

def lc0 : Lc := ⟨.always, .always, 0⟩

def canonical (s : State) : Bool := s.mem.wf && (s.blocks.all fun b => b.scratch.wf) && s.groups.all fun g => g.memories.all (·.wf)

theorem canonical_iff (s : State) : canonical s = true ↔ MemoryCanonical s := by
  simp [canonical, MemoryCanonical, and_assoc]

/-! ## Ill-formed terms -/

theorem test_wf_types : (Instr.laneAdd lc0 .f32 false (.v 0) (.v 1) (.v 2)).wf = false ∧
    (Instr.laneSar lc0 .n32 (.v 0) (.v 1) (.v 2)).wf = false ∧ (Instr.laneAbs lc0 .n32 false (.v 0) (.v 1)).wf = false ∧
    (Instr.prmt lc0 .n16 (.v 0) (.v 1) (.v 2) (.v 3)).wf = false ∧ (Instr.fpAdd lc0 .n32 .rn (.v 0) (.v 1) (.v 2)).wf = false ∧
    (Instr.div lc0 .f32 .rs (.v 0) (.v 1) (.v 2)).wf = false ∧ (Instr.cvt lc0 .n32 .n32 .e4m3 .rn false (.v 0) (.v 1)).wf = false ∧
    (Instr.setp lc0 .n32 .num 0 (.v 1) (.v 2)).wf = false ∧ (Instr.sel lc0 .mx (.v 0) (.v 1) (.v 2) 0).wf = false ∧
    (Instr.shfl lc0 .mx (.v 0) (.v 1) (.v 2)).wf = false ∧ (Instr.red lc0 .f32 .and (.v 0) (.v 1)).wf = false ∧
    (Instr.maxi lc0 .n32 (.v 0) (.v 0) (.v 1)).wf = false ∧ (Instr.rnd lc0 .n16 (.v 0)).wf = false ∧
    (Instr.tex lc0 .n32 (.v 0) .simm 0).wf = false := by decide
theorem test_wf_operands : (Instr.laneAdd lc0 .n32 false (.v 0) (.fc 1) (.v 2)).wf = false ∧
    (Instr.fpAdd lc0 .f32 .rn (.v 0) .lane (.v 2)).wf = false ∧ (Instr.ldG lc0 .default .n32 (.v 0) .simm).wf = false ∧
    (Instr.ldV lc0 .default .n32 (.v 0) (.v 1) .simm).wf = false ∧ (Instr.push lc0 (.fc 1)).wf = false ∧
    (Instr.mac4 lc0 (.v 0) (.fc 0) (.v 1) (.v 2)).wf = false ∧ (Instr.barArr lc0 (.fc 0) (.v 1)).wf = false ∧
    (Instr.sel lc0 .e4m3 (.v 0) (.fc 10) (.v 1) 0).wf = false := by decide
theorem test_wf_imm : (Instr.laneAdd ⟨.always, .always, 1⟩ .n32 false (.v 0) (.v 1) (.v 2)).wf = false ∧
    (Instr.plop ⟨.always, .always, 1⟩ 0 0 0 0).wf = false ∧ (Instr.barWait 1 0 (.v 1)).wf = false := by decide
theorem test_wf_groups : (Instr.ldT lc0 .default .f32 (.v 0) .simm 2).wf = false ∧ (Instr.traceT lc0 4 0 .simm).wf = false ∧
    (Instr.traceT lc0 0 0 .simm).wf = true ∧ (Instr.ldMx lc0 .default .e4m3 (.v 0) (.v 1) (.v 0)).wf = false ∧
    (Instr.tex lc0 .f32 (.v 0) .simm 1).wf = false := by decide
theorem test_wf_atomics : (Instr.atom lc0 .default .f32 .and .grp (.v 0) (.v 1) (.v 2) none).wf = false ∧
    (Instr.atom lc0 .default .n32 .cas .grp (.v 0) (.v 1) (.v 2) none).wf = false ∧
    (Instr.atom lc0 .default .n32 .add .grp (.v 0) (.v 1) (.v 2) (some (.v 3))).wf = false ∧
    (Instr.redAt lc0 .default .n32 .cas .grp (.v 0) (.v 1)).wf = false := by decide

/-! ## Words

Written from the tables of R77 to R82 (FN, XB, XA, XD, OP as the format splits the word) and of R83 to R98 (IMM, HINT, S3, S2, S1, S0,
DST, GD1, GD0, TYPE, MOD, OPC): one for every scalar and every lane instruction. -/

theorem test_words_scalarInteger :
    decodeScalar 0b0000000_000011_000010_000001_0000001 = .instr (.add 1 2 3) ∧
    decodeScalar 0b0000001_000011_000010_000001_0000001 = .instr (.sub 1 2 3) ∧
    decodeScalar 0b0000010_000011_000010_000001_0000001 = .instr (.mul 1 2 3) ∧
    decodeScalar 0b0000011_000011_000010_000001_0000001 = .instr (.mulh 1 2 3) ∧
    decodeScalar 0b0000100_000011_000010_000001_0000001 = .instr (.mulhn 1 2 3) ∧
    decodeScalar 0b0000101_000011_000010_000001_0000001 = .instr (.and 1 2 3) ∧
    decodeScalar 0b0000110_000011_000010_000001_0000001 = .instr (.or 1 2 3) ∧
    decodeScalar 0b0000111_000011_000010_000001_0000001 = .instr (.xor 1 2 3) ∧
    decodeScalar 0b0001000_000011_000010_000001_0000001 = .instr (.shl 1 2 3) ∧
    decodeScalar 0b0001001_000011_000010_000001_0000001 = .instr (.shr 1 2 3) ∧
    decodeScalar 0b0001010_000011_000010_000001_0000001 = .instr (.sar 1 2 3) ∧
    decodeScalar 0b0001011_000011_000010_000001_0000001 = .instr (.rot 1 2 3) ∧
    decodeScalar 0b0001100_000011_000010_000001_0000001 = .instr (.min 1 2 3) ∧
    decodeScalar 0b0001101_000011_000010_000001_0000001 = .instr (.max 1 2 3) ∧
    decodeScalar 0b0001110_000011_000010_000001_0000001 = .instr (.minn 1 2 3) ∧
    decodeScalar 0b0001111_000011_000010_000001_0000001 = .instr (.maxn 1 2 3) ∧
    decodeScalar 0b0011000_000011_000010_000001_0000001 = .instr (.seq 1 2 3) ∧
    decodeScalar 0b0011001_000011_000010_000001_0000001 = .instr (.sne 1 2 3) ∧
    decodeScalar 0b0011010_000011_000010_000001_0000001 = .instr (.slt 1 2 3) ∧
    decodeScalar 0b0011011_000011_000010_000001_0000001 = .instr (.sltn 1 2 3) ∧
    decodeScalar 0b0010000_000000_000010_000001_0000001 = .instr (.clz 1 2) ∧
    decodeScalar 0b0010001_000000_000010_000001_0000001 = .instr (.popc 1 2) := by decide +kernel

theorem test_words_scalarImmediate :
    decodeScalar 0b1111111111110_111110_000101_0000100 = .instr (.addi 5 62 0x1FFE) ∧
    decodeScalar 0b1111111111110_111110_000101_0000101 = .instr (.andi 5 62 0x1FFE) ∧
    decodeScalar 0b1111111111110_111110_000101_0000110 = .instr (.ori 5 62 0x1FFE) ∧
    decodeScalar 0b1111111111110_111110_000101_0000111 = .instr (.xori 5 62 0x1FFE) ∧
    decodeScalar 0b1111111111110_111110_000101_0001011 = .instr (.slti 5 62 0x1FFE) ∧
    decodeScalar 0b1111111111110_111110_000101_0001100 = .instr (.sltni 5 62 0x1FFE) ∧
    decodeScalar 0b0000000100001_111110_000101_0001000 = .instr (.shli 5 62 33) ∧
    decodeScalar 0b0000000100001_111110_000101_0001001 = .instr (.shri 5 62 33) ∧
    decodeScalar 0b0000000100001_111110_000101_0001010 = .instr (.sari 5 62 33) ∧
    decodeScalar 0b1000000000000000001_001001_0010000 = .instr (.li 9 0x40001) ∧
    decodeScalar 0b1000000000000000001_001001_0010001 = .instr (.lih 9 0x40001) := by decide +kernel

theorem test_words_scalarControl :
    decodeScalar 0b1000000000000000000000011_0011000 = .instr (.br 0x1000003) ∧
    decodeScalar 0b0000000000000000000000101_0011001 = .instr (.call 5) ∧
    decodeScalar 0b0000000_000000_000111_000000_0011010 = .instr (.jr 7) ∧
    decodeScalar 0b0000001_000000_000000_000000_0011010 = .instr (.ret) ∧
    decodeScalar 0b1111111_000000_000111_000001_0011011 = .instr (.bz 7 0x1FC1) ∧
    decodeScalar 0b0000001_000000_000111_000001_0011100 = .instr (.bnz 7 0x41) ∧
    decodeScalar 0b1111111_001000_000111_000001_0011101 = .instr (.blt 7 8 0x1FC1) ∧
    decodeScalar 0b1111111_001000_000111_000001_0011110 = .instr (.bge 7 8 0x1FC1) ∧
    decodeScalar 0b1111111_001000_000111_000001_0011111 = .instr (.bltn 7 8 0x1FC1) ∧
    decodeScalar 0b1111111_001000_000111_000001_0100000 = .instr (.bgen 7 8 0x1FC1) ∧
    decodeScalar 0b1111111_000000_000111_111111_0100001 = .instr (.loop 7 0x1FFF) ∧
    decodeScalar 0b1000000000000000010_000000_0101000 = .instr (.lrun 0x40002) ∧
    decodeScalar 0b0000000_000000_000100_001111_0101001 = .instr (.lframe 15 4) ∧
    decodeScalar 0b0000001_000000_000000_000110_0101001 = .instr (.qpop 6) ∧
    decodeScalar 0b0000010_000000_000000_000110_0101001 = .instr (.qcount 6) := by decide +kernel

theorem test_words_scalarMemory :
    decodeScalar 0b1111111111000_000010_000001_0110000 = .instr (.ld8 1 2 0x1FF8) ∧
    decodeScalar 0b1111111111000_000010_000001_0110001 = .instr (.ld16 1 2 0x1FF8) ∧
    decodeScalar 0b1111111111000_000010_000001_0110010 = .instr (.ld32 1 2 0x1FF8) ∧
    decodeScalar 0b1111111111000_000010_000001_0110011 = .instr (.ld64 1 2 0x1FF8) ∧
    decodeScalar 0b1111111111000_000010_000001_0110100 = .instr (.lds8 1 2 0x1FF8) ∧
    decodeScalar 0b1111111111000_000010_000001_0110101 = .instr (.lds16 1 2 0x1FF8) ∧
    decodeScalar 0b1111111111000_000010_000001_0110110 = .instr (.lds32 1 2 0x1FF8) ∧
    decodeScalar 0b1111111_000011_000010_111000_0111000 = .instr (.st8 3 2 0x1FF8) ∧
    decodeScalar 0b1111111_000011_000010_111000_0111001 = .instr (.st16 3 2 0x1FF8) ∧
    decodeScalar 0b1111111_000011_000010_111000_0111010 = .instr (.st32 3 2 0x1FF8) ∧
    decodeScalar 0b1111111_000011_000010_111000_0111011 = .instr (.st64 3 2 0x1FF8) ∧
    decodeScalar 0b0000000_000011_000010_000001_0111100 = .instr (.aadd false .grp 1 2 3) ∧
    decodeScalar 0b1001001_000011_000010_000001_0111100 = .instr (.acas true .core 1 2 3) ∧
    decodeScalar 0b0010010_000011_000010_000001_0111100 = .instr (.aswp false .clu 1 2 3) ∧
    decodeScalar 0b1011011_000011_000010_000001_0111100 = .instr (.amin true .dm 1 2 3) ∧
    decodeScalar 0b0100100_000011_000010_000001_0111100 = .instr (.amax false .dev 1 2 3) ∧
    decodeScalar 0b1101101_000011_000010_000001_0111100 = .instr (.aand true .sys 1 2 3) ∧
    decodeScalar 0b0000110_000011_000010_000001_0111100 = .instr (.aor false .grp 1 2 3) ∧
    decodeScalar 0b1001111_000011_000010_000001_0111100 = .instr (.axor true .core 1 2 3) ∧
    decodeScalar 0b0000100_000000_000000_000000_0111101 = .instr (.fence .dev) ∧
    decodeScalar 0b0001000_000000_000010_000000_0111101 = .instr (.setdm 2) := by decide +kernel

theorem test_words_scalarGroup :
    decodeScalar 0b0000000_000011_000010_000000_0111110 = .instr (.preg 2 3) ∧
    decodeScalar 0b0000001_000000_000010_000000_0111110 = .instr (.pdrop 2) ∧
    decodeScalar 0b0000010_000000_000010_000000_0111110 = .instr (.parr 2) ∧
    decodeScalar 0b0000011_000011_000010_000000_0111110 = .instr (.pwait 2 3) ∧
    decodeScalar 0b0000100_000011_000010_000001_0111110 = .instr (.ptest 1 2 3) ∧
    decodeScalar 0b0000000_000000_000000_000000_0111111 = .instr (.yield) ∧
    decodeScalar 0b0000001_000000_000000_000000_0111111 = .instr (.rgn) ∧
    decodeScalar 0b0000010_000000_000010_000000_0111111 = .instr (.mon 2) ∧
    decodeScalar 0b0000011_000011_000010_000000_0111111 = .instr (.wmon 2 3) ∧
    decodeScalar 0b0000100_000000_000000_000000_0111111 = .instr (.xclose) ∧
    decodeScalar 0b0000101_000000_000010_000000_0111111 = .instr (.xabort 2) ∧
    decodeScalar 0b1111111111111111111111111_1000000 = .instr (.xopen 0x1FFFFFF) := by decide +kernel

theorem test_words_scalarEngine :
    decodeScalar 0b0000000_000000_000010_111111_1000001 = .instr (.tdesc 63 2) ∧
    decodeScalar 0b0000001_000000_000000_111111_1000001 = .instr (.tinv 63) ∧
    decodeScalar 0b0000000_000011_000010_000000_1000010 = .instr (.kick 2 3) ∧
    decodeScalar 0b0000001_000000_000010_000000_1000010 = .instr (.kwait 2) ∧
    decodeScalar 0b0000010_000000_000010_000001_1000010 = .instr (.kwaitNb 1 2) ∧
    decodeScalar 0b0000000_000011_000010_000000_1000011 = .instr (.mload 2 3) ∧
    decodeScalar 0b0000001_000011_000010_000000_1000011 = .instr (.mloadSh 2 3) ∧
    decodeScalar 0b0000010_000000_000000_000000_1000011 = .instr (.mswap) ∧
    decodeScalar 0b0000011_000011_000010_000000_1000011 = .instr (.mloop 2 3) ∧
    decodeScalar 0b0000100_000000_000000_000000_1000011 = .instr (.mwait) ∧
    decodeScalar 0b0000000_000011_000010_000000_1000100 = .instr (.gbload 2 3) ∧
    decodeScalar 0b0000001_000011_000010_000000_1000100 = .instr (.gbclamp 2 3) ∧
    decodeScalar 0b0000010_000000_000010_000000_1000100 = .instr (.gbsweep 2) ∧
    decodeScalar 0b0000011_000011_000010_000000_1000100 = .instr (.gbread 2 3) ∧
    decodeScalar 0b0000100_000000_000010_000001_1000100 = .instr (.gbstat 1 2) ∧
    decodeScalar 0b0000000_000011_000010_000000_1000101 = .instr (.vpub 2 3) ∧
    decodeScalar 0b0000001_000000_000010_000000_1000101 = .instr (.vret 2) ∧
    decodeScalar 0b0000010_000000_000010_000000_1000101 = .instr (.vstep 2) ∧
    decodeScalar 0b0000000_000000_000010_000000_1000110 = .instr (.coll 2) ∧
    decodeScalar 0b0000000_000000_000010_000001_1000111 = .instr (.launch 1 2) := by decide +kernel

theorem test_words_scalarSystem :
    decodeScalar 0b0000000010000_000000_000001_1001000 = .instr (.srd 1 .vstep) ∧
    decodeScalar 0b0000000010000_000010_000000_1001001 = .instr (.swr .vstep 2) ∧
    decodeScalar 0b0000000_000011_000010_000000_1001010 = .instr (.rseed 2 3) ∧
    decodeScalar 0b1111111111111_000000_000000_1001100 = .instr (.trap 0x1FFF) ∧
    decodeScalar 0b0000000000111_000000_000000_1001101 = .instr (.brk 7) ∧
    decodeScalar 0b0000000_000000_000000_000000_1001110 = .instr (.nop) ∧
    decodeScalar 0b0000000_000000_000000_000000_1001111 = .instr (.done) := by decide +kernel

theorem test_words_laneInteger :
    decodeLane 0b1111111111111_000_0000000000_0000000000_1100000000_1100000001_0100000111_11011_00011_0000_000001_0000000001 = .instr (.laneAdd ⟨.on false 3, .on true 11, 0x1FFF⟩ .n8 true (.o 7) .simm .lane) ∧
    decodeLane 0b0000000000000_000_0000000000_0000000000_0100000011_0000000010_0000000001_01100_01100_0001_000000_0000000010 = .instr (.laneSub lc0 .n16 false (.v 1) (.v 2) (.o 3)) ∧
    decodeLane 0b0000000000000_000_0000000000_0000000000_0100000011_0000000010_0000000001_01100_01100_0110_000001_0000000011 = .instr (.laneMul lc0 .s32 true (.v 1) (.v 2) (.o 3)) ∧
    decodeLane 0b0000000000000_000_0000000000_1100000010_1000001111_0100001001_0011111111_01100_01100_0011_000000_0000000100 = .instr (.mad lc0 .n64 false (.v 255) (.l 1) (.k 15) .zero) ∧
    decodeLane 0b0000000000000_000_0000000000_0000000000_0100000011_0000000010_0000000001_01100_01100_0010_000000_0000000101 = .instr (.laneMulh lc0 .n32 (.v 1) (.v 2) (.o 3)) ∧
    decodeLane 0b0000000000000_000_0000000000_0000000000_0000000000_0000000010_0000000001_01100_01100_0100_000001_0000000110 = .instr (.laneAbs lc0 .s8 true (.v 1) (.v 2)) ∧
    decodeLane 0b0000000000000_000_0000000000_0000000000_0000000000_0000000010_0000000001_01100_01100_0111_000000_0000000111 = .instr (.laneNeg lc0 .s64 false (.v 1) (.v 2)) ∧
    decodeLane 0b0000000000000_000_0000000000_0000000000_0100000011_0000000010_0000000001_01100_01100_0101_000000_0000001000 = .instr (.laneMin lc0 .s16 (.v 1) (.v 2) (.o 3)) ∧
    decodeLane 0b0000000000000_000_0000000000_0000000000_0100000011_0000000010_0000000001_01100_01100_0001_000000_0000001001 = .instr (.laneMax lc0 .n16 (.v 1) (.v 2) (.o 3)) ∧
    decodeLane 0b0000000000000_000_0000000000_0000000000_0100000011_0000000010_0000000001_01100_01100_0011_000000_0000001010 = .instr (.laneAnd lc0 .n64 (.v 1) (.v 2) (.o 3)) ∧
    decodeLane 0b0000000000000_000_0000000000_0000000000_0100000011_0000000010_0000000001_01100_01100_0000_000000_0000001011 = .instr (.laneOr lc0 .n8 (.v 1) (.v 2) (.o 3)) ∧
    decodeLane 0b0000000000000_000_0000000000_0000000000_0100000011_0000000010_0000000001_01100_01100_0010_000000_0000001100 = .instr (.laneXor lc0 .n32 (.v 1) (.v 2) (.o 3)) ∧
    decodeLane 0b0000000000000_000_0000000000_0000000000_0000000000_0000000010_0000000001_01100_01100_0010_000000_0000001101 = .instr (.not lc0 .n32 (.v 1) (.v 2)) ∧
    decodeLane 0b0000000000000_000_0000000000_0000000000_0100000011_0000000010_0000000001_01100_01100_0011_000000_0000001110 = .instr (.laneShl lc0 .n64 (.v 1) (.v 2) (.o 3)) ∧
    decodeLane 0b0000000000000_000_0000000000_0000000000_0100000011_0000000010_0000000001_01100_01100_0111_000000_0000001111 = .instr (.laneShr lc0 .s64 (.v 1) (.v 2) (.o 3)) ∧
    decodeLane 0b0000000000000_000_0000000000_0000000000_0100000011_0000000010_0000000001_01100_01100_0111_000000_0000010000 = .instr (.laneSar lc0 .s64 (.v 1) (.v 2) (.o 3)) ∧
    decodeLane 0b0000000000000_000_0000000000_0000000000_0100000011_0000000010_0000000001_01100_01100_0001_000000_0000010001 = .instr (.laneRot lc0 .n16 (.v 1) (.v 2) (.o 3)) ∧
    decodeLane 0b0000000000000_000_0000000000_0000000000_0000000000_0000000010_0000000001_01100_01100_0001_000000_0000010010 = .instr (.laneClz lc0 .n16 (.v 1) (.v 2)) ∧
    decodeLane 0b0000000000000_000_0000000000_0000000000_0000000000_0000000010_0000000001_01100_01100_0001_000000_0000010011 = .instr (.lanePopc lc0 .n16 (.v 1) (.v 2)) ∧
    decodeLane 0b0000000000000_000_0000000000_0101100000_0101000101_0000000010_0000000001_01100_01100_0010_000000_0000010100 = .instr (.bfe lc0 .n32 (.v 1) (.v 2) (.ic 5) (.ic 32)) ∧
    decodeLane 0b0000000000000_000_0000000101_0000000100_0000000011_0000000010_0000000001_01100_01100_0010_000000_0000010101 = .instr (.bfi lc0 .n32 (.v 1) (.v 2) (.v 3) (.v 4) (.v 5)) ∧
    decodeLane 0b0000000000000_000_0000000000_0000000100_0000000011_0000000010_0000000001_01100_01100_0011_000000_0000010110 = .instr (.prmt lc0 .n64 (.v 1) (.v 2) (.v 3) (.v 4)) ∧
    decodeLane 0b0000000000000_000_0000000000_0000000000_0100000011_0000000010_0000000001_01100_01100_0110_000000_0000010111 = .instr (.rshRn lc0 .s32 (.v 1) (.v 2) (.o 3)) ∧
    decodeLane 0b0000000000000_000_0000000000_0000000100_0000000011_0000000010_0000000001_01100_01100_0101_000000_0000011000 = .instr (.mac2 lc0 (.v 1) (.v 2) (.v 3) (.v 4)) ∧
    decodeLane 0b0000000000000_000_0000000000_0000000100_0000000011_0000000010_0000000001_01100_01100_0100_000000_0000011001 = .instr (.mac4 lc0 (.v 1) (.v 2) (.v 3) (.v 4)) := by decide +kernel

theorem test_words_laneFloat :
    decodeLane 0b0000000000000_000_0000000000_0000000000_0100000011_0000000010_0000000001_01100_01100_1000_000000_0010000001 = .instr (.fpAdd lc0 .f64 .rn (.v 1) (.v 2) (.o 3)) ∧
    decodeLane 0b0000000000000_000_0000000000_0000000000_0100000011_0000000010_0000000001_01100_01100_1001_000001_0010000010 = .instr (.fpSub lc0 .f32 .rz (.v 1) (.v 2) (.o 3)) ∧
    decodeLane 0b0000000000000_000_0000000000_0000000000_0100000011_0000000010_0000000001_01100_01100_1010_000010_0010000011 = .instr (.fpMul lc0 .f16 .rd (.v 1) (.v 2) (.o 3)) ∧
    decodeLane 0b0000000000000_000_0000000000_0000000100_0110001111_0000000010_0000000001_01100_01100_1011_000100_0010000100 = .instr (.fma lc0 .bf16 .rs (.v 1) (.v 2) (.fc 15) (.v 4)) ∧
    decodeLane 0b0000000000000_000_0000000000_0000000000_0100000011_0000000010_0000000001_01100_01100_1001_000000_0010000101 = .instr (.fpMin lc0 .f32 (.v 1) (.v 2) (.o 3)) ∧
    decodeLane 0b0000000000000_000_0000000000_0000000000_0100000011_0000000010_0000000001_01100_01100_1001_000000_0010000110 = .instr (.fpMax lc0 .f32 (.v 1) (.v 2) (.o 3)) ∧
    decodeLane 0b0000000000000_000_0000000000_0000000000_0000000000_0000000010_0000000001_01100_01100_1001_000000_0010000111 = .instr (.fpAbs lc0 .f32 (.v 1) (.v 2)) ∧
    decodeLane 0b0000000000000_000_0000000000_0000000000_0000000000_0000000010_0000000001_01100_01100_1001_000000_0010001000 = .instr (.fpNeg lc0 .f32 (.v 1) (.v 2)) ∧
    decodeLane 0b0000000000000_000_0000000000_0000000000_0100000011_0000000010_0000000001_01100_01100_1001_000011_0010001001 = .instr (.div lc0 .f32 .ru (.v 1) (.v 2) (.o 3)) ∧
    decodeLane 0b0000000000000_000_0000000000_0000000000_0000000000_0000000010_0000000001_01100_01100_1001_000011_0010001010 = .instr (.sqrt lc0 .f32 .ru (.v 1) (.v 2)) ∧
    decodeLane 0b0000000000000_000_0000000000_0000000000_0000000000_0000000010_0000000001_01100_01100_1001_000011_0010001011 = .instr (.rcp lc0 .f32 .ru (.v 1) (.v 2)) ∧
    decodeLane 0b0000000000000_000_0000000000_0000000000_0000000000_0000000010_0000000001_01100_01100_1001_000011_0010001100 = .instr (.rsqrt lc0 .f32 .ru (.v 1) (.v 2)) ∧
    decodeLane 0b0000000000000_000_0000000000_0000000000_0000000000_0000000010_0000000001_01100_01100_1001_000011_0010001101 = .instr (.exp2 lc0 .f32 .ru (.v 1) (.v 2)) ∧
    decodeLane 0b0000000000000_000_0000000000_0000000000_0000000000_0000000010_0000000001_01100_01100_1001_000011_0010001110 = .instr (.lg2 lc0 .f32 .ru (.v 1) (.v 2)) ∧
    decodeLane 0b0000000000000_000_0000000000_0000000000_0000000000_0000000010_0000000001_01100_01100_1001_000011_0010001111 = .instr (.sin lc0 .f32 .ru (.v 1) (.v 2)) ∧
    decodeLane 0b0000000000000_000_0000000000_0000000000_0000000000_0000000010_0000000001_01100_01100_1001_000011_0010010000 = .instr (.cos lc0 .f32 .ru (.v 1) (.v 2)) := by decide +kernel

theorem test_words_laneConversion :
    decodeLane 0b0000001001111_000_0000000000_0000000000_0000000000_0000000010_0000000001_01100_01100_1001_001001_0100000001 = .instr (.cvt lc0 .f32 .mx .e3m2 .rz true (.v 1) (.v 2)) ∧
    decodeLane 0b0000000000000_000_0000000000_0000000000_0000000010_0000000001_1100011011_01100_01100_1001_000110_0100000010 = .instr (.setp lc0 .f32 .num 11 (.v 1) (.v 2)) ∧
    decodeLane 0b0000000000000_000_0000000000_0000000000_1100010011_1100010010_1100010001_01100_01100_0000_001000_0100000011 = .instr (.plop lc0 0b1000 1 2 3) ∧
    decodeLane 0b0000000000000_000_0000000000_1100010100_0000000011_0000000010_0000000001_01100_01100_1110_000000_0100000100 = .instr (.sel lc0 .g4 (.v 1) (.v 2) (.v 3) 4) ∧
    decodeLane 0b0000000000000_000_0000000000_0000000000_0000000000_0000000000_0100000001_01100_01100_0000_000000_0100000101 = .instr (.lst lc0 (.o 1)) ∧
    decodeLane 0b0000000000000_000_0000000000_0000000000_0000000000_0101011111_0000000000_01100_01100_0000_000000_0100000110 = .instr (.lclr lc0 (.ic 31)) := by decide +kernel

theorem test_words_laneExchange :
    decodeLane 0b0000000000000_000_0000000000_0000000000_0100000011_0000000010_0000000001_01100_01100_1100_000000_0110000001 = .instr (.shfl lc0 .e4m3 (.v 1) (.v 2) (.o 3)) ∧
    decodeLane 0b0000000000000_000_0000000000_0110000000_0101000001_0000000010_0000000001_01100_01100_1001_000000_0110000010 = .instr (.slideUp lc0 .f32 (.v 1) (.v 2) (.ic 1) (.fc 0)) ∧
    decodeLane 0b0000000000000_000_0000000000_0110000000_0101000001_0000000010_0000000001_01100_01100_1001_000000_0110000011 = .instr (.slideDn lc0 .f32 (.v 1) (.v 2) (.ic 1) (.fc 0)) ∧
    decodeLane 0b0000000000000_000_0000000000_0000000000_0100000011_0000000010_0000000001_01100_01100_1101_000000_0110000100 = .instr (.bcast lc0 .e5m2 (.v 1) (.v 2) (.o 3)) ∧
    decodeLane 0b0000000000000_000_0000000000_0000000000_0000000000_0000000010_0000000001_01100_01100_1000_000010_0110000101 = .instr (.red lc0 .f64 .max (.v 1) (.v 2)) ∧
    decodeLane 0b0000000000000_000_0000000000_0000000000_0000000000_0000000010_0000000001_01100_01100_0000_001101_0110000110 = .instr (.scan lc0 .n8 .xor true (.v 1) (.v 2)) ∧
    decodeLane 0b0000000000000_000_0000000100_0000000000_0000000000_0000000010_0000000001_01100_01100_0110_000000_0110000111 = .instr (.maxi lc0 .s32 (.v 1) (.v 4) (.v 2)) ∧
    decodeLane 0b0000000000000_000_0000000100_0000000000_0000000000_0000000010_0000000001_01100_01100_1011_000000_0110001000 = .instr (.mini lc0 .bf16 (.v 1) (.v 4) (.v 2)) ∧
    decodeLane 0b0000000000000_000_0000000000_0000000000_0000000000_1100010010_0000000001_01100_01100_0000_000000_0110001001 = .instr (.ballot lc0 (.v 1) 2) ∧
    decodeLane 0b0000000000000_000_0000000000_0000000000_0000000000_1100010010_1100010001_01100_01100_0000_000010_0110001010 = .instr (.vote lc0 .uni 1 2) ∧
    decodeLane 0b0000000000000_000_0000000000_0000000000_0000000000_0000000000_1100010001_01100_01100_0000_000000_0110001011 = .instr (.elect lc0 1) ∧
    decodeLane 0b0000000000000_000_0000000000_0000000000_0000000000_0000000010_0000000000_01100_01100_0011_000000_0110001100 = .instr (.push lc0 (.v 2)) ∧
    decodeLane 0b0000000000000_000_0000000000_0000000000_0000000000_0000000000_0000000001_01100_01100_1000_000000_0110001101 = .instr (.rnd lc0 .f64 (.v 1)) := by decide +kernel

theorem test_words_laneMemory :
    decodeLane 0b1111111111000_001_0000000000_0000000000_0000000000_0000000010_0000000001_01100_01100_0000_000000_1000000001 = .instr (.ldG ⟨.always, .always, 0x1FF8⟩ .streaming .n8 (.v 1) (.v 2)) ∧
    decodeLane 0b1111111111000_010_0000000000_0000000000_0000000011_0000000010_0000000000_01100_01100_1000_000000_1000000010 = .instr (.stG ⟨.always, .always, 0x1FF8⟩ .keep .f64 (.v 2) (.v 3)) ∧
    decodeLane 0b1111111111000_000_0000000000_0000000000_0000000000_0000000010_0000000001_01100_01100_0010_000000_1000000011 = .instr (.ldSp ⟨.always, .always, 0x1FF8⟩ .n32 (.v 1) (.v 2)) ∧
    decodeLane 0b1111111111000_000_0000000000_0000000000_0000000011_0000000010_0000000000_01100_01100_0010_000000_1000000100 = .instr (.stSp ⟨.always, .always, 0x1FF8⟩ .n32 (.v 2) (.v 3)) ∧
    decodeLane 0b1111111111000_000_0000000000_0000000000_0000000000_0000000010_0000000001_01100_01100_0011_000001_1000000101 = .instr (.ldFe ⟨.always, .always, 0x1FF8⟩ .n64 true (.v 1) (.v 2)) ∧
    decodeLane 0b1111111111000_000_0000000000_0000000000_0000000011_0000000010_0000000000_01100_01100_0011_000000_1000000110 = .instr (.stFe ⟨.always, .always, 0x1FF8⟩ .n64 (.v 2) (.v 3)) ∧
    decodeLane 0b1111111111000_011_0000000000_0000000000_0000000011_0000000010_0000000001_01100_01100_0001_000000_1000000111 = .instr (.ldV ⟨.always, .always, 0x1FF8⟩ .bypass .n16 (.v 1) (.v 2) (.v 3)) ∧
    decodeLane 0b0000000000000_100_0000000000_0000000000_0000000100_1000000010_0000000001_01100_01100_1110_000000_1000001000 = .instr (.ldT lc0 .nonTemporal .g4 (.v 1) (.k 2) 4) ∧
    decodeLane 0b0000010100000_000_0000000011_0000000000_0000000000_0000000010_0000000001_01100_01100_1111_000000_1000001001 = .instr (.ldMx lc0 .default .int8 (.v 1) (.v 2) (.v 3)) ∧
    decodeLane 0b0000010000000_000_0000000000_0000000100_0000000011_0000000010_0000000000_01100_01100_1111_000000_1000001010 = .instr (.stMx lc0 .default .e2m1 (.v 2) (.v 3) (.v 4)) ∧
    decodeLane 0b1111111111000_000_0000000000_0000000000_0000000000_0000000010_0000000000_01100_01100_0000_000000_1000001011 = .instr (.pf ⟨.always, .always, 0x1FF8⟩ .default (.v 2)) ∧
    decodeLane 0b0000000000000_000_0000000000_0000000100_0000000011_0000000010_0000000001_01100_01100_0111_001101_1000001100 = .instr (.atom lc0 .default .s64 .cas .sys (.v 1) (.v 2) (.v 3) (some (.v 4))) ∧
    decodeLane 0b0000000000000_000_0000000000_0000000000_0000000011_0000000010_0000000000_01100_01100_1001_100000_1000001101 = .instr (.redAt lc0 .default .f32 .max .grp (.v 2) (.v 3)) := by decide +kernel

theorem test_words_laneControl :
    decodeLane 0b0000000000000_000_0000000000_0000000000_1000000001_0000010000_0000001000_01100_01100_0000_000000_1010000001 = .instr (.traceT lc0 8 16 (.k 1)) ∧
    decodeLane 0b0000000000000_000_0000000000_1000000010_1000000001_0000010000_0000001000_01100_01100_0000_000000_1010000010 = .instr (.traceV lc0 8 16 (.k 1) (.k 2)) ∧
    decodeLane 0b0000000000000_000_0000000000_0000000000_0000000110_1000000001_0000000001_01100_01100_1010_000000_1010000011 = .instr (.tex lc0 .f16 (.v 1) (.k 1) 6) ∧
    decodeLane 0b0000000000000_000_1000000001_0000000001_0000000000_0000000000_0000000000_01100_01100_0000_000000_1010000100 = .instr (.bra 0x80401) ∧
    decodeLane 0b1000000000001_000_0000000001_0000000001_0000000000_1100010101_0000000000_01100_01100_0000_000000_1010000101 = .instr (.braDiv 5 0x00401 0x1001) ∧
    decodeLane 0b0000000000000_000_0000000000_0000000000_0000000000_0000000000_0000000000_01100_01100_0000_000000_1010000110 = .instr (.join) ∧
    decodeLane 0b0000000000000_000_0000000000_0000000000_0000000000_0000000000_0000000000_01100_01100_0000_000000_1010000111 = .instr (.lend) ∧
    decodeLane 0b0000000000000_000_0000000000_0000000000_0101000100_0000000001_0000000000_01100_01100_0000_000000_1010001000 = .instr (.barArr lc0 (.v 1) (.ic 4)) ∧
    decodeLane 0b0000000010000_000_0000000000_0000000000_0000000000_1100000001_1100010011_01100_01100_0000_000000_1010001001 = .instr (.barWait 0x0010 3 .simm) := by decide +kernel

/-- The worked example after R102. -/
theorem test_words_worked_example :
    decodeScalar 0x00102181 = .instr (.add 3 1 2) ∧ decodeScalar 0x00010290 = .instr (.li 5 8) ∧
    decodeScalar 0x00000291 = .instr (.lih 5 0) ∧
    decodeLane 0x00000000_30080101_18C80084 = .instr (.fma lc0 .f64 .rn (.v 4) (.v 1) (.v 2) (.v 3)) ∧
    decodeLane 0x00000000_051C0B02_AA360401 = .instr (.laneAdd ⟨.on false 3, .on true 5, 0⟩ .s32 true (.v 10) (.v 11) (.ic 7)) ∧
    decodeLane 0x00000000_051C0B02_AE360401 = .instr (.laneAdd ⟨.on false 3, .on true 7, 0⟩ .s32 true (.v 10) (.v 11) (.ic 7)) ∧
    decodeLane 0x00000000_051C0B02_BA360401 = .reject .illegal := by decide +kernel

/-- R79, R99: majors 0x00 and 0x7F, an unassigned function, a reserved field, scope 6, `lframe` 16, `srd` 0x008. -/
theorem test_words_scalar_rejected :
    decodeScalar 0 = .reject .illegal ∧ decodeScalar 0xFFFFFFFF = .reject .illegal ∧
    decodeScalar 0b0010010_000011_000010_000001_0000001 = .reject .illegal ∧
    decodeScalar 0b0000000_000001_000000_000000_1001110 = .reject .illegal ∧
    decodeScalar 0b0000110_000000_000000_000000_0111101 = .reject .illegal ∧
    decodeScalar 0b0000000_000000_000100_010000_0101001 = .reject .operand ∧
    decodeScalar 0b0000000_001000_000000_000001_1001000 = .reject .operand := by decide +kernel

/-- R84, R87, R89 to R91, R99: a hint outside class 4, MOD bits of layout 0, `abs` of n32, `fma` of an integer constant, equal
destinations, a guard on `join`. -/
theorem test_words_lane_rejected :
    decodeLane 0b0000000000000_001_0000000000_0000000000_0100000011_0000000010_0000000001_01100_01100_0010_000000_0000000001 =
      .reject .illegal ∧
    decodeLane 0b0000000000000_000_0000000000_0000000000_0100000011_0000000010_0000000001_01100_01100_0010_000001_0000001000 =
      .reject .illegal ∧
    decodeLane 0b0000000000000_000_0000000000_0000000000_0000000000_0000000010_0000000001_01100_01100_0010_000000_0000000110 =
      .reject .illegal ∧
    decodeLane 0b0000000000000_000_0000000000_0000000100_0000000011_0101000000_0000000001_01100_01100_1000_000000_0010000100 =
      .reject .operand ∧
    decodeLane 0b0000000000000_000_0000000001_0000000000_0000000000_0000000010_0000000001_01100_01100_0110_000000_0110000111 =
      .reject .operand ∧
    decodeLane 0b0000000000000_000_0000000000_0000000000_0000000000_0000000000_0000000000_01100_00011_0000_000000_1010000110 =
      .reject .illegal := by decide +kernel

/-! ## Small steps, results worked out from the rules -/

/-- R135: `lih` shifts x5 by 19 and ors its immediate (the worked example after R102: 8·2^19). -/
theorem test_lih : thenG (exec (.lih 5 0) (setX sG 5 8)) (fun g => g.getX 5 = 8 * 2 ^ 19) = true := by decide +kernel
/-- R133: x0 reads as zero and a write to it is discarded; the product's high half is signed. -/
theorem test_x0 : thenG (exec (.add 0 1 1) (setX sG 1 7)) (fun g => g.getX 0 = 0 ∧ g.pc = 4) = true := by decide +kernel
theorem test_mulh : thenG (exec (.mulh 1 2 3) (setX (setX sG 2 0xFFFFFFFFFFFFFFFE) 3 3)) (fun g => g.getX 1 = 0xFFFFFFFFFFFFFFFF) =
    true := by decide +kernel
/-- R138: `loop` counts down and branches while the register is not zero. -/
theorem test_loop_taken : thenG (exec (.loop 4 0x1FFF) (upd (setX sG 4 2) fun g => { g with pc := 8 }))
    (fun g => g.getX 4 = 1 ∧ g.pc = 4) = true := by decide +kernel
theorem test_loop_left : thenG (exec (.loop 4 0x1FFF) (upd (setX sG 4 1) fun g => { g with pc := 8 }))
    (fun g => g.getX 4 = 0 ∧ g.pc = 12) = true := by decide +kernel
/-- R137: `call` links in x63. -/
theorem test_call : thenG (exec (.call 3) sG) (fun g => g.getX 63 = 4 ∧ g.pc = 12) = true := by decide +kernel
/-- R141: a byte is zero-extended by `ld8` and sign-extended by `lds8`, at XA + IMM. -/
theorem test_lds8 : thenG (exec (.lds8 1 2 0x1FFF) (setX (poke sG (.sp 1 7) [0x80]) 2 (win 8)))
    (fun g => g.getX 1 = 0xFFFFFFFFFFFFFF80) = true := by decide +kernel
theorem test_ld16 : thenG (exec (.ld16 1 2 2) (setX (poke sG (.sp 1 10) [0x34, 0x92]) 2 (win 8))) (fun g => g.getX 1 = 0x9234) =
    true := by decide +kernel
/-- R142: stores are little-endian, and a misaligned one raises `TRAP_ALIGN`, here killing the group. -/
theorem test_st32 : then' (exec (.st32 1 2 4) (setX (setX sG 2 (win 8)) 1 0x11223344AABBCCDD))
    (fun t => t.readBytes (.sp 1 11) 6 = [0, 0xDD, 0xCC, 0xBB, 0xAA, 0]) = true := by decide +kernel
theorem test_st32_misaligned : thenG (exec (.st32 1 2 1) (setX sG 2 (win 8))) (fun g => g.status = .killed) = true := by
  decide +kernel
/-- R143: scalar `amin` compares as signed; the old value returns zero-extended. -/
theorem test_amin : then' (exec (.amin false .grp 1 2 3) (setX (setX (poke sG (.sp 1 8) [5, 0, 0, 0]) 2 (win 8)) 3 0xFFFFFFFF))
    (fun t => (t.group? r1).map (·.getX 1) = some 5 ∧ t.readBytes (.sp 1 8) 4 = [0xFF, 0xFF, 0xFF, 0xFF]) = true := by decide +kernel
/-- R162, R163: four 8-bit sums do not carry into each other; a saturated sum sets SAT (LST bit 0). -/
theorem test_lane_add : thenG (exec (.laneAdd lc0 .n8 false (.v 1) (.v 2) (.v 2)) (setReg sL 2 fun _ => 0x80FF))
    (fun g => g.lanes[3].getD (.v 1) = 0x00FE ∧ g.lanes[3].lst = 0) = true := by decide +kernel
theorem test_lane_add_sat : thenG (exec (.laneAdd lc0 .s8 true (.v 1) (.v 2) (.v 2)) (setReg sL 2 fun _ => 0x8040))
    (fun g => g.lanes[3].getD (.v 1) = 0x807F ∧ g.lanes[3].lst = 1) = true := by decide +kernel
/-- R84, R117: a lane whose guard fails keeps its destination; its history moves with the old value. -/
theorem test_guard : thenG (exec (.laneAdd ⟨.on false 0, .always, 0⟩ .n64 false (.v 1) (.v 2) (.ic 1)) (setReg sL 2 fun i => i.val))
    (fun g => g.lanes[3].getD (.v 1) = 0) = true := by decide +kernel
/-- R169: 1 + 2^-53 rounds to even, 1, and up under `.ru`. -/
theorem test_fp_add : thenG (exec (.fpAdd lc0 .f64 .rn (.v 1) (.v 2) (.fc 2)) (setReg sL 2 fun _ => 0x3CA0000000000000))
    (fun g => g.lanes[0].getD (.v 1) = 0x3FF0000000000000) = true := by decide +kernel
theorem test_fp_add_up : thenG (exec (.fpAdd lc0 .f64 .ru (.v 1) (.v 2) (.fc 2)) (setReg sL 2 fun _ => 0x3CA0000000000000))
    (fun g => g.lanes[0].getD (.v 1) = 0x3FF0000000000001) = true := by decide +kernel
/-- R184: `shfl` by lane number reversed. -/
theorem test_shfl : thenG (exec (.shfl lc0 .n64 (.v 1) (.lane) (.v 2)) (setReg sL 2 fun i => BitVec.ofNat 64 (31 - i.val)))
    (fun g => g.lanes[5].getD (.v 1) = 26) = true := by decide +kernel
/-- R298: `xopen` opens a transaction and goes on at the next instruction. -/
theorem test_xopen : thenG (exec (.xopen 5) (setX sG 5 1)) (fun g => g.pc = 4 ∧ g.tx.isSome) = true := by decide +kernel
/-- R240: `tinv` empties an entry. -/
theorem test_tinv : then' (exec (.tinv 63) sG) (fun t => (t.block? 1).map (·.tids[63]) = some none) = true := by decide +kernel
/-- R127: `done` ends the group. -/
theorem test_done : thenG (exec .done sG) (fun g => g.status = .ended) = true := by decide +kernel
/-- Time passes when no turn is left. -/
theorem test_tick : then' (step State.reset) (fun t => t.aoc = 1) = true := by decide +kernel

/-! ## Witnesses: the machine and scalar instructions -/

def sRun : State := atWord 32 0x4E

theorem test_wit_EveryStepKeepsMemoryCanonical : canonical (atWord 32 0x4E) = true ∧
    then' (step (atWord 32 0x4E)) (fun t => canonical t) = true := by decide +kernel

/-- The scalar word at the PC, where the group may issue: `nop`; words rejected as illegal and for an operand; `add x1, x2, x3` with x1
free and still to be written; and a PC at FSIZE. -/
def scalarWordAt (s : State) : Decoded :=
  decodeScalar (BitVec.ofNat 32 (leNat ((List.range 4).map fun k => s.mem.read ((ctx s).c.stream.keyOf ((ctx s).g.pc.toNat + k)))))
def scalarTurnMeets (s : State) : Bool :=
  here s && decide (s.schedule = [.scalar r1]) && decide (s.who.grp = r1) && (ctx s).runs && (ctx s).g.tx.isNone &&
  (ctx s).g.detected.isEmpty && !(ctx s).g.deferredDue && (ctx s).g.preemptAt.isNone && mayIssue (ctx s).g.swait
def addWord : Nat := 0b0000000_000011_000010_000001_0000001
theorem test_wit_AStepRunsTheDecodedScalarInstruction :
    (∀ q ∈ [(0x4E, Decoded.instr .nop), (0, .reject .illegal), (0b0000000_000000_000100_010000_0101001, .reject .operand),
        (addWord, .instr (.add 1 2 3))],
      let s := atWord 32 q.1
      scalarTurnMeets s = true ∧ (ctx s).g.pc.toNat < (ctx s).c.stream.fsize ∧
      (∀ k < 4, (ctx s).c.stream.keyOf ((ctx s).g.pc.toNat + k) / 32 ∉ s.poison) ∧ scalarWordAt s = q.2 ∧ s.pendingRegs r1 = []) ∧
    (let s := posted (atWord 32 addWord) (.load 8 false 1) (.sp 1 16)
     scalarTurnMeets s = true ∧ scalarWordAt s = .instr (.add 1 2 3) ∧ ((scalarRegs (.add 1 2 3)).any (s.pendingRegs r1).contains) = true) ∧
    (let s := upd (atWord 32 0x4E) fun g => { g with pc := 65536 }
     scalarTurnMeets s = true ∧ (ctx s).c.stream.fsize ≤ (ctx s).g.pc.toNat) := by decide +kernel

/-- The lane word at the path's PC, where the path may issue: `lend` (OPC 0x287 with both guards always), words rejected as illegal and
for an operand, and `fma` of v1 to v4 in a launch without v registers; PCs at LSIZE and at the last instruction before it. -/
def laneWordAt (s : State) : Decoded :=
  decodeLane (BitVec.ofNat 96 (leNat ((List.range 12).map fun k => s.mem.read ((ctx s).c.lanes.keyOf ((pth s).pc.toNat + k)))))
def laneTurnMeets (s : State) : Bool :=
  hereLane s && decide (s.schedule = [.lane r1 false]) && decide (s.who = ⟨r1, false⟩) && (ctx s).runs && (ctx s).g.detected.isEmpty &&
  !(ctx s).g.deferredDue && (ctx s).g.preemptAt.isNone && !(pth s).parked && mayIssue (pth s).wait && !(ctx s).l.det
def laneInside (s : State) : Bool :=
  decide ((ctx s).k.lbase.toNat ≤ (pth s).pc.toNat) && decide ((pth s).pc.toNat < (ctx s).k.lbase.toNat + (ctx s).k.lsize.toNat)
def intFmaWord : Nat := 0b0000000000000_000_0000000000_0000000100_0000000011_0101000000_0000000001_01100_01100_1000_000000_0010000100
def fmaWord : Nat := 0x00000000_30080101_18C80084
theorem test_wit_AStepRunsTheDecodedLaneInstruction :
    (∀ q ∈ [(0x18C00287, Decoded.instr .lend), (0, .reject .illegal), (intFmaWord, .reject .operand)],
      let s := atWord 96 q.1
      laneTurnMeets s = true ∧ laneInside s = true ∧
      (∀ k < 12, (ctx s).c.lanes.keyOf ((pth s).pc.toNat + k) / 32 ∉ s.poison) ∧ laneWordAt s = q.2) ∧
    vTop .lend ≤ 8 * 32 ∧ (ctx (atWord 96 0x18C00287)).l.vregs = 32 ∧
    (let s := setLaunch (atWord 96 fmaWord) fun l => { l with vregs := 0 }
     laneTurnMeets s = true ∧ laneInside s = true ∧ laneWordAt s = .instr (.fma lc0 .f64 .rn (.v 4) (.v 1) (.v 2) (.v 3)) ∧
     8 * (ctx s).l.vregs < vTop (.fma lc0 .f64 .rn (.v 4) (.v 1) (.v 2) (.v 3))) ∧
    ∀ q ∈ [(65532, false), (65520, true)],
      let s := upd (atWord 96 0) fun g => { g with path0 := some ⟨BitVec.ofNat 32 q.1, allLanes, false, none, none⟩ }
      laneTurnMeets s = true ∧ laneInside s = q.2 := by decide +kernel

theorem test_wit_ScalarWordsRoundTrip : (match encode (.ptest 63 0 31) with
    | .scalar f => decide (decodeScalar f.toWord = .instr (.ptest 63 0 31))
    | _ => false) = true := by
  decide +kernel
theorem test_wit_LaneWordsRoundTrip : (Instr.redAt lc0 .default .f32 .max .grp (.v 255) (.fc 15)).wf = true ∧
    (match encode (.redAt lc0 .default .f32 .max .grp (.v 255) (.fc 15)) with
      | .lane f => decide (decodeLane f.toWord = .instr (.redAt lc0 .default .f32 .max .grp (.v 255) (.fc 15)))
      | _ => false) = true := by decide +kernel
theorem test_wit_DecodedInstructionsAreWellFormed :
    (∃ i, decodeLane 0x18C00287 = .instr i) ∧ ∃ i, decodeScalar 0x4F = .instr i :=
  ⟨⟨.lend, by decide +kernel⟩, .done, by decide +kernel⟩

/-- `clz` of 0, of 1 and of a number with bit 63 set. -/
theorem test_wit_IntegerInstructionResults : here sG = true ∧
    (∀ k < 64, (0 : Word).getLsbD (63 - k) = false) ∧
    (∀ k < 63, (1 : Word).getLsbD (63 - k) = false) ∧ (1 : Word).getLsbD (63 - 63) = true ∧
    (0x8000000000000000 : Word).getLsbD (63 - 0) = true := by decide +kernel

theorem test_wit_ControlTransfersGoToTheirTargets : here sG = true ∧
    ((grp (setX sG 7 0xFFFFFFFFFFFFFFFC)).getX 7).toNat % 4 = 0 ∧ ((grp (setX sG 63 4)).getX 63).toNat % 4 = 0 ∧ (1 : BitVec 6) ≠ 0 ∧
    (63 : BitVec 6) ≠ 0 := by decide +kernel

/-- At a register that holds an address one past a multiple of 8; and, for `jr`, 2 past. -/
theorem test_wit_MisalignedTargetsAndAddressesTrap :
    let s := setX sG 2 (win 1)
    here s = true ∧ (ctx s).g.tx = none ∧ ((ctx s).g.getX 2 + (0 : BitVec 13).signExtend 64).toNat % 2 ≠ 0 ∧
    ((ctx s).g.getX 2 + (1 : BitVec 13).signExtend 64).toNat % 4 ≠ 0 ∧ ((ctx s).g.getX 2 + (0x1FFF : BitVec 13).signExtend 64).toNat % 8 = 0 ∧
    ((ctx s).g.getX 2 + (3 : BitVec 13).signExtend 64).toNat % 8 ≠ 0 ∧ ((grp (setX sG 2 2)).getX 2).toNat % 4 ≠ 0 := by decide +kernel

/-- A lane segment in the queue and seven; the highest lane offset; one return entry; both modes for `qcount`. -/
def seg0 : Segment := ⟨0, Vector.replicate 16 0, 0, 0, 0⟩
def sSegs (n : Nat) : State := upd sG fun g => { g with segs := List.replicate n seg0 }
theorem test_wit_LaneInterfaceResults : here sG = true ∧ (ctx sG).g.tx = none ∧
    12 * (5460 : BitVec 19).toNat < (ctx sG).k.lsize.toNat ∧ (ctx sG).g.segs.length < 8 ∧ (ctx sG).g.segs = [] ∧ (ctx sG).l.det = false ∧
    here (sSegs 7) = true ∧ (ctx (sSegs 7)).g.segs.length < 8 ∧ (ctx (sSegs 7)).g.segs ≠ [] ∧
    (let s := upd sG fun g => { g with retq := [5] }
     here s = true ∧ (ctx s).g.retq = [5]) ∧
    here (det sG) = true ∧ (ctx (det sG)).l.det = true ∧ (ctx (det sG)).g.segs = [] := by decide +kernel

theorem test_wit_SystemRegisterResults : here sG = true ∧ (ctx sG).g.tx = none ∧ (ctx sG).g.segs = [] ∧
    SysReg.gid ≠ .vstep ∧ SysReg.gid ≠ .dmask := by decide +kernel

/-- At the widest die mask 0x7F and the narrowest scope. -/
theorem test_wit_GroupControlResults : here sG = true ∧ (ctx sG).g.segs = [] ∧ (ctx sG).g.tx = none ∧ (ctx sG).l.det = false ∧
    sG.dmaskOk (ctx sG).l.tenant (ctx sG).g.dmask = true ∧ ok (sG.settled (ctx sG)) = true ∧ sG.pendingRegs r1 = [] ∧
    (let s := posted sG (.load 8 false 2) (.sp 1 16)
     here s = true ∧ (ctx s).g.segs = [] ∧ s.pendingRegs r1 = [2]) := by decide +kernel

/-! ## Witnesses: scalar memory -/

/-- Addresses in the window, and in a paged memory at both ends of a page; behind a posted store and a posted arrival. -/
def sMem : State := paged sG
def lastWord (k n : Nat) : Word := BitVec.ofNat 64 (0x10000 * (k + 1) - n)

theorem test_wit_ScalarLoadsAndStoresMoveTheirBytes :
    here sMem = true ∧ (ctx sMem).g.tx = none ∧ canonical sMem = true ∧
    sMem.outstanding (ctx sMem).g false = [] ∧
    (∀ n ∈ [1, 2, 4, 8], meets (sMem.resolveChecks (ctx sMem) .load (lastWord 1 n) n) (fun t =>
      ok (sMem.readable (ctx sMem) t n) && decide (t.place = .phys (0x320000 - n))) = true ∧
      meets (sMem.resolveChecks (ctx sMem) .load (win (1024 - n)) n) (fun t => ok (sMem.readable (ctx sMem) t n)) = true) ∧
    (∀ n ∈ [1, 2, 4, 8], meets (sMem.resolveChecks (ctx sMem) .store (lastWord 1 n) n) (fun t =>
      !sMem.mustCopy (ctx sMem).l.tenant t && ok (sMem.reachable (ctx sMem) t)) = true ∧
      meets (sMem.resolveChecks (ctx sMem) .store (win 0) n) (fun t =>
        !sMem.mustCopy (ctx sMem).l.tenant t && ok (sMem.reachable (ctx sMem) t)) = true) ∧
    ∀ op ∈ [PostOp.store [0x55], .arrive 1], let s := posted sMem op (.sp 1 16)
      here s = true ∧ canonical s = true ∧ s.outstanding (ctx s).g false ≠ [] ∧ meets (s.resolveChecks (ctx s) .load (win 16) 1) (fun t => ok (s.readable (ctx s) t 1) &&
        ((s.outstanding (ctx s).g false).any fun a => a.op.acquires || a.obj.meets a.size t.place 1)) = true := by decide +kernel

/-- R308, R309: behind the group's own posted test of a phaser, a load of other bytes is posted too. -/
theorem test_load_behind_posted_test :
    ((after (exec (.ld8 4 2 0) (setX (posted sMem (.test true 3) (.sp 1 512)) 2 (win 16)))).arrivals.map fun a => a.op) =
      [.test true 3, .load 1 false 4] := by decide +kernel

theorem test_wit_ScalarAtomicsUpdateOnce : ∀ s ∈ [sMem, posted sMem (.arrive 1) (.sp 1 16)],
    here s = true ∧ (ctx s).g.tx = none ∧ canonical s = true ∧ s.dmaskOk (ctx s).l.tenant (ctx s).g.dmask = true ∧
    (s.outstanding (ctx s).g false).length = s.arrivals.length ∧
    ∀ n ∈ [4, 8], meets (s.resolveChecks (ctx s) .atomic (lastWord 1 n) n) (fun t =>
      !s.mustCopy (ctx s).l.tenant t && ok (s.readable (ctx s) t n)) = true := by decide +kernel

/-- Outside a transaction; inside one, with no store and fifteen, and with a store to a page published since. -/
def tx0 : Tx := ⟨Vector.replicate 64 0, 0x40, [], Memory.empty, [], [], 0, none⟩
def sTx (n : Nat) : State := upd sMem fun g => { g with tx := some { tx0 with stores := n } }
def sTxPub : State := { upd sMem (fun g => { g with tx := some { tx0 with written := [0x340008] } }) with
  versions := [⟨0x340000, 0, 1, true, [], false⟩] }
theorem test_wit_TransactionsBufferTheirStores : canonical sMem = true ∧ here sMem = true ∧ (ctx sMem).g.tx = none ∧
    (ctx sMem).g.segs = [] ∧ ok (sMem.settled (ctx sMem)) = true ∧ here sTxPub = true ∧
    (ctx sTxPub).g.tx = some { tx0 with written := [0x340008] } ∧ 0x340008 / 65536 * 65536 = 0x340000 ∧ here (det sMem) = true ∧ (det sMem).commandsOf r1 = false ∧
    canonical (sTx 15) = true ∧ here (sTx 15) = true ∧ (ctx (sTx 15)).g.tx = some { tx0 with stores := 15 } ∧
    meets ((sTx 15).txResolve (ctx (sTx 15)) { tx0 with stores := 15 } .store (lastWord 1 8) 8) (fun k => decide (k = 0x31FFF8)) = true ∧
    meets ((sTx 15).txResolve (ctx (sTx 15)) { tx0 with stores := 15 } .load 0x10000 8)
      (fun k => decide ((sTx 15).poisoned (.phys k) 8 = none)) = true ∧ tx0.bytes.wf = true ∧ tx0.abort = none ∧
    (61 : BitVec 6) ≠ 62 := by decide +kernel

theorem test_wit_AbortsRestoreTheCheckpoint : here (sTx 0) = true ∧ (ctx (sTx 0)).g.ref = (sTx 0).who.grp ∧
    (ctx (sTx 0)).g.tx = some tx0 ∧ (ctx (sTx 0)).g.tx.isSome = true := by decide +kernel

/-! ## Witnesses: traps -/

def sSegTrap : State := { sG with containers := [{ placedContainer with kernels := [{ placedKernel with trapseg := 0x100 }] }] }
/-- A group is registered at a phaser whose page a peer in recovery owns. -/
def sKillHeld : State := { upd (paged sG) (fun g => { g with regs := [⟨0x10010, .phys 0x310010, 1, true, true⟩] }) with
  owners := [(0x310000, 5)], recovering := [(5, 0)] }
/-- With a trap segment, a segment code outside trap mode, and with a posted load; without one, and in trap mode; and where the kill
must wait. -/
theorem test_wit_TrapsAreDeliveredOrKill :
    here sSegTrap = true ∧ (ctx sSegTrap).g.tx = none ∧ (ctx sSegTrap).k.trapseg = 0x100 ∧ (ctx sSegTrap).g.trapMode = false ∧
    (ctx sSegTrap).g.closing = false ∧ here sG = true ∧ (ctx sG).g.ref = sG.who.grp ∧ (ctx sG).k.trapseg = 0xFFFFFFFF ∧
    (sG.tenant (ctx sG).l.tenant).fq.en = false ∧ (ctx sG).l.tenant < 16 ∧ sG.killHeld (ctx sG).g = false ∧
    here sKillHeld = true ∧ (ctx sKillHeld).k.trapseg = 0xFFFFFFFF ∧ sKillHeld.killHeld (ctx sKillHeld).g = true ∧
    here (posted sSegTrap (.load 8 false 2) (.sp 1 16)) = true ∧ TrapCode.user ∈ [TrapCode.page, .version, .copy, .user] ∧
    TrapCode.illegal ∉ [TrapCode.page, .version, .copy, .user] ∧ TrapCode.user ≠ .brk := by decide +kernel

/-- A full ring of 64 records with an empty buffer, and one with 63 in its buffer. -/
def sRing (n : Nat) : State := sG.updTenant 0 fun t =>
  { t with fq := { t.fq with en := true, put := 64, buffer := List.replicate n ⟨[], none, none⟩ } }
theorem test_wit_BreakInstructionParks : ∀ n ∈ [0, 63], here (sRing n) = true ∧ (ctx (sRing n)).g.tx = none ∧
    (ctx (sRing n)).l.tenant < 16 ∧ ((sRing n).tenant 0).fq.en = true ∧ ((sRing n).tenant 0).fq.buffer.length < 64 ∧
    2 ^ ((sRing n).tenant 0).fq.logn ≤ (((sRing n).tenant 0).fq.put - ((sRing n).tenant 0).fq.get).toNat := by decide +kernel

/-! ## Witnesses: phasers, monitors, switch points -/

def regOf (s : State) (va : Word) (blkOff : Nat) (units : Nat) : State :=
  upd s fun g => { g with regs := [⟨va, .sp 1 blkOff, units, true, true⟩] }

/-- A phaser at window offset 16 with 1 unit, nothing arrived: alone, behind a posted operation, registered with the group, and of
phase 1; and one with no room for a further unit. -/
def phaserBytes (phase units pend : Nat) : List Byte := leBytes 4 phase ++ leBytes 2 units ++ leBytes 2 pend
def sPh : State := setX (poke sG (.sp 1 16) (phaserBytes 0 1 1)) 2 (win 16)
def phMeets (s : State) : Bool := meets (s.objectTarget (ctx s) .store (win 16)) fun t =>
  !s.mustCopy (ctx s).l.tenant t && ok (s.readable (ctx s) t 16) && ok (s.reachable (ctx s) t) && decide ((s.ownPhaser (ctx s).g t.place).sig = 1)
def sPh1 (phase : Nat) : State := regOf (setX (poke sG (.sp 1 16) (phaserBytes phase 1 1)) 2 (win 16)) (win 16) 16 1
def regFits (p : Phaser) (d : Int) : Bool :=
  if p.pend = p.sig then decide (0 ≤ p.sig + d ∧ p.sig + d ≤ 65535 ∧ p.sig + d + p.dsig ≤ 65535)
  else decide (-(2 ^ 31) ≤ p.dsig + d ∧ p.dsig + d < 2 ^ 31 ∧ p.sig + (p.dsig + d) ≤ 65535)
theorem regFits_iff (p : Phaser) (d : Int) : regFits p d = true ↔ RegFits p d := by
  unfold regFits RegFits
  split <;> simp
theorem test_wit_PhaserInstructionsUpdateTheObject :
    (let s := setX sPh 3 0x10001
     canonical s = true ∧ here s = true ∧ (ctx s).g.tx = none ∧ phMeets s = true ∧ (ctx s).g.getX 3 = BitVec.ofNat 64 (1 + 2 ^ 16) ∧
     (ctx s).g.entry? (win 16) = none ∧ (ctx s).g.regs.length < 4 ∧ s.outstanding (ctx s).g false = []) ∧
    (let s := posted (setX sPh 3 0x20000) (.register 0) (.sp 1 16)
     here s = true ∧ phMeets s = true ∧ (ctx s).g.getX 3 = BitVec.ofNat 64 (0 + 2 ^ 17) ∧ s.outstanding (ctx s).g false ≠ []) ∧
    (let p := sPh.ownPhaser (ctx sPh).g (.sp 1 16)
     regFits p 1 = true ∧ regFits p (-1) = true ∧ regFits p 65535 = false) ∧
    (let s := sPh1 0
     here s = true ∧ phMeets s = true ∧ ((ctx s).g.entry? (win 16)).map (fun e => (e.sig, e.wait, e.units)) = some (true, true, 1)) ∧
    (∀ s ∈ [sPh, posted sPh (.register 0) (.sp 1 16), upd (det sPh) fun g => { g with snap := some Memory.empty }],
      here s = true ∧ meets (s.objectTarget (ctx s) .load (win 16)) (fun t => ok (s.readable (ctx s) t 16) && decide (t.place = .sp 1 16)) = true ∧
      ((if (ctx s).l.det then (ctx s).g.snap else none).isSome, ((s.outstanding (ctx s).g false).filter fun a =>
        a.obj.meets a.size (.sp 1 16) 16).length) = ((ctx s).l.det, s.arrivals.length)) ∧
    ∀ phase ∈ [0, 1],
      let s := sPh1 phase
      here s = true ∧ (ctx s).l.det = false ∧ (ctx s).g.segs = [] ∧ ok (s.settled (ctx s)) = true ∧
      (s.phaserAt (.sp 1 16)).phase % 2 = phase ∧
      meets (s.objectTarget (ctx s) .load (win 16)) (fun t => ok (s.readable (ctx s) t 16) && decide (t.place = .sp 1 16)) = true := by decide +kernel

/-- Armed and written, armed and not written; with a time limit and without; in the window and, to arm, in a plain page. -/
def sMon (written : BitVec 16) : State := upd (setX sMem 2 (win 24)) fun g => { g with monitor := some ⟨.sp 1 16, written⟩ }
def monMeets (s : State) (w : BitVec 16) : Bool :=
  here s && (ctx s).g.tx.isNone && (ctx s).g.segs.isEmpty && !(ctx s).l.det && decide ((ctx s).g.monitor = some ⟨.sp 1 16, w⟩) &&
  meets (s.resolveChecks (ctx s) .load (win 24) 1) fun t => decide (t.place.alignDown 16 = .sp 1 16)
theorem test_wit_MonitorsArmAndWake : monMeets (sMon 0) 0 = true ∧ monMeets (sMon 0x8000) 0x8000 = true ∧
    meets (sMem.resolveChecks (ctx sMem) .load 0x1FFFF 1) (fun t => decide (t.attr ≠ 3) && ok (sMem.wayTo t)) = true ∧
    (0 : Word) = 0 ∧ (1 : Word) ≠ 0 := by decide +kernel

def sDet : State := regOf (upd (setX (det sG) 2 (win 16)) fun g => { g with monitor := some ⟨.sp 1 16, 0⟩ }) (win 16) 16 1
theorem test_wit_DeterministicWaitsOpenThePosition : here sDet = true ∧ (ctx sDet).g.tx = none ∧ (ctx sDet).l.det = true ∧
    (ctx sDet).g.segs = [] ∧ ok (sDet.settled (ctx sDet)) = true ∧
    meets (sDet.objectTarget (ctx sDet) .load ((ctx sDet).g.getX 2)) (fun t => ok (sDet.readable (ctx sDet) t 16)) = true ∧
    ((ctx sDet).g.entry? (win 16)).map (·.wait) = some true ∧
    (ctx sDet).blockOffset ((ctx sDet).g.getX 2) 16 = some 16 ∧ ((ctx sDet).g.getX 2).toNat % 16 = 0 ∧
    sDet.poisoned (.sp (ctx sDet).b.id 16) 16 = none ∧ (ctx sDet).g.monitor = some ⟨.sp 1 16, 0⟩ ∧
    meets (sDet.resolveChecks (ctx sDet) .load ((ctx sDet).g.getX 2) 1) (fun t => decide (t.place.alignDown 16 = .sp 1 16)) = true := by decide +kernel

/-! ## Witnesses: descriptors, copies, planes, array -/

/-- A descriptor of a plain tensor; its record; and a state with descriptors bound. -/
def mkDesc (fmt rank base : Nat) (ext : Vector Nat 5) (str : Int) : Desc :=
  { base := BitVec.ofNat 64 base, sbase := 0, fmt := fmt, rank := rank, slay := 0, vsel := 0, padm := 0, vstepv := 0, ext := ext
    str := #v[str, 0, 0, 0], sstr := 0 }
def descBytes (fmt rank base : Nat) (ext : Vector Nat 5) (str : Nat) : List Byte :=
  leBytes 8 base ++ leBytes 8 0 ++ leBytes 8 (fmt + 32 * rank) ++ ext.toList.flatMap (leBytes 4) ++ leBytes 4 0 ++ leBytes 8 str ++
    List.replicate 72 0
def bind (s : State) (n : Fin 64) (d : Desc) : State := s.updBlock 1 fun b => { b with tids := b.tids.set n.val (some d) n.isLt }

def sDesc : State := setX (poke sG (.sp 1 128) (descBytes 8 2 0x10000 #v[64, 32, 1, 1, 1] 512)) 2 (win 128)
theorem test_wit_DescriptorTableWrites : here sDesc = true ∧ (ctx sDesc).g.tx = none ∧ (ctx sDesc).g.segs = [] ∧
    meets (sDesc.resolve (ctx sDesc) .load ((ctx sDesc).g.getX 2) 128) (fun t => ok (sDesc.readable (ctx sDesc) t 128) &&
      decide (Desc.ofBytes (sDesc.readBytes t.place 128) = some (mkDesc 8 2 0x10000 #v[64, 32, 1, 1, 1] 512))) = true := by decide +kernel

/-- One record that skips, and one that copies 8 bytes from page 1 to page 2; the barrier object in the last 16 bytes. A `kwait`
that finds the object empty, pending and failed. -/
def sKick (rec0 : List Byte) (xb : Word) : State :=
  setX (setX (poke (bind (bind sMem 1 (mkDesc 8 1 0x10000 #v[1, 1, 1, 1, 1] 0)) 2 (mkDesc 8 1 0x20000 #v[1, 1, 1, 1, 1] 0))
    (.sp 1 0) rec0) 2 (win 0)) 3 xb
def copyBits : Nat := 1 + 16 * 1 + 1024 * 2
def kickMeets (s : State) (sc : Scope) : Bool :=
  let c := ctx s
  canonical s && decide (c.g.tx = none) && decide (c.g.getX 3 = BitVec.ofNat 64 (sc.code.toNat * 2 ^ 28 + (1 - 1) * 2 ^ 19 + 1008)) &&
  decide (1008 + 16 ≤ 1024 * c.l.scratch) && decide ((c.g.getX 2).toNat % 16 = 0) &&
  decide (c.blockOffset (c.g.getX 2) (16 * 1) = some 0) && decide (s.poisoned (.sp c.b.id 0) 16 = none) &&
  ((s.outstanding c.g false).all fun a => !a.op.acquires && !a.obj.meets a.size (.sp c.b.id 0) (16 * 1)) &&
  decide (s.kicksOn c.g.core < 64) &&
  ok ((List.range 1).mapM fun r => s.captureRecord c r (s.readNat (.sp c.b.id (0 + 16 * r)) 16))
def sKwait (count flags : Nat) : State := setX (poke sG (.sp 1 32) (leBytes 8 count ++ leBytes 4 0 ++ leBytes 1 flags))
  2 (win 32)
theorem test_wit_KickAndKwaitUseTheBarrier :
    here (sKick [] 0x3F0) = true ∧ kickMeets (sKick [] 0x3F0) .grp = true ∧
    here (sKick (leBytes 16 copyBits) 0x500003F0) = true ∧
    kickMeets (sKick (leBytes 16 copyBits) 0x500003F0) .sys = true ∧
    (let s := posted (sKick (leBytes 16 copyBits) 0x500003F0) (.arrive 1) (.sp 1 512)
     here s = true ∧ kickMeets s .sys = true ∧ s.outstanding (ctx s).g false ≠ []) ∧
    (let s := posted (sKwait 0 0) (.announce .grp 8) (.sp 1 32)
     here s = true ∧ (ctx s).blockOffset ((ctx s).g.getX 2) 16 = some 32 ∧
     ((s.outstanding (ctx s).g false).any fun a => a.obj.meets a.size (.sp 1 32) 16 && !a.op.isStore) = true) ∧
    (let s := upd (det (sKwait 0 0)) fun g => { g with snap := some Memory.empty }
     here s = true ∧ (ctx s).blockOffset ((ctx s).g.getX 2) 16 = some 32 ∧
     (if (ctx s).l.det then (ctx s).g.snap else none) = some Memory.empty) ∧
    (∀ q ∈ [(0, 0), (8, 0), (0, 1)],
      let s := sKwait q.1 q.2
      here s = true ∧ (ctx s).g.tx = none ∧ (ctx s).l.det = false ∧ (ctx s).blockOffset ((ctx s).g.getX 2) 16 = some 32 ∧
      s.poisoned (.sp (ctx s).b.id 32) 16 = none ∧ (barrierAt s 1 32).count = q.1 ∧ (barrierAt s 1 32).flags % 2 = q.2 ∧ s.outstanding (ctx s).g false = []) := by decide +kernel

/-- A weight tensor of one element in page 1, the rest of its plane padded; loops over one row and one column of that format,
without and with a barrier object, their C in a page that takes no copy or one that does; and with an arrival outstanding. -/
def sMat : State :=
  setX (setX (bind (bind sMem 1 { mkDesc 8 2 0x10000 #v[1, 1, 1, 1, 1] 8 with padm := 3 }) 2
    { mkDesc 8 2 0x20000 #v[1, 1, 1, 1, 1] 8 with padm := 3 }) 2 1) 3 0
def loopRecBytes (bar : Nat) : List Byte :=
  [1, 2, if bar = 0 then 0 else 2, 1] ++ leBytes 2 1 ++ leBytes 2 1 ++ leBytes 2 1 ++ leBytes 2 0 ++ leBytes 4 bar ++ List.replicate 48 0
def sLoop (cmds : Nat) (bar : Nat := 0) : State :=
  upd (setX (setX (poke sMat (.sp 1 64) (loopRecBytes bar)) 2 (win 64)) 3 1) fun g =>
    { g with planes := some ⟨0, true, Plane.empty, Plane.empty, some 8, none⟩, mcmds := List.replicate cmds (.swap 0) }
def sLoopCow : State :=
  { bind (sLoop 0 992) 2 { mkDesc 8 2 0x40000 #v[1, 1, 1, 1, 1] 8 with padm := 3 } with
    versions := [⟨0x340000, 0, 1, true, [], false⟩] }
def matMeets (s : State) : Bool :=
  canonical s && here s && decide ((ctx s).g.tx = none) && decide ((ctx s).g.mcmds.length < 4) && ok (s.pairFor (ctx s).g)
/-- The one record of a loop counts on a barrier or not, and its pages take copies or not. -/
def loopMeets (s : State) (counts copies : Bool) : Bool :=
  let c := ctx s
  matMeets s && c.g.planes.isSome && decide ((c.g.getX 2).toNat % 64 = 0) && decide ((c.g.getX 3).toNat = 1) &&
  decide (c.blockOffset (c.g.getX 2) (64 * 1) = some 64) && decide (c.g.planes.bind (·.nextStat) = some 8) &&
  match planeShape 8 with
  | some sh => meets (s.loopRecords c 8 sh 64 (List.range 1) []) fun rs => match rs with
      | [r] => r.1.baren == counts && !r.2.isEmpty == copies &&
          (s.loopCopies c.l.tenant c.g.step32 ((List.zip (List.range 1) rs).flatMap fun r => r.2.2.map fun p => (r.1, p))).2.isNone
      | _ => false
  | none => false
theorem test_wit_MatrixCommandsAreAccepted :
    matMeets sMat = true ∧ (ctx sMat).g.planes = none ∧ ((ctx sMat).g.getX 2).toNat < 64 ∧
    (match (ctx sMat).b.tid? 1, planeShape 8 with
      | some d, some sh => decide (d.fmt = 8) && decide (fmtBlockLen 8 = 0) && !d.rangeOut 0 0 sh.k && !d.rangeOut 1 0 sh.n &&
          ok (sMat.checkReads (ctx sMat) (d.step (ctx sMat).g.step32) (d.rectUnits 0 sh.k 0 sh.n))
      | _, _ => false) = true ∧
    loopMeets (sLoop 3) false false = true ∧ loopMeets (sLoop 3 992) true false = true ∧ loopMeets sLoopCow true true = true ∧
    (let s := posted (sLoop 3 992) (.arrive 1) (.sp 1 512)
     loopMeets s true false = true ∧ s.outstanding (ctx s).g false ≠ []) ∧
    (ctx sMat).g.segs = [] ∧ (ctx sMat).g.mcmds = [] ∧ sMat.arrivals = [] ∧
    (let s := posted sMat (.load 8 false 2) (.sp 1 16)
     (ctx s).g.segs = [] ∧ (ctx s).g.mcmds = [] ∧ (s.arrivals.map fun a => (a.grp, a.op.dst)) = [(r1, some 2)]) := by decide +kernel

/-- The smallest window, of 256 cells; a record for its last cell; a clamp of that cell; a read of 256 cells. -/
def sArr : State :=
  let s := bind (bind (bind sMem 1 (mkDesc 2 2 0x10000 #v[33, 1, 1, 1, 1] 132)) 2 (mkDesc 2 1 0x20000 #v[1, 1, 1, 1, 1] 0)) 3
    (mkDesc 0 1 0x30000 #v[32, 1, 1, 1, 1] 0)
  { s.updTenant 0 (fun t => { t with leases := t.leases.set 0 0x80000000 }) with cells := [⟨0, 255, 0, false, 0, 0, [], false⟩] }
def arrX (tid xb : Word) : State := setX (setX sArr 2 tid) 3 xb
def w0 : Window := ⟨0, 0, 0, 256⟩
theorem test_wit_ArrayLoadsAndClampsReplaceCells :
    (let s := arrX 1 255
     here s = true ∧ (ctx s).g.tx = none ∧ (ctx s).g.getX 3 = BitVec.ofNat 64 (0 * 2 ^ 20 + 255) ∧
     ok (s.windowFree (ctx s).l.tenant 0) = true ∧ (s.tenant 0).window? 0 = some w0 ∧ ok (s.ownedWindow (ctx s) 0) = true ∧
     (match (ctx s).b.tid? 1 with
       | some d => decide (d.fmt = 2) && decide (d.rank = 2) && decide (d.ext[0] = 33) && decide (255 + d.ext[1] ≤ w0.size) &&
           meets (s.readWords (ctx s) d ((stepsBelow d.ext[1] 1).flatMap fun j => (stepsBelow 33 1).map fun i => coord2 i j)) fun r =>
             meets (recordChecks w0 [(255, 0)] 255 (blocksOf 33 d.ext[1] r.1)) fun new => new.all fun z => z.cpl.isEmpty
       | none => false) = true ∧
     ((s.windowCells w0).filter fun z => decide (z.cell < w0.first + 255) || decide (w0.first + 255 + 1 ≤ z.cell)) = []) ∧
    let s := poke (arrX 2 0) (.phys 0x320000) (leBytes 4 (2 ^ 28 + 255))
    here s = true ∧
    (match (ctx s).b.tid? 2 with
      | some d => decide (d.fmt = 2) && decide (d.rank = 1) &&
          meets (s.readWords (ctx s) d ((stepsBelow d.ext[0] 1).map fun i => coord2 i 0)) fun r => ok (s.clampChecks w0 r.1)
      | none => false) = true := by decide +kernel

theorem test_wit_ArrayCommandsAreAccepted :
    (let s := arrX 3 0
     here s = true ∧ (ctx s).g.tx = none ∧ ok (s.windowFree (ctx s).l.tenant 0) = true ∧ (s.tenant 0).window? 0 = some w0 ∧
     ok (s.settled (ctx s)) = true ∧ ok (s.ownedWindow (ctx s) 0) = true ∧ (ctx s).g.segs = [] ∧ s.dangling w0 = none ∧
     (match (ctx s).b.tid? 3 with
       | some d => decide (d.fmt = 0) && decide (d.rank = 1) && decide (d.vsel = 0) && decide (0 + 8 * d.ext[0] ≤ w0.size) &&
           meets ((stepsBelow d.ext[0] 1).mapM fun j => s.movePieces (ctx s) false .store (some (d.addrOf (coord2 j 0))) 1) fun ps =>
             meets (s.gateMoves (ctx s).l.tenant (ctx s).g.step32 ps.flatten) (fun l => l.isEmpty) &&
             ps.flatten.all fun p => ok (s.wayTo p.tgt)
       | none => false) = true) ∧
    (0x7BFF : BitVec 16).toNat / 2 ^ 10 % 32 ≠ 31 ∧
    (arrX 3 0 |> fun s => setX s 4 0x8000FFFF00007BFF |> ctx).g.getX 4 =
      BitVec.ofNat 64 ((if true then 2 ^ 63 else 0) + (0xFFFF : BitVec 16).toNat * 2 ^ 32 + 0 * 2 ^ 20 + (0x7BFF : BitVec 16).toNat) ∧
    (∀ sel ≤ 5, BitVec.ofNat 64 (0 * 2 ^ 20 + sel) = BitVec.ofNat 64 sel) := by decide +kernel

/-! ## Witnesses: versions, collectives, device launch -/

def sVer : State := setX (setX (bind sMem 1 (mkDesc 0 2 0x40000 #v[8, 2, 1, 1, 1] 0x10000)) 2 1) 3 0xFFFFFFFF
/-- With an accepted plane load that reads the step to be retired: before the first issue of `vret`, and while it waits. -/
def sReads (w : Option Wait) : State := upd sVer fun g => { g with
  swait := w, mcmds := [.load 0 false (mkDesc 0 2 0x40000 #v[8, 2, 1, 1, 1] 0x10000) 0 0 [⟨4, .phys 0x340000, 0, 0x340000, some 0xFFFFFFFF⟩]] }
theorem test_wit_VersionInstructionsChangeTheTable : here sVer = true ∧ (ctx sVer).g.tx = none ∧ (ctx sVer).g.segs = [] ∧
    (ctx sVer).g.getX 3 = (0xFFFFFFFF : Word32).zeroExtend 64 ∧ sVer.kicks = [] ∧
    (ctx sVer).g.swait = none ∧ sVer.readsUnderWay 0 0xFFFFFFFF sVer.nextId = false ∧
    here (sReads none) = true ∧ (sReads none).readsUnderWay 0 0xFFFFFFFF sVer.nextId = true ∧
    (ctx (sReads (some (.reads 0xFFFFFFFF 2)))).g.swait = some (.reads 0xFFFFFFFF 2) ∧
    (sReads (some (.reads 0xFFFFFFFF 2))).readsUnderWay 0 0xFFFFFFFF 2 = true ∧
    (sReads (some (.reads 5 2))).readsUnderWay 0 5 2 = false ∧
    ok (sVer.settled (ctx sVer)) = true ∧ sVer.commandsOf (ctx sVer).g.ref = false ∧ ((ctx sVer).g.getX 2).toNat < 64 ∧
    (match (ctx sVer).b.tid? 1 with
      | some d => decide (d.vsel = 0) && (d.spans.all fun r => decide (windowEnd ≤ r.1) || decide (r.2 ≤ windowBase)) &&
          decide (d.spanPages.length = 2) &&
          meets (sVer.spanLeaves (ctx sVer).l.tenant d.spanPages) fun leaves =>
            !sVer.fieldBusy (ctx sVer).l.tenant ((d.field leaves).map (·.1)) &&
            ok (sVer.publishChecks (ctx sVer).l.tenant 0xFFFFFFFF (d.field leaves)) && decide ((d.field leaves).length = 2)
      | none => false) = true := by decide +kernel

/-- A halo exchange of one byte; an all-reduce of one f64 between devices 0 and 5, named by a table in page 3. -/
def collHalo : List Byte := [2, 1, 2, 0] ++ List.replicate 4 0 ++ leBytes 4 1008 ++ List.replicate 52 0
def collReduce : List Byte := [1, 1, 2, 8] ++ leBytes 2 2 ++ leBytes 2 0 ++ leBytes 4 1008 ++ leBytes 4 0 ++ leBytes 8 0x30000 ++
  List.replicate 40 0
def sColl (fmt : Nat) (rec0 : List Byte) : State :=
  setX (poke (poke (bind (bind sMem 1 (mkDesc fmt 1 0x10000 #v[1, 1, 1, 1, 1] 0)) 2 (mkDesc fmt 1 0x20000 #v[1, 1, 1, 1, 1] 0))
    (.phys 0x330000) [0, 0, 5, 0]) (.sp 1 64) rec0) 2 (win 64)
def collMeets (s : State) : Bool :=
  let c := ctx s
  let r := CollFields.ofBytes (s.readBytes (.sp c.b.id 64) 64)
  canonical s && decide (c.g.tx = none) && decide (c.g.segs = []) && ok (s.settled c) && !s.commandsOf c.g.ref &&
  decide (s.collsOn c.g.core < 8) && decide ((c.g.getX 2).toNat % 64 = 0) && decide (c.blockOffset (c.g.getX 2) 64 = some 64) &&
  decide (s.poisoned (.sp c.b.id 64) 64 = none) && r.ok c.l.scratch &&
  match c.b.tid? r.stid, c.b.tid? r.dtid with
  | some src, some dst => decide (dst.vsel = 0) && (r.kind == 2 && !boxOut src dst zero5 ||
      r.kind == 1 && reduceFormatsOk src dst r.dfmt && meets (s.readMembers c r) fun m => membersOk s.mgmt.uaId m.1) &&
      meets (s.collPages c r src dst) fun q => q.2.2.1.isEmpty
  | _, _ => false
theorem test_wit_CollectiveIsAccepted : here (sColl 0 collHalo) = true ∧ collMeets (sColl 0 collHalo) = true ∧
    here (sColl 8 collReduce) = true ∧ collMeets (sColl 8 collReduce) = true := by decide +kernel

/-- No device queue; a full one behind a queue that is none; one whose slot is not mapped, and whose slot's
table sector is poisoned; one with room, at its last slot. -/
def sDl (tail base : Word) : State := (setX sMem 2 (win 0)).updTenant 0 fun t =>
  let q0 : LaunchQueue := { LaunchQueue.reset with en := true }
  let q7 : LaunchQueue := { LaunchQueue.reset with en := true, devq := true, base := base, tail := tail.extractLsb' 0 32 }
  { t with queues := (t.queues.set 0 q0).set 7 q7 }
theorem test_wit_DeviceLaunchAppendsItsRecord :
    (let s := setX sMem 2 (win 896)
     canonical s = true ∧ here s = true ∧ (ctx s).g.tx = none ∧ (ctx s).g.segs = [] ∧ (ctx s).l.tenant < 16 ∧
     ok (s.settled (ctx s)) = true ∧ meets (s.resolveChecks (ctx s) .load ((ctx s).g.getX 2) 128) (fun t => ok (s.readable (ctx s) t 128)) = true ∧
     (let u := posted s (.arrive 1) (.sp 1 16)
      ok (u.resolveChecks (ctx u) .load ((ctx u).g.getX 2) 128) = true ∧ ok (u.settled (ctx u)) = false) ∧
     ∀ q < 8, (s.queue (ctx s).l.tenant q).en = false ∨ (s.queue (ctx s).l.tenant q).devq = false) ∧
    (∀ r ∈ [(16, 0x10000), (15, 0x10000), (0, 0x90000)],
      let q : Word × Word := (BitVec.ofNat 64 r.1, BitVec.ofNat 64 r.2)
      here (sDl q.1 q.2) = true ∧ ((sDl q.1 q.2).queue 0 7).en = true ∧ ((sDl q.1 q.2).queue 0 7).devq = true ∧
      (∀ k < 7, ((sDl q.1 q.2).queue 0 k).en = false ∨ ((sDl q.1 q.2).queue 0 k).devq = false)) ∧
    ((sDl 16 0x10000).queue 0 7 |> fun z => (z.tail - z.head).toNat = 2 ^ z.logn) ∧
    ((sDl 15 0x10000).queue 0 7 |> fun z => (z.tail - z.head).toNat ≠ 2 ^ z.logn ∧
      meets ((sDl 15 0x10000).launchSlot (ctx (sDl 15 0x10000)) (z.slot z.tail)) (fun l => decide (l.key = 0x310780)) = true) ∧
    ((sDl 0 0x90000).queue 0 7 |> fun z => (match (sDl 0 0x90000).launchSlot (ctx (sDl 0 0x90000)) (z.slot z.tail) with
      | .error (.trap code _ _) => decide (code = .page)
      | _ => false) = true) ∧
    (let s := { sDl 0 0x10000 with poison := [0x220008 / 32] }
     here s = true ∧ (match s.launchSlot (ctx s) 0x10000 with
      | .error (.park _ _) => true
      | _ => false) = true) := by decide +kernel

/-! ## Witnesses: lane instructions

Lane i holds the window address 32·i in v4, an address in page 1 in v5, in the last bytes of page 2 for lane 31 in v6, and i in v7.
All lanes execute with `lc0`, none with `lcOff`, those with i odd with `lcOdd`. -/

def sLane : State :=
  (setReg (setReg (setReg (setReg (paged sL) 4 fun i => win (32 * i.val)) 5 fun i => BitVec.ofNat 64 (0x10000 + 64 * i.val)) 6 fun i =>
    BitVec.ofNat 64 (0x30000 - 8 * (32 - i.val))) 7 fun i => BitVec.ofNat 64 i.val) |> fun s =>
  upd s fun g => g.mapLanes fun i l => { l with p := l.p.set 0 (i.val % 2 == 1) }
def lcOff : Lc := ⟨.on false 1, .always, 0⟩
def lcOdd : Lc := ⟨.on false 0, .always, 0⟩
theorem test_wit_PackedIntegerResults : hereLane sLane = true := by decide +kernel
theorem test_wit_PackedFieldResults : hereLane sLane = true ∧ Ty.n32 = .n32 ∧
    Ty.n64 = .n64 := by decide +kernel
/-- A quiet and a signalling NaN, first and second, of FP16; infinities, zeros and numbers below and above each other; the number
whose power of two is 2.0, and whose logarithm is 1.0. -/
theorem test_wit_PackedFloatResults : hereLane sLane = true ∧
    Ty.f16 ∈ [Ty.f64, .f32, .f16, .bf16] ∧ 0x7C01 < 2 ^ Ty.f16.width ∧ (fmtOf .f16).infMag < 0x7C01 % 2 ^ (Ty.f16.width - 1) ∧
    [0x3C00, 0xFFFF].find? (fnan fp16) = some 0xFFFF ∧ fnan fp16 0x7C01 = true ∧ fsig fp16 0x7C01 = true ∧
    ([0x7C00, 0, 0x8000, 0x3C00, 0xBC00].all fun x => !fnan fp16 x) = true ∧ finf fp16 0x7C00 = true ∧ finf fp16 0x3C00 = false ∧
    fmag fp16 0x8000 = 0 ∧ fneg fp16 0xBC00 = true ∧ fmag fp16 0xBC00 ≠ 0 ∧ fval fp16 0xBC00 < fval fp16 0x3C00 ∧
    fval fp16 0x8000 = fval fp16 0 ∧ fneg fp16 0x8000 = true ∧ fneg fp16 0 = false ∧ Rm.rn ≠ .rs ∧
    fval fp16 0x3C00 = 1 * fden fp16 ∧ (funits fp16 0x4000 : Int) * 2 ^ (-1 : Int).toNat = fden fp16 * 2 ^ (1 : Int).toNat ∧
    funits fp16 (fmag fp16 0x4000) * 2 ^ (-1 : Int).toNat = fden fp16 * 2 ^ (1 : Int).toNat ∧
    funits fp16 0x3C00 = (1 : Int).natAbs * fden fp16 := by decide +kernel
theorem test_wit_ConversionAndPredicateResults : hereLane sLane = true ∧
    Ty.n8.isInt = true ∧ Ty.n8.isN = true ∧ Ty.f16.isN = true ∧ Ty.f32.isF = true ∧ Ty.e4m3.isFloat = true := by decide +kernel
theorem test_wit_ShuffleAndBroadcastMoveElements : hereLane sLane = true ∧
    Ty.e4m3.isN = true ∧ (ctx sLane).g.executes (pth sLane).mask lcOdd 1 = true ∧
    (∀ k < (1 : Fin 32), (ctx sLane).g.executes (pth sLane).mask lcOdd k = false) ∧
    ∀ k, (ctx sLane).g.executes (pth sLane).mask lcOff k = false := by decide +kernel
/-- With 15 entries in the return queue. -/
theorem test_wit_ExchangeResults :
    let s := upd sLane fun g => { g with retq := List.replicate 15 0 }
    hereLane s = true ∧ (ctx s).g.retq.length < 16 ∧ Ty.n32.isN = true ∧
    Ty.n32 ∈ [Ty.n32, .n64, .f32, .f64] ∧ (ctx s).g.executes (pth s).mask lcOdd 1 = true ∧
    (∀ k < (1 : Fin 32), (ctx s).g.executes (pth s).mask lcOdd k = false) := by decide +kernel
theorem test_wit_ReductionResults : hereLane sLane = true ∧
    (Ty.n16.isInt || Ty.n16.isF) = true ∧ Dst.v 1 ≠ .o 1 ∧ Rop.xor.okFor .n16 = true ∧ Rop.add.okFor .f16 = true ∧ Ty.f16.isF = true ∧
    (∀ j < 4, fnan fp16 (sub (ctx sLane).g lc0 .f16 (.v 7) 1 j) = false) ∧
    let s := setReg sLane 9 fun _ => 0x7E00FE007C017FFF
    hereLane s = true ∧ (ctx s).g.executes (pth s).mask lc0 0 = true ∧
    ∀ k : Fin 32, ∀ j < 4, fnan fp16 (sub (ctx s).g lc0 .f16 (.v 9) k j) = true := by decide +kernel

def accs (s : State) (k : Access) (w : Bool) (n : Nat) (c : Lc) (a : Src) : Res (List LaneAcc × List Nat) :=
  s.laneTargets (lctx s) k w n ((lctx s).addresses (pth s).mask c a) []
theorem test_wit_LaneLoadsAndStoresMoveTheirBytes :
    hereLane sLane = true ∧ canonical sLane = true ∧
    meets (accs sLane .load false 8 lc0 (.v 6)) (fun r => r.2.isEmpty && ok (sLane.laneReadable (lctx sLane) 8 r.1)) = true ∧
    meets (accs sLane .load true 1 lcOdd (.v 4)) (fun r => r.2.isEmpty && ok (sLane.laneReadable (lctx sLane) 1 r.1)) = true ∧
    meets (sLane.stepTargets (lctx sLane) 4 lc0 (.v 7) ((lctx sLane).addresses (pth sLane).mask lc0 (.v 5)))
      (fun r => ok (sLane.laneReadable (lctx sLane) 4 r)) = true ∧
    meets (accs sLane .store false 8 lc0 (.v 6)) (fun r => r.2.isEmpty && r.1.all fun q =>
      !sLane.mustCopy (ctx sLane).l.tenant q.tgt && ok (sLane.reachable (lctx sLane) q.tgt)) = true ∧
    meets (accs sLane .store true 4 lc0 (.v 4)) (fun r => r.2.isEmpty && r.1.all fun q =>
      !sLane.mustCopy (ctx sLane).l.tenant q.tgt && ok (sLane.reachable (lctx sLane) q.tgt)) = true := by decide +kernel

/-- The granules of the odd lanes full, the others empty. -/
def sFe : State := (List.range 16).foldl (fun s i => (s.updBlock 1 fun b => { b with full := b.full ++ [2 * (2 * i + 1)] })) sLane
theorem test_wit_FullEmptyAccessesFollowTheirGranules :
    hereLane sFe = true ∧ canonical sFe = true ∧ ok (sFe.settled (lctx sFe)) = true ∧
    (ctx sFe).l.det = false ∧
    meets (accs sFe .load true 8 lcOdd (.v 4)) (fun r => r.2.isEmpty && !r.1.isEmpty && ok (sFe.laneReadable (lctx sFe) 8 r.1) &&
      r.1.all fun q => sFe.isFull q.tgt.place.granule.1 q.tgt.place.granule.2) = true ∧
    meets (accs sFe .load true 8 lc0 (.v 4)) (fun r => r.2.isEmpty &&
      r.1.any fun q => !sFe.isFull q.tgt.place.granule.1 q.tgt.place.granule.2) = true ∧
    meets (accs sLane .store true 8 lc0 (.v 4)) (fun r => r.2.isEmpty && !r.1.isEmpty &&
      r.1.all fun q => !sLane.isFull q.tgt.place.granule.1 q.tgt.place.granule.2) = true ∧
    meets (accs sFe .store true 8 lc0 (.v 4)) (fun r => r.2.isEmpty &&
      r.1.any fun q => sFe.isFull q.tgt.place.granule.1 q.tgt.place.granule.2) = true ∧
    hereLane (det sFe) = true ∧ (ctx (det sFe)).l.det = true := by decide +kernel

/-- A tensor of 16 elements, so that lanes 16 to 31 read padding; a block for each team in v8. -/
def sTen : State :=
  let s := bind sLane 1 { mkDesc 8 1 0x10000 #v[16, 1, 1, 1, 1] 0 with padm := 1 }
  let s := setReg s 12 fun i => BitVec.ofNat 64 i.val
  setReg s 8 fun i => if i.val % 4 = 0 then BitVec.ofNat 64 (0x20000 + 8 * i.val) else BitVec.ofNat 64 (0x11000 + i.val)
theorem test_wit_TensorAndBlockAccessesMoveTheirParts :
    hereLane sTen = true ∧ canonical sTen = true ∧ Dst.v 1 ≠ .v 2 ∧
    meets ((lctx sTen).tidOf 1 .simm) (fun d => tensorTypeOk d.fmt .f64 &&
      meets (sTen.tensorReads (lctx sTen) d (d.step (ctx sTen).g.laneStep) 12 ((ctx sTen).g.executing (pth sTen).mask lc0)) fun rs =>
        rs.all fun r => match r.2 with
          | some e => ok (sTen.readyPieces (lctx sTen) r.1.val e.all)
          | none => true) = true ∧
    (let ex := (ctx sTen).g.executing (pth sTen).mask lcOdd
     meets (sTen.teams (lctx sTen) .load .e4m3 (.v 8) ex (teamFirsts .e4m3) []) (fun r => r.2.isEmpty && decide (r.1.length = 8) &&
       r.1.all fun t => ok (sTen.teamReady (lctx sTen) t) && (t.lanes .e4m3 ex).all fun i => ok (sTen.partReadable .e4m3 t i)) = true) ∧
    ok (sTen.settled (lctx sTen)) = true ∧
    meets (sTen.teams (lctx sTen) .store .e4m3 (.v 8) ((ctx sTen).g.executing (pth sTen).mask lc0) (teamFirsts .e4m3) []) (fun r =>
      r.2.isEmpty && r.1.all fun t => ok (sTen.teamReady (lctx sTen) t) && (t.block ++ t.scale).all fun q =>
        !sTen.mustCopy (ctx sTen).l.tenant q.tgt) = true := by decide +kernel

theorem test_wit_LaneAtomicsUpdateTheirBytes :
    hereLane sLane = true ∧ canonical sLane = true ∧ Aop.cas.okFor .n32 = true ∧
    Aop.max.okFor .f64 = true ∧ sLane.dmaskOk (ctx sLane).l.tenant (ctx sLane).g.laneDmask = true ∧
    meets (accs sLane .atomic false 8 lc0 (.v 6)) (fun r => r.2.isEmpty && ok (sLane.laneReadable (lctx sLane) 8 r.1) &&
      (r.1.all fun q => !sLane.mustCopy (ctx sLane).l.tenant q.tgt) &&
      r.1.all fun q => r.1.all fun e => e.lane == q.lane || !e.tgt.place.meets 8 q.tgt.place 8) = true ∧
    Ty.s64 ∈ [Ty.n32, .n64, .s32, .s64] ∧ 2 ^ 64 - 1 < 2 ^ Ty.s64.width := by decide +kernel

/-! ## Witnesses: lane control -/

/-- The last instruction inside the kernel's lane range of 65,532 bytes, and the first outside. -/
theorem test_wit_BraSetsThePathsPc : hereLane sLane = true ∧
    ((ctx sLane).k.lbase.toNat : Int) ≤ (pth sLane).pc.toNat + 12 * (5460 : BitVec 20).toInt ∧
    (pth sLane).pc.toNat + 12 * (5460 : BitVec 20).toInt < ((ctx sLane).k.lbase.toNat + (ctx sLane).k.lsize.toNat : Nat) ∧
    ¬ (pth sLane).pc.toNat + 12 * (5461 : BitVec 20).toInt < ((ctx sLane).k.lbase.toNat + (ctx sLane).k.lsize.toNat : Nat) := by decide +kernel

/-- At a join: alone, with the other path running, and with the other path parked. -/
def sJoin (depth : Nat) (parked : Bool) : State := upd sLane fun g =>
  { g with frame := ⟨0, 0xFFFFFFFF, depth⟩, path0 := some ⟨0, 0xFFFF, false, none, none⟩,
           path1 := some ⟨if parked then 0 else 24, 0xFFFF0000, parked, none, none⟩ }
/-- At Depth 2, at a join with the other path parked; the spilled frame joins at `join`, its sibling of slot 1 stands at 36. -/
def sJoinFrame (join : Nat) : State :=
  poke (upd sLane fun g => { g with
    frame := ⟨0, 0xFFFF, 2⟩, path0 := some ⟨0, 0xFF, false, none, none⟩, path1 := some ⟨0, 0xFF00, true, none, none⟩ })
    (.sp 1 1024) (leBytes 4 join ++ leBytes 4 0xFFFFFFFF ++ leBytes 4 (36 + 2) ++ leBytes 4 0xFFFF0000)
def joinsAtDepth2 (s : State) : Bool :=
  hereLane s && decide ((ctx s).g.frame.depth = 2) && decide ((ctx s).g.frame.join = (pth s).pc) &&
  decide (((ctx s).g.path true).map (·.parked) = some true) && decide (1024 * ((ctx s).l.scratch + (ctx s).g.ref.gid) + 16 * (2 - 2) = 1024) &&
  (ctx s).g.units.isEmpty
theorem test_wit_DivergenceSplitsAndJoins :
    hereLane sLane = true ∧
    (∀ i : Fin 32, (0 : BitVec 32).getLsbD i.val = ((pth sLane).mask.getLsbD i.val && (ctx sLane).g.lanes[i].getP 1)) ∧
    (∀ i : Fin 32, (0xAAAAAAAA : BitVec 32).getLsbD i.val = ((pth sLane).mask.getLsbD i.val && (ctx sLane).g.lanes[i].getP 0)) ∧
    (pth sLane).mask &&& ~~~(0xAAAAAAAA : BitVec 32) ≠ 0 ∧ (ctx sLane).g.frame.depth = 0 ∧
    (let s := upd sLane fun g => { g with path0 := some ⟨0, 0xAAAAAAAA, false, none, none⟩ }
     (pth s).mask &&& ~~~(0xAAAAAAAA : BitVec 32) = 0 ∧
     ∀ i : Fin 32, (0xAAAAAAAA : BitVec 32).getLsbD i.val = ((pth s).mask.getLsbD i.val && (ctx s).g.lanes[i].getP 0)) ∧
    0 < (1 : BitVec 13).toInt ∧ (ctx sLane).k.inRange (laneTarget (pth sLane).pc (5460 : BitVec 20).toInt) = true ∧
    (ctx sLane).k.inRange (laneTarget (pth sLane).pc (1 : BitVec 13).toInt) = true ∧
    (ctx sLane).k.inRange (laneTarget (pth sLane).pc (5461 : BitVec 20).toInt) = false ∧ (0 : BitVec 13).toInt ≤ 0 ∧
    (∀ d ∈ [1, 64], hereLane (sJoin d false) = true ∧
      (ctx (sJoin d false)).g.frame.depth ≠ 0 ∧ (ctx (sJoin d false)).g.frame.join = (pth (sJoin d false)).pc ∧
      ((ctx (sJoin d false)).g.path true).map (fun o => (o.parked, o.inAccess)) = some (false, false) ∧ canonical (sJoin d false) = true) ∧
    (ctx (sJoin 65 false)).g.frame.depth = 65 ∧
    hereLane (sJoin 1 true) = true ∧
    (ctx (sJoin 1 true)).g.frame.depth = 1 ∧ (ctx (sJoin 1 true)).g.frame.join = (pth (sJoin 1 true)).pc ∧
    ((ctx (sJoin 1 true)).g.path true).map (·.parked) = some true ∧
    (∀ join ∈ [0, 48], let s := sJoinFrame join
      joinsAtDepth2 s = true ∧ s.poisoned (.sp 1 1024) 16 = none ∧ leNat ((s.readBytes (.sp 1 1024) 16).take 4) = join) ∧
    (let s := (sJoinFrame 48).updBlock 1 fun b => { b with poison := [32] }
     joinsAtDepth2 s = true ∧ (s.poisoned (.sp 1 1024) 16).isSome = true) := by decide +kernel

/-- With one queued segment and two, at Depth 0; at Depth 1. -/
theorem test_wit_LendEndsTheSegment : hereLane sLane = true ∧
    (ctx sLane).g.frame.depth = 0 ∧ (ctx sLane).g.segs.drop 1 = [] ∧
    (let s := upd sLane fun g => { g with segs := g.segs ++ [seg0] }
     hereLane s = true ∧ (ctx s).g.segs.drop 1 = [seg0]) ∧
    hereLane (sJoin 1 false) = true ∧
    1 ≤ (ctx (sJoin 1 false)).g.frame.depth := by decide +kernel

/-- Rays from the origin along x; a BVH and a medium image; a majorant grid; a texture. -/
def sTrv : State :=
  let s := bind (bind (bind sLane 1 (mkDesc 0 1 0x10000 #v[4096, 1, 1, 1, 1] 0)) 2 { mkDesc 9 3 0x20000 #v[4, 4, 4, 1, 1] 16 with str := #v[16, 64, 0, 0] })
    3 (mkDesc 9 2 0x20000 #v[4, 4, 1, 1, 1] 16)
  s
theorem test_wit_TraversalRequestsWaitForTheirResult :
    hereLane sTrv = true ∧
    ok (sTrv.settled (lctx sTrv)) = true ∧
    ok ((lctx sTrv).traceTReq (pth sTrv) ⟨.always, .always, 1⟩ 16 .simm) = true ∧
    ok ((lctx sTrv).texReq (pth sTrv) ⟨.always, .always, 3⟩ .simm 20) = true ∧
    (let s := upd sTrv fun g => { g with stage := g.stage.set 0 2, segs := g.segs.map fun q => { q with k := q.k.set 0 2 } }
     hereLane s = true ∧
     ok ((lctx s).traceVReq (pth s) ⟨.always, .always, 1⟩ 16 (.k 0) .simm) = true) := by decide +kernel

/-- The phaser in v9, bit 0 of the wait's operand in lane 0. -/
def sBar (bit : Nat) : State :=
  setReg (poke sLane (.sp 1 16) (leBytes 4 1 ++ leBytes 2 1 ++ leBytes 2 1)) 9 fun _ => win 16 ||| BitVec.ofNat 64 bit
theorem test_wit_LaneBarriersArriveAndWait : ∀ bit ∈ [0, 1],
    let s := sBar bit
    hereLane s = true ∧ (∀ i, (ctx s).g.executes (pth s).mask lcOff i = false) ∧
    (ctx s).g.executes (pth s).mask lcOdd 1 = true ∧ (∀ i < (1 : Fin 32), (ctx s).g.executes (pth s).mask lcOdd i = false) ∧
    meets (s.objectTarget (lctx s) .store ((ctx s).g.src .n64 0 1 (.v 9) &&& ~~~1#64)) (fun t =>
      !s.mustCopy (ctx s).l.tenant t && ok (s.reachable (lctx s) t)) = true ∧
    (pth s).mask.getLsbD 0 = true ∧ (ctx s).l.det = false ∧
    meets (s.objectTarget (lctx s) .load ((ctx s).g.src .n64 0 0 (.v 9) &&& ~~~1#64)) (fun t => ok (s.readable (lctx s) t 16) &&
      ok (s.updatesDone (lctx s) t.place 16) && decide ((s.phaserAt t.place).phase % 2 = 1) &&
      decide ((s.phaserAt t.place).flags % 2 = 0)) = true ∧ (ctx s).b.abandoned = false ∧
    ((ctx s).g.src .n64 0 0 (.v 9)).toNat % 2 = bit := by decide +kernel

/-! ## Witnesses: ends of waits, choices, interruption

`wt s w` lets the stream of the group wait; `pw s w` lets its path 0 wait. -/

def wt (s : State) (w : Wait) : State := upd s fun g => { g with swait := some w }
def pw (s : State) (w : Wait) : State := upd s fun g => { g with path0 := some ⟨0, allLanes, false, some w, none⟩ }
def fresh (s : State) : Bool :=
  (ctx s).runs && !(ctx s).l.det && (ctx s).g.detected.isEmpty && !(ctx s).g.deferredDue && (ctx s).g.preemptAt.isNone

/-- `ld.fe.n64 v1, [v4]` and `st.fe.n64 [v4], v7` stand at the path's PC. -/
def ldFeWord : Nat := 0b0000000000000_000_0000000000_0000000000_0000000000_0000000100_0000000001_01100_01100_0011_000000_1000000101
def stFeWord : Nat := 0b0000000000000_000_0000000000_0000000000_0000000111_0000000100_0000000000_01100_01100_0011_000000_1000000110
def sFeWait (w : Nat) (full : List Nat) : State :=
  (pw (setReg { atWord 96 w with schedule := [] } 4 fun i => win (16 * i.val)) (.fe (win 0))).updBlock 1 fun b => { b with full := full }
def sPhWait (phase flags : Nat) : State :=
  poke sL (.sp 1 16) (leBytes 4 phase ++ leBytes 2 1 ++ leBytes 2 1 ++ leBytes 4 0 ++ [0] ++ leBytes 1 flags)

theorem test_wit_ReleasesEndTheirWaits :
    (let s := sFeWait ldFeWord (List.range 32)
     here s = true ∧ fresh s = true ∧ ok (s.settled (ctx s)) = true ∧ (pth s).parked = false ∧ (pth s).wait = some (.fe (win 0)) ∧
     meets (s.issueLane (ctx s) (pth s)) (fun i => decide (i = .ldFe lc0 .n64 false (.v 1) (.v 4))) = true ∧
     meets (accs s .load true 8 lc0 (.v 4)) (fun r => r.2.isEmpty && ok (s.laneReadable (lctx s) 8 r.1) &&
       r.1.all fun q => s.isFull q.tgt.place.granule.1 q.tgt.place.granule.2) = true) ∧
    (let s := sFeWait stFeWord []
     here s = true ∧ meets (s.issueLane (ctx s) (pth s)) (fun i => decide (i = .stFe lc0 .n64 (.v 4) (.v 7))) = true ∧
     meets (accs s .store true 8 lc0 (.v 4)) (fun r => r.2.isEmpty &&
       r.1.all fun q => !s.isFull q.tgt.place.granule.1 q.tgt.place.granule.2) = true) ∧
    (let s := wt (pw (sPhWait 1 0) (.barWait (.sp 1 16) (win 16) 2 false 11)) (.phaser (.sp 1 16) (win 16) 2 false)
     here s = true ∧ fresh s = true ∧ s.poisoned (.sp 1 16) 16 = none ∧ (s.phaserAt (.sp 1 16)).phase % 2 ≠ 0 ∧
     (pth s).wait = some (.barWait (.sp 1 16) (win 16) 2 false 11) ∧ (pth s).parked = false) ∧
    (let s := wt (poke (paged sG) (.phys 0x310010) (leBytes 4 1)) (.phaser (.phys 0x310010) 0x10010 2 false)
     here s = true ∧ fresh s = true ∧ s.poisoned (.phys 0x310010) 16 = none ∧ (s.phaserAt (.phys 0x310010)).phase % 2 ≠ 0 ∧
     ok (s.onWay ⟨0x310010, 0x310010 / 65536 * 65536, 2, true, false⟩ 0x10010) = true) ∧
    (let s := (wt sG (.phaser (.sp 1 16) (win 16) 2 true)).updBlock 1 fun b => { b with abandoned := true, poison := [0] }
     here s = true ∧ fresh s = true ∧ (s.poisoned (.sp 1 16) 16).isSome = true ∧ (ctx s).b.abandoned = true) ∧
    (let s := sPhWait 0 1
     here s = true ∧ (s.phaserAt (.sp 1 16)).phase % 2 = 0 ∧ (s.phaserAt (.sp 1 16)).flags % 2 = 1) ∧
    (let s := wt sG (.kwait 32)
     here s = true ∧ fresh s = true ∧ s.outstanding (ctx s).g false = [] ∧ s.poisoned (.sp 1 32) 16 = none ∧
     (barrierAt s 1 32).count = 0 ∧ (barrierAt s 1 32).flags % 2 = 0) ∧
    (let s := { upd (wt sG (.monitor (win 16) (some 0))) (fun g => { g with monitor := some ⟨.sp 1 16, 1⟩ }) with aoc := 1 }
     here s = true ∧ fresh s = true ∧ ((ctx s).g.monitor.map fun m => m.written) = some 1 ∧ 0 < s.aoc.toNat) ∧
    (let s := wt sG .drain
     here s = true ∧ fresh s = true ∧ (ctx s).g.segs = []) ∧
    (let s := wt (sSegs 7) .segRoom
     here s = true ∧ fresh s = true ∧ (ctx s).g.segs.length < 8) ∧
    (let s := upd (wt (sSegs 1) .retEntry) fun g => { g with retq := [0] }
     here s = true ∧ fresh s = true ∧ (ctx s).g.retq ≠ []) ∧
    (let s := pw (upd sL fun g => { g with retq := List.replicate 15 0 }) .retRoom
     here s = true ∧ fresh s = true ∧ (pth s).wait = some .retRoom ∧ (ctx s).g.retq.length < 16) ∧
    (let s := wt sG .mwait
     here s = true ∧ fresh s = true ∧ (ctx s).g.mcmds = [] ∧ (ctx s).g.park = none ∧ s.arrivals = []) ∧
    (let s := wt sG .planePair
     here s = true ∧ fresh s = true ∧ s.pairsOn (ctx s).g.core < 8) := by decide +kernel

def info0 (code : TrapCode) : TrapInfo := ⟨code, 0, 0, 0, 0⟩

/-- A set of two groups whose position is open: the first waits at a barrier object that counts 8 bytes, the second has not issued
yet; and one whose only group has yielded. Paths: 0 may go on; only 1 may. -/
def sSet : State :=
  let s := (wt (poke (det sG) (.sp 1 32) (leBytes 8 8)) (.kwait 32)).updBlock 1 fun b => { b with ngrp := 2, co := .opened none }
  { s with groups := s.groups ++ [Group.fresh ⟨1, 1⟩ 0 0 0 0x7F] }
def sYielded : State := (wt (det sG) .turn).updBlock 1 fun b => { b with co := .opened (some 0) }
/-- A collective of the group is still to count down the barrier object that its scalar stream waits for, or its path's. -/
def sColling : State :=
  (wt (det (after (exec (.coll 2) (sColl 0 collHalo)))) (.kwait 1008)).updBlock 1 fun b => { b with co := .opened none }
def sLaneColl : State := pw (det (after (exec (.coll 2) (sColl 0 collHalo)))) (.barWait (.sp 1 1008) (win 1008) 2 false 11)
def sPaths (parked0 : Bool) : State := det (upd sL fun g =>
  { g with frame := ⟨24, allLanes, 1⟩, path0 := some ⟨12, 0xFFFF, parked0, none, none⟩, issue1 := !parked0,
           path1 := some ⟨12, 0xFFFF0000, !parked0, none, none⟩ })
theorem test_wit_DeterministicChoicesTakeTheFirst :
    (match sSet.block? 1, sSet.launch? 1, sSet.setOrder 1 none with
      | some b, some l, [h, g] => decide (b.co = .opened none) && l.det && decide (h.status = .resident) &&
          decide ((sSet.ctxOf h).map sSet.testGroup = some .unmet) && decide (g.status = .resident) &&
          decide (g.swait = none) && !g.deferredDue && decide ((sSet.ctxOf g).map sSet.testGroup = some .met)
      | _, _, _ => false) = true ∧ sSet.kicks = [] ∧ sSet.arrivals = [] ∧
    (let s0 := upd sYielded fun g => { g with segs := [seg0], segIssued := 1 }
     let s : State := { s0 with arrivals := [⟨0, r1, 0, .sp 1 16, 0, 2, .arrive 1, false, 1, false⟩] }
     (s.arrivals.map fun a => (a.obj, s.arrivalDue a)) = [(.sp 1 16, false)] ∧ s.testGroup (ctx s) = .met) ∧
    (match sYielded.block? 1, sYielded.setOrder 1 (some 0) with
      | some b, [g] => decide (b.co = .opened (some 0)) && decide (g.swait = some .turn) && !g.deferredDue &&
          decide ((sYielded.ctxOf g).map sYielded.testGroup = some .met)
      | _, _ => false) = true ∧
    (∀ parked0 : Bool, let s := sPaths parked0
      here s = true ∧ (ctx s).runs = true ∧ (ctx s).l.det = true ∧
      ((ctx s).g.path (ctx s).g.issue1).map (·.parked) = some true ∧
      s.testPath (ctx s) false = (if parked0 then .unmet else .met) ∧ s.testPath (ctx s) true = (if parked0 then .met else .unmet)) ∧
    (let s := wt sYielded (.kwait 32)
     let d := upd s fun g => { g with held := [info0 .copy] }
     here d = true ∧ d.testGroup (ctx d) = .met ∧ (ctx d).g.deferredDue = true ∧
     sColling.testScalar (ctx sColling) = .early ∧ sColling.testGroup (ctx sColling) = .early ∧ here sColling = true ∧
     sColling.kicks = [] ∧ sColling.arrivals = []) ∧
    (let s := sLaneColl
     here s = true ∧ (ctx s).runs = true ∧ (ctx s).l.det = true ∧ s.testPath (ctx s) false = .early ∧
     ((ctx s).g.path false).map (·.stops) = some true ∧ (ctx s).g.issue1 = false) ∧
    here (det sL) = true ∧ (ctx (det sL)).runs = true ∧
    ((ctx (det sL)).g.path (ctx (det sL)).g.issue1).map (fun p => (p.parked, p.wait)) = some (false, none) := by decide +kernel

def quiet0 (s : State) : Bool := canonical s && decide ((ctx s).g.status = .resident) && !(s.tenant (ctx s).l.tenant).fq.en &&
  !s.killHeld (ctx s).g
theorem test_wit_InterruptionsTakeEffect :
    (let s := upd sSegTrap fun g => { g with held := [info0 .copy, info0 .page] }
     here s = true ∧ canonical s = true ∧ (ctx s).runs = true ∧ (ctx s).g.closing = false ∧ (ctx s).g.tx = none ∧
     (ctx s).g.trapMode = false ∧ TrapCode.copy ∈ [TrapCode.page, .version, .copy, .user] ∧ (ctx s).k.trapseg ≠ 0xFFFFFFFF) ∧
    (let s := upd sG fun g => { g with detected := [info0 .mirror] }
     here s = true ∧ quiet0 s = true) ∧
    (let s := upd sKillHeld fun g => { g with detected := [info0 .mcheck] }
     here s = true ∧ canonical s = true ∧ (ctx s).g.status = .resident ∧ s.killHeld (ctx s).g = true) ∧
    (∀ q ∈ [(none, sG), (some false, atWord 96 0x18C00287)],
     let s := setLaunch q.2 fun l => { l with chk := true }
     here s = true ∧ quiet0 s = true ∧ (ctx s).l.chk = true ∧ s.mayIssueOn (ctx s) q.1 = true) ∧
    sG.cxlOn = false ∧
    (∀ q ∈ [(false, sG), (true, sG), (false, sRing 64)],
     let s := upd (linked q.2) fun g => { g with park := some ⟨1, .brk, info0 .brk, some 0x310000, q.1⟩ }
     here s = true ∧ s.cxlOn = true ∧ s.lineHeld none (.phys (0x310000 + 0x38)) 4 = false ∧ s.killHeld (ctx s).g = false ∧
     ((s.finishCopies (0x310000 + 0x38) 4).writeNat none (.phys (0x310000 + 0x38)) 4 2).killHeld (ctx s).g = false ∧ canonical s = true ∧ (ctx s).g.status = .resident ∧ (ctx s).g.detected = [] ∧
     (s.tenant (ctx s).l.tenant).fq.en = decide ((s.tenant (ctx s).l.tenant).fq.buffer.length = 64)) ∧
    (1 : Word32).toNat % 4 < 2 ∧ 2 ≤ (2 : Word32).toNat % 4 ∧
    (let s := upd sG fun g => { g with tx := some { tx0 with abort := some (4, 0, 0x10000) } }
     here s = true ∧ quiet0 s = true ∧ (ctx s).g.park = none) ∧
    (let s := upd (wt sG (.kwait 32)) fun g => { g with blocked := 100000000 }
     here s = true ∧ quiet0 s = true ∧ s.timedOut (ctx s).g = true ∧ (ctx s).l.det = false) ∧
    (let s := upd (wt (sRing 64) (.kwait 32)) fun g => { g with blocked := 100000000 }
     here s = true ∧ canonical s = true ∧ s.timedOut (ctx s).g = true ∧ ((s.tenant 0).fq.en, (s.tenant 0).fq.buffer.length) = (true, 64)) ∧
    (let s := { upd sG (fun g => { g with preemptAt := some 0, closing := true }) with aoc := 2000 }
     here s = true ∧ quiet0 s = true ∧ (ctx s).g.preemptAt = some 0 ∧ (ctx s).g.closing = true ∧ (ctx s).g.detected = [] ∧ 0 + 2000 ≤ s.aoc.toNat) := by decide +kernel

/-- A PRE launch of six groups of 256 registers that has waited 400 ticks for a core that holds one such group. -/
def l2 : Launch := { placedLaunch 2 with pre := true, prio := 1, g := 6, state := .admissible, next := 0, noRoomSince := some 0 }
def sPre : State := { sG with launches := sG.launches ++ [l2], aoc := 400 }
def sOut : State := upd sG fun g => { g with status := .preempted }
theorem test_wit_PreemptionSavesTheAnchorState :
    (sG.launch? 1).map (·.clus) = some false ∧ (sPre.launch? 2) = some l2 ∧ l2.pending = true ∧ 0 + 400 ≤ sPre.aoc.toNat ∧
    sPre.lacking l2 = [0] ∧ (sPre.victim l2 (sPre.lacking l2)).map (·.uid) = some 1 ∧
    (let s := upd sG fun g => { g with preemptAt := some 0 }
     here s = true ∧ (ctx s).g.status = .resident ∧ (ctx s).g.preemptAt.isSome = true ∧ (ctx s).g.closing = false ∧
     (ctx s).g.detected = [] ∧ (ctx s).g.tx = none ∧ (ctx s).g.deferredDue = false ∧ s.arrivals = [] ∧ s.timedOut (ctx s).g = false ∧
     s.timedOut (ctx (upd (wt s (.kwait 32)) fun g => { g with blocked := 100000000 })).g = true) ∧
    (let s := upd (posted sG (.load 8 false 2) (.sp 1 16)) fun g => { g with
       preemptAt := some 0, segs := [seg0], park := some ⟨1, .brk, info0 .brk, none, false⟩ }
     here s = true ∧ (s.arrivals.map fun a => (s.arrivalNow r1 a, a.op.dst)) = [(true, some 2)]) ∧
    (let s := upd { posted sG (.load 8 false 2) (.phys 0x310000) with owners := [(0x310000, 5)] } fun g => { g with preemptAt := some 0 }
     here s = true ∧ (s.arrivals.all fun a => !s.arrivalNow r1 a) = true) ∧
    here sOut = true ∧ (ctx sOut).g.status = .preempted ∧ (ctx sOut).l.clus = false ∧ (ctx sOut).l.det = false ∧
    sOut.commandsOf r1 = false ∧ 143 ∈ sOut.partitionCores (ctx sOut).l.tenant ∧ ((sOut.occupied 143).add (sOut.resumeNeed (ctx sOut) 143)).ok = true := by decide +kernel

/-! ## Witnesses: queues, containers, launches

`sImg` holds a container image of one kernel at 0x10000, to be loaded to 0x30000; its measurements are SHA-256 digests computed
outside Lean, and `sig0` is the one signature that it brings. It loads when `sig0` is accepted for its three messages (R14; log 7);
each has a key under which it is, since a signature of the right form comes to some root. -/

def segEntry (kind foff size meas : Nat) : List Byte :=
  leBytes 4 (kind + 65536 * 16) ++ leBytes 4 foff ++ leBytes 4 size ++ leBytes 4 size ++ leBytes 32 meas ++ leBytes 4 0 ++
    leBytes 4 2512 ++ List.replicate 8 0
def imgStream : List Byte := leBytes 4 0x4F
def imgLanes : List Byte := leBytes 12 0x18C00287
def imgSeg1 : List Byte := segEntry 1 0x140 4 0x60faa4c85fc816e03d80cf51788fb1ee4c13731d2e85ec9e1bdddd60ab0a8f75
def imgSeg2 : List Byte := segEntry 2 0x150 12 0xf32c5af29d1d96bdd27e9940c73cf94585ba38067b6fb28c64f5274726ee242e
def imgKt : List Byte :=
  leBytes 4 0 ++ leBytes 4 0xFFFFFFFF ++ leBytes 4 0 ++ leBytes 4 12 ++ [1, 1, 0, 0, 0, 0, 0, 0] ++ List.replicate 40 0
def imgHead : List Byte :=
  leBytes 4 0x3143584A ++ leBytes 4 1 ++ leBytes 4 0x11000 ++ leBytes 2 2 ++ leBytes 2 1 ++ leBytes 4 0x80 ++ leBytes 4 0x100 ++
    leBytes 4 0x10000 ++ leBytes 4 2512 ++ leBytes 4 0 ++ leBytes 4 2512 ++ List.replicate 24 0
def dmeas0 : List Byte := leBytes 32 0x6fe3224367f16882ceb3c6bcd8b7066573e6253b0b6cc3d8a47d494350404975
def sig0 : List Byte := List.replicate 11 0 ++ [3] ++ List.replicate 2179 0 ++ [6] ++ List.replicate 320 0
def signedMsgs : List (List Byte) := [dmeas0, imgSeg1.take 48, imgSeg2.take 48]
def sImg : State :=
  ([(0x310000, imgHead ++ dmeas0), (0x310080, imgSeg1 ++ imgSeg2), (0x310100, imgKt), (0x310140, imgStream), (0x310150, imgLanes),
    (0x10000 + 11, [3]), (0x10000 + 2191, [6]), (0x220010, leBytes 8 0x10027)].foldl (fun s e => poke s (.phys e.1) e.2)
      sMem).updTenant 0 fun t => { t with ocImg := 0x10000, ocDst := 0x30000, ocDsize := 0x20000 }

/-- What succeeds in the first load succeeds so in the second. -/
def Within {α : Type} (x y : Load α) : Prop := ∀ s a t, x.run s = (.ok a, t) → y.run s = (.ok a, t)

theorem Within.refl {α : Type} (x : Load α) : Within x x := fun _ _ _ h => h
theorem Within.bind {α β : Type} {x y : Load α} {f g : α → Load β} (h : Within x y) (hf : ∀ a, Within (f a) (g a)) :
    Within (x >>= f) (y >>= g) := by
  intro s b t e
  have run (z : Load α) (k : α → Load β) : (z >>= k).run s = match z.run s with
      | (.ok a, u) => (k a).run u
      | (.error n, u) => (.error n, u) := by
    show ((z >>= k).run).run s = match z.run.run s with
      | (.ok a, u) => (k a).run u
      | (.error n, u) => (.error n, u)
    rw [ExceptT.run_bind, StateT.run_bind]
    rcases z.run.run s with ⟨_ | _, _⟩ <;> rfl
  rw [run] at e ⊢
  rcases hx : x.run s with ⟨n | a, u⟩
  · rw [hx] at e
    cases e
  · rw [hx] at e
    rw [h s a u hx]
    exact hf a u b t e
theorem Within.need {p q : Bool} (h : p = true → q = true) (st : Nat) : Within (Load.need p st) (Load.need q st) := by
  intro s a t e
  cases p
  · cases e
  · rw [h rfl]
    exact e

/-- The check of which the witness assumes that the device accepts it. -/
def onlySig0 (msg sig : List Byte) : Bool := signedMsgs.contains msg && sig == sig0

theorem copySegment_within {f g : List Byte → List Byte → Bool} (h : ∀ m s, f m s = true → g m s = true) (t i d n : Nat)
    (sigs : List Byte) (e : SegEntry) : Within (copySegment f t i d sigs n e) (copySegment g t i d sigs n e) := by
  unfold copySegment
  repeat' refine Within.bind ?_ fun _ => ?_
  all_goals first
    | exact Within.refl _
    | exact Within.need (h _ _) _

theorem copySegments_within {f g : List Byte → List Byte → Bool} (h : ∀ m s, f m s = true → g m s = true) (t i d : Nat)
    (sigs : List Byte) (es : List SegEntry) : ∀ n, Within (copySegments f t i d sigs n es) (copySegments g t i d sigs n es) := by
  induction es with
  | nil => exact fun _ => Within.refl _
  | cons e rest ih =>
    exact fun n => Within.bind (copySegment_within h _ _ _ _ _ _) fun _ => Within.bind (ih _) fun _ => Within.refl _

theorem loadBy_within {f g : List Byte → List Byte → Bool} (h : ∀ m s, f m s = true → g m s = true) (t : Nat) :
    Within (loadBy f t) (loadBy g t) := by
  unfold loadBy
  repeat refine Within.bind (Within.refl _) fun _ => ?_
  refine Within.bind (Within.need (fun e => ?_) _) fun _ => Within.bind (Within.refl _) fun _ =>
    Within.bind (copySegments_within h _ _ _ _ _ _) fun _ => Within.refl _
  simp only [Bool.and_eq_true] at e ⊢
  exact ⟨e.1, h _ _ e.2⟩

theorem test_load : (match ((loadBy onlySig0 0).run sImg).1 with
    | .ok n => n == 1
    | .error _ => false) = true := by decide +kernel

theorem test_wit_ocLoad (h : ∀ m ∈ signedMsgs, signedBy Config.trustedKeys m sig0 = true) :
    ∃ t, (loadContainer 0).run sImg = (.ok 1, t) := by
  have hw := loadBy_within (f := onlySig0) (g := signedBy Config.trustedKeys) (fun m s e => by
    simp only [onlySig0, Bool.and_eq_true, List.contains_iff_mem, beq_iff_eq] at e
    exact e.2 ▸ h m e.1) 0
  have ht := test_load
  rcases hr : (loadBy onlySig0 0).run sImg with ⟨_ | n, t⟩
  · rw [hr] at ht
    cases ht
  · rw [hr] at ht
    obtain rfl : n = 1 := by simpa using ht
    exact ⟨t, hw _ _ _ hr⟩

/-- A launch record for container 0, its core table at 0x30000; one whose TYPE byte is wrong; one of a container that there is not. -/
def recBytes (type : Nat) (handle : Nat := 0) : List Byte :=
  leBytes 4 (type + 256) ++ leBytes 4 handle ++ leBytes 8 0 ++ leBytes 8 (2 ^ 24 + 2 ^ 16) ++ leBytes 4 1 ++ leBytes 4 1 ++ leBytes 8 0 ++
    leBytes 8 0x30000 ++ List.replicate 80 0
def sQueue (bytes : List Byte) (base : Word := 0x10000) : State := (poke sMem (.phys 0x310000) bytes).updTenant 0 fun t =>
  let q : LaunchQueue := { LaunchQueue.reset with en := true, base := base, tail := 1 }
  { t with queues := t.queues.set 0 q }
/-- Device 5 owns page `k`. -/
def owned (s : State) (k : Nat) : State := { s with owners := [(0x300000 + 0x10000 * k, 5)] }

/-- What the command processor finds in queue 0: its slot waits, cannot be read, or holds a record that meets a condition; and what
the checks of that record come to. -/
def slotWaits (s : State) : Bool := mustWait (s.readFor 0 ((s.queue 0 0).slot 0) 128)
def slotMeets (s : State) (p : List Byte → Bool) : Bool := meets (s.readFor 0 ((s.queue 0 0).slot 0) 128) p
def checks (s : State) (p : Except (Option Nat) Launch → Bool) : Bool := slotMeets s fun b => recordOk b 0 0 0 &&
  p (s.checkLaunch (launchOf b s.nextId 0 0 (s.queue 0 0).epoch 0) (BitVec.ofNat 64 (leNat ((b.drop 0x28).take 8))))
def queueReady (s : State) : Bool := s.tenantUp 0 && (s.queue 0 0).en && !(s.queue 0 0).err &&
  decide ((s.queue 0 0).head ≠ (s.queue 0 0).tail) && (s.unadmitted 0 0).isEmpty && !(s.tenant 0).cq.en

theorem test_wit_recordRead :
    queueReady (owned (sQueue (recBytes 0x4C)) 1) = true ∧ slotWaits (owned (sQueue (recBytes 0x4C)) 1) = true ∧
    queueReady (sQueue (recBytes 0x4C) 0x90000) = true ∧ ok ((sQueue (recBytes 0x4C) 0x90000).readFor 0 0x90000 128) = false ∧
    slotWaits (sQueue (recBytes 0x4C) 0x90000) = false ∧
    queueReady (sQueue (recBytes 0)) = true ∧ slotMeets (sQueue (recBytes 0)) (fun b => !recordOk b 0 0 0) = true ∧
    queueReady (sQueue (recBytes 0x4C 5)) = true ∧ checks (sQueue (recBytes 0x4C 5)) (fun r => match r with
      | .error (some st) => st == 2
      | _ => false) = true ∧
    queueReady (owned (sQueue (recBytes 0x4C)) 3) = true ∧ checks (owned (sQueue (recBytes 0x4C)) 3) (fun r => match r with
      | .error none => true
      | _ => false) = true ∧
    queueReady (sQueue (recBytes 0x4C)) = true ∧ checks (sQueue (recBytes 0x4C)) (fun r => match r with
      | .ok l => l.cores == [0]
      | _ => false) = true := by decide +kernel

def loadStatus (s : State) : Nat :=
  match ((loadContainer 0).run s).1 with
  | .ok _ => 0
  | .error st => st

theorem test_wit_QueuesAndContainersFollowTheirRegisters :
    (∀ s ∈ [linked sMem, linked (sQueue []), linked sImg], s.tenantUp 0 = true ∧ s.cxlOn = true ∧ (s.tenant 0).ocBusy = false) ∧
    (sMem.queue 0 7).en = false ∧ (0x80000000 : Word).getLsbD 31 = true ∧ (sMem.queue 0 7).devq = false ∧
    ((sQueue []).queue 0 0).en = true ∧ (0 : Word).getLsbD 31 = false ∧ (sQueue []).unadmitted 0 0 = [] ∧
    loadStatus sMem = 9 ∧ loadStatus (owned sImg 1) = loadWaits ∧
    (let s := (owned sImg 1).updTenant 0 fun t => { t with ocBusy := true, ocLoading := true }
     s.tenantUp 0 = true ∧ (s.tenant 0).ocLoading = true ∧ loadStatus s = loadWaits) ∧
    sMem.container? 0 0xFFFF = none ∧ (sMem.container? 0 0).isSome = true ∧ (sMem.containers.all fun d => !d.unloading) = true ∧
    (sMem.launches.any fun l => l.tenant == 0 && l.handle == 0 && decide (l.state = .admitted)) = true ∧
    (let s : State := linked { sMem with launches := [{ placedLaunch 1 with state := .refused 2 }] }
     s.tenantUp 0 = true ∧ s.cxlOn = true ∧ (s.container? 0 0).isSome = true ∧ (s.containers.all fun d => !d.unloading) = true ∧
     (s.launches.all fun l => decide (l.state = .refused 2)) = true) := by decide +kernel

/-- A launch read, without dependences, with one not met yet, and before its time; one admissible with an empty core; a block whose
only group has ended; a launch without blocks left, its completion queue at its last slot; a full ring's buffer with room again. -/
def lRead (dep stime : Word) : Launch := { placedLaunch 1 with state := .read, next := 0, dep0 := dep, stime := stime }
def lDone : Launch := { placedLaunch 1 with next := 1 }
def ringed (s : State) (buffer : List PendingRec) : State := s.updTenant 0 fun t =>
  let r : Ring := { Ring.reset with en := true, base := 0x10000, put := 63, buffer := buffer }
  { t with fq := r, cq := r }
def ringReady (s : State) (r : Ring) : Bool :=
  r.en && decide ((r.put - r.get).toNat ≠ 2 ^ r.logn) && decide (r.put.toNat % 2 ^ r.logn = 63) && decide (r.base = 0x10000) &&
  meets (s.translate 0 .store (BitVec.ofNat 64 (0x10000 + 64 * 63)) 64) fun l =>
    ok (s.reach l (BitVec.ofNat 64 (0x10000 + 64 * 63)) true) && !s.lineHeld none (.phys l.key) 64
def sNone : State := { sMem with groups := [], blocks := [] }
def sEnd : State :=
  (ringed { sNone with launches := [lDone] } []).updTenant 0 fun t => { t with queues := t.queues.set 0 { LaunchQueue.reset with head := 1 } }
/-- A deterministic launch whose one output, TID 0, is the byte 0x55 in page 1. -/
def lDigest : Launch := { lDone with det := true, tids := lDone.tids.set 0 (some (mkDesc 0 1 0x10000 #v[1, 1, 1, 1, 1] 0)) }
def sDigest : State :=
  { poke sEnd (.phys 0x310000) [0x55] with
    launches := [lDigest], containers := [{ placedContainer with kernels := [{ placedKernel with omask := 1 }] }] }
def digestPart (t : Nat) : List Byte := if t = 0 then [0, 0, 1] ++ [1, 1, 1, 1, 1].flatMap (leBytes 4) ++ [0x55] else []
def digestDesc : Desc := mkDesc 0 1 0x10000 #v[1, 1, 1, 1, 1] 0
theorem test_digest_units : (digestDesc.coords (max (fmtBlockLen digestDesc.fmt) 1)).flatMap digestDesc.digestUnits = [(some 0x10000, 1)] ∧
    meets (sDigest.readFor 0 0x10000 1) (fun b => b == [0x55]) = true := by decide +kernel
theorem test_wit_digest : DigestOf sDigest lDigest ((List.range 64).flatMap digestPart) := by
  refine ⟨digestPart, rfl, fun t _ => ?_⟩
  have mask : (sDigest.omaskFor lDigest).getLsbD t = decide (t = 0) := by
    rw [show sDigest.omaskFor lDigest = 1 from by decide +kernel]
    cases t <;> simp
  rw [mask]
  by_cases h : t = 0
  · subst h
    obtain ⟨b, hb, e⟩ := (meets_iff _ _).1 test_digest_units.2
    obtain rfl : b = [0x55] := by simpa using e
    refine ⟨digestDesc, [[0x55]], by decide +kernel, by decide +kernel, by rw [test_digest_units.1]; rfl, fun k u c hu hc => ?_⟩
    rw [test_digest_units.1] at hu
    cases k with
    | zero =>
      cases hu
      cases hc
      exact ⟨0x10000, rfl, hb⟩
    | succ k => cases hc
  · simp [h, digestPart]
/-- A launch of six groups, passed over for one of a single group on a core that holds one group. -/
def sPassed : State := { sG with
  launches := [placedLaunch 1, { l2 with pre := false }, { placedLaunch 3 with state := .admissible, next := 0 }] }
theorem test_wit_LaunchesRunTheirCourse :
    (∀ r ∈ [(0, 0), (0x8000000000000000, 0), (0, 1)],
      let q : Word × Word := (BitVec.ofNat 64 r.1, BitVec.ofNat 64 r.2)
      ({ sNone with launches := [lRead q.1 q.2] } : State).launch? 1 = some (lRead q.1 q.2) ∧ (lRead q.1 q.2).state = .read ∧
      (lRead q.1 q.2).dabt = false ∧ (lRead q.1 q.2).ovlp = false ∧ (lRead q.1 q.2).ord = false) ∧
    ¬ ((sNone.queue 0 0).ret - (0 : Word32) - 1).toNat < 2 ^ 31 ∧ (0 : Word).toNat ≤ sNone.aoc.toNat ∧ sNone.aoc.toNat < (1 : Word).toNat ∧
    (let l : Launch := { placedLaunch 1 with state := .admissible, next := 0 }
     let s : State := { sNone with launches := [l] }
     s.nextLaunch 0 = some l ∧ s.launch? 1 = some l ∧ s.plans l l.next = [⟨(0, 0, 0), [0], 0⟩] ∧ [0].length = l.g ∧
     (s.container? l.tenant l.handle).map (·.kernels[l.kidx]?) = some (some placedKernel) ∧
     (let n := (s.occupied 0).add (plansNeed l [⟨(0, 0, 0), [0], 0⟩] 0)
      n.groups ≤ 32 ∧ n.units ≤ 192 ∧ n.kib ≤ 512)) ∧
    (let s := upd sG fun g => { g with status := .ended }
     (∀ g ∈ s.groups, g.ref.blk = 1 → g.status = .ended) ∧ s.blockCommands 1 = false ∧ s.arrivals = []) ∧
    (sEnd.launch? 1 = some lDone ∧ canonical sEnd = true ∧ lDone.state = .admitted ∧ lDone.units ≤ lDone.next ∧ sEnd.blocks = [] ∧
      lDone.det = false ∧ (sEnd.tenant 0).cq.buffer = [] ∧ ringReady sEnd (sEnd.tenant 0).cq = true ∧
      (sEnd.queue 0 0).epoch = lDone.epoch ∧ ((sEnd.queue 0 0).head - lDone.seq - 1).toNat < 2 ^ 31 ∧
      (sEnd.queue 0 0).ret = lDone.seq ∧ (sEnd.queue 0 0).statuses = []) ∧
    (sDigest.launch? 1 = some lDigest ∧ canonical sDigest = true ∧ lDigest.state = .admitted ∧ lDigest.units ≤ lDigest.next ∧
      sDigest.blocks = [] ∧ lDigest.det = true ∧ sDigest.omaskFor lDigest ≠ 0 ∧ (sDigest.tenant 0).cq.buffer = [] ∧
      ringReady sDigest (sDigest.tenant 0).cq = true ∧ (sDigest.queue 0 0).epoch = lDigest.epoch ∧
      ((sDigest.queue 0 0).head - lDigest.seq - 1).toNat < 2 ^ 31) ∧
    (sPassed.nextLaunch 0 = some { placedLaunch 3 with state := .admissible, next := 0 } ∧
      sPassed.launch? 2 = some { l2 with pre := false } ∧ ({ l2 with pre := false } : Launch).pending = true ∧
      rankBefore (sPassed.rank { l2 with pre := false }) (sPassed.rank (placedLaunch 3)) = true ∧
      sPassed.plans { placedLaunch 3 with state := .admissible, next := 0 } 0 = [⟨(0, 0, 0), [0], 0⟩]) ∧
    (let s := ringed sMem [⟨List.replicate 63 0, none, none⟩]
     canonical s = true ∧ ringReady s (s.tenant 0).fq = true ∧ ringReady s (s.tenant 0).cq = true ∧
     (List.replicate 63 (0 : Byte)).length = 63) := by decide +kernel

/-! ## Witnesses: engines -/

/-- The kick of `sKick`, accepted; a plane load; a swap and a loop step of `sLoop`. -/
def sCopy : State := after (exec (.kick 2 3) (sKick (leBytes 16 copyBits) 0x500003F0))
def sPlane : State := upd sMat fun g =>
  { g with planes := some ⟨0, true, Plane.empty, Plane.empty, some 8, none⟩
           mcmds := [.load 0 false (mkDesc 8 2 0x10000 #v[64, 32, 1, 1, 1] 512) 0 0 [⟨1, .phys 0x310000, 2, 0x310000, none⟩]] }
def sSwap : State := after (exec .mswap (sLoop 0))
def sStep (bar : Nat) : State :=
  upd (after (exec (.mloop 2 3) (sLoop 0 bar))) fun g => { g with planes := g.planes.map fun p => { p with stat := ⟨8, true, []⟩ } }
def lc1 (n : BitVec 13) : Lc := ⟨.always, .always, n⟩

/-- `trace.t v8, v16, 1`, `trace.v v8, v16, k0, 1` and `tex.f32 v1, 3, v20`, issued; every ray and coordinate is zero. -/
def sUnit (i : Instr) : State :=
  after (exec i (upd sTrv fun g => { g with stage := g.stage.set 0 2, segs := g.segs.map fun q => { q with k := q.k.set 0 2 } }))
def unitMeets (s : State) : Bool :=
  match s.unitCtx r1 with
  | some x => decide (x.g.status = .resident) && x.g.park.isNone && x.g.detected.isEmpty &&
      (match x.g.units with
        | [u] => decide ((x.g.path s.who.slot).map (·.wait) = some (some (.unit u.id))) &&
            (match (unitJob x u).run s with
              | (.ok _, _) => true
              | _ => false)
        | _ => false)
  | none => false

/-- A loop step stands first, its record's pages can be reached, and the one element of C lies apart from the barrier, if the step
counts one down, and from X. -/
def stepMeets (s : State) (baren : Bool) : Bool :=
  match (grp s).mcmds, (grp s).planes.bind fun p => planeShape p.stat.fmt with
  | [.loop id _ [l] 0 0], some _ => decide (s.matrixNext ((grp s).planes.map (·.core)).get! = some id) && ok (s.heldReady (l.xheld ++ l.cheld)) && l.baren == baren && l.m == 1 &&
      l.ncol == 1 && match l.c.locate #v[l.ccol0, l.crow0, 0, 0, 0] with
        | .elem a _ _ _ _ => decide (l.cheld.range a 8 = [(.phys 0x320000, 8)])
        | _ => false
  | _, _ => false

theorem test_wit_EnginesPerformTheirCommands :
    here sCopy = true ∧ canonical sCopy = true ∧
    (match sCopy.kicks with
      | [k] => decide (k.grp = r1) && decide (sCopy.kick? k.id = some k) && sCopy.kickFirst k && !sCopy.behindPosted r1 k.id &&
          (match k.recs[k.next]? with
            | some r => meets (sCopy.recordReady { ctx sCopy with walk := none } k r) fun q => q.2.isEmpty && (match q.1 with
                | [x] => (match x.src, x.dst with
                    | [a], [b] => decide (a.n = 8) && decide (b.n = 8) && decide (b.place = .phys 0x320000)
                    | _, _ => false)
                | _ => false)
            | none => false)
      | _ => false) = true ∧
    here sPlane = true ∧ (ctx sPlane).g.status = .resident ∧ ((ctx sPlane).g.planes.map (·.core)) = some (ctx sPlane).g.core ∧
    (match (ctx sPlane).g.mcmds with
      | [.load id shadow d k0 n0 held] => !shadow && decide (d.fmt = 8) && decide (k0 = 0) && decide (n0 = 0) &&
          decide (sPlane.matrixNext (ctx sPlane).g.core = some id) && ok (sPlane.heldReady held)
      | _ => false) = true ∧ (planeShape 8).isSome = true ∧
    here sSwap = true ∧ (match (ctx sSwap).g.mcmds with
      | [.swap id] => decide (sSwap.matrixNext (ctx sSwap).g.core = some id) && decide ((ctx sSwap).g.status = .resident) && decide (((ctx sSwap).g.planes.map (·.core)) = some (ctx sSwap).g.core)
      | _ => false) = true ∧
    (here (sStep 0) = true ∧ canonical (sStep 0) = true ∧ stepMeets (sStep 0) false = true) ∧
    (here (sStep 992) = true ∧ canonical (sStep 992) = true ∧ stepMeets (sStep 992) true = true) ∧
    unitMeets (sUnit (.traceT (lc1 1) 8 16 .simm)) = true ∧ unitMeets (sUnit (.traceV (lc1 1) 8 16 (.k 0) .simm)) = true ∧
    unitMeets (sUnit (.tex (lc1 3) .f32 (.v 1) .simm 20)) = true := by decide +kernel

/-- The kick's destination line 0x320000 belongs to the engine until the record is moved: a commit, a response to a park, a kill and a
controller's write wait for it, and a free line has no such wait. -/
theorem test_wit_heldLines :
    (∀ q ∈ [(0x320008, true), (0x310008, false)],
      let s := upd sCopy fun g => { g with tx := some { tx0 with written := [q.1] } }
      here s = true ∧ canonical s = true ∧ (ctx s).g.tx = some { tx0 with written := [q.1] } ∧ s.versions = [] ∧
      s.lineHeld (some (ctx s).g.ref) (.phys q.1) 1 = q.2) ∧
    (let s := upd sCopy fun g => { g with park := some ⟨1, .brk, info0 .brk, some 0x320000, false⟩ }
     here s = true ∧ canonical s = true ∧ (ctx s).g.status = .resident ∧ s.lineHeld none (.phys (0x320000 + 0x38)) 4 = true) ∧
    (let s := upd sCopy fun g => { g with regs := [⟨0x20010, .phys 0x320010, 1, true, true⟩] }
     here s = true ∧ s.killHeld (ctx s).g = true) ∧
    (let s := { linked sCopy with mgmt := { (linked sCopy).mgmt with mcw := (linked sCopy).mgmt.mcw.set 1 (0x320000, 0x1000) } }
     s.controllerMay 1 0x320000 8 = true ∧ s.lineHeld none (.phys 0x320000) 8 = true) := by decide +kernel

/-- An accepted sweep of architected draws and an accepted read of the window; posted operations on an object: arrivals where no unit
is, two are awaited, one is, or none is pending; registrations; a store; an arrival at a poisoned object. -/
def sSweep : State := after (exec (.gbsweep 4) (setX (arrX 3 0) 4 0x8000000100003C00))
def sRead : State := after (exec (.gbread 2 3) (arrX 3 0))
def sPosted (op : PostOp) (sig pend : Nat) : State :=
  let s := posted (poke (regOf sPh (win 16) 16 1) (.sp 1 16) (leBytes 4 0 ++ leBytes 2 sig ++ leBytes 2 pend)) op (.sp 1 16)
  { s with arrivals := s.arrivals.map fun a => { a with posted := true } }
def postedMeets (s : State) : Bool :=
  canonical s && match s.arrivals with
    | [a] => decide (a.obj = .sp 1 16) && s.arrivalReady a && ok (s.arrivalWay a) && decide (s.arrival? a.id = some a) &&
        (s.block? 1).isSome
    | _ => false
theorem test_wit_ArrayWorkAndArrivalsComplete :
    (match sSweep.gbcmds with
      | [q] => decide (sSweep.gbcmd? q.id = some q) && decide (q.tenant = 0) && decide (q.window = 0) &&
          decide ((sSweep.tenant 0).window? 0 = some w0) && (match q.work with
            | .sweep beta n arch _ _ => arch && decide (n = 2) && !fnan fp16 beta.toNat && !finf fp16 beta.toNat
            | _ => false)
      | _ => false) = true ∧
    canonical sRead = true ∧
    (match sRead.gbcmds with
      | [q] => decide (sRead.gbcmd? q.id = some q) && decide ((sRead.tenant 0).window? 0 = some w0) && decide (q.grp = r1) &&
          decide ((grp sRead).swait = some .stateWrite) && !sRead.behindPosted r1 q.id && (match q.work with
            | .read d fc held => decide (fc = 0) && ok (sRead.heldReady held) &&
                decide ((held.range (d.addrOf #v[31, 0, 0, 0, 0]) 1) = [(.phys 0x33001F, 1)])
            | _ => false)
      | _ => false) = true ∧
    (∀ q ∈ [(0, 0), (2, 2), (2, 1), (2, 0)],
      postedMeets (sPosted (.arrive 1) q.1 q.2) = true ∧ (sPosted (.arrive 1) q.1 q.2).poisoned (.sp 1 16) 16 = none ∧
      ((sPosted (.arrive 1) q.1 q.2).phaserAt (.sp 1 16)).sig = q.1 ∧ ((sPosted (.arrive 1) q.1 q.2).phaserAt (.sp 1 16)).pend = q.2) ∧
    (∀ q ∈ ([(2, -2), (1, 3), (1, -1)] : List (Nat × Int)),
      postedMeets (sPosted (.register q.2) 2 q.1) = true ∧ (sPosted (.register q.2) 2 q.1).poisoned (.sp 1 16) 16 = none ∧
      regFits ((sPosted (.register q.2) 2 q.1).phaserAt (.sp 1 16)) q.2 = true) ∧
    (∀ op ∈ [PostOp.store [1, 2, 3, 4], .load 4 true 2, .load 8 false 0, .atomic .add 8 1 0 2, .test true 2, .count 2, .announce .dev 64],
      postedMeets (sPosted op 0 0) = true ∧ (sPosted op 0 0).poisoned (.sp 1 16) 16 = none ∧
      ((sPosted op 0 0).group? r1).map (·.status) = some .resident) ∧
    (let s := (sPosted (.arrive 1) 2 2).updBlock 1 fun b => { b with poison := [0] }
     let t : State := { s with arrivals := s.arrivals.map fun a => { a with posted := false } }
     postedMeets t = true ∧ (t.poisoned (.sp 1 16) 16).isSome = true ∧ (t.tenant 0).fq.en = false) := by decide +kernel

/-- A copy-on-write whose page has a retained entry of another step; a returning pool page that nothing reads; accepted collectives;
a halo exchange whose source lies with device 5, which is lost. -/
def sCow : State :=
  { sMem with
    cows := [⟨0x340000, 0x800000, 2⟩], versions := [⟨0x340000, 0, 1, true, [⟨0, some 0x810000, false⟩], false⟩]
    returning := [(0, 0x820000)] }
def sHalo : State := after (exec (.coll 2) (sColl 0 collHalo))
def sReduce : State :=
  let s := sColl 8 collReduce
  after (exec (.coll 2) { s with mgmt := { s.mgmt with linkEn := 1 } })
def sLost : State :=
  { sHalo with
    colls := sHalo.colls.map fun q => { q with sheld := q.sheld.map fun e => { e with place := .phys (2 ^ 53 + 5 * 2 ^ 52) } }
    lost := [5] }
def collOne (s : State) (p : Coll → Bool) : Bool :=
  canonical s && match s.colls with
    | [q] => decide (s.coll? q.id = some q) && (s.block? q.grp.blk).isSome && p q
    | _ => false
theorem test_wit_CopiesAndCollectivesComplete :
    canonical sCow = true ∧
    (match sCow.cows.find? fun x => x.page == 0x340000, sCow.versions.find? fun x => x.page == 0x340000 with
      | some w, some v => v.pub && decide (v.cur ≠ w.step) && (v.rset.all fun r => decide (r.step ≠ w.step)) && decide (v.rset.length ≠ 4)
      | _, _ => false) = true ∧
    (sCow.stepReads.all fun h => decide (h.place ≠ .phys 0x820000)) = true ∧
    (sCow.groups.all fun g => g.swait.isNone) = true ∧
    collOne sHalo (fun q => !q.reduce && sHalo.peersUp q && sameUnits q.src q.dst &&
      decide ((haloMoves q.src q.dst).map (fun m => (m.src, m.dst, m.n)) = [(some 0x10000, some 0x20000, 1)]) &&
      decide (q.dheld.range 0x20000 1 = [(.phys 0x320000, 1)]) && decide ((sHalo.heldBytes q.sheld 0x10000 1).length = 1)) = true ∧
    collOne sReduce (fun q => q.reduce && sReduce.peersUp q && decide (q.members = [0, 5]) && decide (q.dst.elements = [(0x20000, 8)]) &&
      decide (contribBytes q.src.fmt * q.src.count = 8) && decide (q.src.coords 1 = [#v[0, 0, 0, 0, 0]]) &&
      decide (fmtBlockLen q.dst.fmt = 0) && decide (fmtBytes q.dst.fmt = fmtBytes q.dfmt) &&
      decide (q.dheld.range 0x20000 8 = [(.phys 0x320000, 8)]) && ((sReduce.group? q.grp).map fun g => decide (g.status = .resident)).getD false) = true ∧
    (let s := sReduce.updTenant 0 fun t => { t with xtl := 0 }
     collOne s fun q => decide ((s.tenant q.tenant).xtl = 0)) = true ∧
    collOne ({ sReduce with aoc := 1000 }.updTenant 0 fun t => { t with xtl := 1 }) (fun q => q.reduce && decide (q.tenant = 0) &&
      decide (q.accepted + 1000 * 1 ≤ 1000)) = true ∧
    collOne sLost (fun q => !q.reduce && (q.peers.any fun d => sLost.lost.contains d)) = true := by decide +kernel

/-! ## Witnesses: links, management -/

def sBusy : State := { sMem with dir := [⟨5, Vector.replicate 6 .invalid, 15, none, []⟩] }
theorem test_wit_LinksServeTheirRequests :
    (sMem.dirLine 5).reserved = none ∧ (sMem.dirLine 5).refusals ≠ 15 ∧ (sBusy.dirLine 5).refusals = 15 ∧
    (let s := linked sMem
     let key := physKey ⟨.hbm, 0x310000⟩ / 65536 * 65536
     s.uaOn = true ∧ s.owner key ≠ (3 : BitVec 10).toNat ∧ s.linkUp (s.owner key) = true ∧ s.linkUp 3 = true ∧
     s.linkUp (s.holder key) = true ∧ s.owner key = s.mgmt.uaId) ∧
    (let s := upd (linked sMem) fun g => { g with tx := some { tx0 with lines := [0x310000 / 128] } }
     s.owner 0x310000 = s.mgmt.uaId ∧ here s = true ∧ ((ctx s).g.tx.map (·.lines)) = some [0x310000 / 128]) ∧
    canonical (linked sMem) = true ∧ (linked sMem).tenantUp 0 = true ∧ (linked sMem).versions = [] ∧ (linked sMem).cows = [] ∧
    (∀ m ∈ [8, 16, 64, 256], ((linked sMem).tenant 0).inWindow (0x1000000 - m) m = true ∧ 0x1000000 - m + m ≤ 2 ^ 39 ∧
      (linked sMem).poisoned (.phys (0x1000000 - m)) m = none ∧ (linked sMem).lineHeld none (.phys (0x1000000 - m)) m = false) ∧ Aop.add.okFor .f64 = true ∧
    (0x1000000 - 8) % (Ty.f64.width / 8) = 0 ∧ (0x1000000 - 16) % 16 = 0 ∧
    ((linked sMem).tenant 0).inWindow 0x1000000 64 = false ∧
    (linked sMem).cxlMemOn = true ∧ (linked sMem).regionOf 0xFFFFFF 1 = some (0, 0xFFFFFF) ∧ (linked sMem).ownsRange 0xFFFFFF 1 = true ∧
    (linked sMem).poisoned (.phys 0xFFFFFF) 1 = none ∧ (linked sMem).lineHeld none (.phys 0xFFFFFF) 1 = false ∧
    (linked sMem).lineHeld none (.phys (2 ^ 52 + 0)) 8 = false ∧ 0xFFFFFF % 65536 + 1 ≤ 65536 ∧
    (let w := (linked sMem).mgmt.mcw.toList.getD (1 : BitVec 2).toNat (0, 0)
     (w.1.toNat ≤ 0x400FF8 ∧ 0x400FF8 + 8 ≤ w.1.toNat + w.2.toNat) ∧ ¬ (0x400FF9 + 8 ≤ w.1.toNat + w.2.toNat)) ∧
    3 ∉ sMem.lost ∧ sMem.recovering = [] ∧ 3 ≠ sMem.mgmt.uaId ∧
    (let s : State := { sMem with recovering := [(3, 0)], aoc := 1000000 }
     s.recovering.find? (fun r => r.1 == (3 : BitVec 10).toNat) = some (3, 0) ∧ 0 + 1000000 ≤ s.aoc.toNat) ∧
    (let s : State := { wt sG (.phaser (.phys (2 ^ 53 + 3 * 2 ^ 52)) 0x10010 2 false) with recovering := [(3, 0)], aoc := 1000000 }
     here s = true ∧ s.blockAbandoned r1 = false ∧ (2 ^ 53 + 3 * 2 ^ 52) / 2 ^ 52 - 2 = (3 : BitVec 10).toNat) ∧
    physKey ⟨.hbm, 2 ^ 39 - 1⟩ < 2 ^ 39 ∧ (sMem.block? 1).isSome = true ∧ 2 ^ 19 - 1 < 2 ^ 19 := by decide +kernel

/-- A page that a load holds locked and pages that none holds; a group on a core and one off it. -/
theorem test_wit_locks :
    (let s := (linked sMem).updTenant 0 fun t => { t with ocLocked := [0x310000] }
     s.lockedRange 0x31FF00 256 = true ∧ s.lockedRange 0x320000 256 = false ∧ s.locked (0x31FFFF / 65536 * 65536) = true ∧
     peerFits (.write (List.replicate 64 0)) 0x310000 = true) ∧
    (linked sMem).lockedRange (0x1000000 - 256) 256 = false ∧ (linked sMem).locked (0xFFFFFF / 65536 * 65536) = false ∧
    (linked sMem).lockedRange (2 ^ 52 + 0) 8 = false ∧ (linked sMem).lockedRange 0x400FF8 8 = false ∧
    (linked sMem).lineHeld none (.phys 0x400FF8) 8 = false ∧ ((sMem.group? r1).map (·.status)) = some .resident ∧
    ((sOut.group? r1).map (·.status)) = some .preempted := by decide +kernel

/-- No command holds a page; one does; a pool in the window and one outside, and one that a retained entry uses; a lease in the
partition and one beyond the die, free and in use; ranges aligned and inside, misaligned, and outside. -/
def mbArgs (s : State) (a b : Word) : State := s.updTenant 0 fun t => { t with mbArg0 := a, mbArg1 := b }
def mbRange (s : State) : Nat :=
  let a := (s.tenant 0).mbArg0
  let b := (s.tenant 0).mbArg1
  if a.toNat % 65536 ≠ 0 ∨ b = 0 ∨ b.toNat % 65536 ≠ 0 then 1 else if (s.tenant 0).inWindow a.toNat b.toNat then 0 else 2
def mbReady (s : State) : Bool := (linked s).tenantUp 0 && (linked s).cxlOn && ((linked s).tenant 0).mbBusy.isNone
/-- `gbstat x1, x2` of window 3 stands at the PC of a group that waits. -/
def sBusyWindow : State := setX (wt (paged (atWord 32 0b0000100_000000_000010_000001_1000100)) .engines) 2 (3 * 2 ^ 20)
theorem test_wit_MailboxCommandsEnd : mbReady sMem = true ∧ sMem.holdsPages 0 = false ∧
    mbReady sHalo = true ∧ sHalo.holdsPages 0 = true ∧
    mbReady sCow = true ∧ (sCow.versions.any fun v => v.rset.any fun r => r.copy.any fun f => (sCow.tenant 0).pool.contains f) = true ∧ sMem.versions = [] ∧
    (sMem.tenant 0).inWindow 0xFF0000 (1 * 65536) = true ∧ (sMem.tenant 0).inWindow 0xFF0000 (2 * 65536) = false ∧
    (3 : Word).toNat % 4 = (3 : Fin 4).val ∧ sMem.gbcmds = [] ∧ (sMem.groups.all fun g => g.swait.isNone) = true ∧
    (mbReady sBusyWindow = true ∧ here sBusyWindow = true ∧ (grp sBusyWindow).swait = some .engines ∧
      meets (sBusyWindow.issueScalar (ctx sBusyWindow)) (fun i => decide (i = .gbstat 1 2)) = true ∧
      ((grp sBusyWindow).getX 2).toNat / 2 ^ 20 % 4 = 3) ∧
    sMem.leaseOk 0 3 (leaseWord 0x83FF0000) = true ∧ sMem.leaseOk 0 3 (leaseWord 0x83FF0001) = false ∧
    leaseCells (leaseWord 0x83FF0000) = some (0, 0, 262144) ∧
    mbRange (mbArgs sMem 0xFF0000 0x10000) = 0 ∧ mbRange (mbArgs sMem 0xFF0000 0x20000) = 2 ∧ mbRange (mbArgs sMem 0x8000 0x10000) = 1 := by
  decide +kernel

theorem test_wit_ManagementFollowsItsRegisters : (linked sMem).vfUp 0 = true ∧ ((linked sMem).tenant 0).ocBusy = false ∧
    sMem.cxlOn = false ∧ (((linked sMem).updTenant 0 fun t => { t with ocBusy := true }).tenant 0).ocBusy = true ∧ (sMem.queue 0 7).en = false ∧
    (sMem.tenant 0).mbBusy = none ∧ State.reset.mgmt.bootLock = false ∧
    0x118 ∉ [0x000, 0x008, 0x010, 0x020, 0x028, 0x030, 0x040, 0x048, 0x100, 0x108, 0x110] ∧
    (1 : Word).toNat % 4 = 1 ∧ (2 : Word).toNat % 4 = 2 ∧
    (let s : State := { sMem with aoc := 2000 }
     s.mgmt.lastSlew + 2000 ≤ s.aoc.toNat) ∧
    4 ∈ [1, 2, 4] ∧ (List.replicate 16 3).length = 16 ∧ (∀ p ∈ List.replicate 16 3, p < 4) ∧
    (State.reset.launches.all fun l => decide (l.state ≠ .admitted)) = true ∧ State.reset.mgmt.safe = false ∧
    (State.reset.tenant 15).created = false ∧
    (let l : Launch := { placedLaunch 1 with state := .read, next := 0 }
     let s : State := { sNone with launches := [l] }
     let s1 : State := { s with mgmt := { s.mgmt with division := 4 }
                                tenants := s.tenants.mapIdx fun i x => { x with partition := (List.replicate 16 3).getD i 0 } }
     (s.launches.all fun l => decide (l.state ≠ .admitted)) = true ∧ s.launch? 1 = some l ∧ l.state.waiting = true ∧
     s1.tableOk l = false ∧ s1.strayLeases = []) ∧
    (∀ gbcmds ∈ [[], sSweep.gbcmds],
     let s : State := { sNone with launches := [], gbcmds := gbcmds }.updTenant 0 fun t => { t with leases := t.leases.set 0 0x80000000 }
     let s1 : State := { s with mgmt := { s.mgmt with division := 4 }
                                tenants := s.tenants.mapIdx fun i x => { x with partition := (List.replicate 16 3).getD i 0 } }
     s1.strayLeases = [(0, 0)] ∧ s.windowBusy 0 0 = !gbcmds.isEmpty) := by decide +kernel

end Sys2Proof.Tests
end

section
/-! PROOFS. Lane control: what a completed lane instruction leaves of its group, and `bra` (R120). -/

namespace Sys2Proof.Machine

open Sys2Proof Sys2Proof.Safety

/-! ## A lane instruction completes (R75) -/

@[simp] theorem Group.completeLane_ref (g : Group) (slot : Bool) (pc : Word32) : (g.completeLane slot pc).ref = g.ref := by
  simp [Group.completeLane]

@[simp] theorem Group.completeLane_lanes (g : Group) (slot : Bool) (pc : Word32) : (g.completeLane slot pc).lanes = g.lanes := by
  simp [Group.completeLane]

@[simp] theorem Group.completeLane_frame (g : Group) (slot : Bool) (pc : Word32) : (g.completeLane slot pc).frame = g.frame := by
  simp [Group.completeLane]

/-- The issuing path stands at `pc`, waits for nothing, and keeps its mask. -/
theorem Group.completeLane_path_self {g : Group} {slot : Bool} {p : Path} (hp : g.path slot = some p) (pc : Word32) :
    (g.completeLane slot pc).path slot = some { p with pc := pc, wait := none, walk := none } := by
  cases slot <;> simp_all [Group.completeLane, Group.setPath, Group.path]

@[simp] theorem Group.completeLane_path_other (g : Group) (slot : Bool) (pc : Word32) :
    (g.completeLane slot pc).path (!slot) = g.path (!slot) := by
  cases slot <;> rfl

/-- Completion touches the two paths and the blocked time alone. -/
theorem Group.completeLane_eq (g : Group) (slot : Bool) (pc : Word32) : g.completeLane slot pc =
    { g with path0 := (g.completeLane slot pc).path0, path1 := (g.completeLane slot pc).path1, blocked := 0 } := by
  cases slot <;> rfl

/-! ## The turn of a path -/

/-- A lane instruction's body runs in the context of the path that has the turn. -/
theorem State.laneCtx_of_atPath {s : State} {g : Group} {p : Path} {x : Ctx} (h : AtPath s g p x)
    (b : Ctx → Path → Res State) : s.laneCtx b = s.settle g (some s.who.slot) (b x p) := by
  obtain ⟨c, hc, rfl⟩ := Option.map_eq_some_iff.mp h.ctx
  exact State.laneCtx_eq h.group h.path hc b

/-- One group's update changes nothing but that group. -/
theorem State.onlyGroup_updGroup (s : State) (r : GroupRef) (f : Group → Group) (hf : ∀ g, (f g).ref = g.ref) :
    OnlyGroup s (s.updGroup r f) r where
  rest := rfl
  others q hq := by simp [s.group?_updGroup r q f hf, hq]
  bytes p := s.readBytes_updGroup r f p 1

/-- An instruction that ends in the issuing group's update completes, with nothing else of the device changed. -/
theorem State.completes_of_updGroup {s : State} {g : Group} {i : Instr} {f : Group → Group}
    (hg : s.group? s.who.grp = some g) (hf : ∀ g, (f g).ref = g.ref)
    (hi : exec i s = .next (s.updGroup s.who.grp f)) : Completes s i (f g) :=
  ⟨_, hi, s.group?_updGroup_self _ f hf hg, s.onlyGroup_updGroup _ f hf⟩

/-! ## `bra` -/

theorem Kernel.inRange_iff (k : Kernel) (a : Int) :
    k.inRange a = true ↔ k.lbase.toNat ≤ a ∧ a < (k.lbase.toNat + k.lsize.toNat : Nat) := by
  simp [Kernel.inRange]

/-- With its target inside the lane range, `bra` completes the issuing path there. -/
theorem exec_bra_of_inRange {s : State} {g : Group} {p : Path} {x : Ctx} (h : AtPath s g p x) {tgt : BitVec 20}
    (ht : x.k.inRange (laneTarget p.pc tgt.toInt) = true) :
    exec (.bra tgt) s = .next (s.updGroup s.who.grp fun g =>
      g.completeLane s.who.slot (BitVec.ofInt 32 (laneTarget p.pc tgt.toInt))) := by
  have hcheck : x.braCheck p tgt = .ok () := by simp [Ctx.braCheck, ensure, ht]
  calc exec (.bra tgt) s = execBra tgt s := rfl
    _ = s.settle g (some s.who.slot) (do
          x.braCheck p tgt
          s.done fun g => g.completeLane s.who.slot (BitVec.ofInt 32 (laneTarget p.pc tgt.toInt))) :=
        State.laneCtx_of_atPath h _
    _ = _ := by rw [hcheck]; rfl

/-- Settles O44: `bra` is one completion of the issuing path, at its target. -/
theorem braSetsThePathsPc : Obligations.BraSetsThePathsPc := by
  intro s g p x h tgt a ha
  have hexec := exec_bra_of_inRange h ((Kernel.inRange_iff x.k a).mpr ha)
  exact ⟨g.completeLane s.who.slot (BitVec.ofInt 32 a),
    State.completes_of_updGroup h.group (fun g => g.completeLane_ref _ _) hexec,
    Group.completeLane_path_self h.path _, g.completeLane_path_other _ _, g.completeLane_frame _ _,
    g.completeLane_lanes _ _, g.completeLane_eq _ _⟩

end Sys2Proof.Machine
end

section
/-! PROOFS. What a register-only lane instruction leaves of its group (R75, R117, R157), registers read back by sub-element (R27),
and the moves `shfl` and `bcast` (R184, R186). -/

namespace Sys2Proof.Machine

open Sys2Proof Sys2Proof.Safety

/-! ## One lane's registers -/

@[simp] theorem Lane.getD_setD_self (l : Lane) (d : Dst) (x : Word) : (l.setD d x).getD d = x := by
  cases d <;> simp [Lane.getD, Lane.setD]

theorem Lane.getD_setD_of_ne (l : Lane) {d e : Dst} (h : e ≠ d) (x : Word) : (l.setD d x).getD e = l.getD e := by
  cases d with
  | v n =>
    cases e with
    | v m =>
      have hnm : n.toNat ≠ m.toNat := fun he => h (congrArg Dst.v (BitVec.eq_of_toNat_eq he.symm))
      simp [Lane.getD, Lane.setD, hnm]
    | o m => rfl
  | o n =>
    cases e with
    | v m => rfl
    | o m =>
      have hnm : n.toNat ≠ m.toNat := fun he => h (congrArg Dst.o (BitVec.eq_of_toNat_eq he.symm))
      simp [Lane.getD, Lane.setD, hnm]

@[simp] theorem Lane.setD_l0 (l : Lane) (d : Dst) (x : Word) : (l.setD d x).l0 = l.l0 := by cases d <;> rfl
@[simp] theorem Lane.setD_l1 (l : Lane) (d : Dst) (x : Word) : (l.setD d x).l1 = l.l1 := by cases d <;> rfl
@[simp] theorem Lane.setD_p (l : Lane) (d : Dst) (x : Word) : (l.setD d x).p = l.p := by cases d <;> rfl
@[simp] theorem Lane.setD_lst (l : Lane) (d : Dst) (x : Word) : (l.setD d x).lst = l.lst := by cases d <;> rfl

@[simp] theorem Lane.getD_raise (l : Lane) (f : BitVec 16) (d : Dst) : (l.raise f).getD d = l.getD d := by cases d <;> rfl
@[simp] theorem Lane.getD_history (l : Lane) (e d : Dst) : (l.history e).getD d = l.getD d := by cases d <;> rfl

@[simp] theorem Lane.raise_l0 (l : Lane) (f : BitVec 16) : (l.raise f).l0 = l.l0 := rfl
@[simp] theorem Lane.raise_l1 (l : Lane) (f : BitVec 16) : (l.raise f).l1 = l.l1 := rfl
@[simp] theorem Lane.history_l0 (l : Lane) (d : Dst) : (l.history d).l0 = l.getD d := rfl
@[simp] theorem Lane.history_l1 (l : Lane) (d : Dst) : (l.history d).l1 = l.l0 := rfl

/-- Write, raise, then move the history on when the lane belongs to the path: one lane of a kind-D result. -/
theorem Lane.laneWrites_writeD (exec inPath : Bool) (d : Dst) (v : Word) (flags : BitVec 16) (l : Lane) :
    LaneWrites exec inPath d v flags l
      (let l' := if exec then (l.setD d v).raise flags else l
       if inPath then l'.history d else l') where
  dst := by cases exec <;> cases inPath <;> simp
  others e he := by cases exec <;> cases inPath <;> simp [Lane.getD_setD_of_ne l he]
  hist := by cases exec <;> cases inPath <;> simp
  preds := by cases exec <;> cases inPath <;> simp [Lane.history, Lane.raise]
  status := by cases exec <;> cases inPath <;> simp [Lane.history, Lane.raise]

/-! ## A register-only instruction completes -/

@[simp] theorem Group.mapLanes_ref (g : Group) (f : Fin 32 → Lane → Lane) : (g.mapLanes f).ref = g.ref := by
  simp [Group.mapLanes]

@[simp] theorem Group.mapLanes_path (g : Group) (f : Fin 32 → Lane → Lane) (slot : Bool) :
    (g.mapLanes f).path slot = g.path slot := by
  simp [Group.mapLanes, Group.path]

theorem Group.mapLanes_lane (g : Group) (f : Fin 32 → Lane → Lane) (j : Fin 32) :
    (g.mapLanes f).lanes[j] = f j g.lanes[j] := by
  simp [Group.mapLanes]

theorem Group.advanceLane_eq {g : Group} {slot : Bool} {p : Path} (hp : g.path slot = some p) :
    g.advanceLane slot = g.completeLane slot (p.pc + 12) := by
  simp [Group.advanceLane, hp]

@[simp] theorem Group.advanceLane_ref (g : Group) (slot : Bool) : (g.advanceLane slot).ref = g.ref := by
  cases hp : g.path slot with
  | none => simp [Group.advanceLane, hp]
  | some p => simp [Group.advanceLane_eq hp]

theorem Group.advanceLane_lanes (g : Group) (slot : Bool) : (g.advanceLane slot).lanes = g.lanes := by
  cases hp : g.path slot with
  | none => simp [Group.advanceLane, hp]
  | some p => simp [Group.advanceLane_eq hp]

/-- A path that has changed lanes only, and used no draw slot, goes on at the next instruction. -/
theorem Group.laneStep_mapLanes {g : Group} {slot : Bool} {p : Path} (hp : g.path slot = some p)
    (f : Fin 32 → Lane → Lane) : LaneStep g ((g.mapLanes f).advanceLane slot) slot p 0 := by
  have hp' : (g.mapLanes f).path slot = some p := by rw [Group.mapLanes_path, hp]
  rw [Group.advanceLane_eq hp']
  refine ⟨Group.completeLane_path_self hp' _, (Group.completeLane_path_other _ _ _).trans (g.mapLanes_path f _), ?_⟩
  simpa [Group.mapLanes, Group.advanceB] using (g.mapLanes f).completeLane_eq slot (p.pc + 12)

/-- An instruction whose effect is one kind-D result writes it in every executing lane. -/
theorem State.writesLanes_of_writeD {s : State} {g : Group} {p : Path} (hg : s.group? s.who.grp = some g)
    (hp : g.path s.who.slot = some p) {i : Instr} {c : Lc} {d : Dst} {f : Group → Path → Fin 32 → LRes}
    (hi : exec i s = s.lanePure fun g p => g.writeD p.mask c d (f g p)) :
    WritesLanes s g p i c d 0 (fun j => (f g p j).val) fun j => (f g p j).flags := by
  have href (h : Group) : ((h.writeD p.mask c d (f h p)).advanceLane s.who.slot).ref = h.ref := by simp [Group.writeD]
  refine ⟨(g.writeD p.mask c d (f g p)).advanceLane s.who.slot,
    State.completes_of_updGroup hg href (hi.trans (State.lanePure_eq hg hp _)), Group.laneStep_mapLanes hp _, fun j => ?_⟩
  rw [Group.advanceLane_lanes, Group.writeD, Group.mapLanes_lane]
  exact Lane.laneWrites_writeD _ _ _ _ _ _

/-- A result that raises no flag, known by its sub-elements. -/
theorem writesSubs_of_writesLanes {s : State} {g : Group} {p : Path} {i : Instr} {c : Lc} {d : Dst} {slots w : Nat}
    {v : Fin 32 → Word} {f : Fin 32 → Nat → Nat} (h : WritesLanes s g p i c d slots v fun _ => flNone)
    (hv : ∀ i j, j < 64 / w → subOf (v i) w j = f i j) : WritesSubs s g p i c d w slots fun i j => (f i j, 0) :=
  ⟨v, _, h, hv, fun _ _ => by simp [flNone]⟩

/-! ## Sub-elements (R27) -/

theorem packNat_lt (w : Nat) (xs : List Nat) : packNat w xs < 2 ^ (w * xs.length) := by
  induction xs with
  | nil => simp [packNat]
  | cons x xs ih =>
    have hx : x % 2 ^ w < 2 ^ w := Nat.mod_lt _ (Nat.two_pow_pos _)
    calc packNat w (x :: xs) = x % 2 ^ w + 2 ^ w * packNat w xs := rfl
      _ < 2 ^ w * (packNat w xs + 1) := by rw [Nat.mul_add]; omega
      _ ≤ 2 ^ w * 2 ^ (w * xs.length) := Nat.mul_le_mul_left _ ih
      _ = 2 ^ (w * (x :: xs).length) := by rw [← Nat.pow_add, List.length_cons, Nat.mul_succ, Nat.add_comm]

theorem packNat_digit (w : Nat) (xs : List Nat) (j : Nat) (hj : j < xs.length) :
    packNat w xs / 2 ^ (w * j) % 2 ^ w = xs[j] % 2 ^ w := by
  induction xs generalizing j with
  | nil => simp at hj
  | cons x xs ih =>
    cases j with
    | zero => simp [packNat]
    | succ j =>
      have hrest : packNat w (x :: xs) / 2 ^ w = packNat w xs := by
        rw [packNat, Nat.add_mul_div_left _ _ (Nat.two_pow_pos _), Nat.div_eq_of_lt (Nat.mod_lt _ (Nat.two_pow_pos _)), Nat.zero_add]
      rw [Nat.mul_succ, Nat.add_comm, Nat.pow_add, ← Nat.div_div_eq_div_mul, hrest]
      simpa using ih j (by simpa using hj)

/-- A sub-element of a packed register that is at most 64 bits wide. -/
theorem subOf_packSubs {w : Nat} {xs : List Nat} (hw : w * xs.length ≤ 64) {j : Nat} (hj : j < xs.length) :
    subOf (packSubs w xs) w j = xs[j] % 2 ^ w := by
  have hlt : packNat w xs < 2 ^ 64 := Nat.lt_of_lt_of_le (packNat_lt w xs) (Nat.pow_le_pow_right (by decide) hw)
  rw [subOf, packSubs, BitVec.toNat_ofNat, Nat.mod_eq_of_lt hlt, packNat_digit w xs j hj]

/-! ## Elements by flat index (R182) -/

theorem subOf_elemsOf (t : Ty) (i : Fin 32) (f : Nat → Nat) {j : Nat} (hj : j < 64 / t.width) :
    subOf (elemsOf t i f) t.width j = f (i.val * (64 / t.width) + j) % 2 ^ t.width := by
  have hw : t.width * (64 / t.width) ≤ 64 := Nat.mul_div_le 64 t.width
  rw [elemsOf, subOf_packSubs (by simpa [lanesOf] using hw) (by simpa [lanesOf] using hj)]
  simp [lanesOf]

theorem Group.elem_lt (g : Group) (t : Ty) (imm : BitVec 13) (a : Src) (f : Nat) : g.elem t imm a f < 2 ^ t.width :=
  Nat.mod_lt _ (Nat.two_pow_pos _)

/-! ## The lowest-numbered executing lane -/

theorem Group.lowest_eq_find? (g : Group) (mask : BitVec 32) (c : Lc) :
    g.lowest mask c = (List.finRange 32).find? fun i => g.executes mask c i := by
  rw [Group.lowest, Group.executing, List.head?_filter, lane32]

theorem Group.lowest_eq_some {g : Group} {mask : BitVec 32} {c : Lc} {e : Fin 32} (he : g.executes mask c e = true)
    (hlow : ∀ k < e, g.executes mask c k = false) : g.lowest mask c = some e := by
  rw [Group.lowest_eq_find?, List.find?_eq_some_iff_getElem]
  refine ⟨he, e.val, by simp only [List.length_finRange, e.isLt], by simp only [List.getElem_finRange, Fin.cast_mk, Fin.eta],
    fun j hj => ?_⟩
  simp only [List.getElem_finRange, Fin.cast_mk, hlow ⟨j, Nat.lt_trans hj e.isLt⟩ hj, Bool.not_false]

theorem Group.lowest_eq_none {g : Group} {mask : BitVec 32} {c : Lc} (hno : ∀ k, g.executes mask c k = false) :
    g.lowest mask c = none := by
  rw [Group.lowest_eq_find?, List.find?_eq_none]
  intro k _
  simp only [hno k, Bool.false_eq_true, not_false_eq_true]

/-! ## `shfl` and `bcast` -/

theorem exec_shfl (c : Lc) (t : Ty) (d : Dst) (a ix : Src) (s : State) :
    exec (.shfl c t d a ix) s = s.lanePure fun g p => g.writeD p.mask c d fun i =>
      ⟨elemsOf t i fun f => g.elem t c.imm a (g.elem t.unsigned c.imm ix f % elemCount t), flNone⟩ := rfl

/-- R184: every destination element is the source element that its index names. -/
theorem writesSubs_shfl {s : State} {g : Group} {p : Path} (hg : s.group? s.who.grp = some g)
    (hp : g.path s.who.slot = some p) (c : Lc) (t : Ty) (d : Dst) (a ix : Src) :
    WritesSubs s g p (.shfl c t d a ix) c d t.width 0 fun i j =>
      (g.elem t c.imm a (g.elem t.unsigned c.imm ix (i.val * (64 / t.width) + j) % elemCount t), 0) := by
  have h := State.writesLanes_of_writeD hg hp (exec_shfl c t d a ix s)
  refine writesSubs_of_writesLanes h fun i j hj => ?_
  rw [subOf_elemsOf t i _ hj, Nat.mod_eq_of_lt (g.elem_lt _ _ _ _)]

/-- What `bcast` writes in every executing lane, by the lowest-numbered of them. -/
def bcastRes (c : Lc) (t : Ty) (a ix : Src) (g : Group) (p : Path) : LRes :=
  match g.lowest p.mask c with
  | some e => ⟨g.src t c.imm (Fin.ofNat 32 (subOf (g.src t.unsigned c.imm e ix) t.width 0)) a, flNone⟩
  | none => ⟨0, flNone⟩

theorem exec_bcast (c : Lc) (t : Ty) (d : Dst) (a ix : Src) (s : State) :
    exec (.bcast c t d a ix) s = s.lanePure fun g p => g.writeD p.mask c d fun _ => bcastRes c t a ix g p := rfl

/-- R186: the lane that the lowest-numbered executing lane names is copied to every executing lane. -/
theorem writesSubs_bcast {s : State} {g : Group} {p : Path} (hg : s.group? s.who.grp = some g)
    (hp : g.path s.who.slot = some p) (c : Lc) (t : Ty) (d : Dst) (a ix : Src) {e : Fin 32}
    (he : g.lowest p.mask c = some e) :
    WritesSubs s g p (.bcast c t d a ix) c d t.width 0 fun _ j =>
      (subOf (g.src t c.imm (Fin.ofNat 32 (subOf (g.src t.unsigned c.imm e ix) t.width 0 % 32)) a) t.width j, 0) := by
  have h := State.writesLanes_of_writeD hg hp (exec_bcast c t d a ix s)
  simp only [bcastRes, he] at h
  have hmod (n : Nat) : Fin.ofNat 32 (n % 32) = Fin.ofNat 32 n := by simp [Fin.ofNat]
  exact writesSubs_of_writesLanes h fun _ _ _ => by rw [hmod]

/-- R84, R117: with no executing lane `bcast` writes nothing and moves the histories on. -/
theorem writesLanes_bcast_of_lowest_eq_none {s : State} {g : Group} {p : Path} (hg : s.group? s.who.grp = some g)
    (hp : g.path s.who.slot = some p) (c : Lc) (t : Ty) (d : Dst) (a ix : Src) (hno : g.lowest p.mask c = none) :
    WritesLanes s g p (.bcast c t d a ix) c d 0 (fun _ => 0) fun _ => 0 := by
  have h := State.writesLanes_of_writeD hg hp (exec_bcast c t d a ix s)
  simp only [bcastRes, hno] at h
  exact h

/-- Settles O37: each instruction is one kind-D result, and the lanes that execute determine the lowest of them. -/
theorem shuffleAndBroadcastMoveElements : Obligations.ShuffleAndBroadcastMoveElements := by
  refine ⟨fun s g p hg hp c t d a ix _ => ?shfl, fun s g p hg hp c t d a ix e _ he hlow => ?bcast,
    fun s g p hg hp c t d a ix hno => ?idle⟩
  case shfl => exact writesSubs_shfl hg hp c t d a ix
  case bcast => exact writesSubs_bcast hg hp c t d a ix (Group.lowest_eq_some he hlow)
  case idle => exact writesLanes_bcast_of_lowest_eq_none hg hp c t d a ix (Group.lowest_eq_none hno)

end Sys2Proof.Machine
end
